-- ==== Sys2Proof/Word.lean ====
section
/-! DEFINITION. The word types of the SV460: what the manual treats as bits. -/

namespace Sys2Proof

/-- One byte of a record, a payload, DRAM or grid memory. -/
abbrev Byte := BitVec 8

/-- A 32-bit number: a timebase count, a sequence, the configuration generation, a notice value. -/
abbrev Word32 := BitVec 32

/-- A 16-bit counter (00, Counters). -/
abbrev Count := BitVec 16

end Sys2Proof
end

