-- ==== Sys2Proof/Syntax.lean ====
section
/-! DEFINITION. The commands of the SV460: one constructor of `Instr` per row of spec/opcode_table.json, with the
row's operands, and the operand types. Where a command's rule refuses a value outside a named set, the operand
type carries `Option`: `none` is a value that names none of the set (log entry 11). -/

namespace Sys2Proof

/-- The two control ports (11). -/
inductive Port where
  | d | a
deriving DecidableEq, Repr

/-- The header of a command record as it arrived (11 section 11.6, R177). `got` counts the bytes of the record that
arrived after the direction byte; `fits` says whether the payload holds the fields the command needs, for the
commands whose payload layout the manual does not give (log entry 11). -/
structure Hdr where
  port : Port
  gen  : Word32
  arg  : Word32
  len  : Byte
  got  : Nat
  fits : Bool
deriving DecidableEq, Repr

/-- Trigger mode of a camera (R1). -/
inductive TrigMode where
  | freeRun | triggered
deriving DecidableEq, Repr

/-- The setup record that CAM_SETUP carries (R2). `door = some b` names door bit `b`. -/
structure SetupArg where
  width : Nat
  height : Nat
  settle : Nat
  seek : Nat
  timeout : Nat
  door : Option Nat
  trig : Option TrigMode
  phase : Nat
deriving DecidableEq, Repr

/-- Join targets (R21). -/
inductive Target where
  | camera (n : Fin 4) | output | overlay
deriving DecidableEq, Repr

/-- The rings a port can hold a frame in (R35). -/
inductive Ring where
  | camera (n : Fin 4) | output
deriving DecidableEq, Repr

/-- The two forms of AREA_DEFINE (R22). -/
inductive AreaForm where
  | range (base limit : Nat) | release
deriving DecidableEq, Repr

/-- The two forms of GRID_STATUS (R73). -/
inductive GridSel where
  | set (id : Nat) | store
deriving DecidableEq, Repr

/-- The two forms of VIEW_STATUS (R83). -/
inductive ViewSel where
  | view (id : Nat) | defaultView
deriving DecidableEq, Repr

/-- Pane kinds (R75). -/
inductive PaneTag where
  | top | side
deriving DecidableEq, Repr

/-- A pane record as VIEW_DEFINE carries it (R75, R77). -/
structure PaneArg where
  tag : Option PaneTag
  x : Int
  y : Int
  w : Int
  h : Int
  silhouette : Bool
  guides : Bool
  markers : Bool
  x0 : Int
  y0 : Int
  sigma : Int
  sx : Int
  sy : Int
deriving DecidableEq, Repr

/-- Balance modes (R108). -/
inductive BalMode where
  | manual | auto
deriving DecidableEq, Repr

/-- The setting record that BALANCE_SET carries (R109). -/
structure BalanceArg where
  mode : Option BalMode
  m0 : Nat
  m1 : Nat
  m2 : Nat
  m3 : Nat
  k : Nat
  smax : Nat
  nmin : Nat
deriving DecidableEq, Repr

/-- A palette entry (R120); OVERLAY_SET clamps its alpha. -/
structure PalEntry where
  y : Byte
  u : Byte
  v : Byte
  alpha : Nat
deriving DecidableEq, Repr

/-- Guide conditions (R126). -/
inductive GuideCond where
  | auto | forcedOn | off
deriving DecidableEq, Repr

/-- What OVERLAY_SET carries (R122): `marks` is the list of as many mark distances as the mark count says. -/
structure OverlayArg where
  palette : Vector PalEntry 16
  silW : Nat
  silH : Nat
  halfTrack : Nat
  start : Nat
  stop : Nat
  thick : Nat
  near : Nat
  mid : Nat
  marks : List Nat
  cond : Option GuideCond
deriving DecidableEq, Repr

/-- CAN modes (R155). -/
inductive CanMode where
  | off | normal | listen | loopback
deriving DecidableEq, Repr

/-- CAN bit rates in kbit/s (R153). -/
inductive CanRate where
  | k125 | k250 | k500 | k1000
deriving DecidableEq, Repr

/-- What CAN_SETUP carries (R154). `ext` is the format of the status identifier, EXT or else STD; no third value can be sent
(DESIGN CHOICE, log entry 11). -/
structure CanArg where
  mode : Option CanMode
  rate : Option CanRate
  autoRecover : Bool
  ext : Bool
  ident : Nat
  interval : Nat
  singleShot : Bool
deriving DecidableEq, Repr

/-- The four vehicle signals (R160). -/
inductive Signal where
  | gear | speed | steer | doors
deriving DecidableEq, Repr

/-- A slot setup as SLOT_SETUP carries it (R156). `ext` is the format, EXT or else STD; no third value can be sent (DESIGN
CHOICE, log entry 11). -/
structure SlotArg where
  ext : Bool
  ident : Nat
  mask : Nat
  start : Nat
  length : Nat
  signed : Bool
  mult : Int
  offset : Int
  target : Option Signal
  reverse : Int
deriving DecidableEq, Repr

/-- One pixel pair of a camera line (R41): Y of the even column, U, Y of the odd column, V. A line is a list
of pairs (DEDUCED, log entry 32). -/
structure Pair where
  y0 : Byte
  u : Byte
  y1 : Byte
  v : Byte
deriving DecidableEq, Repr

/-- A frame on the CAN bus (R158): `ext` is its format. -/
structure CanFrame where
  ext : Bool
  ident : BitVec 29
  remote : Bool
  data : List Byte
deriving DecidableEq, Repr

/-- Kinds of bus error (R166; log entry 29). -/
inductive BusError where
  | bit0 | bit1 | stuff | form | crc | ack
deriving DecidableEq, Repr

/-- The commands and events: one constructor per row of spec/opcode_table.json, in the table's order. -/
inductive Instr where
  | powerOnReset
  | resetPin
  | responseRead (p : Port)
  | ignoredTransaction (p : Port) (bytes : List Byte)
  | unknownCommand (h : Hdr) (code : Byte)
  | status (h : Hdr) (clear : Bool)
  | portSetup (h : Hdr) (mask : Word32) (irqEnable : Bool) (holdTime claimHold : Nat)
  | eventRead (h : Hdr)
  | pipelineReset (h : Hdr)
  | camSetup (h : Hdr) (cam : Nat) (r : SetupArg)
  | camPowerOn (h : Hdr) (cam : Nat)
  | camPowerOff (h : Hdr) (cam : Nat)
  | camStatus (h : Hdr) (cam : Nat) (clear : Bool)
  | camTriggerNow (h : Hdr) (cam : Nat)
  | camMask (h : Hdr) (mask : Nat)
  | areaDefine (h : Hdr) (area : Nat) (form : AreaForm)
  | areaClear (h : Hdr) (area : Nat)
  | areaJoin (h : Hdr) (area : Nat) (target : Option Target)
  | areaUnjoin (h : Hdr) (area : Nat)
  | areaStatus (h : Hdr) (area : Nat) (clear : Bool)
  | areaWrite (h : Hdr) (payload : List Byte)
  | frameHold (h : Hdr) (ring : Option Ring)
  | frameRelease (h : Hdr) (ring : Option Ring)
  | frameRead (h : Hdr) (ring : Option Ring) (length : Nat)
  | timingSet (h : Hdr) (period stale skew : Nat)
  | timeStatus (h : Hdr)
  | gridOpen (h : Hdr) (id bw bh : Nat)
  | gridWrite (h : Hdr) (payload : List Byte)
  | gridFinish (h : Hdr) (id : Nat)
  | gridReopen (h : Hdr) (id : Nat)
  | gridDelete (h : Hdr) (id : Nat)
  | gridStatus (h : Hdr) (sel : GridSel)
  | viewDefine (h : Hdr) (view : Nat) (panes : List PaneArg)
  | viewBind (h : Hdr) (view pane grid : Nat)
  | viewUnbind (h : Hdr) (view pane : Nat)
  | viewErase (h : Hdr) (view : Nat)
  | defaultView (h : Hdr) (view : Option Nat)
  | viewStatus (h : Hdr) (sel : ViewSel)
  | composeStatus (h : Hdr) (clear : Bool)
  | balanceSet (h : Hdr) (r : BalanceArg)
  | balanceStatus (h : Hdr)
  | overlaySet (h : Hdr) (r : OverlayArg)
  | curveSet (h : Hdr) (t : Vector Int 33)
  | overlayStatus (h : Hdr)
  | markPost (h : Hdr) (payload : List Byte)
  | markRemove (h : Hdr) (id : Nat)
  | markClear (h : Hdr)
  | markStatus (h : Hdr)
  | claim (h : Hdr) (view : Nat)
  | renew (h : Hdr) (token : Nat)
  | release (h : Hdr) (token : Nat)
  | gearSetup (h : Hdr) (view : Option Nat) (linger : Nat) (gate : BitVec 16)
  | claimStatus (h : Hdr)
  | canSetup (h : Hdr) (r : CanArg)
  | slotSetup (h : Hdr) (slot : Nat) (r : SlotArg)
  | slotEnable (h : Hdr) (slot : Nat) (on : Bool)
  | signalSetup (h : Hdr) (signal timeout hold confirm : Nat)
  | canRestart (h : Hdr)
  | canErrclr (h : Hdr)
  | canStatus (h : Hdr) (clear : Bool)
  | signalStatus (h : Hdr) (clear : Bool)
  | displaySet (h : Hdr) (on : Option Bool) (period : Nat)
  | displayStatus (h : Hdr) (clear : Bool)
  | linkLock (cam : Fin 4)
  | lossOfLock (cam : Fin 4)
  | frameStart (cam : Fin 4)
  | line (cam : Fin 4) (pairs : List Pair)
  | frameEnd (cam : Fin 4)
  | feedFault (cam : Fin 4)
  | settleTimerExpiry (cam : Fin 4)
  | seekTimerExpiry (cam : Fin 4)
  | frameTimeoutExpiry (cam : Fin 4)
  | areaClearCompletion (area : Fin 8)
  | holdExpiry (p : Port) (ring : Ring)
  | composeStart
  | triggerPulseDue (cam : Fin 4)
  | composeCompletion
  | gridCheckCompletion (id : Fin 32)
  | markerExpiry (id : Byte)
  | claimExpiry (token : Byte)
  | lingerTimerExpiry
  | canFrameReceived (f : CanFrame)
  | receiveError (e : BusError)
  | signalTimeoutExpiry (sig : Signal)
  | signalHoldExpiry (sig : Signal)
  | statusIntervalExpiry
  | statusTxAttempt
  | statusTxSent
  | statusTxError (e : BusError)
  | arbitrationLost
  | recoveryWaitCompletion
  | displayFrameStart
deriving DecidableEq, Repr

end Sys2Proof
end

