-- ==== Sys2Proof/Decode.lean ====
section
/-! DEFINITION. What the manual gives of command words: the command codes of 11 section 11.7, and `decodeTableWord`.
No row of spec/opcode_table.json carries bits, so no word spells a command (log entry 25). -/

namespace Sys2Proof

/-- The command codes of the command summary (11 section 11.7), in its order. -/
def commandCodes : List Byte :=
  [0x01, 0x02, 0x03, 0x04,
   0x10, 0x11, 0x12, 0x13, 0x14,
   0x20, 0x21, 0x22, 0x23, 0x24, 0x25, 0x26, 0x27, 0x28,
   0x30, 0x31,
   0x40, 0x41, 0x42, 0x43, 0x44, 0x45, 0x48, 0x49, 0x4A, 0x4B, 0x4C, 0x4D,
   0x50, 0x51, 0x52,
   0x60, 0x61, 0x62, 0x63, 0x64, 0x65, 0x66,
   0x70, 0x71, 0x72, 0x73, 0x74,
   0x80, 0x81, 0x82, 0x83, 0x84, 0x85, 0x86, 0x87,
   0x90, 0x91]

/-- The command that a word of the table spells: none, since the table gives no row any bits. -/
def decodeTableWord (_nbits _w : Nat) : Option Instr := none

end Sys2Proof
end

