-- ==== Sys2Proof/Config.lean ====
section
/-! DEFINITION. What the part fixes (sizes of 00 and of the chapters) and the free values: what the manual
leaves open is an opaque constant here, so that no proof can rest on one choice. -/

namespace Sys2Proof

/-- Bytes of one DRAM unit (00, DRAM units). -/
def Config.unitBytes : Nat := 65536
/-- Units of the supported DRAM (00, DRAM units). -/
def Config.dramUnits : Nat := 4096
/-- Output frame width in pixels (00, Frame formats). -/
def Config.outWidth : Nat := 1280
/-- Output frame height in pixels (00, Frame formats). -/
def Config.outHeight : Nat := 720
/-- Bytes of one output frame: 1,280 × 720 × 2 (00, Frame formats). -/
def Config.outBytes : Nat := 1843200
/-- Stride of an output ring slot in units (00, Frame formats; R25). -/
def Config.outStride : Nat := 29
/-- Cells of grid memory (R60). -/
def Config.gridCells : Nat := 65536
/-- Bytes of one grid cell (R60; 11 section 11.6). -/
def Config.cellBytes : Nat := 16
/-- Most notices one port's queue holds (R181). -/
def Config.queueMax : Nat := 32
/-- Most markers the list holds (R131). -/
def Config.markerMax : Nat := 16
/-- Most entries the claim stack holds (R138). -/
def Config.stackMax : Nat := 6

/-- FREE VALUE (log entry 6): at which of the moments between AREA_WRITEs the pass reads the bitmap byte of one
silhouette pixel, by the free-value counter, the output column and the output row. -/
opaque Config.silhouetteMoment : Nat → Nat → Nat → Nat

/-- FREE VALUE (log entry 4): whether a clear that a reset abandons had written zero to a byte, by the free-value counter and
the byte's address. -/
opaque Config.clearReach : Nat → Nat → Bool

/-- FREE VALUE (log entry 5): how far a pass that a reset abandons had come with a byte of its target slot, by the free-value
counter and the byte's number in the slot: 0 for the slot's former byte, n + 1 for the base value under the first n overlay
entries of its pixel. -/
opaque Config.passReach : Nat → Nat → Nat

/-- FREE VALUE (log entry 7): whether CAN_STATE is placed before the SIGNAL_STATE notices of the same received
frame, by the free-value counter. -/
opaque Config.canStateFirst : Nat → Bool

/-- FREE VALUE (log entry 8): which of several expiries due at one count is taken first, by the free-value counter. -/
opaque Config.dueChoice : Nat → Nat

end Sys2Proof
end

