-- ==== Sys2Proof/Machine/State.lean ====
section
/-! DEFINITION. The state of the SV460 as plain data, block by block (00, Functional overview), the reasons a step can
stop, and the state right after power-on reset. Every field cites the rule that names it; INVENTORY.md lists them. -/

namespace Sys2Proof.Machine

/-- A byte memory: (address, byte) pairs in the canonical form `Memory.wf`; an unlisted address reads 0
(DESIGN CHOICE, log entries 1 and 2). -/
abbrev Memory := List Host.Cell

/-! ### Camera intake units (01) -/

/-- The stored setup record (R1). Times in ms, phase in µs. -/
structure Setup where
  width : Nat
  height : Nat
  settle : Nat
  seek : Nat
  timeout : Nat
  door : Option (Fin 8)
  trig : TrigMode
  phase : Nat
deriving DecidableEq, Repr

/-- The link state with the deadline of the timer that runs in it (R7, R9). SEEKING has none once its timer expired. -/
inductive Link where
  | off
  | settling (due : Word32)
  | seeking (due : Option Word32)
  | streaming (due : Word32)
  | stalled
  | faulted
deriving DecidableEq, Repr

/-- Damage causes (R29). -/
inductive Damage where
  | lineLength | short | long | linkLost | power
deriving DecidableEq, Repr

/-- The reception state (01 section 1.4); RECEIVING names the slot in FILLING and the pending cause. -/
inductive Reception where
  | noFrame
  | receiving (slot : Nat) (cause : Option Damage)
  | discarding
deriving DecidableEq, Repr

/-- The per-camera counters (R14). -/
structure CamCounts where
  good : Count
  damaged : Count
  dropped : Count
  unjoined : Count
  faults : Count
  stray : Count
deriving DecidableEq, Repr

/-- One camera intake unit. `pulses` is the model's own count of what the trigger output carried (log entry 14). -/
structure Cam where
  setup : Setup
  link : Link
  locked : Bool
  seekNoticed : Bool
  unjoinedNoticed : Bool
  reception : Reception
  counts : CamCounts
  pulses : Nat
deriving DecidableEq, Repr

/-! ### Frame store (02) -/

/-- What an entry with a range is used for (R21). -/
inductive AreaPhase where
  | defined | clearing | clean
  | joined (t : Target)
deriving DecidableEq, Repr

/-- An area table entry (R21): UNDEFINED, or the range from unit `base` up to but not including `limit`. -/
inductive Area where
  | undefined
  | range (base limit : Nat) (phase : AreaPhase)
deriving DecidableEq, Repr

/-- A camera slot's state with the fields present in it (R29). -/
inductive CamSlotState where
  | free
  | filling (seq stamp : Word32) (lines : Count)
  | ready (seq stamp : Word32) (lines : Count)
  | damaged (seq stamp : Word32) (lines : Count) (cause : Damage)
deriving DecidableEq, Repr

/-- A camera ring slot (R29); a port hold that is set carries its deadline (R35). -/
structure CamSlot where
  st : CamSlotState
  pin : Bool
  holdD : Option Word32
  holdA : Option Word32
deriving DecidableEq, Repr

/-- A camera ring (R25, R30, R31), in the area `area`. -/
structure CamRing where
  area : Fin 8
  next : Word32
  replaced : Count
  slots : List CamSlot
deriving DecidableEq, Repr

/-- The record of a composed frame (R32, DONE). -/
structure OutFrame where
  seq : Word32
  view : Fin 16
  mask : BitVec 4
  start : Word32
  skew : Word32
  degraded : Bool
deriving DecidableEq, Repr

/-- An output slot's state (R32); `finished` is DONE. -/
inductive OutSlotState where
  | free
  | composing (start : Word32) (mask : BitVec 4)
  | finished (f : OutFrame)
deriving DecidableEq, Repr

/-- An output ring slot (R32). Its scanout hold is the scanout unit's held slot (R170). -/
structure OutSlot where
  st : OutSlotState
  holdD : Option Word32
  holdA : Option Word32
deriving DecidableEq, Repr

/-- The output ring (R25, R30, R32). -/
structure OutRing where
  area : Fin 8
  next : Word32
  slots : List OutSlot
deriving DecidableEq, Repr

/-- The frame store controller. -/
structure FrameStore where
  areas : Vector Area 8
  camRing : Vector (Option CamRing) 4
  outRing : Option OutRing
deriving DecidableEq, Repr

/-! ### Timebase (03) -/

/-- The timebase unit's record of one camera (R47, R50, R52). -/
structure CamTiming where
  pulse : Option Word32
  lastCapture : Option Word32
  interval : Option Word32
  expired : Option Word32
deriving DecidableEq, Repr

/-- The timebase unit. `timer` is the deadline of the compose period timer, `running` the length of its period. -/
structure Timebase where
  now : Word32
  period : Nat
  running : Nat
  timer : Word32
  stale : Nat
  skewLimit : Nat
  mask : BitVec 4
  lastMask : BitVec 4
  lastSkew : Word32
  skewOver : Bool
  cams : Vector CamTiming 4
deriving DecidableEq, Repr

/-! ### Grid store and view catalogue (04) -/

/-- A free extent of grid memory (R60). -/
structure Extent where
  base : Nat
  len : Nat
deriving DecidableEq, Repr

/-- Causes of rejection (R68). -/
inductive GridCause where
  | incomplete | badCamera | coordRange | badPair | missingCamera | weightRange
deriving DecidableEq, Repr

/-- Where a grid set lies and its block dimensions (R61). -/
structure GridShape where
  base : Nat
  bw : Nat
  bh : Nat
deriving DecidableEq, Repr

/-- The state of a grid set that holds cells, with the fields present in it (R61, R67). -/
inductive GridPhase where
  | opened (owner : Port) (count : Nat)
  | checking (owner : Port) (count : Nat) (sizes : Vector (Nat × Nat) 4)
  | valid (binds : Nat) (inUse : Bool)
  | rejected (owner : Port) (count : Nat) (index : Nat) (cause : GridCause)
deriving DecidableEq, Repr

/-- A grid set table entry (R61). -/
inductive Grid where
  | absent
  | held (shape : GridShape) (phase : GridPhase)
deriving DecidableEq, Repr

/-- The grid store. -/
structure GridStore where
  mem : Memory
  free : List Extent
  sets : Vector Grid 32
deriving DecidableEq, Repr

/-- What a TOP pane has beside its rectangle (R75): the silhouette flag is set when `sil` gives (sx, sy). -/
structure TopPane where
  sil : Option (Int × Int)
  guides : Bool
  markers : Bool
  x0 : Int
  y0 : Int
  sigma : Nat
deriving DecidableEq, Repr

/-- A pane record (R75); `top = none` is a SIDE pane. -/
structure Pane where
  x : Nat
  y : Nat
  w : Nat
  h : Nat
  top : Option TopPane
  binding : Option (Fin 32)
deriving DecidableEq, Repr

/-- The view catalogue (R75): `none` is EMPTY. -/
structure Catalogue where
  views : Vector (Option (List Pane)) 16
  dflt : Option (Fin 16)
deriving DecidableEq, Repr

/-! ### Overlay unit (07) -/

/-- The guide setup (R120, R122). -/
structure Guide where
  halfTrack : Nat
  start : Nat
  stop : Nat
  thick : Nat
  near : Nat
  mid : Nat
  marks : List Nat
  cond : GuideCond
deriving DecidableEq, Repr

/-- Marker shapes (R131). -/
inductive Shape where
  | box | bar
deriving DecidableEq, Repr

/-- A marker record (R131). -/
structure Marker where
  id : Byte
  owner : Port
  severity : Nat
  shape : Shape
  x : Int
  y : Int
  width : Nat
  length : Nat
  timeout : Nat
  deadline : Word32
deriving DecidableEq, Repr

/-- The overlay unit's setup, which a compose latches (R89, R120). -/
structure OverlaySetup where
  palette : Vector PalEntry 16
  silW : Nat
  silH : Nat
  guide : Guide
  curve : Vector Int 33
deriving DecidableEq, Repr

/-- The overlay unit. -/
structure Overlay where
  setup : OverlaySetup
  markers : List Marker
deriving DecidableEq, Repr

/-! ### Vehicle signals (09) -/

/-- A stored GEAR value (R159). -/
inductive Gear where
  | reverse | notReverse
deriving DecidableEq, Repr

/-- An effective GEAR value (R162). -/
inductive EffGear where
  | reverse | notReverse | unknown
deriving DecidableEq, Repr

/-- The state of a signal with the deadline of the timer that runs in it (R160). -/
inductive SigState where
  | never
  | fresh (due : Word32)
  | held (due : Word32)
  | unknown
deriving DecidableEq, Repr

/-- A signal record (R160) with values of type `α`; `last` is the last update with its source slot. -/
structure Sig (α : Type) where
  value : Option α
  st : SigState
  last : Option (Word32 × Fin 12)
  saturated : Bool
  timeout : Nat
  hold : Nat
deriving DecidableEq, Repr

/-- A slot's target (R156); only GEAR has a reverse code. -/
inductive SlotTarget where
  | gear (reverse : Int) | speed | steer | doors
deriving DecidableEq, Repr

/-- A stored slot setup (R156). -/
structure SlotSetup where
  ext : Bool
  ident : BitVec 29
  mask : BitVec 29
  start : Nat
  length : Nat
  signed : Bool
  mult : Int
  offset : Int
  target : SlotTarget
deriving DecidableEq, Repr

/-- A signal slot (R156): the set-up mark is set when `setup` is present. A slot that is not set up holds no values in its
fields (DESIGN CHOICE, log entry 43). -/
structure CanSlot where
  enabled : Bool
  setup : Option SlotSetup
deriving DecidableEq, Repr

/-- Error states (R153). -/
inductive ErrState where
  | active | passive | busOff
deriving DecidableEq, Repr

/-- Role at the last error (R153, R166). -/
inductive Role where
  | transmitter | receiver
deriving DecidableEq, Repr

/-- The error cause record (R166). -/
structure CauseRecord where
  bit0 : Bool
  bit1 : Bool
  stuff : Bool
  form : Bool
  crc : Bool
  ack : Bool
  role : Option Role
deriving DecidableEq, Repr

/-- A status frame as built (R154, R167): identifier, format, data, and the single-shot flag in force at the build.
Its rolling count is in the low bits of byte 7. -/
structure StatusFrame where
  ext : Bool
  ident : BitVec 29
  data : Vector Byte 8
  count : BitVec 4
  singleShot : Bool
deriving DecidableEq, Repr

/-- An attempt in progress (R168): the copy being sent, and whether the buffer was replaced meanwhile (R167). -/
structure Attempt where
  frame : StatusFrame
  replaced : Bool
deriving DecidableEq, Repr

/-- The CAN setup (R153). -/
structure CanSetup where
  mode : CanMode
  rate : CanRate
  autoRecover : Bool
  ext : Bool
  ident : BitVec 29
  interval : Nat
  singleShot : Bool
deriving DecidableEq, Repr

/-- The CAN controller and the status frame (R153). `buffer = none` is transmit state IDLE. `acks` is the model's own
count of the frames that the controller acknowledged on the bus (R155; log entry 14). -/
structure CanCtl where
  setup : CanSetup
  tec : Byte
  recv : Byte
  err : ErrState
  recovery : Bool
  cause : CauseRecord
  buffer : Option StatusFrame
  attempt : Option Attempt
  timer : Option Word32
  rolling : BitVec 4
  late : Count
  failed : Count
  short : Count
  acks : Nat
deriving DecidableEq, Repr

/-- The signal intake. -/
structure SignalIntake where
  can : CanCtl
  slots : Vector CanSlot 12
  gear : Sig Gear
  confirm : Nat
  gearPending : Option (Gear × Nat)
  speed : Sig Nat
  steer : Sig Int
  doors : Sig Byte
deriving DecidableEq, Repr

/-! ### Composition engine (05) and balance unit (06) -/

/-- The statistics of one zone (R101). -/
structure ZoneStats where
  sa : Nat
  sb : Nat
  n : Nat
deriving DecidableEq, Repr

/-- The snapshot of a compose (R89), with the area JOINED to OVERLAY at the compose start (R102). -/
structure Snapshot where
  view : Fin 16
  panes : List Pane
  gains : Vector Nat 4
  steer : Int
  steerUnknown : Bool
  gear : EffGear
  markers : List Marker
  overlay : OverlaySetup
  overlayArea : Option (Fin 8)
deriving DecidableEq, Repr

/-- The current compose (R84). `replacedBytes` is the model's own: the (address, former byte) pairs that AREA_WRITE
replaced in DRAM during the pass, latest first (R40, log entry 6). -/
structure Compose where
  target : Nat
  start : Word32
  mask : BitVec 4
  skew : Word32
  snap : Snapshot
  stats : Vector ZoneStats 4
  replacedBytes : List Host.Cell
deriving DecidableEq, Repr

/-- The five counters of the composition engine (R84). -/
structure ComposeCounts where
  composed : Count
  overrun : Count
  blocked : Count
  mutedSkip : Count
  noView : Count
deriving DecidableEq, Repr

/-- The composition engine (R84): `current = none` is IDLE. `lastSeq` is the output sequence of the most recent
completion since the last reset (R167). -/
structure Compositor where
  current : Option Compose
  overrunNoticed : Bool
  counts : ComposeCounts
  lastSeq : Option Word32
deriving DecidableEq, Repr

/-- A zone of the statistics record (R116): the desires are present when the zone is used. -/
structure ZoneRecord where
  stats : ZoneStats
  desires : Option (Nat × Nat)
deriving DecidableEq, Repr

/-- A camera of the statistics record (R116). -/
structure CamRecord where
  desire : Option Nat
  step : Option Int
deriving DecidableEq, Repr

/-- The last statistics record (R116). -/
structure BalRecord where
  seq : Word32
  mask : BitVec 4
  mode : BalMode
  zones : Vector ZoneRecord 4
  cams : Vector CamRecord 4
deriving DecidableEq, Repr

/-- The balance unit (R108). -/
structure Balance where
  mode : BalMode
  gains : Vector Nat 4
  manual : Vector Nat 4
  k : Nat
  smax : Nat
  nmin : Nat
  record : Option BalRecord
deriving DecidableEq, Repr

/-! ### Claim arbiter (08) -/

/-- The source of a claim entry (R138); only PORT_A entries have a deadline. -/
inductive Source where
  | portD
  | gear
  | portA (deadline : Word32)
deriving DecidableEq, Repr

/-- A claim entry (R138). -/
structure Claim where
  token : Byte
  source : Source
  view : Fin 16
  time : Word32
deriving DecidableEq, Repr

/-- The decision record (R137, R149). -/
structure Decision where
  view : Option (Fin 16)
  mute : Bool
deriving DecidableEq, Repr

/-- The claim arbiter (R137); the stack stands head first. -/
structure Arbiter where
  stack : List Claim
  token : Byte
  reverseView : Option (Fin 16)
  linger : Nat
  lingerTimer : Option Word32
  gate : BitVec 16
  decision : Decision
  speedAt : Nat
deriving DecidableEq, Repr

/-! ### Scanout unit (10) -/

/-- One colour (R173). -/
structure Yuv where
  y : Byte
  u : Byte
  v : Byte
deriving DecidableEq, Repr

/-- The frame in progress (R170), with the colour that BLANK and MUTE send (R173). -/
inductive Display where
  | nothing
  | composed (slot : Nat)
  | again (slot : Nat)
  | blank (c : Yuv)
  | mute (c : Yuv)
deriving DecidableEq, Repr

/-- The scanout unit (R170): RUNNING when the display timer runs. -/
structure Scanout where
  timer : Option Word32
  period : Nat
  held : Option Nat
  frame : Display
  repeated : Count
  blank : Count
  muted : Count
deriving DecidableEq, Repr

/-! ### Control ports (11) -/

/-- Result codes (11 section 11.6). -/
inductive Result where
  | ok | clamped | accepted | busy | badArg | genMismatch | notOwner | notFound | wrongState | inUse
  | full | noSpace | overlap | areaTooSmall | sizeMismatch | overflow | slotActive | unknownCommand
deriving DecidableEq, Repr

/-- Notice kinds (11 section 11.4). -/
inductive NoticeKind where
  | camState | seekTimeout | camUnjoined | areaCleared | holdExpired | skewOver | skewOk | camUsability
  | gridValid | gridRejected | overrun | frameDone | markerEvicted | markerExpired | claimEvicted
  | claimExpired | viewChanged | signalState | canState | statusTxFailed
deriving DecidableEq, Repr

/-- A notice record (11 section 11.4). -/
structure Notice where
  kind : NoticeKind
  time : Word32
  subject : Byte
  value : Word32
deriving DecidableEq, Repr

/-- What TIME_STATUS gives of one camera (R59). -/
structure CamTimeReport where
  trig : TrigMode
  phase : Nat
  effective : Nat
  timing : CamTiming
deriving DecidableEq, Repr

/-- The reception state as CAM_STATUS gives it (R14). -/
inductive ReceptionKind where
  | noFrame | receiving | discarding
deriving DecidableEq, Repr

/-- A camera slot's record as AREA_STATUS gives it (R28, R29): each port hold as set or clear. -/
structure CamSlotReport where
  st : CamSlotState
  pin : Bool
  holdD : Bool
  holdA : Bool
deriving DecidableEq, Repr

/-- An output slot's record as AREA_STATUS gives it (R28, R32): each hold as set or clear. -/
structure OutSlotReport where
  st : OutSlotState
  scanout : Bool
  holdD : Bool
  holdA : Bool
deriving DecidableEq, Repr

/-- What AREA_STATUS gives of the ring in an area (R28): slot count, stride in units, next sequence number, for a camera
ring the replaced counter, and the slot records in index order. -/
inductive RingReport where
  | noRing
  | camera (count stride : Nat) (next : Word32) (replaced : Count) (slots : List CamSlotReport)
  | output (count stride : Nat) (next : Word32) (slots : List OutSlotReport)
deriving DecidableEq, Repr

/-- The states of a grid set (R61). -/
inductive GridState where
  | absent | opened | checking | valid | rejected
deriving DecidableEq, Repr

/-- A grid set table entry as GRID_STATUS gives it (R61, R73): the fields absent in its state are `none`. -/
structure GridReport where
  state : GridState
  owner : Option Port
  shape : Option GridShape
  size : Option Nat
  written : Option Nat
  rejection : Option (Nat × GridCause)
  binds : Nat
  inUse : Bool
deriving DecidableEq, Repr

/-- The content of the frame in progress as DISPLAY_STATUS gives it (R170, R175). -/
inductive DisplayContent where
  | nothing
  | composed (slot : Nat)
  | again (slot : Nat)
  | blank
  | mute
deriving DecidableEq, Repr

/-- What FRAME_HOLD gives of the frame now held (R35). -/
inductive HeldFrame where
  | camera (seq stamp : Word32) (width height : Nat)
  | output (f : OutFrame)
deriving DecidableEq, Repr

/-- A signal's record and effective value as SIGNAL_STATUS gives them (R160, R169); `state` is the state's code. -/
structure SigReport (α β : Type) where
  value : Option α
  state : Nat
  last : Option (Word32 × Fin 12)
  saturated : Bool
  timeout : Nat
  hold : Nat
  effective : β
deriving DecidableEq, Repr

/-- The sources of claims (R138). -/
inductive SourceKind where
  | portD | gear | portA
deriving DecidableEq, Repr

/-- A claim entry as CLAIM_STATUS gives it (R151): `left` is the time to a PORT_A entry's deadline in ms. -/
structure ClaimReport where
  token : Byte
  source : SourceKind
  view : Fin 16
  time : Word32
  left : Option Nat
deriving DecidableEq, Repr

/-- A response payload: the bytes where 11 section 11.6 gives a layout, else the values that the command's rule
lists, as typed data (log entry 12). -/
inductive Payload where
  | empty
  | bytes (b : List Byte)
  | status (gen : Word32) (faults : BitVec 5) (mask : Word32) (irqEnable : Bool) (holdTime claimHold depth : Nat)
      (overflow : Bool) (otherDepth : Nat)
  | cam (setup : Setup) (link : Nat) (reception : ReceptionKind) (locked feed : Bool) (lines : Option Count)
      (counts : CamCounts)
  | area (a : Area) (ring : RingReport)
  | held (ring : Ring) (slot size : Nat) (f : HeldFrame)
  | time (now : Word32) (period running remaining stale skewLimit : Nat) (mask lastMask : BitVec 4)
      (lastSkew : Word32) (skewOver : Bool) (cams : Vector CamTimeReport 4)
  | gridOpened (base size : Nat)
  | gridWritten (count : Nat)
  | grid (g : GridReport)
  | gridStore (free : List Extent) (entries total longest absent opened checking valid rejected : Nat)
  | view (panes : Option (List Pane)) (isDefault claimed isReverse : Bool)
  | defaultView (v : Option (Fin 16))
  | compose (current : Option (Nat × Fin 16 × Word32 × BitVec 4 × Word32)) (overrunNoticed : Bool)
      (counts : ComposeCounts)
  | balance (b : Balance)
  | overlay (setup : OverlaySetup) (markers : Nat)
  | placed (place length : Nat)
  | removed (count : Nat)
  | claimed (token : Byte) (place depth : Nat)
  | renewed (place depth : Nat)
  | claims (depth : Nat) (stack : List ClaimReport) (portD gear portA : Nat) (token : Byte)
      (reverseView : Option (Fin 16)) (linger : Nat) (gate : BitVec 16) (lingerLeft : Option Nat) (speedAt : Nat)
      (decision : Decision)
  | can (setup : CanSetup) (tec recv : Byte) (err : ErrState) (recovery : Bool) (cause : CauseRecord)
      (pending : Bool) (rolling : BitVec 4) (late failed short : Count)
  | signals (gear : SigReport Gear EffGear) (confirm : Nat) (gearPending : Option (Gear × Nat))
      (speed : SigReport Nat Nat) (steer : SigReport Int (Int × Bool)) (doors : SigReport Byte Byte)
      (slots : Vector CanSlot 12)
  | display (running : Bool) (period : Nat) (remaining : Option Nat) (held : Option Nat)
      (frame : DisplayContent) (repeated blank muted : Count)
deriving DecidableEq, Repr

/-- A response (R177): `flags` has bit 0 DEGRADED, bit 1 MUTED, bit 2 ALERT, bit 3 FAULT. -/
structure Response where
  code : Byte
  result : Result
  flags : BitVec 4
  gen : Word32
  payload : Payload
deriving DecidableEq, Repr

/-- One control port. `delivered` is the model's own record of the last response a read returned (log entry 14). -/
structure PortState where
  pending : Option Response
  delivered : Option Response
  queue : List Notice
  overflow : Bool
  mask : Word32
  irqEnable : Bool
  holdTime : Nat
  claimHold : Nat
deriving DecidableEq, Repr

/-- The control-port block (R178, R180): both ports, the configuration generation and the fault summary. -/
structure Ports where
  portD : PortState
  portA : PortState
  gen : Word32
  faults : BitVec 5
deriving DecidableEq, Repr

/-! ### The whole part -/

/-- The state of the SV460. `fresh` counts the free values taken (log entry 24); `pending` is the queue of commands that
wait, first in, first out. -/
structure State where
  ciu : Vector Cam 4
  fsc : FrameStore
  dram : Memory
  tbu : Timebase
  gs : GridStore
  vc : Catalogue
  ce : Compositor
  bu : Balance
  ou : Overlay
  ca : Arbiter
  si : SignalIntake
  su : Scanout
  cp : Ports
  fresh : Nat
  pending : List Instr
deriving DecidableEq, Repr

/-- Why the machine stops. -/
inductive Fault where
  /-- Raised by LINE, AREA_WRITE, FRAME_READ, AREA_CLEAR_COMPLETION and COMPOSE_COMPLETION when a byte they would reach
  lies outside the 4,096 units of DRAM (00, DRAM units). Safe: only in states that no run reaches, since every range
  of the area table lies within DRAM (R21, R22) and every slot within its area (R25, R26). -/
  | dramAddress
deriving DecidableEq, Repr

/-- Why a command has no meaning. -/
inductive Refusal where
  /-- Raised by the dispatch alone, for a command whose meaning is not written yet; none is left. Safe. -/
  | notModelled (mnemonic : String)
deriving DecidableEq, Repr

/-! ### Reset values -/

/-- The default setup record (R1). -/
def Setup.reset : Setup :=
  { width := 1280, height := 800, settle := 50, seek := 2000, timeout := 100, door := none, trig := .freeRun, phase := 0 }

/-- The six counters at 0 (R20). -/
def CamCounts.zero : CamCounts := { good := 0, damaged := 0, dropped := 0, unjoined := 0, faults := 0, stray := 0 }

/-- An intake unit in its initial condition (R20); the lock indication is a DESIGN CHOICE (log entry 3). -/
def Cam.reset : Cam :=
  { setup := .reset, link := .off, locked := false, seekNoticed := false, unjoinedNoticed := false,
    reception := .noFrame, counts := .zero, pulses := 0 }

/-- R43. -/
def FrameStore.reset : FrameStore :=
  { areas := .replicate 8 .undefined, camRing := .replicate 4 none, outRing := none }

/-- R47, R50, R52. -/
def CamTiming.empty : CamTiming := { pulse := none, lastCapture := none, interval := none, expired := none }

/-- R44, R45, R46, R53, R56, R57, R58: the first period starts when the reset ends. -/
def Timebase.reset : Timebase :=
  { now := 0, period := 33333, running := 33333, timer := 33333, stale := 80, skewLimit := 10, mask := 15,
    lastMask := 0, lastSkew := 0, skewOver := false, cams := .replicate 4 .empty }

/-- R60, R61; the cells' contents are a DESIGN CHOICE (log entry 2). -/
def GridStore.reset : GridStore := { mem := [], free := [{ base := 0, len := 65536 }], sets := .replicate 32 .absent }

/-- R75. -/
def Catalogue.reset : Catalogue := { views := .replicate 16 none, dflt := none }

/-- The five counters at 0 (R84). -/
def ComposeCounts.zero : ComposeCounts := { composed := 0, overrun := 0, blocked := 0, mutedSkip := 0, noView := 0 }

/-- R84. -/
def Compositor.reset : Compositor := { current := none, overrunNoticed := false, counts := .zero, lastSeq := none }

/-- R108. -/
def Balance.reset : Balance :=
  { mode := .manual, gains := .replicate 4 256, manual := .replicate 4 256, k := 4, smax := 8, nmin := 4096, record := none }

/-- Black with alpha 0 (R121). -/
def blackEntry : PalEntry := { y := 16, u := 128, v := 128, alpha := 0 }

/-- The palette of R121. -/
def paletteReset : Vector PalEntry 16 :=
  let zero : PalEntry := { y := 0, u := 0, v := 0, alpha := 0 }
  #v[zero, zero, zero, zero, zero, zero, zero, zero, zero, zero, zero,
    { y := 235, u := 128, v := 128, alpha := 0 }, blackEntry, blackEntry, blackEntry, blackEntry]

/-- R120. -/
def Overlay.reset : Overlay :=
  { setup :=
      { palette := paletteReset, silW := 16, silH := 16,
        guide := { halfTrack := 900, start := 300, stop := 3000, thick := 3, near := 1000, mid := 2000, marks := [],
                   cond := .off },
        curve := .replicate 33 0 },
    markers := [] }

/-- R137. -/
def Arbiter.reset : Arbiter :=
  { stack := [], token := 1, reverseView := none, linger := 2000, lingerTimer := none, gate := 1500,
    decision := { view := none, mute := false }, speedAt := 0 }

/-- A signal record after reset (R160). -/
def Sig.reset (α : Type) : Sig α :=
  { value := none, st := .never, last := none, saturated := false, timeout := 200, hold := 1000 }

/-- R153, R166. -/
def CauseRecord.clear : CauseRecord :=
  { bit0 := false, bit1 := false, stuff := false, form := false, crc := false, ack := false, role := none }

/-- R153. -/
def CanCtl.reset : CanCtl :=
  { setup := { mode := .off, rate := .k500, autoRecover := true, ext := false, ident := 0x5C0, interval := 100,
               singleShot := false },
    tec := 0, recv := 0, err := .active, recovery := false, cause := .clear, buffer := none, attempt := none,
    timer := none, rolling := 0, late := 0, failed := 0, short := 0, acks := 0 }

/-- R153, R156, R160. -/
def SignalIntake.reset : SignalIntake :=
  { can := .reset, slots := .replicate 12 { enabled := false, setup := none }, gear := .reset Gear, confirm := 2,
    gearPending := none, speed := .reset Nat, steer := .reset Int, doors := .reset Byte }

/-- R170. -/
def Scanout.reset : Scanout :=
  { timer := none, period := 16667, held := none, frame := .nothing, repeated := 0, blank := 0, muted := 0 }

/-- R177, R181, R183. -/
def PortState.reset : PortState :=
  { pending := none, delivered := none, queue := [], overflow := false, mask := 0, irqEnable := false,
    holdTime := 1000, claimHold := 1500 }

/-- R178, R180. -/
def Ports.reset : Ports := { portD := .reset, portA := .reset, gen := 0, faults := 0 }

/-- The machine right after power-on reset. -/
def State.reset : State :=
  { ciu := .replicate 4 .reset, fsc := .reset, dram := [], tbu := .reset, gs := .reset, vc := .reset, ce := .reset,
    bu := .reset, ou := .reset, ca := .reset, si := .reset, su := .reset, cp := .reset, fresh := 0, pending := [] }

end Sys2Proof.Machine
end

