-- ==== Sys2Proof/Machine/Memory.lean ====
section
/-! DEFINITION. The byte memories (DRAM and grid memory): reads, writes of a range, clearing a range, and the
canonical form (addresses strictly rising, no entry 0, since an unlisted address reads 0: log entries 1 and 2). -/

namespace Sys2Proof.Machine

/-- The byte at an address; an unlisted address reads 0. -/
def Memory.read : Memory → Nat → Byte
  | [], _ => 0
  | c :: m, a => if c.1 = a then c.2 else Memory.read m a

/-- The canonical form of a memory. -/
def Memory.wf (m : Memory) : Bool :=
  decide (m.Pairwise fun c d => c.1 < d.1) && m.all fun c => decide (c.2 ≠ 0)

/-- The listed cells of a range of `len` bytes from `base` whose byte `i` is `f i`. -/
def Memory.cells (base len : Nat) (f : Nat → Byte) : Memory :=
  (List.range len).filterMap fun i => if f i = 0 then none else some (base + i, f i)

/-- The entries below `a`. -/
def Memory.below (m : Memory) (a : Nat) : Memory := m.filter fun c => decide (c.1 < a)

/-- The entries from `a` up. -/
def Memory.from (m : Memory) (a : Nat) : Memory := m.filter fun c => decide (a ≤ c.1)

/-- Write byte `f i` to address `base + i`, for every `i` below `len`. -/
def Memory.write (m : Memory) (base len : Nat) (f : Nat → Byte) : Memory :=
  m.below base ++ (Memory.cells base len f ++ m.from (base + len))

/-- Write a run of bytes from `base`. -/
def Memory.writeBytes (m : Memory) (base : Nat) (bs : List Byte) : Memory :=
  m.write base bs.length fun i => bs.getD i 0

/-- Write zero to `len` bytes from `base`. -/
def Memory.clear (m : Memory) (base len : Nat) : Memory := m.below base ++ m.from (base + len)

/-- The `len` bytes from `base`. -/
def Memory.readBytes (m : Memory) (base len : Nat) : List Byte :=
  (List.range len).map fun i => m.read (base + i)

/-- The 16-bit little-endian field at an address (11 section 11.6). -/
def Memory.read16 (m : Memory) (a : Nat) : Nat := (m.read a).toNat + 256 * (m.read (a + 1)).toNat

/-- Whether `len` bytes from `base` lie within the 4,096 units of DRAM (00, DRAM units). -/
def inDram (base len : Nat) : Bool := decide (base + len ≤ Config.dramUnits * Config.unitBytes)

end Sys2Proof.Machine
end

