-- ==== Sys2Proof/Machine/Flags.lean ====
section
/-! DEFINITION. Condition flags, the fault summary, and the codes of states, results and notice kinds. -/

namespace Sys2Proof.Machine

/-- The five bits of the fault summary (R180). -/
inductive FaultBit where
  | feedFault | canBusOff | overrun | drop | blocked
deriving DecidableEq, Repr

/-- The bit of the summary (R180). -/
def FaultBit.mask : FaultBit → BitVec 5
  | .feedFault => 1
  | .canBusOff => 2
  | .overrun => 4
  | .drop => 8
  | .blocked => 16

/-- Latch a bit of the fault summary (R180). -/
def State.latch (s : State) (b : FaultBit) : State :=
  { s with cp := { s.cp with faults := s.cp.faults ||| b.mask } }

/-- The source is Port A's (R138). -/
def Source.isPortA : Source → Bool
  | .portA _ => true
  | _ => false

/-- ALERT: the claim stack holds at least one PORT_A entry (R180). -/
def Arbiter.alert (ca : Arbiter) : Bool := ca.stack.any fun e => e.source.isPortA

/-- The condition flags as they stand (R180): bit 0 DEGRADED, bit 1 MUTED, bit 2 ALERT, bit 3 FAULT. -/
def State.flags (s : State) : BitVec 4 :=
  (if s.tbu.lastMask = 15 then 0 else 1) ||| (if s.ca.decision.mute then 2 else 0)
    ||| (if s.ca.alert then 4 else 0) ||| (if s.cp.faults = 0 then 0 else 8)

/-- Link state codes (01 section 1.3). -/
def Link.code : Link → Nat
  | .off => 0
  | .settling _ => 1
  | .seeking _ => 2
  | .streaming _ => 3
  | .stalled => 4
  | .faulted => 5

/-- The feed enable output: on in the powered states (01 section 1.2). -/
def Link.feed : Link → Bool
  | .off | .faulted => false
  | .settling _ | .seeking _ | .streaming _ | .stalled => true

/-- The states in which link traffic and trigger pulses count: SEEKING, STREAMING, STALLED (R6, R48). -/
def Link.live : Link → Bool
  | .seeking _ | .streaming _ | .stalled => true
  | .off | .settling _ | .faulted => false

/-- Signal state codes (R160). -/
def SigState.code : SigState → Nat
  | .never => 0
  | .fresh _ => 1
  | .held _ => 2
  | .unknown => 3

/-- Error state codes (R153). -/
def ErrState.code : ErrState → Nat
  | .active => 0
  | .passive => 1
  | .busOff => 2

/-- Result codes (11 section 11.6). -/
def Result.code : Result → Nat
  | .ok => 0
  | .clamped => 1
  | .accepted => 2
  | .busy => 3
  | .badArg => 4
  | .genMismatch => 5
  | .notOwner => 6
  | .notFound => 7
  | .wrongState => 8
  | .inUse => 9
  | .full => 10
  | .noSpace => 11
  | .overlap => 12
  | .areaTooSmall => 13
  | .sizeMismatch => 14
  | .overflow => 15
  | .slotActive => 16
  | .unknownCommand => 17

/-- Notice kind codes (11 section 11.4). -/
def NoticeKind.code : NoticeKind → Nat
  | .camState => 1
  | .seekTimeout => 2
  | .camUnjoined => 3
  | .areaCleared => 4
  | .holdExpired => 5
  | .skewOver => 6
  | .skewOk => 7
  | .camUsability => 8
  | .gridValid => 9
  | .gridRejected => 10
  | .overrun => 11
  | .frameDone => 12
  | .markerEvicted => 13
  | .markerExpired => 14
  | .claimEvicted => 15
  | .claimExpired => 16
  | .viewChanged => 17
  | .signalState => 18
  | .canState => 19
  | .statusTxFailed => 20

/-- Rejection cause codes (R68). -/
def GridCause.code : GridCause → Nat
  | .incomplete => 1
  | .badCamera => 2
  | .coordRange => 3
  | .badPair => 4
  | .missingCamera => 5
  | .weightRange => 6

end Sys2Proof.Machine
end

