-- ==== Sys2Proof/Machine/Operands.lean ====
section
/-! DEFINITION. The record formats of 11 section 11.6: reading operands from bytes and writing responses as bytes. -/

namespace Sys2Proof.Machine

/-- The byte at index `i` of a payload, 0 past its end. -/
def byteAt (b : List Byte) (i : Nat) : Byte := b.getD i 0

/-- A 16-bit little-endian unsigned field. -/
def le16 (b : List Byte) (i : Nat) : Nat := (byteAt b i).toNat + 256 * (byteAt b (i + 1)).toNat

/-- A 16-bit little-endian field in two's complement. -/
def leInt16 (b : List Byte) (i : Nat) : Int := (BitVec.ofNat 16 (le16 b i)).toInt

/-- A 32-bit little-endian field. -/
def leWord (b : List Byte) (i : Nat) : Word32 := byteAt b (i + 3) ++ byteAt b (i + 2) ++ byteAt b (i + 1) ++ byteAt b i

/-- A command record (11, Command record): its code, its header as it arrived on port `p`, and the bytes after the header;
`none` when it is shorter than its header. `fits` says whether the payload holds the command's fields. -/
def readRecord (p : Port) (fits : Bool) (b : List Byte) : Option (Byte × Hdr × List Byte) :=
  if b.length < 10 then none
  else
    some (byteAt b 0,
      { port := p, gen := leWord b 2, arg := leWord b 6, len := byteAt b 1, got := b.length, fits := fits }, b.drop 10)

/-- The two bytes of a 16-bit field, least significant first. -/
def bytes16 (n : Nat) : List Byte := [BitVec.ofNat 8 n, BitVec.ofNat 8 (n / 256)]

/-- The four bytes of a 32-bit field, least significant first. -/
def bytes32 (w : Word32) : List Byte :=
  [w.extractLsb' 0 8, w.extractLsb' 8 8, w.extractLsb' 16 8, w.extractLsb' 24 8]

/-- The two bytes of a signed 16-bit field. -/
def bytesInt16 (i : Int) : List Byte := bytes16 (BitVec.ofInt 16 i).toNat

/-- What MARK_POST carries, read from bytes 0 to 11 of its payload (11, Marker record). -/
structure MarkArg where
  id : Nat
  severity : Nat
  shape : Shape
  x : Int
  y : Int
  width : Nat
  length : Nat
  timeout : Nat
deriving DecidableEq, Repr

/-- Read a MARK_POST payload (11, Marker record); bits 3 to 7 of byte 1 are ignored (DEDUCED, log
entry 31). -/
def readMark (b : List Byte) : MarkArg :=
  { id := (byteAt b 0).toNat
    severity := (byteAt b 1).toNat % 4
    shape := if (byteAt b 1).getLsbD 2 then .bar else .box
    x := leInt16 b 2
    y := leInt16 b 4
    width := le16 b 6
    length := le16 b 8
    timeout := le16 b 10 }

/-- A marker record as MARK_STATUS gives it, `left` ms before its deadline (11, Marker record). -/
def markerBytes (m : Marker) (left : Nat) : List Byte :=
  [m.id,
    BitVec.ofNat 8 (m.severity + (match m.shape with | .box => 0 | .bar => 4) + (match m.owner with | .d => 0 | .a => 8))]
    ++ bytesInt16 m.x ++ bytesInt16 m.y ++ bytes16 m.width ++ bytes16 m.length ++ bytes16 m.timeout ++ bytes16 left

/-- A notice record (11, Notice record). -/
def noticeBytes (n : Notice) : List Byte :=
  [BitVec.ofNat 8 n.kind.code, n.subject] ++ bytes32 n.time ++ bytes32 n.value

/-- The response record as bytes after the direction byte, where 11 section 11.6 gives the payload's layout. Bits 4 to 7 of
its byte 2 are 0 (DESIGN CHOICE, log entry 39). -/
def responseBytes (r : Response) : Option (List Byte) :=
  match r.payload with
  | .empty => some (header 0)
  | .bytes b => some (header b.length ++ b)
  | _ => none
where
  header (len : Nat) : List Byte :=
    [r.code, BitVec.ofNat 8 r.result.code, r.flags.setWidth 8, BitVec.ofNat 8 len] ++ bytes32 r.gen

/-- The records of a GRID_WRITE payload: its length divided by 16 (11, Command record). -/
def recordCount (len : Nat) : Option Nat := if len % 16 = 0 then some (len / 16) else none

end Sys2Proof.Machine
end

