-- ==== Sys2Proof/Machine/Ops.lean ====
section
/-! DEFINITION. The operations shared by the blocks: counters, clamping and rounding (00, Conventions), deadlines (R44),
notices (R181), and the path every command takes through its port (R177 to R179). -/

namespace Sys2Proof.Machine

/-! ### Numbers (00, Conventions) -/

/-- Count one event in a 16-bit saturating counter. -/
def bump (c : Count) : Count := if c = 65535 then c else c + 1

/-- Replace a value out of range by the nearer end of its range. -/
def clampNat (lo hi x : Nat) : Nat := if x < lo then lo else if hi < x then hi else x

/-- As `clampNat`, for a signed value. -/
def clampInt (lo hi x : Int) : Int := if x < lo then lo else if hi < x then hi else x

/-- CLAMPED when any value was clamped, else OK (R179). -/
def clampResult (changed : Bool) : Result := if changed then .clamped else .ok

/-- `n / d` rounded half up, for non-negative quantities. -/
def roundHalfUp (n d : Nat) : Nat := (2 * n + d) / (2 * d)

/-- `n / d` rounded half away from zero. -/
def roundHalfAway (n : Int) (d : Nat) : Int := n.sign * (roundHalfUp n.natAbs d : Nat)

/-- The index and score of the element of greatest score among those that have one; the first of equals. -/
def argMax {α : Type} (score : α → Option Nat) : List α → Option (Nat × Nat)
  | [] => none
  | a :: l =>
    match score a, argMax score l with
    | none, none => none
    | none, some b => some (b.1 + 1, b.2)
    | some v, none => some (0, v)
    | some v, some b => if v < b.2 then some (b.1 + 1, b.2) else some (0, v)

/-! ### Time (R44) -/

/-- The counter value `us` microseconds from now. -/
def State.after (s : State) (us : Nat) : Word32 := s.tbu.now + BitVec.ofNat 32 us

/-- The counter value `ms` milliseconds from now. -/
def State.afterMs (s : State) (ms : Nat) : Word32 := s.after (ms * 1000)

/-- The time until a deadline in µs, modulo 2^32 (DEDUCED, log entry 16). -/
def State.untilUs (s : State) (due : Word32) : Nat := (due - s.tbu.now).toNat

/-- The time until a deadline in ms, truncated toward zero. -/
def State.untilMs (s : State) (due : Word32) : Nat := s.untilUs due / 1000

/-- A timer's deadline is reached when the counter equals it (R44). -/
def State.reached (s : State) (due : Option Word32) : Bool := decide (due = some s.tbu.now)

/-! ### Ports and notices (R181) -/

/-- One port's state. -/
def State.port (s : State) : Port → PortState
  | .d => s.cp.portD
  | .a => s.cp.portA

/-- Replace one port's state. -/
def State.setPort (s : State) (p : Port) (q : PortState) : State :=
  match p with
  | .d => { s with cp := { s.cp with portD := q } }
  | .a => { s with cp := { s.cp with portA := q } }

/-- The other port. -/
def other : Port → Port
  | .d => .a
  | .a => .d

/-- Offer a notice to one queue (R181): placed at the end, or discarded with the overflow flag set. -/
def PortState.offer (q : PortState) (n : Notice) : PortState :=
  if q.queue.length < Config.queueMax then { q with queue := q.queue ++ [n] } else { q with overflow := true }

/-- The port's interrupt line (R181). -/
def PortState.irq (q : PortState) : Bool := q.irqEnable && !q.queue.isEmpty

/-- The notice record made now. -/
def State.notice (s : State) (k : NoticeKind) (subject value : Nat) : Notice :=
  { kind := k, time := s.tbu.now, subject := BitVec.ofNat 8 subject, value := BitVec.ofNat 32 value }

/-- A notice routed to one named port, whatever its mask (R181). -/
def State.notifyOwner (s : State) (p : Port) (k : NoticeKind) (subject value : Nat) : State :=
  s.setPort p ((s.port p).offer (s.notice k subject value))

/-- Offer to a port whose mask includes the kind (R181). -/
def PortState.offerSubscribed (q : PortState) (n : Notice) : PortState :=
  if q.mask.getLsbD n.kind.code then q.offer n else q

/-- A notice routed to each port that subscribes to its kind (R181). -/
def State.notify (s : State) (k : NoticeKind) (subject value : Nat) : State :=
  let n := s.notice k subject value
  { s with cp := { s.cp with portD := s.cp.portD.offerSubscribed n, portA := s.cp.portA.offerSubscribed n } }

/-! ### The path of a command (R177 to R179) -/

/-- How a command is judged: refused with its first refusal, and then no state changes (R179); taken with a result, a
response payload and the state its effect leaves; or stopped by a model fault. -/
inductive Verdict where
  | refuse (r : Result)
  | take (r : Result) (p : Payload) (s : State)
  | stop (f : Fault)

/-- Build the response from the state as it stands and make it the port's pending response (R177, R180). -/
def State.respond (s : State) (p : Port) (code : Byte) (r : Result) (payload : Payload) : State :=
  s.setPort p
    { s.port p with
      pending := some { code := code, result := r, flags := s.flags, gen := s.cp.gen, payload := payload } }

/-- The record's framing is sound (R177 step 3): a payload length of at most 240, all of it arrived, and (`fits`) long
enough for the fields the command needs. It stands before the generation check (DEDUCED, log entry 15). -/
def framed (h : Hdr) (fits : Bool) : Bool :=
  decide (h.len.toNat ≤ 240) && decide (10 + h.len.toNat ≤ h.got) && fits

/-- Answer a verdict (R177, R179). A refused command's response has an empty payload (DEDUCED, log
entry 13). -/
def answer (s : State) (h : Hdr) (code : Byte) : Verdict → Host.Outcome State Fault Refusal
  | .refuse r => .next (s.respond h.port code r .empty)
  | .take r p t => .next (t.respond h.port code r p)
  | .stop f => .fault f

/-- Take a command record (R177): shorter than its header it is ignored; wrongly framed it is refused with BAD_ARG;
else the owning block judges it. -/
def takeCommand (s : State) (h : Hdr) (code : Byte) (fits : Bool) (judge : State → Verdict) :
    Host.Outcome State Fault Refusal :=
  if h.got < 10 then .next s
  else if framed h fits then answer s h code (judge s)
  else .next (s.respond h.port code .badArg .empty)

/-- The generation after an accepted guarded command (R178). -/
def State.advanceGen (s : State) : State := { s with cp := { s.cp with gen := s.cp.gen + 1 } }

/-- The greatest generation, at which guarded commands are refused (R178). -/
def genMax : Word32 := 4294967295

/-- The generation check around a command's own judgement (R178). -/
def guardGen (h : Hdr) (judge : State → Verdict) (s : State) : Verdict :=
  if h.gen ≠ s.cp.gen then .refuse .genMismatch
  else if s.cp.gen = genMax then .refuse .wrongState
  else
    match judge s with
    | .take r p t => .take r p t.advanceGen
    | v => v

/-- A command without the guard whose payload layout the manual does not give. -/
def command (s : State) (h : Hdr) (code : Byte) (judge : State → Verdict) : Host.Outcome State Fault Refusal :=
  takeCommand s h code h.fits judge

/-- A command without the guard that needs no field: a payload of any length holds what it needs (R177 step 3). -/
def bare (s : State) (h : Hdr) (code : Byte) (judge : State → Verdict) : Host.Outcome State Fault Refusal :=
  takeCommand s h code true judge

/-- A guarded command whose payload layout the manual does not give (R178). -/
def guarded (s : State) (h : Hdr) (code : Byte) (judge : State → Verdict) : Host.Outcome State Fault Refusal :=
  takeCommand s h code h.fits (guardGen h judge)

/-- A status command that only reports (R179). -/
def report (s : State) (p : Payload) : Verdict := .take .ok p s

/-- An index below `n` from an operand, if it is one. -/
def index (n : Nat) (i : Nat) : Option (Fin n) := if h : i < n then some ⟨i, h⟩ else none

end Sys2Proof.Machine
end

