-- ==== Sys2Proof/Machine/Balance.lean ====
section
/-! DEFINITION. The balance unit (06): its settings and the balance update that a compose completion runs. -/

namespace Sys2Proof.Machine

open Host (Outcome)

/-! ### Settings (R109, R110) -/

/-- The unit with the settings of an operand stored, each tuning value clamped, and the gains of R110. -/
def Balance.store (b : Balance) (mode : BalMode) (r : BalanceArg) : Balance :=
  { b with
    mode := mode
    manual := manual
    gains := (match mode with | .manual => manual | .auto => b.gains)
    k := clampNat 1 16 r.k
    smax := clampNat 1 64 r.smax
    nmin := clampNat 256 65535 r.nmin }
where
  manual : Vector Nat 4 :=
    #v[clampNat 128 512 r.m0, clampNat 128 512 r.m1, clampNat 128 512 r.m2, clampNat 128 512 r.m3]

/-- Some value of the operand differs from the one stored (R109 step 3). -/
def balanceClamped (b : Balance) (r : BalanceArg) : Bool :=
  decide (b.manual ≠ #v[r.m0, r.m1, r.m2, r.m3] ∨ b.k ≠ r.k ∨ b.smax ≠ r.smax ∨ b.nmin ≠ r.nmin)

/-- BALANCE_SET after the generation check (R109, R110). -/
def judgeBalanceSet (r : BalanceArg) (s : State) : Verdict :=
  match r.mode with
  | none => .refuse .badArg
  | some m =>
    let b := s.bu.store m r
    .take (clampResult (balanceClamped b r)) .empty { s with bu := b }

/-- BALANCE_SET (R109). -/
def execBalanceSet (h : Hdr) (r : BalanceArg) (s : State) : Outcome State Fault Refusal :=
  guarded s h 0x51 (judgeBalanceSet r)

/-- BALANCE_STATUS (R118). -/
def execBalanceStatus (h : Hdr) (s : State) : Outcome State Fault Refusal :=
  bare s h 0x52 fun s => report s (.balance s.bu)

/-! ### The balance update (R111 to R116) -/

/-- The camera after camera `c` around the van: the second camera of zone `c` (00, Cameras; R100). -/
def nextCam (c : Fin 4) : Fin 4 := c + 1

/-- The zone whose second camera is `c` (R113). -/
def secondZone (c : Fin 4) : Fin 4 := c + 3

/-- The desire of a camera whose raw sum is `x` in a zone whose sums add to `total` (R112). -/
def desire (x total : Nat) : Nat := if x = 0 then 512 else (256 * total + x) / (2 * x)

/-- The desires of zone `z` when it is used (R112). -/
def zoneDesires (mask : BitVec 4) (nmin : Nat) (z : Fin 4) (t : ZoneStats) : Option (Nat × Nat) :=
  if mask.getLsbD z && mask.getLsbD (nextCam z) && decide (nmin ≤ t.n) then
    some (desire t.sa (t.sa + t.sb), desire t.sb (t.sa + t.sb))
  else none

/-- The camera desire from those of its first and second zones that are used (R113), clamped to 128 to 512. -/
def cameraDesire (first second : Option (Nat × Nat)) : Option Nat :=
  match first, second with
  | some a, some b => some (clampNat 128 512 ((a.1 + b.2 + 1) / 2))
  | some a, none => some (clampNat 128 512 a.1)
  | none, some b => some (clampNat 128 512 b.2)
  | none, none => none

/-- The step from gain `g` toward desire `d` (R114 stages 1 to 4). -/
def gainStep (k smax g d : Nat) : Int :=
  clampInt (-smax) smax (if step = 0 ∧ delta ≠ 0 then delta.sign else step)
where
  delta : Int := (d : Int) - g
  step : Int := (delta * k).tdiv 16

/-- A desire as the record keeps it (R112). -/
def recorded (d : Nat × Nat) : Nat × Nat := (min d.1 65535, min d.2 65535)

/-- The desires of the four zones (R112). -/
def Balance.desires (b : Balance) (mask : BitVec 4) (stats : Vector ZoneStats 4) : Vector (Option (Nat × Nat)) 4 :=
  Vector.ofFn fun z : Fin 4 => zoneDesires mask b.nmin z stats[z]

/-- The desire of camera `c` (R113). -/
def Balance.camDesire (b : Balance) (mask : BitVec 4) (stats : Vector ZoneStats 4) (c : Fin 4) : Option Nat :=
  cameraDesire (b.desires mask stats)[c] (b.desires mask stats)[secondZone c]

/-- The step of camera `c`: taken in AUTO only (R111 stage 3, R114). -/
def Balance.camStep (b : Balance) (mask : BitVec 4) (stats : Vector ZoneStats 4) (c : Fin 4) : Option Int :=
  match b.mode with
  | .manual => none
  | .auto => (b.camDesire mask stats c).map fun d => gainStep b.k b.smax b.gains[c] d

/-- The balance update of a compose that took output sequence `seq` (R111 to R116). -/
def Balance.update (b : Balance) (seq : Word32) (mask : BitVec 4) (stats : Vector ZoneStats 4) : Balance :=
  { b with
    gains := Vector.ofFn fun c : Fin 4 => ((b.gains[c] : Int) + (b.camStep mask stats c).getD 0).toNat
    record := some
      { seq := seq
        mask := mask
        mode := b.mode
        zones := Vector.ofFn fun z : Fin 4 => { stats := stats[z], desires := (b.desires mask stats)[z].map recorded }
        cams := Vector.ofFn fun c : Fin 4 =>
          { desire := b.camDesire mask stats c, step := b.camStep mask stats c } } }

end Sys2Proof.Machine
end

