-- ==== Sys2Proof/Machine/Grids.lean ====
section
/-! DEFINITION. The grid store (04, sections 4.1 and 4.2): free extents, grid sets, their records and their check. -/

namespace Sys2Proof.Machine

open Host (Outcome)

/-! ### Sizes and records -/

/-- The number of node records of a set (R61). -/
def GridShape.nodes (g : GridShape) : Nat := (g.bw + 1) * (g.bh + 1)

/-- The size of a set in cells (R61). -/
def GridShape.size (g : GridShape) : Nat := g.nodes + g.bw * g.bh

/-- The address in grid memory of record `k` of a set (R62). -/
def GridShape.recordByte (g : GridShape) (k : Nat) : Nat := (g.base + k) * Config.cellBytes

/-- The record of node (nx, ny) (R62). -/
def GridShape.nodeRecord (g : GridShape) (nx ny : Nat) : Nat := ny * (g.bw + 1) + nx

/-- The record of block (bx, by) (R62). -/
def GridShape.blockRecord (g : GridShape) (bx byy : Nat) : Nat := g.nodes + byy * g.bw + bx

/-- A camera entry of a node record (R63). -/
structure NodeEntry where
  cam : Nat
  u : Nat
  v : Nat
deriving DecidableEq, Repr

/-- A node record (R63). -/
structure NodeRec where
  a : NodeEntry
  b : Option NodeEntry
deriving DecidableEq, Repr

/-- A block record (R64): camera bytes as stored, 0xFF for NONE; `s` is present with its corner weights. -/
structure BlockRec where
  p : Nat
  s : Option Nat
  w00 : Nat
  w10 : Nat
  w01 : Nat
  w11 : Nat
deriving DecidableEq, Repr

/-- Read a node record (11 section 11.6, Grid node record). -/
def readNode (m : Memory) (a : Nat) : NodeRec :=
  { a := { cam := (m.read a).toNat, u := m.read16 (a + 4), v := m.read16 (a + 6) }
    b := if (m.read (a + 2)).getLsbD 0 then
        some { cam := (m.read (a + 1)).toNat, u := m.read16 (a + 8), v := m.read16 (a + 10) }
      else none }

/-- Read a block record (11 section 11.6, Grid block record). -/
def readBlock (m : Memory) (a : Nat) : BlockRec :=
  { p := (m.read a).toNat
    s := if (m.read (a + 2)).getLsbD 0 then some (m.read (a + 1)).toNat else none
    w00 := m.read16 (a + 4)
    w10 := m.read16 (a + 6)
    w01 := m.read16 (a + 8)
    w11 := m.read16 (a + 10) }

/-- The byte that names no primary camera (11 section 11.6). -/
def camNone : Nat := 255

/-- Node (nx, ny) of a set. -/
def Memory.node (m : Memory) (g : GridShape) (nx ny : Nat) : NodeRec :=
  readNode m (g.recordByte (g.nodeRecord nx ny))

/-- Block (bx, by) of a set. -/
def Memory.block (m : Memory) (g : GridShape) (bx byy : Nat) : BlockRec :=
  readBlock m (g.recordByte (g.blockRecord bx byy))

/-- The entry of a node that names camera `c`. -/
def NodeRec.entry (r : NodeRec) (c : Nat) : Option NodeEntry :=
  if r.a.cam = c then some r.a else r.b.filter fun e => decide (e.cam = c)

/-- Two cameras are adjacent when their numbers differ by one modulo 4 (00, Cameras). -/
def adjacent (c d : Nat) : Bool := decide ((c + 1) % 4 = d ∨ (d + 1) % 4 = c)

/-! ### The check (R68) -/

/-- The cause of the first failure of a camera entry against the copied size (R68). -/
def entryRange (sizes : Vector (Nat × Nat) 4) (e : NodeEntry) : Bool :=
  if h : e.cam < 4 then
    decide ((sizes[e.cam].1 - 1) * 16 < e.u ∨ (sizes[e.cam].2 - 1) * 16 < e.v)
  else false

/-- The first failure of a node record (R68), causes in table order, entry A before entry B within a cause (DEDUCED, log
entry 33). -/
def checkNode (sizes : Vector (Nat × Nat) 4) (r : NodeRec) : Option GridCause :=
  if 3 < r.a.cam then some .badCamera
  else
    match r.b with
    | none => if entryRange sizes r.a then some .coordRange else none
    | some b =>
      if 3 < b.cam ∨ b.cam = r.a.cam then some .badCamera
      else if entryRange sizes r.a || entryRange sizes b then some .coordRange
      else none

/-- The four corner nodes of a block, in the order 00, 10, 01, 11 (R62). -/
def Memory.corners (m : Memory) (g : GridShape) (bx byy : Nat) : List NodeRec :=
  [m.node g bx byy, m.node g (bx + 1) byy, m.node g bx (byy + 1), m.node g (bx + 1) (byy + 1)]

/-- Camera `c` is named by an entry of every corner node. -/
def namedAtAll (corners : List NodeRec) (c : Nat) : Bool := corners.all fun r => (r.entry c).isSome

/-- BAD_CAMERA of a block record (R68). -/
def BlockRec.badCamera (r : BlockRec) : Bool :=
  decide (3 < r.p ∧ r.p ≠ camNone) || (match r.s with | none => false | some c => decide (3 < c))

/-- BAD_PAIR of a block record (R68). -/
def BlockRec.badPair (r : BlockRec) : Bool :=
  match r.s with
  | none => false
  | some c => decide (r.p = camNone ∨ c = r.p) || !adjacent r.p c

/-- MISSING_CAMERA of a block record (R68). -/
def BlockRec.missing (r : BlockRec) (corners : List NodeRec) : Bool :=
  (decide (r.p ≠ camNone) && !namedAtAll corners r.p)
    || (match r.s with | none => false | some c => !namedAtAll corners c)

/-- WEIGHT_RANGE of a block record (R68). -/
def BlockRec.badWeight (r : BlockRec) : Bool :=
  r.s.isSome && decide (256 < r.w00 ∨ 256 < r.w10 ∨ 256 < r.w01 ∨ 256 < r.w11)

/-- The first failure of a block record (R68). -/
def checkBlock (r : BlockRec) (corners : List NodeRec) : Option GridCause :=
  if r.badCamera then some .badCamera
  else if r.badPair then some .badPair
  else if r.missing corners then some .missingCamera
  else if r.badWeight then some .weightRange
  else none

/-- The first failure of record `k` of a set (R68): a record's kind follows from its index (R62). -/
def checkRecord (m : Memory) (g : GridShape) (sizes : Vector (Nat × Nat) 4) (k : Nat) : Option GridCause :=
  if k < g.nodes then checkNode sizes (readNode m (g.recordByte k))
  else
    let b := k - g.nodes
    checkBlock (readBlock m (g.recordByte k)) (m.corners g (b % g.bw) (b / g.bw))

/-- The first failure of the records from `k`, `left` of them, in index order. -/
def checkFrom (m : Memory) (g : GridShape) (sizes : Vector (Nat × Nat) 4) : Nat → Nat → Option (Nat × GridCause)
  | 0, _ => none
  | left + 1, k =>
    match checkRecord m g sizes k with
    | some c => some (k, c)
    | none => checkFrom m g sizes left (k + 1)

/-- The first failure of a set of which `count` records are written (R68): its record index and cause. -/
def checkSet (m : Memory) (g : GridShape) (sizes : Vector (Nat × Nat) 4) (count : Nat) : Option (Nat × GridCause) :=
  if count ≠ g.size then some (count, .incomplete) else checkFrom m g sizes g.size 0

/-! ### Free extents (R60, R65) -/

/-- First fit (R65): the base of the extent of lowest base that is long enough, and the list without the cells taken. -/
def takeCells (size : Nat) : List Extent → Option (Nat × List Extent)
  | [] => none
  | e :: l =>
    if size ≤ e.len then
      some (e.base, if e.len = size then l else { base := e.base + size, len := e.len - size } :: l)
    else (takeCells size l).map fun r => (r.1, e :: r.2)

/-- Put a run of cells before a list whose extents all begin after it, merging it with the first one where they meet. -/
def joinNext (e : Extent) : List Extent → List Extent
  | [] => [e]
  | f :: l => if e.base + e.len = f.base then { base := e.base, len := e.len + f.len } :: l else e :: f :: l

/-- Free a run of cells (R60): merged with the extents that end at its first cell and begin just after its last. -/
def freeCells (e : Extent) : List Extent → List Extent
  | [] => [e]
  | f :: l =>
    if f.base + f.len = e.base then joinNext { base := f.base, len := f.len + e.len } l
    else if f.base < e.base then f :: freeCells e l
    else joinNext e (f :: l)

/-! ### Commands -/

/-- Put a grid set entry. -/
def State.setGrid (s : State) (i : Fin 32) (g : Grid) : State := { s with gs := { s.gs with sets := s.gs.sets.set i g } }

/-- GRID_OPEN (R65). -/
def judgeGridOpen (p : Port) (id bw bh : Nat) (s : State) : Verdict :=
  match index 32 id with
  | none => .refuse .badArg
  | some i =>
    if bw < 1 ∨ 80 < bw ∨ bh < 1 ∨ 45 < bh then .refuse .badArg
    else if s.gs.sets[i] ≠ .absent then .refuse .wrongState
    else
      let size := (bw + 1) * (bh + 1) + bw * bh
      match takeCells size s.gs.free with
      | none => .refuse .noSpace
      | some (base, free) =>
        .take .ok (.gridOpened base size)
          { s with gs :=
              { s.gs with free := free, sets := s.gs.sets.set i (.held { base := base, bw := bw, bh := bh } (.opened p 0)) } }

/-- GRID_OPEN (R65). -/
def execGridOpen (h : Hdr) (id bw bh : Nat) (s : State) : Outcome State Fault Refusal :=
  command s h 0x40 (judgeGridOpen h.port id bw bh)

/-- The owner of a set that has one (R61). -/
def GridPhase.owner : GridPhase → Option Port
  | .opened p _ => some p
  | .checking p _ _ => some p
  | .valid _ _ => none
  | .rejected p _ _ _ => some p

/-- GRID_WRITE (R66): the set id is the argument word, the record count the payload length divided by 16. -/
def judgeGridWrite (p : Port) (id : Nat) (payload : List Byte) (s : State) : Verdict :=
  match index 32 id, recordCount payload.length with
  | none, _ => .refuse .badArg
  | _, none => .refuse .badArg
  | some i, some n =>
    if n < 1 ∨ 15 < n then .refuse .badArg
    else
      match s.gs.sets[i] with
      | .absent => .refuse .wrongState
      | .held g ph =>
        if ph.owner = none then .refuse .wrongState
        else if ph.owner ≠ some p then .refuse .notOwner
        else
          match ph with
          | .opened q count =>
            if g.size < count + n then .refuse .overflow
            else
              .take .ok (.gridWritten (count + n))
                { s with gs :=
                    { s.gs with
                      mem := s.gs.mem.writeBytes (g.recordByte count) payload
                      sets := s.gs.sets.set i (.held g (.opened q (count + n))) } }
          | _ => .refuse .wrongState

/-- GRID_WRITE (R66). -/
def execGridWrite (h : Hdr) (payload : List Byte) (s : State) : Outcome State Fault Refusal :=
  takeCommand s h 0x41 (decide (h.len.toNat ≤ payload.length))
    (judgeGridWrite h.port h.arg.toNat (payload.take h.len.toNat))

/-- The copy of each camera's W and H that a check takes at its acceptance (R67). -/
def State.camSizes (s : State) : Vector (Nat × Nat) 4 :=
  Vector.ofFn fun n : Fin 4 => (s.ciu[n].setup.width, s.ciu[n].setup.height)

/-- GRID_FINISH (R67). -/
def judgeGridFinish (p : Port) (id : Nat) (s : State) : Verdict :=
  match index 32 id with
  | none => .refuse .badArg
  | some i =>
    match s.gs.sets[i] with
    | .absent => .refuse .wrongState
    | .held g ph =>
      if ph.owner = none then .refuse .wrongState
      else if ph.owner ≠ some p then .refuse .notOwner
      else
        match ph with
        | .opened q count => .take .accepted .empty (s.setGrid i (.held g (.checking q count s.camSizes)))
        | _ => .refuse .wrongState

/-- GRID_FINISH (R67). -/
def execGridFinish (h : Hdr) (id : Nat) (s : State) : Outcome State Fault Refusal :=
  command s h 0x42 (judgeGridFinish h.port id)

/-- GRID_REOPEN (R70). -/
def judgeGridReopen (p : Port) (id : Nat) (s : State) : Verdict :=
  match index 32 id with
  | none => .refuse .badArg
  | some i =>
    match s.gs.sets[i] with
    | .absent => .refuse .wrongState
    | .held g ph =>
      if ph.owner = none then .refuse .wrongState
      else if ph.owner ≠ some p then .refuse .notOwner
      else
        match ph with
        | .rejected q _ _ _ => .take .ok .empty (s.setGrid i (.held g (.opened q 0)))
        | _ => .refuse .wrongState

/-- GRID_REOPEN (R70). -/
def execGridReopen (h : Hdr) (id : Nat) (s : State) : Outcome State Fault Refusal :=
  command s h 0x43 (judgeGridReopen h.port id)

/-- Delete a set (R71): its run of cells is freed and the entry becomes ABSENT. -/
def State.deleteGrid (s : State) (i : Fin 32) (g : GridShape) : State :=
  { s with gs :=
      { s.gs with free := freeCells { base := g.base, len := g.size } s.gs.free, sets := s.gs.sets.set i .absent } }

/-- The deletion of a VALID set after the generation check (R71 step 4). -/
def judgeDeleteValid (i : Fin 32) (g : GridShape) (binds : Nat) (inUse : Bool) (s : State) : Verdict :=
  if 0 < binds ∨ inUse then .refuse .inUse else .take .ok .empty (s.deleteGrid i g)

/-- GRID_DELETE (R71): the generation check applies to a VALID set alone. -/
def judgeGridDelete (h : Hdr) (id : Nat) (s : State) : Verdict :=
  match index 32 id with
  | none => .refuse .badArg
  | some i =>
    match s.gs.sets[i] with
    | .absent => .refuse .wrongState
    | .held g (.valid binds inUse) => guardGen h (judgeDeleteValid i g binds inUse) s
    | .held g ph =>
      if ph.owner ≠ some h.port then .refuse .notOwner else .take .ok .empty (s.deleteGrid i g)

/-- GRID_DELETE (R71). -/
def execGridDelete (h : Hdr) (id : Nat) (s : State) : Outcome State Fault Refusal :=
  command s h 0x44 (judgeGridDelete h id)

/-- How many sets satisfy a test. -/
def GridStore.countSets (gs : GridStore) (f : Grid → Bool) : Nat := (gs.sets.toList.filter f).length

/-- What GRID_STATUS(STORE) reports (R73). The longest extent of an empty free-extent list, of which R73 says nothing, is given as
0 (DESIGN CHOICE, log entry 42). -/
def GridStore.report (gs : GridStore) : Payload :=
  .gridStore gs.free gs.free.length ((gs.free.map fun e => e.len).sum)
    ((gs.free.map fun e => e.len).foldl max 0)
    (gs.countSets fun g => decide (g = .absent))
    (gs.countSets fun g => match g with | .held _ (.opened _ _) => true | _ => false)
    (gs.countSets fun g => match g with | .held _ (.checking _ _ _) => true | _ => false)
    (gs.countSets fun g => match g with | .held _ (.valid _ _) => true | _ => false)
    (gs.countSets fun g => match g with | .held _ (.rejected _ _ _ _) => true | _ => false)

/-- A grid set table entry with the fields of R61 that are present in its state (R73). -/
def Grid.report : Grid → GridReport
  | .absent =>
    { state := .absent, owner := none, shape := none, size := none, written := none, rejection := none, binds := 0,
      inUse := false }
  | .held g (.opened p n) =>
    { state := .opened, owner := some p, shape := some g, size := some g.size, written := some n, rejection := none,
      binds := 0, inUse := false }
  | .held g (.checking p n _) =>
    { state := .checking, owner := some p, shape := some g, size := some g.size, written := some n, rejection := none,
      binds := 0, inUse := false }
  | .held g (.valid b u) =>
    { state := .valid, owner := none, shape := some g, size := some g.size, written := none, rejection := none, binds := b,
      inUse := u }
  | .held g (.rejected p n k c) =>
    { state := .rejected, owner := some p, shape := some g, size := some g.size, written := some n, rejection := some (k, c),
      binds := 0, inUse := false }

/-- GRID_STATUS (R73). -/
def judgeGridStatus (sel : GridSel) (s : State) : Verdict :=
  match sel with
  | .store => report s s.gs.report
  | .set id =>
    match index 32 id with
    | none => .refuse .badArg
    | some i => report s (.grid s.gs.sets[i].report)

/-- GRID_STATUS (R73). -/
def execGridStatus (h : Hdr) (sel : GridSel) (s : State) : Outcome State Fault Refusal :=
  command s h 0x45 (judgeGridStatus sel)

/-- The check of set `i` completes (R69). -/
def State.completeCheck (s : State) (i : Fin 32) : State :=
  match s.gs.sets[i] with
  | .held g (.checking p count sizes) =>
    match checkSet s.gs.mem g sizes count with
    | none => (s.setGrid i (.held g (.valid 0 false))).notifyOwner p .gridValid i g.size
    | some (k, c) =>
      (s.setGrid i (.held g (.rejected p count k c))).notifyOwner p .gridRejected i (c.code * 65536 + k)
  | _ => s

/-- GRID_CHECK_COMPLETION (R69); with no check in progress there is no completion (log entry 10). -/
def execGridCheckCompletion (i : Fin 32) (s : State) : Outcome State Fault Refusal := .next (s.completeCheck i)

end Sys2Proof.Machine
end

