-- ==== Sys2Proof/Machine/Views.lean ====
section
/-! DEFINITION. The view catalogue (04, section 4.5): layouts, bindings and the default view. -/

namespace Sys2Proof.Machine

open Host (Outcome)

/-! ### Pane records (R75, R77) -/

/-- An extent along one axis: a multiple of 16, at least 16 long, within `limit` (R75). -/
def axisBad (pos len limit : Int) : Bool :=
  decide (pos < 0 ∨ pos % 16 ≠ 0 ∨ len < 16 ∨ len % 16 ≠ 0 ∨ limit < pos + len)

/-- A pane pixel position of the ground mapping or the silhouette is out of range (R75). -/
def paneCoordBad (v : Int) : Bool := decide (v < -2048 ∨ 4095 < v)

/-- The TOP part of a pane record (R75): out of range is `none`. The silhouette's place is stored, and so checked,
only with the silhouette flag set (log entry 17). -/
def topPane (r : PaneArg) : Option TopPane :=
  if paneCoordBad r.x0 || paneCoordBad r.y0 || decide (r.sigma < 8 ∨ 128 < r.sigma)
      || (r.silhouette && (paneCoordBad r.sx || paneCoordBad r.sy)) then none
  else
    some { sil := if r.silhouette then some (r.sx, r.sy) else none, guides := r.guides, markers := r.markers,
           x0 := r.x0, y0 := r.y0, sigma := r.sigma.toNat }

/-- The pane record stored for an operand, with no binding (R77); `none` when a field is out of range or off its step,
or a SIDE pane has an overlay flag set. -/
def paneOf (r : PaneArg) : Option Pane :=
  if axisBad r.x r.w 1280 || axisBad r.y r.h 720 then none
  else
    match r.tag with
    | none => none
    | some .side =>
      if r.silhouette || r.guides || r.markers then none
      else some { x := r.x.toNat, y := r.y.toNat, w := r.w.toNat, h := r.h.toNat, top := none, binding := none }
    | some .top =>
      (topPane r).map fun t =>
        { x := r.x.toNat, y := r.y.toNat, w := r.w.toNat, h := r.h.toNat, top := some t, binding := none }

/-- Two panes share a pixel when their ranges of x and their ranges of y overlap (R77). -/
def sharePixel (p q : Pane) : Bool :=
  decide (p.x < q.x + q.w ∧ q.x < p.x + p.w ∧ p.y < q.y + q.h ∧ q.y < p.y + p.h)

/-- The pane records of a layout (R77 steps 1 and 2). -/
def layoutOf (panes : List PaneArg) : Option (List Pane) :=
  match panes with
  | [a] => (paneOf a).map fun p => [p]
  | [a, b] =>
    match paneOf a, paneOf b with
    | some p, some q => if sharePixel p q then none else some [p, q]
    | _, _ => none
  | _ => none

/-! ### Use and bindings (R72, R76) -/

/-- An entry of the claim stack names the view. -/
def Arbiter.claims (ca : Arbiter) (v : Fin 16) : Bool := ca.stack.any fun e => decide (e.view = v)

/-- A view is in use (R76). -/
def State.viewInUse (s : State) (v : Fin 16) : Bool :=
  s.ca.claims v || decide (s.vc.dflt = some v) || decide (s.ca.reverseView = some v)

/-- Put a catalogue entry. -/
def State.setView (s : State) (v : Fin 16) (x : Option (List Pane)) : State :=
  { s with vc := { s.vc with views := s.vc.views.set v x } }

/-- Change a VALID set's bind count (R72). -/
def Grid.changeBinds (f : Nat → Nat) : Grid → Grid
  | .held g (.valid binds inUse) => .held g (.valid (f binds) inUse)
  | g => g

/-- Change the bind count of set `i`. -/
def State.changeBinds (s : State) (f : Nat → Nat) (i : Fin 32) : State := s.setGrid i (s.gs.sets[i].changeBinds f)

/-- A binding is removed: the bind count of the set it named falls by one (R72). -/
def State.unbind (s : State) : Option (Fin 32) → State
  | none => s
  | some i => s.changeBinds (· - 1) i

/-- Every binding of the panes is removed (R77, R80). -/
def State.unbindAll (s : State) (panes : List Pane) : State := panes.foldl (fun t p => t.unbind p.binding) s

/-- The panes of a view, none for EMPTY. -/
def State.panes (s : State) (v : Fin 16) : List Pane := s.vc.views[v].getD []

/-! ### Commands -/

/-- VIEW_DEFINE after the generation check (R77). -/
def judgeViewDefine (view : Nat) (panes : List PaneArg) (s : State) : Verdict :=
  match index 16 view, layoutOf panes with
  | none, _ => .refuse .badArg
  | some _, none => .refuse .badArg
  | some v, some l =>
    if s.viewInUse v then .refuse .inUse
    else .take .ok .empty ((s.unbindAll (s.panes v)).setView v (some l))

/-- VIEW_DEFINE (R77). -/
def execViewDefine (h : Hdr) (view : Nat) (panes : List PaneArg) (s : State) : Outcome State Fault Refusal :=
  guarded s h 0x48 (judgeViewDefine view panes)

/-- Bind set `i` to pane `k` of a view whose panes are `l` (R78 step 5): the set's count rises by one, and that of a set
bound before falls by one. -/
def State.bind (s : State) (v : Fin 16) (l : List Pane) (k : Nat) (old : Option (Fin 32)) (i : Fin 32) : State :=
  (((s.unbind old).changeBinds (· + 1) i)).setView v (some (l.modify k fun p => { p with binding := some i }))

/-- VIEW_BIND after the generation check (R78). -/
def judgeViewBind (view pane grid : Nat) (s : State) : Verdict :=
  match index 16 view, index 32 grid with
  | none, _ => .refuse .badArg
  | some _, none => .refuse .badArg
  | some v, some i =>
    if 1 < pane then .refuse .badArg
    else
      match s.vc.views[v] with
      | none => .refuse .wrongState
      | some l =>
        match l[pane]? with
        | none => .refuse .badArg
        | some p =>
          match s.gs.sets[i] with
          | .held g (.valid _ _) =>
            if g.bw ≠ p.w / 16 ∨ g.bh ≠ p.h / 16 then .refuse .sizeMismatch
            else .take .ok .empty (s.bind v l pane p.binding i)
          | _ => .refuse .wrongState

/-- VIEW_BIND (R78). -/
def execViewBind (h : Hdr) (view pane grid : Nat) (s : State) : Outcome State Fault Refusal :=
  guarded s h 0x49 (judgeViewBind view pane grid)

/-- VIEW_UNBIND after the generation check (R79). -/
def judgeViewUnbind (view pane : Nat) (s : State) : Verdict :=
  match index 16 view with
  | none => .refuse .badArg
  | some v =>
    if 1 < pane then .refuse .badArg
    else
      match s.vc.views[v] with
      | none => .refuse .wrongState
      | some l =>
        match l[pane]? with
        | none => .refuse .badArg
        | some p =>
          if p.binding = none then .refuse .notFound
          else
            .take .ok .empty
              ((s.unbind p.binding).setView v (some (l.modify pane fun p => { p with binding := none })))

/-- VIEW_UNBIND (R79). -/
def execViewUnbind (h : Hdr) (view pane : Nat) (s : State) : Outcome State Fault Refusal :=
  guarded s h 0x4A (judgeViewUnbind view pane)

/-- VIEW_ERASE after the generation check (R80). -/
def judgeViewErase (view : Nat) (s : State) : Verdict :=
  match index 16 view with
  | none => .refuse .badArg
  | some v =>
    match s.vc.views[v] with
    | none => .refuse .wrongState
    | some l => if s.viewInUse v then .refuse .inUse else .take .ok .empty ((s.unbindAll l).setView v none)

/-- VIEW_ERASE (R80). -/
def execViewErase (h : Hdr) (view : Nat) (s : State) : Outcome State Fault Refusal :=
  guarded s h 0x4B (judgeViewErase view)

/-- Put the default view. -/
def State.setDefault (s : State) (d : Option (Fin 16)) : State := { s with vc := { s.vc with dflt := d } }

/-- DEFAULT_VIEW after the generation check (R81). -/
def judgeDefaultView (view : Option Nat) (s : State) : Verdict :=
  match view with
  | none => .take .ok .empty (s.setDefault none)
  | some i =>
    match index 16 i with
    | none => .refuse .badArg
    | some v => if s.vc.views[v].isNone then .refuse .notFound else .take .ok .empty (s.setDefault (some v))

/-- DEFAULT_VIEW (R81). -/
def execDefaultView (h : Hdr) (view : Option Nat) (s : State) : Outcome State Fault Refusal :=
  guarded s h 0x4C (judgeDefaultView view)

/-- VIEW_STATUS (R83). -/
def judgeViewStatus (sel : ViewSel) (s : State) : Verdict :=
  match sel with
  | .defaultView => report s (.defaultView s.vc.dflt)
  | .view i =>
    match index 16 i with
    | none => .refuse .badArg
    | some v =>
      report s (.view s.vc.views[v] (decide (s.vc.dflt = some v)) (s.ca.claims v) (decide (s.ca.reverseView = some v)))

/-- VIEW_STATUS (R83). -/
def execViewStatus (h : Hdr) (sel : ViewSel) (s : State) : Outcome State Fault Refusal :=
  command s h 0x4D (judgeViewStatus sel)

end Sys2Proof.Machine
end

