-- ==== Sys2Proof/Machine/Claims.lean ====
section
/-! DEFINITION. The claim arbiter (08): claims from the ports, the reverse claim, the decision. -/

namespace Sys2Proof.Machine

open Host (Outcome)

/-! ### The stack (R138 to R141) -/

/-- Ranks (R138). -/
def Source.rank : Source → Nat
  | .portD => 1
  | .gear => 2
  | .portA _ => 3

/-- The rank of an entry. -/
def Claim.rank (e : Claim) : Nat := e.source.rank

/-- The port that owns an entry; a GEAR entry has none. -/
def Source.port : Source → Option Port
  | .portD => some .d
  | .gear => none
  | .portA _ => some .a

/-- The token value after `t`, from 255 round to 1 (R139). -/
def nextToken (t : Byte) : Byte := if t = 255 then 1 else t + 1

/-- The first token from `t` on that no entry of the stack carries (R139), tried at most `fuel` times. -/
def freeToken (stack : List Claim) : Nat → Byte → Byte
  | 0, t => t
  | fuel + 1, t => if stack.any fun e => decide (e.token = t) then freeToken stack fuel (nextToken t) else t

/-- The fresh token of a new entry (R139): at most as many values carried as the stack has entries. -/
def Arbiter.freshToken (ca : Arbiter) : Byte := freeToken ca.stack (ca.stack.length + 1) ca.token

/-- Place an entry at the front of its rank's group (R138, R140). -/
def placeClaim (e : Claim) (stack : List Claim) : List Claim :=
  stack.takeWhile (fun x => decide (e.rank < x.rank)) ++ e :: stack.dropWhile fun x => decide (e.rank < x.rank)

/-- The place in the stack of the entry with a token, counted from 0 at the head. -/
def placeOf (t : Byte) (stack : List Claim) : Nat := stack.findIdx fun e => decide (e.token = t)

/-- The number of entries of a rank. -/
def countRank (r : Nat) (stack : List Claim) : Nat := (stack.filter fun e => decide (e.rank = r)).length

/-- Put the claim stack. -/
def State.setStack (s : State) (l : List Claim) : State := { s with ca := { s.ca with stack := l } }

/-- Room for a new entry of rank `r` (R141): on a full stack the last entry is evicted if its rank is lower, and its
port is told with CLAIM_EVICTED; `none` when no room can be made. -/
def State.makeRoom (s : State) (r : Nat) : Option State :=
  if s.ca.stack.length < Config.stackMax then some s
  else
    match s.ca.stack.getLast? with
    | none => some s
    | some e =>
      if e.rank < r then
        let t := s.setStack s.ca.stack.dropLast
        some
          (match e.source.port with
          | none => t
          | some p => t.notifyOwner p .claimEvicted e.token.toNat e.view)
      else none

/-- Make a new entry with a fresh token at the front of its group (R139, R140). -/
def State.newClaim (s : State) (src : Source) (v : Fin 16) : State :=
  let t := s.ca.freshToken
  { s with ca :=
      { s.ca with
        stack := placeClaim { token := t, source := src, view := v, time := s.tbu.now } s.ca.stack
        token := nextToken t } }

/-- The source of a port's claim (R140): a PORT_A entry takes a deadline. -/
def State.claimSource (s : State) : Port → Source
  | .d => .portD
  | .a => .portA (s.afterMs s.cp.portA.claimHold)

/-- The limit of entries of a port's source (R138). -/
def sourceLimit : Port → Nat
  | .d => 3
  | .a => 4

/-- CLAIM (R140). -/
def judgeClaim (p : Port) (view : Nat) (s : State) : Verdict :=
  match index 16 view with
  | none => .refuse .badArg
  | some v =>
    let src := s.claimSource p
    if s.vc.views[v].isNone then .refuse .notFound
    else if sourceLimit p ≤ countRank src.rank s.ca.stack then .refuse .full
    else
      match s.makeRoom src.rank with
      | none => .refuse .full
      | some t =>
        let u := t.newClaim src v
        .take .ok (.claimed t.ca.freshToken (placeOf t.ca.freshToken u.ca.stack) u.ca.stack.length) u

/-- CLAIM (R140). -/
def execClaim (h : Hdr) (view : Nat) (s : State) : Outcome State Fault Refusal :=
  command s h 0x70 (judgeClaim h.port view)

/-- A token operand (R142, R143): 1 to 255. -/
def tokenOf (n : Nat) : Option Byte := if 1 ≤ n ∧ n ≤ 255 then some (BitVec.ofNat 8 n) else none

/-- The entry that carries a token. -/
def Arbiter.find (ca : Arbiter) (t : Byte) : Option Claim := ca.stack.find? fun e => decide (e.token = t)

/-- The stack without the entry that carries a token. -/
def dropToken (t : Byte) (stack : List Claim) : List Claim := stack.filter fun e => decide (e.token ≠ t)

/-- RENEW (R142). -/
def judgeRenew (p : Port) (token : Nat) (s : State) : Verdict :=
  match tokenOf token with
  | none => .refuse .badArg
  | some t =>
    match s.ca.find t with
    | none => .refuse .notFound
    | some e =>
      if !e.source.isPortA || decide (p = .d) then .refuse .notOwner
      else
        let l := placeClaim { e with source := s.claimSource .a } (dropToken t s.ca.stack)
        .take .ok (.renewed (placeOf t l) l.length) (s.setStack l)

/-- RENEW (R142). -/
def execRenew (h : Hdr) (token : Nat) (s : State) : Outcome State Fault Refusal :=
  command s h 0x71 (judgeRenew h.port token)

/-- RELEASE (R143). -/
def judgeRelease (p : Port) (token : Nat) (s : State) : Verdict :=
  match tokenOf token with
  | none => .refuse .badArg
  | some t =>
    match s.ca.find t with
    | none => .refuse .notFound
    | some e =>
      if e.source.port ≠ some p then .refuse .notOwner
      else .take .ok .empty (s.setStack (dropToken t s.ca.stack))

/-- RELEASE (R143). -/
def execRelease (h : Hdr) (token : Nat) (s : State) : Outcome State Fault Refusal :=
  command s h 0x72 (judgeRelease h.port token)

/-- A PORT_A entry whose deadline is reached (R144). -/
def Claim.due (e : Claim) (s : State) : Bool :=
  match e.source with
  | .portA d => s.reached (some d)
  | _ => false

/-- The expiry of the PORT_A entry with a token (R144). -/
def State.expireClaim (s : State) (t : Byte) : State :=
  match s.ca.find t with
  | none => s
  | some e =>
    if e.due s then (s.setStack (dropToken t s.ca.stack)).notifyOwner .a .claimExpired t.toNat e.view else s

/-- CLAIM_EXPIRY (R144). -/
def execClaimExpiry (t : Byte) (s : State) : Outcome State Fault Refusal := .next (s.expireClaim t)

/-! ### The reverse claim (R145 to R147) -/

/-- The source is GEAR. -/
def Source.isGear : Source → Bool
  | .gear => true
  | _ => false

/-- A GEAR entry exists. -/
def Arbiter.hasGear (ca : Arbiter) : Bool := ca.stack.any fun e => e.source.isGear

/-- The GEAR entry is removed and the linger timer stopped. -/
def State.dropGear (s : State) : State :=
  { s with ca := { s.ca with stack := s.ca.stack.filter (fun e => !e.source.isGear), lingerTimer := none } }

/-- Make the GEAR entry for a reverse view (R146): on a full stack the oldest PORT_D entry is evicted first. -/
def State.makeGear (s : State) (v : Fin 16) : State :=
  match s.makeRoom 2 with
  | none => s
  | some t => t.newClaim .gear v

/-- Put the linger timer. -/
def State.setLinger (s : State) (t : Option Word32) : State := { s with ca := { s.ca with lingerTimer := t } }

/-- A change of the effective GEAR value (R146). -/
def State.gearChange (s : State) (g : EffGear) : State :=
  match g with
  | .unknown => s
  | .reverse =>
    let s := s.setLinger none
    match s.ca.reverseView with
    | none => s
    | some v => if s.ca.hasGear then s else s.makeGear v
  | .notReverse =>
    if s.ca.hasGear && s.ca.lingerTimer.isNone then
      if s.ca.linger = 0 then s.dropGear else s.setLinger (some (s.afterMs s.ca.linger))
    else s

/-- The effective GEAR value (R162). -/
def SignalIntake.effGear (si : SignalIntake) : EffGear :=
  match si.gear.st, si.gear.value with
  | .fresh _, some .reverse => .reverse
  | .fresh _, some .notReverse => .notReverse
  | .held _, some .reverse => .reverse
  | .held _, some .notReverse => .notReverse
  | _, _ => .unknown

/-- What a new reverse view does (R145). -/
def State.applyReverseView (s : State) (v : Option (Fin 16)) : State :=
  match v with
  | none => s.dropGear
  | some v =>
    if s.ca.hasGear then
      s.setStack (s.ca.stack.map fun e => if e.source.isGear then { e with view := v } else e)
    else if s.si.effGear = .reverse then s.gearChange .reverse
    else s

/-- The reverse view that GEAR_SETUP names, or the refusal (R145 steps 1 and 2). -/
def State.reverseArg (s : State) : Option Nat → Except Result (Option (Fin 16))
  | none => .ok none
  | some i =>
    match index 16 i with
    | none => .error .badArg
    | some v => if s.vc.views[v].isNone then .error .notFound else .ok (some v)

/-- GEAR_SETUP after the generation check (R145). -/
def judgeGearSetup (view : Option Nat) (linger : Nat) (gate : BitVec 16) (s : State) : Verdict :=
  match s.reverseArg view with
  | .error r => .refuse r
  | .ok v =>
    let l := clampNat 0 10000 linger
    .take (clampResult (decide (l ≠ linger))) .empty
      (({ s with ca := { s.ca with reverseView := v, linger := l, gate := gate } }).applyReverseView v)

/-- GEAR_SETUP (R145). -/
def execGearSetup (h : Hdr) (view : Option Nat) (linger : Nat) (gate : BitVec 16) (s : State) :
    Outcome State Fault Refusal :=
  guarded s h 0x73 (judgeGearSetup view linger gate)

/-- The linger timer expires (R147). -/
def State.lingerExpiry (s : State) : State := if s.reached s.ca.lingerTimer then s.dropGear else s

/-- LINGER_TIMER_EXPIRY (R147). -/
def execLingerTimerExpiry (s : State) : Outcome State Fault Refusal := .next s.lingerExpiry

/-! ### The decision (R148 to R150) -/

/-- The effective SPEED value (R162). -/
def SignalIntake.effSpeed (si : SignalIntake) : Nat :=
  match si.speed.st with
  | .fresh _ => si.speed.value.getD 0
  | .held _ => si.speed.value.getD 0
  | _ => 0

/-- The speed gate's mute flag (R148). -/
def State.gateMutes (s : State) : Bool :=
  decide (s.ca.gate.toNat < s.si.effSpeed)
    && (match s.ca.stack.head? with | none => true | some e => decide (e.rank < 2))

/-- The decision as it stands (R149). -/
def State.decision (s : State) : Decision :=
  if s.gateMutes then { view := none, mute := true }
  else
    match s.ca.stack.head? with
    | some e => { view := some e.view, mute := false }
    | none => { view := s.vc.dflt, mute := false }

/-- A view id, or 255 for none (R150). -/
def viewCode (v : Option (Fin 16)) : Nat :=
  match v with
  | none => 255
  | some v => v

/-- A flag as 0 or 1. -/
def bit (b : Bool) : Nat := if b then 1 else 0

/-- Store the decision and the speed read, and send VIEW_CHANGED when it differs from the previous one (R149, R150). -/
def State.takeDecision (s : State) : State :=
  let d := s.decision
  let old := s.ca.decision
  let t := { s with ca := { s.ca with decision := d, speedAt := s.si.effSpeed } }
  if d = old then t
  else t.notify .viewChanged (viewCode d.view) (bit d.mute + 256 * viewCode old.view + 65536 * bit old.mute)

/-! ### Reading the arbiter -/

/-- The time left to a PORT_A entry's deadline in ms (R151). -/
def Claim.left (e : Claim) (s : State) : Option Nat :=
  match e.source with
  | .portA d => some (s.untilMs d)
  | _ => none

/-- The source of an entry without its deadline (R138). -/
def Source.kind : Source → SourceKind
  | .portD => .portD
  | .gear => .gear
  | .portA _ => .portA

/-- An entry as reported (R151). -/
def Claim.report (e : Claim) (s : State) : ClaimReport :=
  { token := e.token, source := e.source.kind, view := e.view, time := e.time, left := e.left s }

/-- What CLAIM_STATUS reports (R151). -/
def State.claimReport (s : State) : Payload :=
  .claims s.ca.stack.length (s.ca.stack.map fun e => e.report s) (countRank 1 s.ca.stack) (countRank 2 s.ca.stack)
    (countRank 3 s.ca.stack) s.ca.token s.ca.reverseView s.ca.linger s.ca.gate (s.ca.lingerTimer.map s.untilMs)
    s.ca.speedAt s.ca.decision

/-- CLAIM_STATUS (R151). -/
def execClaimStatus (h : Hdr) (s : State) : Outcome State Fault Refusal :=
  bare s h 0x74 fun s => report s s.claimReport

end Sys2Proof.Machine
end

