-- ==== Sys2Proof/Machine/Draw.lean ====
section
/-! DEFINITION. What the overlay unit draws (07): for one pane pixel, the palette entries that cover it, in the order in
which they are combined. -/

namespace Sys2Proof.Machine

/-! ### Combining (R124) -/

/-- One sample combined with a palette entry's at its alpha (R124). -/
def mixSample (alpha : Nat) (ov px : Byte) : Byte :=
  BitVec.ofNat 8 (roundHalfUp (alpha * ov.toNat + (16 - alpha) * px.toNat) 16)

/-- A pixel's samples combined with a palette entry (R124). -/
def mixPixel (p : Yuv) (e : PalEntry) : Yuv :=
  { y := mixSample e.alpha e.y p.y, u := mixSample e.alpha e.u p.u, v := mixSample e.alpha e.v p.v }

/-- Palette entry `i` (R121). -/
def OverlaySetup.entry (o : OverlaySetup) (i : Nat) : PalEntry := o.palette.getD i blackEntry

/-- A pixel distance for a ground distance in mm (R128): `mm × σ / 1,000` rounded half up. -/
def toPixels (mm sigma : Nat) : Nat := roundHalfUp (mm * sigma) 1000

/-! ### The silhouette (R125) -/

/-- The bitmap pixel number that falls on pane pixel (px, py), for a silhouette placed at `at` (R125). -/
def silhouettePixel (o : OverlaySetup) (at' : Int × Int) (px py : Int) : Option Nat :=
  let c := px - at'.1
  let r := py - at'.2
  if 0 ≤ c ∧ c < o.silW ∧ 0 ≤ r ∧ r < o.silH then some (r.toNat * o.silW + c.toNat) else none

/-- The index of bitmap pixel `p` in its byte (11, Silhouette packing). -/
def packedIndex (b : Byte) (p : Nat) : Nat := b.toNat / 4 ^ (p % 4) % 4

/-- The silhouette layer at a pane pixel (R125); `read p` is the byte of the bitmap that holds pixel `p`, as read when
this pixel is drawn. -/
def silhouetteLayer (o : OverlaySetup) (sil : Option (Int × Int)) (read : Nat → Byte) (px py : Int) : List PalEntry :=
  match sil with
  | none => []
  | some place =>
    match silhouettePixel o place px py with
    | none => []
    | some p => if packedIndex (read p) p = 0 then [] else [o.entry (packedIndex (read p) p)]

/-! ### Guide lines and distance marks (R126 to R130) -/

/-- The guide condition calls for guide lines (R126). -/
def guideOn (c : GuideCond) (g : EffGear) : Bool :=
  match c with
  | .auto => decide (g = .reverse)
  | .forcedOn => true
  | .off => false

/-- The curvature of a compose (R127). -/
def curvature (curve : Vector Int 33) (steer : Int) (unknown : Bool) : Int :=
  if unknown then 0
  else if k = 32 then curve.getD 32 0
  else curve.getD k 0 + roundHalfAway ((curve.getD (k + 1) 0 - curve.getD k 0) * r) 500
where
  a : Nat := (clampInt (-8000) 8000 steer + 8000).toNat
  k : Nat := a / 500
  r : Nat := a % 500

/-- A row at distance Δy is skipped by dashing (R130). -/
def dashed (start dy : Nat) : Bool := decide ((dy - start) / 8 % 2 = 1)

/-- The lateral shift of a guide row (R128 step 1). -/
def lateralShift (kappa : Int) (dy sigma : Nat) : Int := roundHalfAway (kappa * (dy * dy : Nat)) (131072 * sigma)

/-- The band entry of a guide row (R128 step 4). -/
def bandEntry (g : Guide) (sigma dy : Nat) : Nat :=
  if dy < toPixels g.near sigma then 4 else if dy < toPixels g.mid sigma then 5 else 6

/-- A line of thickness `t` about a centre covers a column (R128 step 3). -/
def lineCovers (t : Nat) (centre px : Int) : Bool :=
  decide (centre - (t / 2 : Nat) ≤ px ∧ px ≤ centre - (t / 2 : Nat) + t - 1)

/-- A row at distance Δy belongs to a distance mark (R129). A mark distance just outside start or end whose rows still reach
the guide rows is drawn there (DESIGN CHOICE, log entry 37). -/
def markRow (g : Guide) (sigma dy : Nat) : Bool :=
  g.marks.any fun m => decide (toPixels m sigma ≤ dy ∧ dy ≤ toPixels m sigma + g.thick - 1)

/-- The palette entry of the guide layer in a guide row that is drawn, at a column (R128, R129): a mark takes precedence
over a line between x_L and x_R; a line's pixels outside them keep their band entry (DESIGN CHOICE, log entry 36). -/
def guideEntry (g : Guide) (sigma : Nat) (x0 kappa : Int) (dy : Nat) (px : Int) : Option Nat :=
  if markRow g sigma dy ∧ xL ≤ px ∧ px ≤ xR then some 7
  else if lineCovers g.thick xL px || lineCovers g.thick xR px then some (bandEntry g sigma dy)
  else none
where
  xL : Int := x0 - toPixels g.halfTrack sigma + lateralShift kappa dy sigma
  xR : Int := x0 + toPixels g.halfTrack sigma + lateralShift kappa dy sigma

/-- The distance Δy of a pane row from row y0, when it is a guide row that is drawn (R128, R130). -/
def guideRow (g : Guide) (sigma : Nat) (unknown : Bool) (y0 py : Int) : Option Nat :=
  if py < y0 then none
  else if dy < toPixels g.start sigma ∨ toPixels g.stop sigma < dy then none
  else if unknown && dashed (toPixels g.start sigma) dy then none
  else some dy
where
  dy : Nat := (py - y0).toNat

/-- The guide layer at a pane pixel (R126 to R130). -/
def guideLayer (c : Snapshot) (t : TopPane) (px py : Int) : List PalEntry :=
  if t.guides && guideOn c.overlay.guide.cond c.gear then
    match guideRow c.overlay.guide t.sigma c.steerUnknown t.y0 py with
    | none => []
    | some dy =>
      match guideEntry c.overlay.guide t.sigma t.x0 (curvature c.overlay.curve c.steer c.steerUnknown) dy px with
      | none => []
      | some e => [c.overlay.entry e]
  else []

/-! ### Markers (R135) -/

/-- A pixel at `d` from the centre along one axis lies within a rectangle of half-extent `half`. -/
def within (half : Nat) (d : Int) : Bool := decide (-(half : Int) ≤ d ∧ d ≤ half)

/-- A pixel at `d` from the centre lies in the first three or last three columns (or rows) of the rectangle. -/
def nearEdge (half : Nat) (d : Int) : Bool := decide (d < -(half : Int) + 3 ∨ (half : Int) - 3 < d)

/-- A marker covers a pane pixel (R135). -/
def markerCovers (t : TopPane) (m : Marker) (px py : Int) : Bool :=
  within hw dx && within hl dy
    && (match m.shape with | .bar => true | .box => nearEdge hw dx || nearEdge hl dy)
where
  dx : Int := px - (t.x0 + roundHalfAway (m.x * t.sigma) 1000)
  dy : Int := py - (t.y0 + roundHalfAway (m.y * t.sigma) 1000)
  hw : Nat := roundHalfUp (m.width * t.sigma) 2000
  hl : Nat := roundHalfUp (m.length * t.sigma) 2000

/-- The marker layer at a pane pixel, from the tail of the list to its head (R135). -/
def markerLayer (c : Snapshot) (t : TopPane) (px py : Int) : List PalEntry :=
  if t.markers then
    (c.markers.reverse.filter fun m => markerCovers t m px py).map fun m => c.overlay.entry (7 + m.severity)
  else []

/-- Every entry that covers a pane pixel, in drawing order (R102, R124). The silhouette needs an area JOINED to OVERLAY
at the compose start. -/
def overlayEntries (c : Snapshot) (t : TopPane) (read : Nat → Byte) (px py : Int) : List PalEntry :=
  silhouetteLayer c.overlay (if c.overlayArea.isSome then t.sil else none) read px py
    ++ (guideLayer c t px py ++ markerLayer c t px py)

end Sys2Proof.Machine
end

