-- ==== Sys2Proof/Machine/Rings.lean ====
section
/-! DEFINITION. Areas, rings and slots (02): sizes and positions, the choices of fill and compose target, pins and
holds. Used by intake, frame store, matching, composition and scanout. -/

namespace Sys2Proof.Machine

/-! ### Sizes and positions -/

/-- A camera's slot stride in units: W × H × 2 / 65,536 rounded up (R1). -/
def Setup.stride (c : Setup) : Nat := (c.width * c.height * 2 + 65535) / 65536

/-- Bytes of a camera frame (R35). -/
def Setup.frameBytes (c : Setup) : Nat := c.width * c.height * 2

/-- The size of an area in units (R21). -/
def Area.size : Area → Nat
  | .undefined => 0
  | .range b l _ => l - b

/-- The first unit of an area. -/
def Area.base : Area → Nat
  | .undefined => 0
  | .range b _ _ => b

/-- Whether the area is JOINED to a target. -/
def Area.joinedTo (t : Target) : Area → Bool
  | .range _ _ (.joined u) => decide (u = t)
  | _ => false

/-- The area JOINED to a target, if any (R21). -/
def FrameStore.joined (fs : FrameStore) (t : Target) : Option (Fin 8) :=
  (List.finRange 8).find? fun i => fs.areas[i].joinedTo t

/-- The first byte of an area. -/
def FrameStore.areaByte (fs : FrameStore) (a : Fin 8) : Nat := fs.areas[a].base * Config.unitBytes

/-- The first byte of slot `k` of a ring in area `a` with a stride in units (R26). -/
def FrameStore.slotByte (fs : FrameStore) (a : Fin 8) (stride k : Nat) : Nat :=
  (fs.areas[a].base + k * stride) * Config.unitBytes

/-- The first byte of slot `k` of camera `n`'s ring (R26). -/
def State.camSlotByte (s : State) (n : Fin 4) (r : CamRing) (k : Nat) : Nat :=
  s.fsc.slotByte r.area s.ciu[n].setup.stride k

/-- The first byte of slot `k` of the output ring (R26). -/
def State.outSlotByte (s : State) (r : OutRing) (k : Nat) : Nat := s.fsc.slotByte r.area Config.outStride k

/-! ### Holds and pins -/

/-- The deadline of a port's hold on a camera slot, when set. -/
def CamSlot.hold (c : CamSlot) : Port → Option Word32
  | .d => c.holdD
  | .a => c.holdA

/-- Set or clear a port's hold. -/
def CamSlot.setHold (c : CamSlot) (p : Port) (h : Option Word32) : CamSlot :=
  match p with
  | .d => { c with holdD := h }
  | .a => { c with holdA := h }

/-- The deadline of a port's hold on an output slot, when set. -/
def OutSlot.hold (c : OutSlot) : Port → Option Word32
  | .d => c.holdD
  | .a => c.holdA

/-- Set or clear a port's hold. -/
def OutSlot.setHold (c : OutSlot) (p : Port) (h : Option Word32) : OutSlot :=
  match p with
  | .d => { c with holdD := h }
  | .a => { c with holdA := h }

/-- Neither port holds the slot. -/
def CamSlot.unheld (c : CamSlot) : Bool := c.holdD.isNone && c.holdA.isNone

/-- The slot has no pin and neither port hold (R31). -/
def CamSlot.loose (c : CamSlot) : Bool := !c.pin && c.unheld

/-- Neither port holds the slot. -/
def OutSlot.unheld (c : OutSlot) : Bool := c.holdD.isNone && c.holdA.isNone

/-- A slot as a ring begins it (R25): FREE, no pin, no hold. -/
def CamSlot.empty : CamSlot := { st := .free, pin := false, holdD := none, holdA := none }

/-- A slot as the output ring begins it (R25). -/
def OutSlot.empty : OutSlot := { st := .free, holdD := none, holdA := none }

/-- The sequence of the frame a camera slot holds, 0 when FREE. -/
def CamSlotState.seq : CamSlotState → Word32
  | .free => 0
  | .filling q _ _ => q
  | .ready q _ _ => q
  | .damaged q _ _ _ => q

/-- The sequence of the frame an output slot holds, 0 when it is not DONE. -/
def OutSlotState.seq : OutSlotState → Word32
  | .finished f => f.seq
  | _ => 0

/-! ### Ages by sequence (R30) -/

/-- The distance (next − sequence) modulo 2^32: the greater, the older. -/
def seqAge (next seq : Word32) : Nat := (next - seq).toNat

/-- The age of a READY slot's frame. -/
def CamSlot.readyAge (next : Word32) (c : CamSlot) : Option Nat :=
  match c.st with
  | .ready q _ _ => some (seqAge next q)
  | _ => none

/-- The age of a DONE slot's frame. -/
def OutSlot.doneAge (next : Word32) (c : OutSlot) : Option Nat :=
  match c.st with
  | .finished f => some (seqAge next f.seq)
  | _ => none

/-- The newest READY slot of a camera ring (R30): the smallest distance. -/
def CamRing.newestReady (r : CamRing) : Option Nat :=
  (argMax (fun c => (c.readyAge r.next).map fun a => 2 ^ 32 - a) r.slots).map Prod.fst

/-- The newest DONE slot of the output ring (R30). -/
def OutRing.newestDone (r : OutRing) : Option Nat :=
  (argMax (fun c => (c.doneAge r.next).map fun a => 2 ^ 32 - a) r.slots).map Prod.fst

/-! ### Choosing targets -/

/-- FREE or DAMAGED (R31 step 1). -/
def CamSlotState.reusable : CamSlotState → Bool
  | .free => true
  | .damaged _ _ _ _ => true
  | _ => false

/-- The fill target (R31), with whether it replaces a READY frame. -/
def CamRing.fillTarget (r : CamRing) : Option (Nat × Bool) :=
  match r.slots.findIdx? fun c => c.st.reusable && c.loose with
  | some k => some (k, false)
  | none =>
    (argMax (fun c => if c.loose then c.readyAge r.next else none) r.slots).map fun b => (b.1, true)

/-- The DONE slots that may become a compose target (R33 step 2), paired with their index: no scanout hold, neither
port hold, and not the newest DONE slot. -/
def OutRing.targetScore (r : OutRing) (held : Option Nat) (c : OutSlot × Nat) : Option Nat :=
  if c.1.unheld && decide (held ≠ some c.2) && decide (r.newestDone ≠ some c.2) then c.1.doneAge r.next else none

/-- The compose target (R33), `held` being the slot with the scanout hold. -/
def OutRing.composeTarget (r : OutRing) (held : Option Nat) : Option Nat :=
  match r.slots.findIdx? fun c => decide (c.st = .free) with
  | some k => some k
  | none => (argMax (r.targetScore held) r.slots.zipIdx).map Prod.fst

/-! ### Changing a ring -/

/-- Change slot `k` of a camera ring. -/
def CamRing.modify (r : CamRing) (k : Nat) (f : CamSlot → CamSlot) : CamRing := { r with slots := r.slots.modify k f }

/-- Change slot `k` of the output ring. -/
def OutRing.modify (r : OutRing) (k : Nat) (f : OutSlot → OutSlot) : OutRing := { r with slots := r.slots.modify k f }

/-- Put camera `n`'s ring. -/
def State.setCamRing (s : State) (n : Fin 4) (r : Option CamRing) : State :=
  { s with fsc := { s.fsc with camRing := s.fsc.camRing.set n r } }

/-- Put the output ring. -/
def State.setOutRing (s : State) (r : Option OutRing) : State := { s with fsc := { s.fsc with outRing := r } }

/-- Put an area entry. -/
def State.setArea (s : State) (a : Fin 8) (x : Area) : State :=
  { s with fsc := { s.fsc with areas := s.fsc.areas.set a x } }

/-- Change slot `k` of camera `n`'s ring, if it has one. -/
def State.modifyCamSlot (s : State) (n : Fin 4) (k : Nat) (f : CamSlot → CamSlot) : State :=
  match s.fsc.camRing[n] with
  | none => s
  | some r => s.setCamRing n (some (r.modify k f))

/-- Put camera `n`'s intake unit. -/
def State.setCam (s : State) (n : Fin 4) (c : Cam) : State := { s with ciu := s.ciu.set n c }

/-- Change camera `n`'s intake unit. -/
def State.modifyCam (s : State) (n : Fin 4) (f : Cam → Cam) : State := s.setCam n (f s.ciu[n])

/-- Change the timebase's record of camera `n`. -/
def State.modifyTiming (s : State) (n : Fin 4) (f : CamTiming → CamTiming) : State :=
  { s with tbu := { s.tbu with cams := s.tbu.cams.set n (f s.tbu.cams[n]) } }

end Sys2Proof.Machine
end

