-- ==== Sys2Proof/Machine/Pass.lean ====
section
/-! DEFINITION. The composition pass (05, sections 5.4 to 5.7): every pixel of the output frame, and the zone statistics,
as functions of what the pass reads. -/

namespace Sys2Proof.Machine

/-- The pinned frame of a usable camera: its first byte in DRAM and the camera's width and height. -/
structure CamFrame where
  base : Nat
  width : Nat
  height : Nat
deriving DecidableEq, Repr

/-- What the pass reads: the current compose, DRAM, grid memory, the shapes of the grid sets, the frames of the usable
cameras, the first byte of the OVERLAY area, and the free-value counter (log entry 6). -/
structure PassInput where
  compose : Compose
  dram : Memory
  grid : Memory
  shape : Fin 32 → Option GridShape
  cam : Nat → Option CamFrame
  overlayByte : Nat
  fresh : Nat

/-! ### Sampling one camera (R93 to R97) -/

/-- The bilinear mean of four corner values at offsets (i, j) of a block (R93, R94). -/
def bilinear (i j a00 a10 a01 a11 : Nat) : Nat :=
  roundHalfUp ((16 - i) * (16 - j) * a00 + i * (16 - j) * a10 + (16 - i) * j * a01 + i * j * a11) 256

/-- A coordinate of camera `c` in a corner node. -/
def NodeRec.coord (r : NodeRec) (c : Nat) (f : NodeEntry → Nat) : Nat := ((r.entry c).map f).getD 0

/-- The sample coordinate of camera `c` at offsets (i, j) of block (bx, by) (R93). -/
def sampleCoord (m : Memory) (g : GridShape) (bx byy i j c : Nat) (f : NodeEntry → Nat) : Nat :=
  bilinear i j ((m.node g bx byy).coord c f) ((m.node g (bx + 1) byy).coord c f) ((m.node g bx (byy + 1)).coord c f)
    ((m.node g (bx + 1) (byy + 1)).coord c f)

/-- The Y sample of a frame's pixel, the column and row clamped to the frame (R95; R41). -/
def CamFrame.luma (f : CamFrame) (m : Memory) (x y : Nat) : Nat :=
  (m.read (f.base + min y (f.height - 1) * (f.width * 2) + 2 * min x (f.width - 1))).toNat

/-- The raw luma at (u, v), in units of 1/16 pixel (R95). -/
def CamFrame.rawLuma (f : CamFrame) (m : Memory) (u v : Nat) : Nat :=
  roundHalfUp
    ((16 - fx) * (16 - fy) * f.luma m x0 y0 + fx * (16 - fy) * f.luma m (x0 + 1) y0
      + (16 - fx) * fy * f.luma m x0 (y0 + 1) + fx * fy * f.luma m (x0 + 1) (y0 + 1)) 256
where
  x0 : Nat := u / 16
  fx : Nat := u % 16
  y0 : Nat := v / 16
  fy : Nat := v % 16

/-- The chroma byte at offset `k` of the pair nearest to (u, v): 1 for U, 3 for V (R96). -/
def CamFrame.chroma (f : CamFrame) (m : Memory) (u v k : Nat) : Nat :=
  (m.read (f.base + yr * (f.width * 2) + 4 * (xr / 2) + k)).toNat
where
  xr : Nat := min ((u + 8) / 16) (f.width - 1)
  yr : Nat := min ((v + 8) / 16) (f.height - 1)

/-- The gained luma (R97). -/
def gained (y g : Nat) : Nat := min 255 (roundHalfUp (y * g) 256)

/-- What one camera gives for a pixel: its raw luma, its gained luma and its chroma (R95 to R97). -/
structure CamSample where
  raw : Nat
  y : Nat
  u : Nat
  v : Nat
deriving DecidableEq, Repr

/-- The sample of camera `c`, whose frame is `f`, at offsets (i, j) of block (bx, by) (R93 to R97). -/
def PassInput.sample (e : PassInput) (g : GridShape) (bx byy i j c : Nat) (f : CamFrame) : CamSample :=
  { raw := raw, y := gained raw (e.compose.snap.gains.getD c 256), u := f.chroma e.dram u v 1,
    v := f.chroma e.dram u v 3 }
where
  u : Nat := sampleCoord e.grid g bx byy i j c NodeEntry.u
  v : Nat := sampleCoord e.grid g bx byy i j c NodeEntry.v
  raw : Nat := f.rawLuma e.dram u v

/-! ### The base value (R91, R92, R98, R99) -/

/-- The colour of a palette entry drawn opaque (R99). -/
def colourOf (e : PalEntry) : Yuv := { y := e.y, u := e.u, v := e.v }

/-- The latched colour of palette entry `i`. -/
def PassInput.fill (e : PassInput) (i : Nat) : Yuv := colourOf (e.compose.snap.overlay.entry i)

/-- Hatch at an output position (R98). -/
def PassInput.hatch (e : PassInput) (x y : Nat) : Yuv := if (x + y) / 8 % 2 = 0 then e.fill 11 else e.fill 12

/-- A pixel of one camera (R98). -/
def CamSample.single (a : CamSample) : Yuv := { y := .ofNat 8 a.y, u := .ofNat 8 a.u, v := .ofNat 8 a.v }

/-- One sample blended with weight `w` of P (R98). -/
def blendSample (w p s : Nat) : Byte := .ofNat 8 (roundHalfUp (w * p + (256 - w) * s) 256)

/-- A pixel blended of P and S with weight `w` of P (R98). -/
def blendPixel (w : Nat) (p s : CamSample) : Yuv :=
  { y := blendSample w p.y s.y, u := blendSample w p.u s.u, v := blendSample w p.v s.v }

/-- What one pixel adds to the statistics: the zone and the raw lumas of its first and second cameras (R101). -/
structure ZoneAdd where
  zone : Fin 4
  a : Nat
  b : Nat
deriving DecidableEq, Repr

/-- The zone of the adjacent cameras P and S, and whether P is its first camera (R100). -/
def zoneOf (p s : Nat) : Fin 4 × Bool := if (p + 1) % 4 = s then (Fin.ofNat 4 p, true) else (Fin.ofNat 4 s, false)

/-- What a pixel sampled from both P and S adds (R101). -/
def zoneAdd (p s : Nat) (a b : CamSample) : ZoneAdd :=
  match zoneOf p s with
  | (z, true) => { zone := z, a := a.raw, b := b.raw }
  | (z, false) => { zone := z, a := b.raw, b := a.raw }

/-- The blend weight of P (R94). -/
def BlockRec.weight (r : BlockRec) (i j : Nat) : Nat := bilinear i j r.w00 r.w10 r.w01 r.w11

/-- A pixel of a block by its plan (R92): its base value, and what it adds when both P and S are sampled. -/
def PassInput.planPixel (e : PassInput) (g : GridShape) (r : BlockRec) (bx byy i j x y : Nat) : Yuv × Option ZoneAdd :=
  if r.p = camNone then (e.fill 13, none)
  else
    match e.cam r.p, r.s with
    | none, none => (e.hatch x y, none)
    | some f, none => ((e.sample g bx byy i j r.p f).single, none)
    | p, some s =>
      match p, e.cam s with
      | none, none => (e.hatch x y, none)
      | some f, none => ((e.sample g bx byy i j r.p f).single, none)
      | none, some f => ((e.sample g bx byy i j s f).single, none)
      | some f, some f' =>
        let a := e.sample g bx byy i j r.p f
        let b := e.sample g bx byy i j s f'
        (blendPixel (r.weight i j) a b, some (zoneAdd r.p s a b))

/-- A pane covers an output pixel. -/
def Pane.covers (p : Pane) (x y : Nat) : Bool := decide (p.x ≤ x ∧ x < p.x + p.w ∧ p.y ≤ y ∧ y < p.y + p.h)

/-- The pane of the latched view that covers an output pixel, with the shape of its bound set, when it has one (R91; log entry 34). -/
def PassInput.boundPane (e : PassInput) (x y : Nat) : Option (Pane × GridShape) :=
  match e.compose.snap.panes.find? fun p => p.covers x y with
  | none => none
  | some p => (p.binding.bind e.shape).map fun g => (p, g)

/-- The pixel of a pane with a bound set (R91 case 3). -/
def PassInput.panePixel (e : PassInput) (p : Pane) (g : GridShape) (x y : Nat) : Yuv × Option ZoneAdd :=
  e.planPixel g (e.grid.block g ((x - p.x) / 16) ((y - p.y) / 16)) ((x - p.x) / 16) ((y - p.y) / 16)
    ((x - p.x) % 16) ((y - p.y) % 16) x y

/-- The base value of an output pixel (R91). -/
def PassInput.base (e : PassInput) (x y : Nat) : Yuv :=
  match e.boundPane x y with
  | none => e.fill 14
  | some (p, g) => (e.panePixel p g x y).1

/-! ### Statistics (R101) -/

/-- What an output pixel adds to the statistics: only pixels of TOP panes add. -/
def PassInput.adds (e : PassInput) (x y : Nat) : Option ZoneAdd :=
  match e.boundPane x y with
  | none => none
  | some (p, g) => if p.top.isSome then (e.panePixel p g x y).2 else none

/-- Add one pixel to the statistics record. -/
def addZone (t : Vector ZoneStats 4) (a : Option ZoneAdd) : Vector ZoneStats 4 :=
  match a with
  | none => t
  | some a => t.set a.zone { sa := t[a.zone].sa + a.a, sb := t[a.zone].sb + a.b, n := t[a.zone].n + 1 }

/-- Every pixel of the output frame, row by row. -/
def framePixels : List (Nat × Nat) :=
  (List.range Config.outHeight).flatMap fun y => (List.range Config.outWidth).map fun x => (x, y)

/-- The statistics record at the end of the pass (R101). -/
def PassInput.stats (e : PassInput) : Vector ZoneStats 4 :=
  framePixels.foldl (fun t xy => addZone t (e.adds xy.1 xy.2)) e.compose.stats

/-! ### The finished pixel (R102, R124) -/

/-- The former bytes of an address during the pass, latest first. -/
def Compose.former (c : Compose) (a : Nat) : List Byte := (c.replacedBytes.filter fun w => decide (w.1 = a)).map Prod.snd

/-- The bitmap byte of pixel number `p` as read when the output pixel (x, y) is drawn (R125, R40): where AREA_WRITE
replaced it during the pass, which of its values is read is a FREE VALUE (log entry 6). -/
def PassInput.bitmap (e : PassInput) (x y p : Nat) : Byte :=
  match e.compose.former (e.overlayByte + p / 4) with
  | [] => e.dram.read (e.overlayByte + p / 4)
  | l =>
    (e.dram.read (e.overlayByte + p / 4) :: l).getD (Config.silhouetteMoment e.fresh x y % (l.length + 1))
      (e.dram.read (e.overlayByte + p / 4))

/-- The palette entries drawn over an output pixel, in drawing order (R102): overlays fall on TOP panes with a bound set. -/
def PassInput.layers (e : PassInput) (x y : Nat) : List PalEntry :=
  match e.boundPane x y with
  | none => []
  | some (p, _) =>
    match p.top with
    | none => []
    | some t => overlayEntries e.compose.snap t (e.bitmap x y) ((x : Int) - p.x) ((y : Int) - p.y)

/-- The finished output pixel (R102). -/
def PassInput.pixel (e : PassInput) (x y : Nat) : Yuv := (e.layers x y).foldl mixPixel (e.base x y)

/-- An output pixel over which the first `n` of its overlay entries are drawn (R102, R105). -/
def PassInput.pixelAfter (e : PassInput) (n x y : Nat) : Yuv := ((e.layers x y).take n).foldl mixPixel (e.base x y)

/-- Byte `k` of an output frame whose pixel at (x, y) is `px x y` (R99): row y from byte 2,560 y, pair by pair; a pair's U and
V are those of its even pixel. -/
def packByte (px : Nat → Nat → Yuv) (k : Nat) : Byte :=
  match k % 4 with
  | 0 => (px (2 * pair) y).y
  | 1 => (px (2 * pair) y).u
  | 2 => (px (2 * pair + 1) y).y
  | _ => (px (2 * pair) y).v
where
  y : Nat := k / 2560
  pair : Nat := k % 2560 / 4

/-- Byte `k` of the finished output frame. -/
def PassInput.outByte (e : PassInput) (k : Nat) : Byte := packByte e.pixel k

end Sys2Proof.Machine
end

