-- ==== Sys2Proof/Machine/TimebaseCmds.lean ====
section
/-! DEFINITION. Timebase commands (03): TIMING_SET, TIME_STATUS, CAM_MASK, CAM_TRIGGER_NOW, and the scheduled trigger
pulses. The compose start itself stands in Compose.lean. -/

namespace Sys2Proof.Machine

open Host (Outcome)

/-- TIMING_SET after the generation check (R46); a new P is read at the next restart of the timer (R45). -/
def judgeTimingSet (period stale skew : Nat) (s : State) : Verdict :=
  let p := clampNat 20000 100000 period
  let st := clampNat 10 500 stale
  let sk := clampNat 0 100 skew
  .take (clampResult (decide (p ≠ period ∨ st ≠ stale ∨ sk ≠ skew))) .empty
    { s with tbu := { s.tbu with period := p, stale := st, skewLimit := sk } }

/-- TIMING_SET (R46). -/
def execTimingSet (h : Hdr) (period stale skew : Nat) (s : State) : Outcome State Fault Refusal :=
  guarded s h 0x30 (judgeTimingSet period stale skew)

/-- The effective phase of a pulse in a period of length `len` (R47). -/
def effectivePhase (phase len : Nat) : Nat := min phase (len - 1)

/-- What TIME_STATUS reports (R59). -/
def State.timeReport (s : State) : Payload :=
  .time s.tbu.now s.tbu.period s.tbu.running (s.untilUs s.tbu.timer) s.tbu.stale s.tbu.skewLimit s.tbu.mask
    s.tbu.lastMask s.tbu.lastSkew s.tbu.skewOver
    (Vector.ofFn fun n : Fin 4 =>
      { trig := s.ciu[n].setup.trig, phase := s.ciu[n].setup.phase,
        effective := effectivePhase s.ciu[n].setup.phase s.tbu.period, timing := s.tbu.cams[n] })

/-- TIME_STATUS (R59). -/
def execTimeStatus (h : Hdr) (s : State) : Outcome State Fault Refusal :=
  bare s h 0x31 fun s => report s s.timeReport

/-- CAM_MASK after the generation check (R53). -/
def judgeCamMask (mask : Nat) (s : State) : Verdict :=
  if 15 < mask then .refuse .badArg
  else .take .ok .empty { s with tbu := { s.tbu with mask := BitVec.ofNat 4 mask } }

/-- CAM_MASK (R53). -/
def execCamMask (h : Hdr) (mask : Nat) (s : State) : Outcome State Fault Refusal := guarded s h 0x14 (judgeCamMask mask)

/-- One pulse on the trigger output of camera `n` (log entry 14). -/
def State.sendPulse (s : State) (n : Fin 4) : State := s.modifyCam n fun c => { c with pulses := c.pulses + 1 }

/-- CAM_TRIGGER_NOW (R49). -/
def judgeTriggerNow (cam : Nat) (s : State) : Verdict :=
  match index 4 cam with
  | none => .refuse .badArg
  | some n => if s.ciu[n].link.live then .take .ok .empty (s.sendPulse n) else .refuse .wrongState

/-- CAM_TRIGGER_NOW (R49). -/
def execCamTriggerNow (h : Hdr) (cam : Nat) (s : State) : Outcome State Fault Refusal :=
  command s h 0x13 (judgeTriggerNow cam)

/-- A scheduled pulse falls due (R48): it is then gone, sent or not. No CAM_SETUP cancels it (DEDUCED, log entry 30). -/
def State.pulseDue (s : State) (n : Fin 4) : State :=
  if s.reached s.tbu.cams[n].pulse then
    (if s.ciu[n].link.live then s.sendPulse n else s).modifyTiming n fun t => { t with pulse := none }
  else s

/-- TRIGGER_PULSE_DUE (R48). -/
def execTriggerPulseDue (n : Fin 4) (s : State) : Outcome State Fault Refusal := .next (s.pulseDue n)

end Sys2Proof.Machine
end

