-- ==== Sys2Proof/Machine/Compose.lean ====
section
/-! DEFINITION. Compose starts and completions (03, sections 3.2 to 3.8; 05): the timebase's part, the decision, frame
matching, the snapshot, and what a completed pass leaves. -/

namespace Sys2Proof.Machine

open Host (Outcome)

/-! ### Effective STEER and DOORS (R162) -/

/-- The value that consumers see: the stored one in FRESH and HELD, else `dflt`. -/
def Sig.effective {α : Type} (r : Sig α) (dflt : α) : α :=
  match r.st with
  | .fresh _ => r.value.getD dflt
  | .held _ => r.value.getD dflt
  | .never => dflt
  | .unknown => dflt

/-- The state is NEVER or UNKNOWN. -/
def SigState.lost : SigState → Bool
  | .never => true
  | .unknown => true
  | .fresh _ => false
  | .held _ => false

/-- The effective STEER value with its unknown mark (R162). -/
def SignalIntake.effSteer (si : SignalIntake) : Int × Bool := (si.steer.effective 0, si.steer.st.lost)

/-- The effective DOORS value (R162). -/
def SignalIntake.effDoors (si : SignalIntake) : Byte := si.doors.effective 0

/-! ### The timebase at every expiry of its timer (R45, R47, R52) -/

/-- The compose period timer restarts for the current P (R45). -/
def State.restartPeriod (s : State) : State :=
  { s with tbu := { s.tbu with running := s.tbu.period, timer := s.after s.tbu.period } }

/-- Schedule the pulse of camera `n` if it is TRIGGERED (R47). -/
def State.schedulePulse (s : State) (n : Fin 4) : State :=
  match s.ciu[n].setup.trig with
  | .freeRun => s
  | .triggered =>
    s.modifyTiming n fun t =>
      { t with pulse := some (s.after (effectivePhase s.ciu[n].setup.phase s.tbu.running)) }

/-- The newest READY slot of camera `n`'s ring: its index, sequence and capture timestamp (R30). -/
def State.newestFrame (s : State) (n : Fin 4) : Option (Nat × Word32 × Word32) :=
  match s.fsc.camRing[n] with
  | none => none
  | some r =>
    match r.newestReady with
    | none => none
    | some k =>
      match r.slots[k]? with
      | some { st := .ready q t _, .. } => some (k, q, t)
      | _ => none

/-- The age of a frame now (R51). -/
def State.age (s : State) (stamp : Word32) : Nat := (s.tbu.now - stamp).toNat

/-- The check for frames of 2^31 µs or older (R52). -/
def State.markExpired (s : State) (n : Fin 4) : State :=
  match s.newestFrame n with
  | none => s
  | some (_, q, t) => if 2 ^ 31 ≤ s.age t then s.modifyTiming n fun c => { c with expired := some q } else s

/-- What the timebase does at every expiry of the compose period timer (R45). -/
def State.tickTimebase (s : State) : State :=
  (List.finRange 4).foldl State.markExpired ((List.finRange 4).foldl State.schedulePulse s.restartPeriod)

/-! ### Frame matching (R51, R54 to R58) -/

/-- A frame is stale (R51, R52). -/
def State.stale (s : State) (n : Fin 4) (q stamp : Word32) : Bool :=
  decide (2 ^ 31 ≤ s.age stamp ∨ s.tbu.stale * 1000 < s.age stamp ∨ s.tbu.cams[n].expired = some q)

/-- The door condition of camera `n` (R54 condition 3). -/
def State.doorShut (s : State) (n : Fin 4) : Bool :=
  match s.ciu[n].setup.door with
  | none => true
  | some b => !s.si.effDoors.getLsbD b

/-- The slot and age of the frame that a compose starting now would pin for camera `n`, when it is usable (R54). -/
def State.usable (s : State) (n : Fin 4) : Option (Nat × Nat) :=
  match s.newestFrame n with
  | none => none
  | some (k, q, t) =>
    if !s.stale n q t && s.doorShut n && s.tbu.mask.getLsbD n then some (k, s.age t) else none

/-- The usable mask (R55). -/
def State.usableMask (s : State) : BitVec 4 :=
  BitVec.ofNat 4 ((List.finRange 4).map fun n : Fin 4 => if (s.usable n).isSome then 2 ^ n.val else 0).sum

/-- The ages of the frames to be pinned. -/
def State.pinAges (s : State) : List Nat := (List.finRange 4).filterMap fun n => (s.usable n).map Prod.snd

/-- The skew (R56): the largest age minus the smallest, 0 with fewer than two. -/
def State.skew (s : State) : Nat :=
  match s.pinAges with
  | [] => 0
  | a :: l => l.foldl max a - l.foldl min a

/-- Pin the frame of camera `n` if it is usable (R34, R55). -/
def State.pinCam (s : State) (n : Fin 4) : State :=
  match s.usable n with
  | none => s
  | some (k, _) => s.modifyCamSlot n k fun c => { c with pin := true }

/-- The notice and flag of R57 for a skew in µs. -/
def State.judgeSkew (s : State) (skew : Nat) : State :=
  let exceeds := decide (s.tbu.skewLimit * 1000 < skew)
  let t := { s with tbu := { s.tbu with skewOver := exceeds, lastSkew := .ofNat 32 skew } }
  if exceeds && !s.tbu.skewOver then t.notify .skewOver 0 skew
  else if !exceeds && s.tbu.skewOver then t.notify .skewOk 0 skew
  else t

/-- The new mask becomes the last usable mask, and is reported when it differs (R58). -/
def State.judgeMask (s : State) (m : BitVec 4) : State :=
  let t := { s with tbu := { s.tbu with lastMask := m } }
  if m = s.tbu.lastMask then t else t.notify .camUsability 0 (m.toNat + 16 * s.tbu.lastMask.toNat)

/-- Frame matching's pins, notices and records: CAM_USABILITY before SKEW_OVER or SKEW_OK (R55 to R58). -/
def State.matchFrames (s : State) : State :=
  (((List.finRange 4).foldl State.pinCam s).judgeMask s.usableMask).judgeSkew s.skew

/-! ### The start (R85 to R89) -/

/-- Change the composition engine's counters. -/
def State.countCompose (s : State) (f : ComposeCounts → ComposeCounts) : State :=
  { s with ce := { s.ce with counts := f s.ce.counts } }

/-- An overrun of the compose `c` (R85). -/
def State.overrun (s : State) (c : Compose) : State :=
  let t := (s.countCompose fun k => { k with overrun := bump k.overrun }).latch .overrun
  let u := { t with ce := { t.ce with overrunNoticed := true } }
  if s.ce.overrunNoticed then u else u.notify .overrun c.target t.ce.counts.overrun.toNat

/-- The snapshot of view `v` (R89, R102). -/
def State.snapshot (s : State) (v : Fin 16) : Snapshot :=
  { view := v, panes := s.panes v, gains := s.bu.gains, steer := s.si.effSteer.1, steerUnknown := s.si.effSteer.2,
    gear := s.si.effGear, markers := s.ou.markers, overlay := s.ou.setup, overlayArea := s.fsc.joined .overlay }

/-- The statistics record as a compose begins (R101). -/
def zeroStats : Vector ZoneStats 4 := .replicate 4 { sa := 0, sb := 0, n := 0 }

/-- Put a VALID set's in-use flag (R72). -/
def Grid.setInUse (f : Bool) : Grid → Grid
  | .held g (.valid binds _) => .held g (.valid binds f)
  | g => g

/-- Put the in-use flag of each set bound to the panes (R88, R103 step 3). -/
def State.markSets (s : State) (f : Bool) (panes : List Pane) : State :=
  panes.foldl (fun t p => match p.binding with | none => t | some i => t.setGrid i (t.gs.sets[i].setInUse f)) s

/-- Begin the compose of view `v` into slot `k` (R88): the decisions of matching are read from `s`. -/
def State.beginCompose (s : State) (r : OutRing) (v : Fin 16) (k : Nat) : State :=
  let t := (s.matchFrames.setOutRing
    (some (r.modify k fun x => { x with st := .composing s.tbu.now s.usableMask }))).markSets true (s.panes v)
  let c : Compose :=
    { target := k, start := s.tbu.now, mask := s.usableMask, skew := .ofNat 32 s.skew, snap := s.snapshot v,
      stats := zeroStats, replacedBytes := [] }
  { t with ce := { t.ce with current := some c } }

/-- BLOCKED (R87). -/
def State.blocked (s : State) : State := (s.countCompose fun k => { k with blocked := bump k.blocked }).latch .blocked

/-- A compose start with a view to compose (R87, R88). -/
def State.seekTarget (s : State) (v : Fin 16) : State :=
  match s.fsc.outRing with
  | none => s.blocked
  | some r =>
    match r.composeTarget s.su.held with
    | none => s.blocked
    | some k => s.beginCompose r v k

/-- A compose start taken in IDLE (R86). -/
def State.startIdle (s : State) : State :=
  let t := s.takeDecision
  if t.ca.decision.mute then t.countCompose fun k => { k with mutedSkip := bump k.mutedSkip }
  else
    match t.ca.decision.view with
    | none => t.countCompose fun k => { k with noView := bump k.noView }
    | some v => t.seekTarget v

/-- One compose start event at the composition engine (R85, R86). -/
def State.startCompose (s : State) : State :=
  match s.ce.current with
  | some c => s.overrun c
  | none => s.startIdle

/-- The compose period timer expires (R45): the timebase's part, then the engine's (DEDUCED, log entry 28). -/
def State.composeStart (s : State) : State := if s.reached (some s.tbu.timer) then s.tickTimebase.startCompose else s

/-- COMPOSE_START (R45, R85); before the deadline there is no expiry (log entry 9). -/
def execComposeStart (s : State) : Outcome State Fault Refusal := .next s.composeStart

/-! ### The pass and its completion (R103) -/

/-- The frame in camera `n`'s pinned slot, when the compose has the camera usable (R34, R95). -/
def State.pinnedFrame (s : State) (mask : BitVec 4) (n : Fin 4) : Option CamFrame :=
  if mask.getLsbD n then
    match s.fsc.camRing[n] with
    | none => none
    | some r =>
      (r.slots.findIdx? fun c => c.pin).map fun k =>
        { base := s.camSlotByte n r k, width := s.ciu[n].setup.width, height := s.ciu[n].setup.height }
  else none

/-- The shape of a grid set that holds cells. -/
def Grid.shape? : Grid → Option GridShape
  | .absent => none
  | .held g _ => some g

/-- What the pass of compose `c` reads. -/
def State.passInput (s : State) (c : Compose) : PassInput :=
  { compose := c
    dram := s.dram
    grid := s.gs.mem
    shape := fun i => s.gs.sets[i].shape?
    cam := fun n => (index 4 n).bind fun n => s.pinnedFrame c.mask n
    overlayByte := (c.snap.overlayArea.map s.fsc.areaByte).getD 0
    fresh := s.fresh }

/-- A frame lies within DRAM. -/
def CamFrame.inDram (f : CamFrame) : Bool := Machine.inDram f.base (f.width * f.height * 2)

/-- What the pass reads and writes lies within DRAM: the target slot, the pinned frames and the bitmap. -/
def State.passInDram (s : State) (c : Compose) (r : OutRing) : Bool :=
  inDram (s.outSlotByte r c.target) Config.outBytes
    && (List.finRange 4).all (fun n => match s.pinnedFrame c.mask n with | none => true | some f => f.inDram)
    && (match c.snap.overlayArea with
      | none => true
      | some a => inDram (s.fsc.areaByte a) (c.snap.overlay.silW * c.snap.overlay.silH / 4))

/-- Drop every pin of camera `n`'s ring (R34). -/
def State.dropPins (s : State) (n : Fin 4) : State :=
  s.setCamRing n (s.fsc.camRing[n].map fun r => { r with slots := r.slots.map fun c => { c with pin := false } })

/-- The record of the completed frame (R103 step 1). -/
def Compose.outFrame (c : Compose) (seq : Word32) : OutFrame :=
  { seq := seq, view := c.snap.view, mask := c.mask, start := c.start, skew := c.skew, degraded := decide (c.mask ≠ 15) }

/-- The finished picture stands in the target slot (R91 to R102). -/
def State.writeFrame (s : State) (c : Compose) (r : OutRing) : State :=
  { s with dram := s.dram.write (s.outSlotByte r c.target) Config.outBytes (s.passInput c).outByte, fresh := s.fresh + 1 }

/-- Byte `k` of the target slot where the pass stops when it is abandoned (R105): the slot's former byte, or what the pass had
made of it; how far it had come is a FREE VALUE (log entry 5). -/
def State.partByte (s : State) (c : Compose) (r : OutRing) (k : Nat) : Byte :=
  match Config.passReach s.fresh k with
  | 0 => s.dram.read (s.outSlotByte r c.target + k)
  | n + 1 => packByte ((s.passInput c).pixelAfter n) k

/-- DRAM where the pass in flight stops (R105): the target slot holds a part-written frame. A pass outside DRAM, which no
reachable state has, leaves it as it is (log entry 34). -/
def State.stopPass (s : State) : Memory :=
  match s.ce.current, s.fsc.outRing with
  | some c, some r =>
    if s.passInDram c r then s.dram.write (s.outSlotByte r c.target) Config.outBytes (s.partByte c r) else s.dram
  | _, _ => s.dram

/-- The records of a completion, given the statistics the pass gathered (R103 steps 1 to 6). -/
def State.finishCompose (s : State) (c : Compose) (r : OutRing) (stats : Vector ZoneStats 4) : State :=
  let seq := r.next
  let t := s.setOutRing
    (some { r.modify c.target (fun x => { x with st := .finished (c.outFrame seq) }) with next := r.next + 1 })
  let t := ((List.finRange 4).foldl State.dropPins t).markSets false c.snap.panes
  let t := { t with bu := t.bu.update seq c.mask stats }
  let t := t.notify .frameDone c.target seq.toNat
  { t with ce :=
      { current := none, overrunNoticed := false
        counts := { t.ce.counts with composed := bump t.ce.counts.composed }, lastSeq := some seq } }

/-- COMPOSE_COMPLETION (R103): the pass is carried out whole at its completion (log entry 5); with no compose in flight
there is no completion (log entry 10). -/
def execComposeCompletion (s : State) : Outcome State Fault Refusal :=
  match s.ce.current, s.fsc.outRing with
  | some c, some r =>
    if s.passInDram c r then .next ((s.writeFrame c r).finishCompose c r (s.passInput c).stats) else .fault .dramAddress
  | _, _ => .next s

/-! ### Reading the engine (R107) -/

/-- What COMPOSE_STATUS reports (R107). -/
def Compositor.report (ce : Compositor) : Payload :=
  .compose (ce.current.map fun c => (c.target, c.snap.view, c.start, c.mask, c.skew)) ce.overrunNoticed ce.counts

/-- COMPOSE_STATUS (R107). -/
def judgeComposeStatus (clear : Bool) (s : State) : Verdict :=
  .take .ok s.ce.report (if clear then s.countCompose fun _ => .zero else s)

/-- COMPOSE_STATUS (R107). -/
def execComposeStatus (h : Hdr) (clear : Bool) (s : State) : Outcome State Fault Refusal :=
  command s h 0x50 (judgeComposeStatus clear)

end Sys2Proof.Machine
end

