-- ==== Sys2Proof/Machine/Signals.lean ====
section
/-! DEFINITION. Signal slots and signal records (09, sections 9.2 to 9.4 and 9.8). -/

namespace Sys2Proof.Machine

open Host (Outcome)

/-! ### Slots (R156, R157) -/

/-- The values a field can hold (R156). -/
def fieldMin (length : Nat) (signed : Bool) : Int := if signed then -(2 ^ (length - 1) : Nat) else 0

/-- The values a field can hold (R156). -/
def fieldMax (length : Nat) (signed : Bool) : Int := if signed then (2 ^ (length - 1) : Nat) - 1 else (2 ^ length : Nat) - 1

/-- The greatest identifier of a format (R154). -/
def identMax (ext : Bool) : Nat := if ext then 0x1FFFFFFF else 0x7FF

/-- The target stored for an operand: only GEAR stores its reverse code; `none` when the operand is out of range. -/
def slotTarget (r : SlotArg) : Option SlotTarget :=
  match r.target with
  | none => none
  | some .gear =>
    if r.reverse < fieldMin r.length r.signed ∨ fieldMax r.length r.signed < r.reverse then none else some (.gear r.reverse)
  | some .speed => some .speed
  | some .steer => some .steer
  | some .doors => some .doors

/-- A field of the operand other than its target is out of range (R156 step 3). -/
def slotBad (r : SlotArg) : Bool :=
  decide (identMax r.ext < r.ident ∨ identMax r.ext < r.mask ∨ 63 < r.start ∨ r.length < 1 ∨ 16 < r.length
    ∨ 64 < r.start + r.length ∨ r.mult < -128 ∨ 127 < r.mult ∨ r.mult = 0 ∨ r.offset < -32768 ∨ 32767 < r.offset)

/-- The setup stored for an operand (R156). -/
def slotOf (r : SlotArg) : Option SlotSetup :=
  if slotBad r then none
  else
    (slotTarget r).map fun t =>
      { ext := r.ext, ident := .ofNat 29 r.ident, mask := .ofNat 29 r.mask, start := r.start, length := r.length,
        signed := r.signed, mult := r.mult, offset := r.offset, target := t }

/-- Put a slot. -/
def State.setSlot (s : State) (i : Fin 12) (c : CanSlot) : State := { s with si := { s.si with slots := s.si.slots.set i c } }

/-- SLOT_SETUP after the generation check (R156). -/
def judgeSlotSetup (slot : Nat) (r : SlotArg) (s : State) : Verdict :=
  match index 12 slot with
  | none => .refuse .badArg
  | some i =>
    if s.si.slots[i].enabled then .refuse .slotActive
    else
      match slotOf r with
      | none => .refuse .badArg
      | some c => .take .ok .empty (s.setSlot i { s.si.slots[i] with setup := some c })

/-- SLOT_SETUP (R156). -/
def execSlotSetup (h : Hdr) (slot : Nat) (r : SlotArg) (s : State) : Outcome State Fault Refusal :=
  guarded s h 0x81 (judgeSlotSetup slot r)

/-- SLOT_ENABLE after the generation check (R157). -/
def judgeSlotEnable (slot : Nat) (on : Bool) (s : State) : Verdict :=
  match index 12 slot with
  | none => .refuse .badArg
  | some i =>
    if on && s.si.slots[i].setup.isNone then .refuse .wrongState
    else .take .ok .empty (s.setSlot i { s.si.slots[i] with enabled := on })

/-- SLOT_ENABLE (R157). -/
def execSlotEnable (h : Hdr) (slot : Nat) (on : Bool) (s : State) : Outcome State Fault Refusal :=
  guarded s h 0x82 (judgeSlotEnable slot on)

/-! ### Extraction (R158, R159) -/

/-- A slot accepts a frame (R158). -/
def CanSlot.accepts (c : CanSlot) (f : CanFrame) : Option SlotSetup :=
  if c.enabled then c.setup.filter fun p => decide (p.ext = f.ext ∧ f.ident &&& p.mask = p.ident &&& p.mask) else none

/-- The payload as a number whose bit i is bit i of the payload (R158). -/
def payloadNat : List Byte → Nat
  | [] => 0
  | b :: l => b.toNat + 256 * payloadNat l

/-- The raw value of a slot's field (R158). -/
def SlotSetup.raw (c : SlotSetup) (data : List Byte) : Int :=
  if c.signed ∧ 2 ^ (c.length - 1) ≤ field then (field : Int) - (2 ^ c.length : Nat) else field
where
  field : Nat := payloadNat data / 2 ^ c.start % 2 ^ c.length

/-- The payload is too short for the slot's field (R158). -/
def SlotSetup.short (c : SlotSetup) (data : List Byte) : Bool := decide (data.length < (c.start + c.length + 7) / 8)

/-- The exact scaled value (R159). -/
def SlotSetup.scaled (c : SlotSetup) (data : List Byte) : Int := c.raw data * c.mult + c.offset

/-! ### Signal records (R160 to R162) -/

/-- Signal numbers (R160). -/
def signalNumber : Signal → Nat
  | .gear => 0
  | .speed => 1
  | .steer => 2
  | .doors => 3

/-- The signal of a number. -/
def signalOf : Nat → Option Signal
  | 0 => some .gear
  | 1 => some .speed
  | 2 => some .steer
  | 3 => some .doors
  | _ => none

/-- The state of a signal. -/
def SignalIntake.stateOf (si : SignalIntake) : Signal → SigState
  | .gear => si.gear.st
  | .speed => si.speed.st
  | .steer => si.steer.st
  | .doors => si.doors.st

/-- Put the signal intake. -/
def State.setSi (s : State) (x : SignalIntake) : State := { s with si := x }

/-- Send SIGNAL_STATE when the state of a signal differs from what it was (R160). -/
def State.tellSignal (s : State) (sig : Signal) (old : SigState) : State :=
  if (s.si.stateOf sig).code = old.code then s
  else s.notify .signalState (signalNumber sig) ((s.si.stateOf sig).code + 256 * old.code)

/-- Tell the arbiter when the effective GEAR value differs from what it was (R162, R146). -/
def State.tellGear (s : State) (old : EffGear) : State :=
  if s.si.effGear = old then s else s.gearChange s.si.effGear

/-- Put the signal intake after a change of signal `sig`: SIGNAL_STATE stands before what the arbiter sends (R162). -/
def State.changeSignal (s : State) (sig : Signal) (x : SignalIntake) : State :=
  ((s.setSi x).tellSignal sig (s.si.stateOf sig)).tellGear s.si.effGear

/-- An update of SPEED, STEER or DOORS (R160). -/
def Sig.update {α : Type} (r : Sig α) (s : State) (slot : Fin 12) (v : α) (saturated : Bool) : Sig α :=
  { r with
    value := some v, st := .fresh (s.afterMs r.timeout), last := some (s.tbu.now, slot),
    saturated := r.saturated || saturated }

/-- The pending logic of GEAR (R161): the pending value and count after a value `v`. -/
def gearVote (pending : Option (Gear × Nat)) (v : Gear) : Gear × Nat :=
  match pending with
  | some (p, n) => if p = v then (v, n + 1) else (v, 1)
  | none => (v, 1)

/-- A GEAR update while the stored value is trusted (R161, FRESH or HELD). -/
def SignalIntake.gearTrusted (si : SignalIntake) (s : State) (slot : Fin 12) (v : Gear) : SignalIntake :=
  let r := { si.gear with st := .fresh (s.afterMs si.gear.timeout), last := some (s.tbu.now, slot) }
  if si.gear.value = some v then { si with gear := r, gearPending := none }
  else
    let p := gearVote si.gearPending v
    if si.confirm ≤ p.2 then { si with gear := { r with value := some v }, gearPending := none }
    else { si with gear := r, gearPending := some p }

/-- A GEAR update in NEVER or UNKNOWN (R161). -/
def SignalIntake.gearUntrusted (si : SignalIntake) (s : State) (slot : Fin 12) (v : Gear) : SignalIntake :=
  let last := some (s.tbu.now, slot)
  let p := gearVote si.gearPending v
  if si.confirm ≤ p.2 then
    { si with
      gear := { si.gear with value := some v, st := .fresh (s.afterMs si.gear.timeout), last := last }
      gearPending := none }
  else
    { si with
      gear := (match si.gear.st with | .never => si.gear | _ => { si.gear with last := last })
      gearPending := some p }

/-- A GEAR update (R161). -/
def SignalIntake.gearUpdate (si : SignalIntake) (s : State) (slot : Fin 12) (v : Gear) : SignalIntake :=
  if si.gear.st.lost then si.gearUntrusted s slot v else si.gearTrusted s slot v

/-- An update by a slot of setup `c` (R159, R160). -/
def State.updateSignal (s : State) (slot : Fin 12) (c : SlotSetup) (data : List Byte) : State :=
  match c.target with
  | .gear rev => s.changeSignal .gear (s.si.gearUpdate s slot (if c.raw data = rev then .reverse else .notReverse))
  | .speed =>
    let v := clampInt 0 65535 (c.scaled data)
    s.changeSignal .speed { s.si with speed := s.si.speed.update s slot v.toNat (decide (v ≠ c.scaled data)) }
  | .steer =>
    let v := clampInt (-8000) 8000 (c.scaled data)
    s.changeSignal .steer { s.si with steer := s.si.steer.update s slot v (decide (v ≠ c.scaled data)) }
  | .doors => s.changeSignal .doors { s.si with doors := s.si.doors.update s slot (.ofInt 8 (c.raw data)) false }

/-- A slot that accepts a frame updates its signal, or counts a short frame (R158). -/
def State.offerSlot (f : CanFrame) (s : State) (i : Fin 12) : State :=
  match s.si.slots[i].accepts f with
  | none => s
  | some c =>
    if c.short f.data then
      { s with si := { s.si with can := { s.si.can with short := bump s.si.can.short } } }
    else s.updateSignal i c f.data

/-- A data frame is offered to the slots in index order; a remote frame is not offered (R158). -/
def State.offerFrame (s : State) (f : CanFrame) : State :=
  if f.remote then s else (List.finRange 12).foldl (State.offerSlot f) s

/-! ### Ageing (R160) -/

/-- The record after its timeout timer expires, when that is due now (R160). -/
def Sig.timeoutExpiry {α : Type} (r : Sig α) (s : State) : Sig α :=
  match r.st with
  | .fresh due =>
    if s.reached (some due) then { r with st := if r.hold = 0 then .unknown else .held (s.afterMs r.hold) } else r
  | _ => r

/-- The record after its hold timer expires, when that is due now (R160). -/
def Sig.holdExpiry {α : Type} (r : Sig α) (s : State) : Sig α :=
  match r.st with
  | .held due => if s.reached (some due) then { r with st := .unknown } else r
  | _ => r

/-- The timeout of a signal expires (R160). -/
def State.signalTimeout (s : State) (sig : Signal) : State :=
  match sig with
  | .gear => s.changeSignal .gear { s.si with gear := s.si.gear.timeoutExpiry s }
  | .speed => s.changeSignal .speed { s.si with speed := s.si.speed.timeoutExpiry s }
  | .steer => s.changeSignal .steer { s.si with steer := s.si.steer.timeoutExpiry s }
  | .doors => s.changeSignal .doors { s.si with doors := s.si.doors.timeoutExpiry s }

/-- SIGNAL_TIMEOUT_EXPIRY (R160); before the deadline there is no expiry (log entry 9). -/
def execSignalTimeoutExpiry (sig : Signal) (s : State) : Outcome State Fault Refusal := .next (s.signalTimeout sig)

/-- The hold timer of a signal expires (R160). -/
def State.signalHold (s : State) (sig : Signal) : State :=
  match sig with
  | .gear => s.changeSignal .gear { s.si with gear := s.si.gear.holdExpiry s }
  | .speed => s.changeSignal .speed { s.si with speed := s.si.speed.holdExpiry s }
  | .steer => s.changeSignal .steer { s.si with steer := s.si.steer.holdExpiry s }
  | .doors => s.changeSignal .doors { s.si with doors := s.si.doors.holdExpiry s }

/-- SIGNAL_HOLD_EXPIRY (R160); before the deadline there is no expiry (log entry 9). -/
def execSignalHoldExpiry (sig : Signal) (s : State) : Outcome State Fault Refusal := .next (s.signalHold sig)

/-! ### SIGNAL_SETUP and SIGNAL_STATUS (R163, R169) -/

/-- A record with new times (R163). -/
def Sig.setTimes {α : Type} (r : Sig α) (timeout hold : Nat) : Sig α := { r with timeout := timeout, hold := hold }

/-- SIGNAL_SETUP after the generation check (R163). -/
def judgeSignalSetup (signal timeout hold confirm : Nat) (s : State) : Verdict :=
  let t := clampNat 20 2000 timeout
  let d := clampNat 0 5000 hold
  let n := clampNat 1 4 confirm
  let r := clampResult (decide (t ≠ timeout ∨ d ≠ hold))
  match signalOf signal with
  | none => .refuse .badArg
  | some .gear =>
    .take (clampResult (decide (t ≠ timeout ∨ d ≠ hold ∨ n ≠ confirm))) .empty
      (s.setSi { s.si with gear := s.si.gear.setTimes t d, confirm := n, gearPending := none })
  | some .speed => .take r .empty (s.setSi { s.si with speed := s.si.speed.setTimes t d })
  | some .steer => .take r .empty (s.setSi { s.si with steer := s.si.steer.setTimes t d })
  | some .doors => .take r .empty (s.setSi { s.si with doors := s.si.doors.setTimes t d })

/-- SIGNAL_SETUP (R163). -/
def execSignalSetup (h : Hdr) (signal timeout hold confirm : Nat) (s : State) : Outcome State Fault Refusal :=
  guarded s h 0x83 (judgeSignalSetup signal timeout hold confirm)

/-- A signal record as reported, without the deadline of its running timer, which R160's table does not list (R169). -/
def Sig.report {α β : Type} (r : Sig α) (effective : β) : SigReport α β :=
  { value := r.value, state := r.st.code, last := r.last, saturated := r.saturated, timeout := r.timeout, hold := r.hold,
    effective := effective }

/-- What SIGNAL_STATUS reports (R169). For a slot that is not set up it gives no setup (DESIGN CHOICE, log entry 43). -/
def SignalIntake.report (si : SignalIntake) : Payload :=
  .signals (si.gear.report si.effGear) si.confirm si.gearPending (si.speed.report si.effSpeed)
    (si.steer.report si.effSteer) (si.doors.report si.effDoors) si.slots

/-- Clear the four saturated flags (R169). -/
def SignalIntake.clearSaturated (si : SignalIntake) : SignalIntake :=
  { si with
    gear := { si.gear with saturated := false }, speed := { si.speed with saturated := false },
    steer := { si.steer with saturated := false }, doors := { si.doors with saturated := false } }

/-- SIGNAL_STATUS (R169). -/
def judgeSignalStatus (clear : Bool) (s : State) : Verdict :=
  .take .ok s.si.report (if clear then s.setSi s.si.clearSaturated else s)

/-- SIGNAL_STATUS (R169). -/
def execSignalStatus (h : Hdr) (clear : Bool) (s : State) : Outcome State Fault Refusal :=
  command s h 0x87 (judgeSignalStatus clear)

end Sys2Proof.Machine
end

