-- ==== Sys2Proof/Machine/Can.lean ====
section
/-! DEFINITION. The CAN controller and the status frame (09, sections 9.1, 9.6 to 9.8). -/

namespace Sys2Proof.Machine

open Host (Outcome)

/-! ### Error state (R164 to R166) -/

/-- Put the CAN controller. -/
def State.setCan (s : State) (c : CanCtl) : State := s.setSi { s.si with can := c }

/-- Send CAN_STATE when the error state differs from what it was (R164). -/
def State.tellErr (s : State) (old : ErrState) : State :=
  if s.si.can.err = old then s else s.notify .canState 0 (s.si.can.err.code + 256 * old.code)

/-- The error state of the counters, outside BUS_OFF (R164). -/
def errOf (tec recv : Byte) : ErrState := if 128 ≤ tec.toNat ∨ 128 ≤ recv.toNat then .passive else .active

/-- The controller with new counters, and the error state they give (R164). -/
def CanCtl.setCounts (c : CanCtl) (tec recv : Byte) : CanCtl := { c with tec := tec, recv := recv, err := errOf tec recv }

/-- Entry to BUS_OFF (R164, R165): the recovery wait starts if auto-recovery is set. -/
def CanCtl.enterBusOff (c : CanCtl) : CanCtl := { c with tec := 255, err := .busOff, recovery := c.setup.autoRecover }

/-- A counter down by one, not below 0 (R164). -/
def countDown (b : Byte) : Byte := if b = 0 then 0 else b - 1

/-- Record an error cause (R166). -/
def CauseRecord.note (c : CauseRecord) (e : BusError) (r : Role) : CauseRecord :=
  match e with
  | .bit0 => { c with bit0 := true, role := some r }
  | .bit1 => { c with bit1 := true, role := some r }
  | .stuff => { c with stuff := true, role := some r }
  | .form => { c with form := true, role := some r }
  | .crc => { c with crc := true, role := some r }
  | .ack => { c with ack := true, role := some r }

/-- The controller with an error cause recorded (R166). -/
def CanCtl.note (c : CanCtl) (e : BusError) (r : Role) : CanCtl := { c with cause := c.cause.note e r }

/-- The mode receives frames (R155), outside BUS_OFF (R165). -/
def CanCtl.hears (c : CanCtl) : Bool := decide (c.setup.mode ≠ .off ∧ c.err ≠ .busOff)

/-- The controller acknowledges on the bus the frames it receives without error (R155): in NORMAL, outside BUS_OFF. -/
def CanCtl.acknowledges (c : CanCtl) : Bool := decide (c.setup.mode = .normal ∧ c.err ≠ .busOff)

/-- A frame received without error is acknowledged where the mode says so, whether or not a slot accepts it (R155); `acks`
counts them (log entry 14). -/
def CanCtl.acknowledge (c : CanCtl) : CanCtl := if c.acknowledges then { c with acks := c.acks + 1 } else c

/-- The controller counts errors (R155, R164). -/
def CanCtl.countsErrors (c : CanCtl) : Bool := decide (c.setup.mode = .normal ∧ c.err ≠ .busOff)

/-! ### Commands -/

/-- The mode runs the interval timer (R155). -/
def timerRuns : CanMode → Bool
  | .normal => true
  | .loopback => true
  | .off => false
  | .listen => false

/-- The setup stored for an operand (R154), and whether the interval was clamped. -/
def canSetupOf (r : CanArg) : Option (CanSetup × Bool) :=
  match r.mode, r.rate with
  | some m, some b =>
    if identMax r.ext < r.ident then none
    else
      some ({ mode := m, rate := b, autoRecover := r.autoRecover, ext := r.ext, ident := .ofNat 29 r.ident,
              interval := clampNat 50 1000 r.interval, singleShot := r.singleShot },
            decide (clampNat 50 1000 r.interval ≠ r.interval))
  | _, _ => none

/-- The controller restarted with a new setup (R154). -/
def CanCtl.restart (c : CanCtl) (p : CanSetup) (s : State) : CanCtl :=
  { c with
    setup := p, tec := 0, recv := 0, err := .active, recovery := false, buffer := none, attempt := none,
    timer := if timerRuns p.mode then some (s.afterMs p.interval) else none }

/-- CAN_SETUP after the generation check (R154). -/
def judgeCanSetup (r : CanArg) (s : State) : Verdict :=
  match canSetupOf r with
  | none => .refuse .badArg
  | some (p, clamped) =>
    let c := s.si.can
    .take (clampResult clamped) .empty
      (if p.mode = c.setup.mode ∧ p.rate = c.setup.rate then s.setCan { c with setup := p }
       else (s.setCan (c.restart p s)).tellErr c.err)

/-- CAN_SETUP (R154). -/
def execCanSetup (h : Hdr) (r : CanArg) (s : State) : Outcome State Fault Refusal := guarded s h 0x80 (judgeCanSetup r)

/-- CAN_RESTART (R165). -/
def judgeCanRestart (s : State) : Verdict :=
  if s.si.can.setup.mode = .normal ∧ s.si.can.err = .busOff then
    .take .ok .empty (s.setCan { s.si.can with recovery := true })
  else .refuse .wrongState

/-- CAN_RESTART (R165). -/
def execCanRestart (h : Hdr) (s : State) : Outcome State Fault Refusal := bare s h 0x84 judgeCanRestart

/-- CAN_ERRCLR (R166). -/
def execCanErrclr (h : Hdr) (s : State) : Outcome State Fault Refusal :=
  bare s h 0x85 fun s => .take .ok .empty (s.setCan { s.si.can with cause := .clear })

/-- What CAN_STATUS reports (R169). The transmit state is given as PENDING or not, without the frame buffer that R153 lists with
it (DESIGN CHOICE, log entry 12). -/
def CanCtl.report (c : CanCtl) : Payload :=
  .can c.setup c.tec c.recv c.err c.recovery c.cause c.buffer.isSome c.rolling c.late c.failed c.short

/-- CAN_STATUS (R169). -/
def judgeCanStatus (clear : Bool) (s : State) : Verdict :=
  .take .ok s.si.can.report
    (if clear then s.setCan { s.si.can with late := 0, failed := 0, short := 0 } else s)

/-- CAN_STATUS (R169). -/
def execCanStatus (h : Hdr) (clear : Bool) (s : State) : Outcome State Fault Refusal :=
  command s h 0x86 (judgeCanStatus clear)

/-! ### Receiving (R155, R158, R164, R166) -/

/-- A frame received without error is acknowledged and counts REC down where the mode says so, and is offered to the slots.
The order of CAN_STATE and the notices of the slots' updates, when both arise, is a FREE VALUE (log entry 7). -/
def State.receiveFrame (s : State) (f : CanFrame) : State :=
  let c := s.si.can
  if !c.hears then s
  else if !c.countsErrors then s.offerFrame f
  else
    let t := s.setCan (c.acknowledge.setCounts c.tec (countDown c.recv))
    if t.si.can.err = c.err then t.offerFrame f
    else if Config.canStateFirst s.fresh then ({ t with fresh := t.fresh + 1 }.tellErr c.err).offerFrame f
    else ({ t with fresh := t.fresh + 1 }.offerFrame f).tellErr c.err

/-- CAN_FRAME_RECEIVED (R158, R164). -/
def execCanFrameReceived (f : CanFrame) (s : State) : Outcome State Fault Refusal := .next (s.receiveFrame f)

/-- A counter up by one, saturating at 255 (R164). -/
def countUp (b : Byte) : Byte := if b = 255 then 255 else b + 1

/-- An error detected while receiving (R155, R164, R166). -/
def State.receiveError (s : State) (e : BusError) : State :=
  let c := s.si.can
  if !c.hears then s
  else
    let c' := c.note e .receiver
    if c.countsErrors then (s.setCan (c'.setCounts c.tec (countUp c.recv))).tellErr c.err else s.setCan c'

/-- RECEIVE_ERROR (R164, R166). -/
def execReceiveError (e : BusError) (s : State) : Outcome State Fault Refusal := .next (s.receiveError e)

/-! ### The status frame (R167) -/

/-- The last skew in whole milliseconds, saturating at 255 (R167). -/
def skewByte (skew : Word32) : Byte := .ofNat 8 (min (skew.toNat / 1000) 255)

/-- The eight data bytes of a status frame with rolling count `n` (R167; 11 section 11.6, CAN status frame). Bits 5 to 7 of byte
2, which no rule names, are 0 (DESIGN CHOICE, log entry 41). -/
def State.statusBytes (s : State) (n : BitVec 4) : Vector Byte 8 :=
  #v[BitVec.ofNat 8 (viewCode s.ca.decision.view),
    BitVec.ofNat 8 (s.tbu.lastMask.toNat + 16 * bit s.ca.decision.mute + 32 * bit s.ca.alert),
    s.cp.faults.setWidth 8,
    (s.ce.lastSeq.getD 0).setWidth 8,
    skewByte s.tbu.lastSkew,
    BitVec.ofNat 8 s.ca.stack.length,
    s.si.can.recv,
    BitVec.ofNat 8 (n.toNat + 16 * s.si.can.err.code)]

/-- The frame built at an interval expiry (R167). -/
def State.buildFrame (s : State) : StatusFrame :=
  { ext := s.si.can.setup.ext, ident := s.si.can.setup.ident, data := s.statusBytes (s.si.can.rolling + 1),
    count := s.si.can.rolling + 1, singleShot := s.si.can.setup.singleShot }

/-- The controller after a build (R167): the interval timer restarts, the rolling counter advances, and a frame that
waits is replaced and counted late. -/
def CanCtl.load (c : CanCtl) (f : StatusFrame) (due : Word32) : CanCtl :=
  { c with
    timer := some due, rolling := f.count, buffer := some f
    late := if c.buffer.isSome then bump c.late else c.late
    attempt := c.attempt.map fun a => { a with replaced := true } }

/-- A status frame as a received frame (R168). -/
def StatusFrame.asFrame (f : StatusFrame) : CanFrame := { ext := f.ext, ident := f.ident, remote := false, data := f.data.toList }

/-- The interval timer expires (R167); in LOOPBACK the frame completes at once and is offered to the slots (R168). -/
def State.intervalExpiry (s : State) : State :=
  if s.reached s.si.can.timer then
    let t := s.setCan (s.si.can.load s.buildFrame (s.afterMs s.si.can.setup.interval))
    if s.si.can.setup.mode = .loopback then
      (t.setCan { t.si.can with buffer := none }).offerFrame s.buildFrame.asFrame
    else t
  else s

/-- STATUS_INTERVAL_EXPIRY (R167); before the deadline there is no expiry (log entry 9). -/
def execStatusIntervalExpiry (s : State) : Outcome State Fault Refusal := .next s.intervalExpiry

/-! ### Attempts (R168) -/

/-- An attempt begins with a copy of the buffer: in NORMAL, outside BUS_OFF, for a PENDING frame. -/
def State.beginAttempt (s : State) : State :=
  let c := s.si.can
  match c.buffer, c.attempt, c.countsErrors with
  | some f, none, true => s.setCan { c with attempt := some { frame := f, replaced := false } }
  | _, _, _ => s

/-- STATUS_TX_ATTEMPT (R168). -/
def execStatusTxAttempt (s : State) : Outcome State Fault Refusal := .next s.beginAttempt

/-- The attempt's frame leaves the buffer, unless the buffer was replaced during the attempt (R168). -/
def CanCtl.finishAttempt (c : CanCtl) (a : Attempt) : CanCtl :=
  { c with attempt := none, buffer := if a.replaced then c.buffer else none }

/-- The attempt is sent without error (R164, R168). -/
def State.attemptSent (s : State) : State :=
  let c := s.si.can
  match c.attempt with
  | none => s
  | some a => (s.setCan ((c.finishAttempt a).setCounts (countDown c.tec) c.recv)).tellErr c.err

/-- STATUS_TX_SENT (R168). -/
def execStatusTxSent (s : State) : Outcome State Fault Refusal := .next s.attemptSent

/-- The controller after an attempt failed (R168): a single-shot frame is dropped and counted; else it stays PENDING. -/
def CanCtl.failAttempt (c : CanCtl) (a : Attempt) : CanCtl :=
  if a.frame.singleShot then { c.finishAttempt a with failed := bump c.failed } else { c with attempt := none }

/-- STATUS_TX_FAILED for a single-shot frame that was dropped (R168). -/
def State.tellDropped (s : State) (a : Attempt) : State :=
  if a.frame.singleShot then s.notify .statusTxFailed 0 a.frame.count.toNat else s

/-- The counters after an error while transmitting (R164): one that would take TEC above 255 brings BUS_OFF. -/
def CanCtl.transmitError (c : CanCtl) : CanCtl :=
  if 255 < c.tec.toNat + 8 then c.enterBusOff else c.setCounts (c.tec + 8) c.recv

/-- Entry to BUS_OFF latches CAN_BUS_OFF (R164). -/
def State.latchBusOff (s : State) : State := if s.si.can.err = .busOff then s.latch .canBusOff else s

/-- An error while transmitting (R164, R166, R168). CAN_STATE for BUS_OFF stands before STATUS_TX_FAILED; for another
error state the order of the two is a FREE VALUE (log entry 7). -/
def State.attemptError (s : State) (e : BusError) : State :=
  let c := s.si.can
  match c.attempt with
  | none => s
  | some a =>
    let t := (s.setCan (((c.failAttempt a).note e .transmitter).transmitError)).latchBusOff
    if t.si.can.err = c.err then t.tellDropped a
    else if t.si.can.err = .busOff ∨ !a.frame.singleShot then (t.tellErr c.err).tellDropped a
    else if Config.canStateFirst s.fresh then ({ t with fresh := t.fresh + 1 }.tellErr c.err).tellDropped a
    else ({ t with fresh := t.fresh + 1 }.tellDropped a).tellErr c.err

/-- STATUS_TX_ERROR (R168). -/
def execStatusTxError (e : BusError) (s : State) : Outcome State Fault Refusal := .next (s.attemptError e)

/-- The attempt loses arbitration (R168): no error is counted or recorded. -/
def State.attemptLost (s : State) : State :=
  match s.si.can.attempt with
  | none => s
  | some a => (s.setCan (s.si.can.failAttempt a)).tellDropped a

/-- ARBITRATION_LOST (R168). -/
def execArbitrationLost (s : State) : Outcome State Fault Refusal := .next s.attemptLost

/-- The recovery wait completes (R165). -/
def State.recover (s : State) : State :=
  let c := s.si.can
  if c.recovery ∧ c.err = .busOff then
    (s.setCan { c with tec := 0, recv := 0, err := .active, recovery := false }).tellErr c.err
  else s

/-- RECOVERY_WAIT_COMPLETION (R165); with no wait running there is no completion (log entry 10). -/
def execRecoveryWaitCompletion (s : State) : Outcome State Fault Refusal := .next s.recover

end Sys2Proof.Machine
end

