-- ==== Sys2Proof/Machine/Display.lean ====
section
/-! DEFINITION. The scanout unit (10): DISPLAY_SET, DISPLAY_STATUS, display frame starts, and the pixels sent. -/

namespace Sys2Proof.Machine

open Host (Outcome)

/-- Put the scanout unit. -/
def State.setSu (s : State) (x : Scanout) : State := { s with su := x }

/-- The colour of palette entry `i` as the overlay unit's palette stands (R173). -/
def State.paletteColour (s : State) (i : Nat) : Yuv :=
  { y := (s.ou.setup.entry i).y, u := (s.ou.setup.entry i).u, v := (s.ou.setup.entry i).v }

/-- The display timer's next deadline for the display period as it stands (R171). -/
def State.nextDisplay (s : State) : Option Word32 := some (s.after s.su.period)

/-! ### DISPLAY_SET and DISPLAY_STATUS (R174, R175) -/

/-- The scanout unit turned on or off with a clamped period (R174). -/
def Scanout.switch (u : Scanout) (on : Bool) (period : Nat) (s : State) : Scanout :=
  if on then
    { u with period := period, timer := (match u.timer with | none => some (s.after period) | some d => some d) }
  else
    match u.timer with
    | none => { u with period := period }
    | some _ => { u with period := period, timer := none, held := none, frame := .nothing }

/-- DISPLAY_SET after the generation check (R174). -/
def judgeDisplaySet (on : Option Bool) (period : Nat) (s : State) : Verdict :=
  match on with
  | none => .refuse .badArg
  | some on =>
    let p := clampNat 16000 40000 period
    .take (clampResult (decide (p ≠ period))) .empty (s.setSu (s.su.switch on p s))

/-- DISPLAY_SET (R174). -/
def execDisplaySet (h : Hdr) (on : Option Bool) (period : Nat) (s : State) : Outcome State Fault Refusal :=
  guarded s h 0x90 (judgeDisplaySet on period)

/-- The content of the frame in progress, without the colour that BLANK and MUTE send (R170, R175). -/
def Display.content : Display → DisplayContent
  | .nothing => .nothing
  | .composed k => .composed k
  | .again k => .again k
  | .blank _ => .blank
  | .mute _ => .mute

/-- What DISPLAY_STATUS reports (R175). -/
def State.displayReport (s : State) : Payload :=
  .display s.su.timer.isSome s.su.period (s.su.timer.map s.untilUs) s.su.held s.su.frame.content s.su.repeated
    s.su.blank s.su.muted

/-- DISPLAY_STATUS (R175). -/
def judgeDisplayStatus (clear : Bool) (s : State) : Verdict :=
  .take .ok s.displayReport (if clear then s.setSu { s.su with repeated := 0, blank := 0, muted := 0 } else s)

/-- DISPLAY_STATUS (R175). -/
def execDisplayStatus (h : Hdr) (clear : Bool) (s : State) : Outcome State Fault Refusal :=
  command s h 0x91 (judgeDisplayStatus clear)

/-! ### Display frame starts (R171, R172) -/

/-- The newest DONE slot of the output ring, if there is one. -/
def State.newestDone (s : State) : Option Nat := s.fsc.outRing.bind OutRing.newestDone

/-- The unit sends a background frame (R172). -/
def State.sendBackground (s : State) : Scanout :=
  { s.su with held := none, frame := .blank (s.paletteColour 14), blank := bump s.su.blank }

/-- The choice of a display frame's content (R172). -/
def State.chooseDisplay (s : State) : Scanout :=
  if s.ca.decision.mute then
    { s.su with held := none, frame := .mute (s.paletteColour 15), muted := bump s.su.muted }
  else
    match s.ca.decision.view, s.newestDone with
    | none, _ => s.sendBackground
    | some _, none => s.sendBackground
    | some _, some k =>
      if s.su.held = some k then { s.su with frame := .again k, repeated := bump s.su.repeated }
      else { s.su with held := some k, frame := .composed k }

/-- The display timer expires (R171): it restarts, and the new frame's content is chosen. -/
def State.displayStart (s : State) : State :=
  if s.reached s.su.timer then s.setSu { s.chooseDisplay with timer := s.nextDisplay } else s

/-- DISPLAY_FRAME_START (R171, R172); before the deadline there is no expiry (log entry 9). -/
def execDisplayFrameStart (s : State) : Outcome State Fault Refusal := .next s.displayStart

/-! ### What the display link sends (R173) -/

/-- The pixel of the output ring slot `k` at (x, y) as it stands in DRAM (R41, R173). -/
def State.slotPixel (s : State) (r : OutRing) (k x y : Nat) : Yuv :=
  { y := s.dram.read (row + 2 * x), u := s.dram.read (row + 4 * (x / 2) + 1), v := s.dram.read (row + 4 * (x / 2) + 3) }
where
  row : Nat := s.outSlotByte r k + y * (Config.outWidth * 2)

/-- The pixel of the frame in progress that the display link sends at (x, y), for the 1,280 × 720 pixels of a frame
(R170, R173): an observation of the state. -/
def State.displayPixel (s : State) (x y : Nat) : Option Yuv :=
  if x < Config.outWidth ∧ y < Config.outHeight then
    match s.su.frame, s.fsc.outRing with
    | .nothing, _ => none
    | .blank c, _ => some c
    | .mute c, _ => some c
    | .composed k, some r => some (s.slotPixel r k x y)
    | .again k, some r => some (s.slotPixel r k x y)
    | .composed _, none => none
    | .again _, none => none
  else none

end Sys2Proof.Machine
end

