-- ==== Sys2Proof/Machine/Intake.lean ====
section
/-! DEFINITION. Camera links and frame intake (01): CAM_SETUP, CAM_POWER, CAM_STATUS and the events of the camera links,
the feeds and the intake timers. -/

namespace Sys2Proof.Machine

open Host (Outcome)

/-! ### Shared operations -/

/-- Change the link state and send CAM_STATE (R11): subject the camera, value new code + 256 × previous code. -/
def State.enterLink (s : State) (n : Fin 4) (l : Link) : State :=
  (s.modifyCam n fun c => { c with link := l }).notify .camState n (l.code + 256 * s.ciu[n].link.code)

/-- Enter SEEKING (R7): the seek timer starts and the seek-notice flag is cleared. -/
def State.enterSeeking (s : State) (n : Fin 4) : State :=
  (s.modifyCam n fun c => { c with seekNoticed := false }).enterLink n
    (.seeking (some (s.afterMs s.ciu[n].setup.seek)))

/-- Change the counters of camera `n`. -/
def State.count (s : State) (n : Fin 4) (f : CamCounts → CamCounts) : State :=
  s.modifyCam n fun c => { c with counts := f c.counts }

/-- Put the reception state of camera `n`. -/
def State.setReception (s : State) (n : Fin 4) (r : Reception) : State := s.modifyCam n fun c => { c with reception := r }

/-- A slot in FILLING becomes DAMAGED and keeps its line count (R16). -/
def CamSlot.damage (cause : Damage) (c : CamSlot) : CamSlot :=
  match c.st with
  | .filling q t l => { c with st := .damaged q t l cause }
  | _ => c

/-- A slot in FILLING becomes READY (R15). -/
def CamSlot.finish (c : CamSlot) : CamSlot :=
  match c.st with
  | .filling q t l => { c with st := .ready q t l }
  | _ => c

/-- The frame in RECEIVING becomes DAMAGED with `cause` and is counted (R16). -/
def State.damageFrame (s : State) (n : Fin 4) (k : Nat) (cause : Damage) : State :=
  ((s.modifyCamSlot n k (CamSlot.damage cause)).count n fun c => { c with damaged := bump c.damaged }).setReception n
    .noFrame

/-- Close the open frame early (R16): in RECEIVING it is damaged with `cause` unless one is pending; in DISCARDING it
is given up without a count. -/
def State.closeFrame (s : State) (n : Fin 4) (cause : Damage) : State :=
  match s.ciu[n].reception with
  | .noFrame => s
  | .discarding => s.setReception n .noFrame
  | .receiving k pend => s.damageFrame n k (pend.getD cause)

/-! ### Commands -/

/-- The setup record that CAM_SETUP stores, with each tuning value clamped (R1, R2, R47), and whether any was;
`none` when a structural field is out of range. -/
def judgeSetup (r : SetupArg) (period : Nat) : Option (Setup × Bool) :=
  if r.width < 640 ∨ 1920 < r.width ∨ r.width % 32 ≠ 0 ∨ r.height < 480 ∨ 1280 < r.height ∨ r.height % 16 ≠ 0 then none
  else
    match door, r.trig with
    | none, _ => none
    | _, none => none
    | some d, some t =>
      some ({ width := r.width, height := r.height, settle := settle, seek := seek, timeout := timeout, door := d,
              trig := t, phase := phase },
            decide (settle ≠ r.settle ∨ seek ≠ r.seek ∨ timeout ≠ r.timeout ∨ phase ≠ r.phase))
where
  settle := clampNat 10 250 r.settle
  seek := clampNat 100 5000 r.seek
  timeout := clampNat 20 1000 r.timeout
  phase := clampNat 0 (period - 1) r.phase
  /-- `some none` is no door dependency; `none` a door bit above 7. -/
  door : Option (Option (Fin 8)) :=
    match r.door with
    | none => some none
    | some b => (index 8 b).map some

/-- CAM_SETUP after the generation check (R2). -/
def judgeCamSetup (cam : Nat) (r : SetupArg) (s : State) : Verdict :=
  match index 4 cam with
  | none => .refuse .badArg
  | some n =>
    if s.ciu[n].link ≠ .off ∨ (s.fsc.joined (.camera n)).isSome then .refuse .wrongState
    else
      match judgeSetup r s.tbu.period with
      | none => .refuse .badArg
      | some (c, clamped) => .take (clampResult clamped) .empty (s.modifyCam n fun u => { u with setup := c })

/-- CAM_SETUP (R2). -/
def execCamSetup (h : Hdr) (cam : Nat) (r : SetupArg) (s : State) : Outcome State Fault Refusal :=
  guarded s h 0x10 (judgeCamSetup cam r)

/-- Enter SETTLING (R3): the settle timer starts, and the timing record is emptied (R50). -/
def State.enterSettling (s : State) (n : Fin 4) : State :=
  (s.modifyTiming n fun t => { t with lastCapture := none, interval := none }).enterLink n
    (.settling (s.afterMs s.ciu[n].setup.settle))

/-- CAM_POWER on (R3). -/
def judgePowerOn (cam : Nat) (s : State) : Verdict :=
  match index 4 cam with
  | none => .refuse .badArg
  | some n => .take .ok .empty (if s.ciu[n].link.feed then s else s.enterSettling n)

/-- CAM_POWER on (R3); both forms of CAM_POWER carry code 0x11 (DEDUCED, log entry 27). -/
def execCamPowerOn (h : Hdr) (cam : Nat) (s : State) : Outcome State Fault Refusal :=
  command s h 0x11 (judgePowerOn cam)

/-- CAM_POWER off (R4): from OFF it has no effect. -/
def judgePowerOff (cam : Nat) (s : State) : Verdict :=
  match index 4 cam with
  | none => .refuse .badArg
  | some n => .take .ok .empty (if s.ciu[n].link = .off then s else (s.closeFrame n .power).enterLink n .off)

/-- CAM_POWER off (R4). -/
def execCamPowerOff (h : Hdr) (cam : Nat) (s : State) : Outcome State Fault Refusal :=
  command s h 0x11 (judgePowerOff cam)

/-- The line count of the frame in RECEIVING (R14). -/
def State.openLines (s : State) (n : Fin 4) : Option Count :=
  match s.ciu[n].reception, s.fsc.camRing[n] with
  | .receiving k _, some r =>
    match r.slots[k]? with
    | some { st := .filling _ _ l, .. } => some l
    | _ => none
  | _, _ => none

/-- The reception state without the slot and the pending cause of RECEIVING (R14). -/
def Reception.kind : Reception → ReceptionKind
  | .noFrame => .noFrame
  | .receiving _ _ => .receiving
  | .discarding => .discarding

/-- What CAM_STATUS reports (R14). -/
def State.camReport (s : State) (n : Fin 4) : Payload :=
  .cam s.ciu[n].setup s.ciu[n].link.code s.ciu[n].reception.kind s.ciu[n].locked s.ciu[n].link.feed (s.openLines n)
    s.ciu[n].counts

/-- CAM_STATUS (R14). -/
def judgeCamStatus (cam : Nat) (clear : Bool) (s : State) : Verdict :=
  match index 4 cam with
  | none => .refuse .badArg
  | some n => .take .ok (s.camReport n) (if clear then s.count n fun _ => .zero else s)

/-- CAM_STATUS (R14). -/
def execCamStatus (h : Hdr) (cam : Nat) (clear : Bool) (s : State) : Outcome State Fault Refusal :=
  command s h 0x12 (judgeCamStatus cam clear)

/-! ### Events of the link and the feed -/

/-- The link gains lock (R6): the lock indication follows in every state. -/
def execLinkLock (n : Fin 4) (s : State) : Outcome State Fault Refusal :=
  .next (s.modifyCam n fun c => { c with locked := true })

/-- The link loses lock (R6, R8, R10). A LOSS_OF_LOCK while the lock indication is clear already is acted on by the link
state alone (DESIGN CHOICE, log entry 35). -/
def State.loseLock (s : State) (n : Fin 4) : State :=
  let s := s.modifyCam n fun c => { c with locked := false }
  match s.ciu[n].link with
  | .streaming _ => (s.closeFrame n .linkLost).enterSeeking n
  | .stalled => (s.closeFrame n .linkLost).enterSeeking n
  | _ => s

/-- LOSS_OF_LOCK (R10). -/
def execLossOfLock (n : Fin 4) (s : State) : Outcome State Fault Refusal := .next (s.loseLock n)

/-- The timebase captures a frame start (R50). -/
def CamTiming.capture (t : CamTiming) (now : Word32) : CamTiming :=
  { t with lastCapture := some now, interval := (t.lastCapture.map fun l => now - l).or t.interval }

/-- An unjoined frame (R17). -/
def State.openUnjoined (s : State) (n : Fin 4) : State :=
  let s := (s.setReception n .discarding).count n fun c => { c with unjoined := bump c.unjoined }
  if s.ciu[n].unjoinedNoticed then s
  else (s.modifyCam n fun c => { c with unjoinedNoticed := true }).notify .camUnjoined n s.ciu[n].counts.unjoined.toNat

/-- A dropped frame (R18). -/
def State.dropFrame (s : State) (n : Fin 4) : State :=
  ((s.setReception n .discarding).count n fun c => { c with dropped := bump c.dropped }).latch .drop

/-- The slot chosen as fill target takes the new frame (R29, R31). -/
def CamSlot.fill (seq now : Word32) (c : CamSlot) : CamSlot := { c with st := .filling seq now 0 }

/-- A place for the new frame (R12 step 3): the request consumes the ring's next sequence number in every case. -/
def State.placeFrame (s : State) (n : Fin 4) : State :=
  match s.fsc.camRing[n] with
  | none => s.openUnjoined n
  | some r =>
    match r.fillTarget with
    | none => (s.setCamRing n (some { r with next := r.next + 1 })).dropFrame n
    | some (k, replaces) =>
      (s.setCamRing n
        (some { r.modify k (CamSlot.fill r.next s.tbu.now) with
                next := r.next + 1, replaced := if replaces then bump r.replaced else r.replaced })).setReception n
        (.receiving k none)

/-- A frame start of the reception process (R12). -/
def State.startFrame (s : State) (n : Fin 4) : State :=
  ((s.closeFrame n .short).modifyTiming n fun t => t.capture s.tbu.now).placeFrame n

/-- A frame start on the link (R6, R8, R9, R12): the frame timeout starts or restarts. Link traffic is acted on by the
link state alone, whatever the lock indication shows (DESIGN CHOICE, log entry 35). -/
def State.frameStart (s : State) (n : Fin 4) : State :=
  let due := s.afterMs s.ciu[n].setup.timeout
  match s.ciu[n].link with
  | .off => s
  | .settling _ => s
  | .faulted => s
  | .seeking _ => (s.enterLink n (.streaming due)).startFrame n
  | .stalled => (s.enterLink n (.streaming due)).startFrame n
  | .streaming _ => (s.modifyCam n fun c => { c with link := .streaming due }).startFrame n

/-- FRAME_START (R12). -/
def execFrameStart (n : Fin 4) (s : State) : Outcome State Fault Refusal := .next (s.frameStart n)

/-- The bytes of a run of pixel pairs (R41). -/
def pairBytes (ps : List Pair) : List Byte := ps.flatMap fun p => [p.y0, p.u, p.y1, p.v]

/-- A line adds one to the frame's line count (R13). -/
def CamSlot.addLine (c : CamSlot) : CamSlot :=
  match c.st with
  | .filling q t l => { c with st := .filling q t (bump l) }
  | _ => c

/-- Where a line of camera `n` goes (R13, R41): its first byte and its bytes, the first W pixels at most; `none` for
a line of index H or above. -/
def State.linePlace (s : State) (n : Fin 4) (r : CamRing) (k : Nat) (lines : Count) (ps : List Pair) :
    Option (Nat × List Byte) :=
  let c := s.ciu[n].setup
  if lines.toNat < c.height then
    some (s.camSlotByte n r k + lines.toNat * (c.width * 2), pairBytes (ps.take (c.width / 2)))
  else none

/-- The pending cause after a line (R13). -/
def lineCause (width : Nat) (ps : List Pair) (pend : Option Damage) : Option Damage :=
  if 2 * ps.length = width then pend else pend.or (some .lineLength)

/-- The frame's record after a line (R13). -/
def State.countLine (s : State) (n : Fin 4) (k : Nat) (ps : List Pair) (pend : Option Damage) : State :=
  (s.modifyCamSlot n k CamSlot.addLine).setReception n (.receiving k (lineCause s.ciu[n].setup.width ps pend))

/-- LINE (R13): in RECEIVING the line is written to its row and counted; else it is discarded. The lock indication is not
read (DESIGN CHOICE, log entry 35). -/
def execLine (n : Fin 4) (ps : List Pair) (s : State) : Outcome State Fault Refusal :=
  match s.ciu[n].reception, s.fsc.camRing[n], s.openLines n, s.ciu[n].link.live with
  | .receiving k pend, some r, some lines, true =>
    match s.linePlace n r k lines ps with
    | none => .next (s.countLine n k ps pend)
    | some (a, bs) =>
      if inDram a bs.length then .next ({ s with dram := s.dram.writeBytes a bs }.countLine n k ps pend)
      else .fault .dramAddress
  | _, _, _, _ => .next s

/-- A frame end in RECEIVING (R15). -/
def State.endFrame (s : State) (n : Fin 4) (k : Nat) (pend : Option Damage) : State :=
  let lines := ((s.openLines n).getD 0).toNat
  match pend with
  | some cause => s.damageFrame n k cause
  | none =>
    if lines < s.ciu[n].setup.height then s.damageFrame n k .short
    else if s.ciu[n].setup.height < lines then s.damageFrame n k .long
    else ((s.modifyCamSlot n k CamSlot.finish).count n fun c => { c with good := bump c.good }).setReception n .noFrame

/-- A frame end (R6, R8, R15). The lock indication is not read (DESIGN CHOICE, log entry 35). -/
def State.frameEnd (s : State) (n : Fin 4) : State :=
  if s.ciu[n].link.live then
    match s.ciu[n].reception with
    | .noFrame => s.count n fun c => { c with stray := bump c.stray }
    | .discarding => s.setReception n .noFrame
    | .receiving k pend => s.endFrame n k pend
  else s

/-- FRAME_END (R15). -/
def execFrameEnd (n : Fin 4) (s : State) : Outcome State Fault Refusal := .next (s.frameEnd n)

/-- A feed fault while the feed enable is on (R5). -/
def State.feedFault (s : State) (n : Fin 4) : State :=
  if s.ciu[n].link.feed then
    (((s.closeFrame n .power).count n fun c => { c with faults := bump c.faults }).latch .feedFault).enterLink n .faulted
  else s

/-- FEED_FAULT (R5). -/
def execFeedFault (n : Fin 4) (s : State) : Outcome State Fault Refusal := .next (s.feedFault n)

/-! ### Expiries of the intake timers -/

/-- The settle timer expires in SETTLING (R7). -/
def State.settleExpiry (s : State) (n : Fin 4) : State :=
  match s.ciu[n].link with
  | .settling due => if s.reached (some due) then s.enterSeeking n else s
  | _ => s

/-- SETTLE_TIMER_EXPIRY (R7); before the deadline there is no expiry (log entry 9). -/
def execSettleTimerExpiry (n : Fin 4) (s : State) : Outcome State Fault Refusal := .next (s.settleExpiry n)

/-- The seek timer expires in SEEKING (R7): one SEEK_TIMEOUT per entry; the timer is not restarted. -/
def State.seekExpiry (s : State) (n : Fin 4) : State :=
  match s.ciu[n].link with
  | .seeking due =>
    if s.reached due then
      let t := s.modifyCam n fun c => { c with link := .seeking none, seekNoticed := true }
      if s.ciu[n].seekNoticed then t else t.notify .seekTimeout n s.ciu[n].setup.seek
    else s
  | _ => s

/-- SEEK_TIMER_EXPIRY (R7). -/
def execSeekTimerExpiry (n : Fin 4) (s : State) : Outcome State Fault Refusal := .next (s.seekExpiry n)

/-- The frame timeout expires in STREAMING (R9); the frame being received stays open. -/
def State.timeoutExpiry (s : State) (n : Fin 4) : State :=
  match s.ciu[n].link with
  | .streaming due => if s.reached (some due) then s.enterLink n .stalled else s
  | _ => s

/-- FRAME_TIMEOUT_EXPIRY (R9). -/
def execFrameTimeoutExpiry (n : Fin 4) (s : State) : Outcome State Fault Refusal := .next (s.timeoutExpiry n)

end Sys2Proof.Machine
end

