-- ==== Sys2Proof/Machine/FrameStoreCmds.lean ====
section
/-! DEFINITION. Frame store commands and events (02): the area table, port holds and readback, the overlay area. -/

namespace Sys2Proof.Machine

open Host (Outcome)

/-! ### The area table -/

/-- Two ranges of units share a unit (R22). -/
def sharesUnit (b l b' l' : Nat) : Bool := decide (b < l' ∧ b' < l)

/-- The range shares a unit with an entry other than `a` that is not UNDEFINED (R22 step 4). -/
def FrameStore.overlaps (fs : FrameStore) (a : Fin 8) (b l : Nat) : Bool :=
  (List.finRange 8).any fun i =>
    decide (i ≠ a) && (match fs.areas[i] with | .undefined => false | .range b' l' _ => sharesUnit b l b' l')

/-- The form's range is out of bounds (R22 step 1). -/
def AreaFormBad : AreaForm → Bool
  | .release => false
  | .range b l => decide (4095 < b ∨ l < 1 ∨ 4096 < l ∨ l ≤ b)

/-- The entry's state as AREA_DEFINE judges it (R22 steps 2 and 3). -/
def Area.refusesDefine : Area → Option Result
  | .undefined => none
  | .range _ _ .defined => none
  | .range _ _ .clearing => some .busy
  | .range _ _ .clean => some .wrongState
  | .range _ _ (.joined _) => some .wrongState

/-- AREA_DEFINE after the generation check (R22). -/
def judgeAreaDefine (area : Nat) (form : AreaForm) (s : State) : Verdict :=
  match index 8 area with
  | none => .refuse .badArg
  | some a =>
    if AreaFormBad form then .refuse .badArg
    else
      match s.fsc.areas[a].refusesDefine with
      | some r => .refuse r
      | none =>
        match form with
        | .release => .take .ok .empty (s.setArea a .undefined)
        | .range b l =>
          if s.fsc.overlaps a b l then .refuse .overlap else .take .ok .empty (s.setArea a (.range b l .defined))

/-- AREA_DEFINE (R22). -/
def execAreaDefine (h : Hdr) (area : Nat) (form : AreaForm) (s : State) : Outcome State Fault Refusal :=
  guarded s h 0x20 (judgeAreaDefine area form)

/-- AREA_CLEAR after the generation check (R23). -/
def judgeAreaClear (area : Nat) (s : State) : Verdict :=
  match index 8 area with
  | none => .refuse .badArg
  | some a =>
    match s.fsc.areas[a] with
    | .undefined => .refuse .wrongState
    | .range _ _ .clearing => .refuse .busy
    | .range _ _ (.joined _) => .refuse .wrongState
    | .range b l .defined => .take .accepted .empty (s.setArea a (.range b l .clearing))
    | .range b l .clean => .take .accepted .empty (s.setArea a (.range b l .clearing))

/-- AREA_CLEAR (R23). -/
def execAreaClear (h : Hdr) (area : Nat) (s : State) : Outcome State Fault Refusal :=
  guarded s h 0x21 (judgeAreaClear area)

/-- Completion of a clear (R24): the range holds zero (log entry 4), the entry is CLEAN, AREA_CLEARED is sent. -/
def execAreaClearCompletion (a : Fin 8) (s : State) : Outcome State Fault Refusal :=
  match s.fsc.areas[a] with
  | .range b l .clearing =>
    if inDram (b * Config.unitBytes) ((l - b) * Config.unitBytes) then
      .next (({ s with dram := s.dram.clear (b * Config.unitBytes) ((l - b) * Config.unitBytes) }.setArea a
        (.range b l .clean)).notify .areaCleared a (l - b))
    else .fault .dramAddress
  | _ => .next s

/-- The slot count of a ring of `stride` units in an area of `size` units (R25 step 4). -/
def slotCount (size stride : Nat) : Nat := min 4 (size / stride)

/-- The join-state change of camera `n` (R17, R52): the unjoined-notice flag is cleared and the expired sequence
becomes absent. -/
def State.changeJoin (s : State) (n : Fin 4) : State :=
  (s.modifyCam n fun c => { c with unjoinedNoticed := false }).modifyTiming n fun t => { t with expired := none }

/-- Join a CLEAN area of units `b` to `l` to a target that no area is joined to (R25 steps 4 and 5). -/
def State.join (s : State) (a : Fin 8) (b l : Nat) (t : Target) : Verdict :=
  let joined := s.setArea a (.range b l (.joined t))
  match t with
  | .camera n =>
    let k := slotCount (l - b) s.ciu[n].setup.stride
    if k < 2 then .refuse .areaTooSmall
    else
      .take .ok .empty ((joined.setCamRing n
        (some { area := a, next := 0, replaced := 0, slots := List.replicate k .empty })).changeJoin n)
  | .output =>
    let k := slotCount (l - b) Config.outStride
    if k < 3 then .refuse .areaTooSmall
    else .take .ok .empty (joined.setOutRing (some { area := a, next := 0, slots := List.replicate k .empty }))
  | .overlay => if l - b < 1 then .refuse .areaTooSmall else .take .ok .empty joined

/-- AREA_JOIN after the generation check (R25). -/
def judgeAreaJoin (area : Nat) (target : Option Target) (s : State) : Verdict :=
  match index 8 area, target with
  | none, _ => .refuse .badArg
  | some _, none => .refuse .badArg
  | some a, some t =>
    match s.fsc.areas[a] with
    | .undefined => .refuse .wrongState
    | .range _ _ .clearing => .refuse .busy
    | .range _ _ .defined => .refuse .wrongState
    | .range _ _ (.joined _) => .refuse .wrongState
    | .range b l .clean => if (s.fsc.joined t).isSome then .refuse .inUse else s.join a b l t

/-- AREA_JOIN (R25). -/
def execAreaJoin (h : Hdr) (area : Nat) (target : Option Target) (s : State) : Outcome State Fault Refusal :=
  guarded s h 0x22 (judgeAreaJoin area target)

/-- The user of a target no longer needs its area (R27). -/
def State.unjoinable (s : State) : Target → Bool
  | .camera n =>
    decide (s.ciu[n].link = .off) && (match s.fsc.camRing[n] with | none => true | some r => r.slots.all CamSlot.loose)
  | .output =>
    s.su.timer.isNone && s.ce.current.isNone
      && (match s.fsc.outRing with | none => true | some r => r.slots.all OutSlot.unheld)
  | .overlay => s.ce.current.isNone

/-- Discard the ring of a target (R27). -/
def State.discardRing (s : State) : Target → State
  | .camera n => (s.setCamRing n none).changeJoin n
  | .output => s.setOutRing none
  | .overlay => s

/-- AREA_UNJOIN after the generation check (R27). -/
def judgeAreaUnjoin (area : Nat) (s : State) : Verdict :=
  match index 8 area with
  | none => .refuse .badArg
  | some a =>
    match s.fsc.areas[a] with
    | .range b l (.joined t) =>
      if s.unjoinable t then .take .ok .empty ((s.setArea a (.range b l .defined)).discardRing t)
      else .refuse .inUse
    | _ => .refuse .wrongState

/-- AREA_UNJOIN (R27). -/
def execAreaUnjoin (h : Hdr) (area : Nat) (s : State) : Outcome State Fault Refusal :=
  guarded s h 0x23 (judgeAreaUnjoin area)

/-- A camera slot's record as reported (R28, R29). -/
def CamSlot.report (c : CamSlot) : CamSlotReport :=
  { st := c.st, pin := c.pin, holdD := c.holdD.isSome, holdA := c.holdA.isSome }

/-- The record of output slot `k` as reported (R28, R32): the scanout hold stands on the slot that scanout holds. -/
def OutSlot.report (held : Option Nat) (k : Nat) (c : OutSlot) : OutSlotReport :=
  { st := c.st, scanout := decide (held = some k), holdD := c.holdD.isSome, holdA := c.holdA.isSome }

/-- A camera ring as reported (R28). -/
def CamRing.report (r : CamRing) (stride : Nat) : RingReport :=
  .camera r.slots.length stride r.next r.replaced (r.slots.map CamSlot.report)

/-- The output ring as reported (R28). -/
def OutRing.report (r : OutRing) (held : Option Nat) : RingReport :=
  .output r.slots.length Config.outStride r.next (r.slots.mapIdx (OutSlot.report held))

/-- The ring part of an area report (R28). -/
def State.ringReport (s : State) (a : Fin 8) : RingReport :=
  match s.fsc.areas[a] with
  | .range _ _ (.joined (.camera n)) =>
    match s.fsc.camRing[n] with
    | none => .noRing
    | some r => r.report s.ciu[n].setup.stride
  | .range _ _ (.joined .output) =>
    match s.fsc.outRing with
    | none => .noRing
    | some r => r.report s.su.held
  | _ => .noRing

/-- Clear the replaced counter of the camera ring in an area (R28); no effect on any other kind of area. -/
def State.clearReplaced (s : State) (a : Fin 8) : State :=
  match s.fsc.areas[a] with
  | .range _ _ (.joined (.camera n)) => s.setCamRing n (s.fsc.camRing[n].map fun r => { r with replaced := 0 })
  | _ => s

/-- AREA_STATUS (R28). -/
def judgeAreaStatus (area : Nat) (clear : Bool) (s : State) : Verdict :=
  match index 8 area with
  | none => .refuse .badArg
  | some a => .take .ok (.area s.fsc.areas[a] (s.ringReport a)) (if clear then s.clearReplaced a else s)

/-- AREA_STATUS (R28). -/
def execAreaStatus (h : Hdr) (area : Nat) (clear : Bool) (s : State) : Outcome State Fault Refusal :=
  command s h 0x24 (judgeAreaStatus area clear)

/-! ### The overlay area -/

/-- The bytes that a write replaces, kept by a compose in flight so that its pass may have read either (R40, log
entry 6). -/
def Compose.noteWrite (c : Compose) (m : Memory) (a len : Nat) : Compose :=
  { c with replacedBytes := ((List.range len).map fun i => (a + i, m.read (a + i))) ++ c.replacedBytes }

/-- Write bytes to DRAM from address `a` on behalf of AREA_WRITE (R40). -/
def State.writeOverlay (s : State) (a : Nat) (bs : List Byte) : State :=
  { s with
    dram := s.dram.writeBytes a bs
    ce := { s.ce with current := s.ce.current.map fun c => c.noteWrite s.dram a bs.length } }

/-- AREA_WRITE after the generation check (R40): the offset is the argument word, the length the payload length. -/
def judgeAreaWrite (offset : Nat) (bs : List Byte) (s : State) : Verdict :=
  if bs.length < 1 ∨ 240 < bs.length then .refuse .badArg
  else
    match s.fsc.joined .overlay with
    | none => .refuse .wrongState
    | some a =>
      if s.fsc.areas[a].size * Config.unitBytes < offset + bs.length then .refuse .badArg
      else if inDram (s.fsc.areaByte a + offset) bs.length then
        .take .ok .empty (s.writeOverlay (s.fsc.areaByte a + offset) bs)
      else .stop .dramAddress

/-- AREA_WRITE (R40). -/
def execAreaWrite (h : Hdr) (payload : List Byte) (s : State) : Outcome State Fault Refusal :=
  takeCommand s h 0x25 (decide (h.len.toNat ≤ payload.length))
    (guardGen h (judgeAreaWrite h.arg.toNat (payload.take h.len.toNat)))

/-! ### Port holds -/

/-- The slot that a port holds in a camera ring. -/
def CamRing.heldBy (r : CamRing) (p : Port) : Option Nat := r.slots.findIdx? fun c => (c.hold p).isSome

/-- The slot that a port holds in the output ring. -/
def OutRing.heldBy (r : OutRing) (p : Port) : Option Nat := r.slots.findIdx? fun c => (c.hold p).isSome

/-- FRAME_HOLD on a camera ring (R35 steps 2 to 4). -/
def judgeHoldCam (p : Port) (n : Fin 4) (s : State) : Verdict :=
  match s.fsc.camRing[n] with
  | none => .refuse .notFound
  | some r =>
    if (r.heldBy p).isSome then .refuse .wrongState
    else
      match r.newestReady with
      | none => .refuse .notFound
      | some k =>
        match r.slots[k]? with
        | some { st := .ready q t _, .. } =>
          let c := s.ciu[n].setup
          .take .ok (.held (.camera n) k c.frameBytes (.camera q t c.width c.height))
            (s.setCamRing n (some (r.modify k fun x => x.setHold p (some (s.afterMs (s.port p).holdTime)))))
        | _ => .refuse .notFound

/-- FRAME_HOLD on the output ring (R35 steps 2 to 4). -/
def judgeHoldOut (p : Port) (s : State) : Verdict :=
  match s.fsc.outRing with
  | none => .refuse .notFound
  | some r =>
    if (r.heldBy p).isSome then .refuse .wrongState
    else
      match r.newestDone with
      | none => .refuse .notFound
      | some k =>
        match r.slots[k]? with
        | some { st := .finished f, .. } =>
          .take .ok (.held .output k Config.outBytes (.output f))
            (s.setOutRing (some (r.modify k fun x => x.setHold p (some (s.afterMs (s.port p).holdTime)))))
        | _ => .refuse .notFound

/-- FRAME_HOLD (R35). -/
def judgeFrameHold (p : Port) (ring : Option Ring) (s : State) : Verdict :=
  match ring with
  | none => .refuse .badArg
  | some (.camera n) => judgeHoldCam p n s
  | some .output => judgeHoldOut p s

/-- FRAME_HOLD (R35). -/
def execFrameHold (h : Hdr) (ring : Option Ring) (s : State) : Outcome State Fault Refusal :=
  command s h 0x26 (judgeFrameHold h.port ring)

/-- FRAME_RELEASE (R37). -/
def judgeFrameRelease (p : Port) (ring : Option Ring) (s : State) : Verdict :=
  match ring with
  | none => .refuse .badArg
  | some (.camera n) =>
    match s.fsc.camRing[n] with
    | none => .refuse .notFound
    | some r =>
      match r.heldBy p with
      | none => .refuse .notFound
      | some k => .take .ok .empty (s.setCamRing n (some (r.modify k fun x => x.setHold p none)))
  | some .output =>
    match s.fsc.outRing with
    | none => .refuse .notFound
    | some r =>
      match r.heldBy p with
      | none => .refuse .notFound
      | some k => .take .ok .empty (s.setOutRing (some (r.modify k fun x => x.setHold p none)))

/-- FRAME_RELEASE (R37). -/
def execFrameRelease (h : Hdr) (ring : Option Ring) (s : State) : Outcome State Fault Refusal :=
  command s h 0x27 (judgeFrameRelease h.port ring)

/-- Where the frame that a port holds in a ring lies, and its size in bytes (R35, R38). -/
def State.heldFrame (s : State) (p : Port) : Ring → Option (Nat × Nat)
  | .camera n =>
    match s.fsc.camRing[n] with
    | none => none
    | some r => (r.heldBy p).map fun k => (s.camSlotByte n r k, s.ciu[n].setup.frameBytes)
  | .output =>
    match s.fsc.outRing with
    | none => none
    | some r => (r.heldBy p).map fun k => (s.outSlotByte r k, Config.outBytes)

/-- FRAME_READ (R38): the offset is the argument word. -/
def judgeFrameRead (p : Port) (ring : Option Ring) (offset length : Nat) (s : State) : Verdict :=
  match ring with
  | none => .refuse .badArg
  | some ring =>
    if length < 1 ∨ 240 < length then .refuse .badArg
    else
      match s.heldFrame p ring with
      | none => .refuse .notFound
      | some (a, size) =>
        if size < offset + length then .refuse .badArg
        else if inDram (a + offset) length then .take .ok (.bytes (s.dram.readBytes (a + offset) length)) s
        else .stop .dramAddress

/-- FRAME_READ (R38). -/
def execFrameRead (h : Hdr) (ring : Option Ring) (length : Nat) (s : State) : Outcome State Fault Refusal :=
  command s h 0x28 (judgeFrameRead h.port ring h.arg.toNat length)

/-- A hold of a port in a camera ring expires (R36). -/
def State.expireCamHold (s : State) (p : Port) (n : Fin 4) : State :=
  match s.fsc.camRing[n] with
  | none => s
  | some r =>
    match r.slots.findIdx? fun c => s.reached (c.hold p) with
    | none => s
    | some k =>
      (s.setCamRing n (some (r.modify k fun x => x.setHold p none))).notifyOwner p .holdExpired n
        (match r.slots[k]? with | some c => c.st.seq.toNat | none => 0)

/-- A hold of a port in the output ring expires (R36). -/
def State.expireOutHold (s : State) (p : Port) : State :=
  match s.fsc.outRing with
  | none => s
  | some r =>
    match r.slots.findIdx? fun c => s.reached (c.hold p) with
    | none => s
    | some k =>
      (s.setOutRing (some (r.modify k fun x => x.setHold p none))).notifyOwner p .holdExpired 4
        (match r.slots[k]? with | some c => c.st.seq.toNat | none => 0)

/-- HOLD_EXPIRY (R36); before the deadline there is no expiry (log entry 9). -/
def execHoldExpiry (p : Port) (ring : Ring) (s : State) : Outcome State Fault Refusal :=
  match ring with
  | .camera n => .next (s.expireCamHold p n)
  | .output => .next (s.expireOutHold p)

end Sys2Proof.Machine
end

