-- ==== Sys2Proof/Machine/Overlay.lean ====
section
/-! DEFINITION. The overlay unit's commands (07): palette, silhouette description, guide setup, curvature table and the
marker list. The drawing itself stands in Draw.lean. -/

namespace Sys2Proof.Machine

open Host (Outcome)

/-! ### Setup (R122, R123) -/

/-- A silhouette extent is out of its range or off its step of 16 (R122 step 1). -/
def silhouetteBad (limit x : Nat) : Bool := decide (x < 16 ∨ limit < x ∨ x % 16 ≠ 0)

/-- A palette entry with its alpha clamped (R122 step 2). -/
def clampAlpha (e : PalEntry) : PalEntry := { e with alpha := clampNat 0 16 e.alpha }

/-- The guide setup stored for an operand, each value clamped in the order of R122 step 2. -/
def guideOf (r : OverlayArg) (cond : GuideCond) : Guide :=
  { halfTrack := clampNat 300 1500 r.halfTrack
    start := start
    stop := clampNat (start + 500) 8000 r.stop
    thick := clampNat 2 8 r.thick
    near := near
    mid := clampNat near 8000 r.mid
    marks := r.marks.map (clampNat 0 8000)
    cond := cond }
where
  start := clampNat 0 3000 r.start
  near := clampNat 0 8000 r.near

/-- The palette stored for an operand. -/
def paletteOf (r : OverlayArg) : Vector PalEntry 16 := Vector.ofFn fun i : Fin 16 => clampAlpha r.palette[i]

/-- Some value of the operand differs from the one stored (R122 step 3). -/
def overlayClamped (r : OverlayArg) (g : Guide) : Bool :=
  (List.finRange 16).any (fun i => decide (16 < r.palette[i].alpha))
    || decide (g.halfTrack ≠ r.halfTrack ∨ g.start ≠ r.start ∨ g.stop ≠ r.stop ∨ g.thick ≠ r.thick ∨ g.near ≠ r.near
      ∨ g.mid ≠ r.mid ∨ g.marks ≠ r.marks)

/-- Put the overlay unit's setup. -/
def State.setOverlay (s : State) (o : OverlaySetup) : State := { s with ou := { s.ou with setup := o } }

/-- OVERLAY_SET after the generation check (R122). -/
def judgeOverlaySet (r : OverlayArg) (s : State) : Verdict :=
  if silhouetteBad 256 r.silW || silhouetteBad 512 r.silH || decide (4 < r.marks.length) then .refuse .badArg
  else
    match r.cond with
    | none => .refuse .badArg
    | some c =>
      let g := guideOf r c
      .take (clampResult (overlayClamped r g)) .empty
        (s.setOverlay { s.ou.setup with palette := paletteOf r, silW := r.silW, silH := r.silH, guide := g })

/-- OVERLAY_SET (R122). -/
def execOverlaySet (h : Hdr) (r : OverlayArg) (s : State) : Outcome State Fault Refusal :=
  guarded s h 0x60 (judgeOverlaySet r)

/-- CURVE_SET after the generation check (R123). -/
def judgeCurveSet (t : Vector Int 33) (s : State) : Verdict :=
  let c := Vector.ofFn fun i : Fin 33 => clampInt (-16384) 16384 t[i]
  .take (clampResult (decide (c ≠ t))) .empty (s.setOverlay { s.ou.setup with curve := c })

/-- CURVE_SET (R123). -/
def execCurveSet (h : Hdr) (t : Vector Int 33) (s : State) : Outcome State Fault Refusal :=
  guarded s h 0x61 (judgeCurveSet t)

/-- OVERLAY_STATUS (R136). -/
def execOverlayStatus (h : Hdr) (s : State) : Outcome State Fault Refusal :=
  bare s h 0x62 fun s => report s (.overlay s.ou.setup s.ou.markers.length)

/-! ### The marker list (R131 to R134) -/

/-- A MARK_POST operand is out of range (R132 step 1). -/
def MarkArg.bad (m : MarkArg) : Bool :=
  decide (m.severity < 1 ∨ 3 < m.severity ∨ m.x < -20000 ∨ 20000 < m.x ∨ m.y < -20000 ∨ 20000 < m.y
    ∨ m.width < 100 ∨ 10000 < m.width ∨ m.length < 100 ∨ 10000 < m.length)

/-- Place a marker at the front of the group of its severity (R131, R132). -/
def placeMarker (m : Marker) (l : List Marker) : List Marker :=
  l.takeWhile (fun x => decide (m.severity < x.severity)) ++ m :: l.dropWhile fun x => decide (m.severity < x.severity)

/-- The list without the marker of an id. -/
def dropMarker (id : Byte) (l : List Marker) : List Marker := l.filter fun m => decide (m.id ≠ id)

/-- A marker of an id is in the list. -/
def hasMarker (id : Byte) (l : List Marker) : Bool := l.any fun m => decide (m.id = id)

/-- The place of an id in the list, counted from 0 at the head. -/
def markerPlace (id : Byte) (l : List Marker) : Nat := l.findIdx fun m => decide (m.id = id)

/-- Put the marker list. -/
def State.setMarkers (s : State) (l : List Marker) : State := { s with ou := { s.ou with markers := l } }

/-- The marker record that a post makes (R132 steps 2 to 4). -/
def State.makeMarker (s : State) (p : Port) (m : MarkArg) : Marker :=
  { id := BitVec.ofNat 8 m.id, owner := p, severity := m.severity, shape := m.shape, x := m.x, y := m.y,
    width := m.width, length := m.length, timeout := timeout, deadline := s.afterMs timeout }
where
  timeout := clampNat 50 5000 m.timeout

/-- Room for a new marker (R132 steps 4 and 5): on a full list the last entry, which is of the lowest severity, is
evicted if its severity is lower, and its owner is told; `none` when no room can be made. -/
def State.makeMarkerRoom (s : State) (m : Marker) : Option State :=
  if s.ou.markers.length < Config.markerMax then some s
  else
    match s.ou.markers.getLast? with
    | none => some s
    | some e =>
      if e.severity < m.severity then
        some ((s.setMarkers s.ou.markers.dropLast).notifyOwner e.owner .markerEvicted e.id.toNat m.id.toNat)
      else none

/-- Place a marker and answer with its place and the list's length (R132). -/
def State.postMarker (s : State) (m : Marker) (r : Result) : Verdict :=
  let l := placeMarker m s.ou.markers
  .take r (.placed (markerPlace m.id l) l.length) (s.setMarkers l)

/-- MARK_POST (R132). -/
def judgeMarkPost (p : Port) (m : MarkArg) (s : State) : Verdict :=
  if m.bad then .refuse .badArg
  else
    let x := s.makeMarker p m
    let r := clampResult (decide (x.timeout ≠ m.timeout))
    if hasMarker x.id s.ou.markers then (s.setMarkers (dropMarker x.id s.ou.markers)).postMarker x r
    else
      match s.makeMarkerRoom x with
      | none => .refuse .full
      | some t => t.postMarker x r

/-- MARK_POST (R132): the payload is bytes 0 to 11 of a marker record. -/
def execMarkPost (h : Hdr) (payload : List Byte) (s : State) : Outcome State Fault Refusal :=
  takeCommand s h 0x63 (decide (h.len.toNat ≤ payload.length) && decide (12 ≤ h.len.toNat))
    (judgeMarkPost h.port (readMark payload))

/-- MARK_REMOVE (R134). -/
def judgeMarkRemove (id : Nat) (s : State) : Verdict :=
  if 255 < id then .refuse .badArg
  else if hasMarker (BitVec.ofNat 8 id) s.ou.markers then
    .take .ok .empty (s.setMarkers (dropMarker (BitVec.ofNat 8 id) s.ou.markers))
  else .refuse .notFound

/-- MARK_REMOVE (R134). -/
def execMarkRemove (h : Hdr) (id : Nat) (s : State) : Outcome State Fault Refusal := command s h 0x64 (judgeMarkRemove id)

/-- MARK_CLEAR (R134). -/
def execMarkClear (h : Hdr) (s : State) : Outcome State Fault Refusal :=
  bare s h 0x65 fun s => .take .ok (.removed s.ou.markers.length) (s.setMarkers [])

/-- What MARK_STATUS reports (R136; 11, Marker record). -/
def State.markerReport (s : State) : Payload :=
  .bytes (BitVec.ofNat 8 s.ou.markers.length :: s.ou.markers.flatMap fun m => markerBytes m (s.untilMs m.deadline))

/-- MARK_STATUS (R136). -/
def execMarkStatus (h : Hdr) (s : State) : Outcome State Fault Refusal :=
  bare s h 0x66 fun s => report s s.markerReport

/-- The expiry of the marker of an id (R133). -/
def State.expireMarker (s : State) (id : Byte) : State :=
  match s.ou.markers.find? fun m => decide (m.id = id) with
  | none => s
  | some m =>
    if s.reached (some m.deadline) then
      (s.setMarkers (dropMarker id s.ou.markers)).notifyOwner m.owner .markerExpired id.toNat m.severity
    else s

/-- MARKER_EXPIRY (R133); before the deadline there is no expiry (log entry 9). -/
def execMarkerExpiry (id : Byte) (s : State) : Outcome State Fault Refusal := .next (s.expireMarker id)

end Sys2Proof.Machine
end

