-- ==== Sys2Proof/Machine/PortCmds.lean ====
section
/-! DEFINITION. The control ports' own transactions and commands (11): response reads, ignored transactions, unknown
codes, STATUS, PORT_SETUP and EVENT_READ. -/

namespace Sys2Proof.Machine

open Host (Outcome)

/-! ### Transactions (R177) -/

/-- What a read returns while no response is pending (R177). -/
def State.emptyResponse (s : State) : Response :=
  { code := 0x00, result := .ok, flags := s.flags, gen := s.cp.gen, payload := .empty }

/-- A response read (R177): the pending response is returned and none is left pending. -/
def State.readResponse (s : State) (p : Port) : State :=
  s.setPort p { s.port p with delivered := some ((s.port p).pending.getD s.emptyResponse), pending := none }

/-- RESPONSE_READ (R177). -/
def execResponseRead (p : Port) (s : State) : Outcome State Fault Refusal := .next (s.readResponse p)

/-- IGNORED_TRANSACTION (R177): every state stays as it was. -/
def execIgnoredTransaction (_p : Port) (_bytes : List Byte) (s : State) : Outcome State Fault Refusal := .next s

/-- UNKNOWN_COMMAND (R177 steps 1 and 2): judged before the framing; a code that names a command is no unknown command
(log entry 18). -/
def execUnknownCommand (h : Hdr) (code : Byte) (s : State) : Outcome State Fault Refusal :=
  if h.got < 10 ∨ commandCodes.contains code then .next s
  else .next (s.respond h.port code .unknownCommand .empty)

/-- The command that a record's bytes spell on port `p` (R177; 11 sections 11.6 and 11.7): an unknown code, a command
without fields, or one whose payload layout the manual gives. `none` for the others, whose layouts it does not give (log
entry 11), and for a record shorter than its header. -/
def readCommand (p : Port) (record : List Byte) : Option Instr :=
  (readRecord p true record).bind fun (code, h, payload) =>
    if !commandCodes.contains code then some (.unknownCommand h code)
    else
      match code.toNat with
      | 0x03 => some (.eventRead h)
      | 0x04 => some (.pipelineReset h)
      | 0x25 => some (.areaWrite h payload)
      | 0x31 => some (.timeStatus h)
      | 0x41 => some (.gridWrite h payload)
      | 0x52 => some (.balanceStatus h)
      | 0x62 => some (.overlayStatus h)
      | 0x63 => some (.markPost h payload)
      | 0x65 => some (.markClear h)
      | 0x66 => some (.markStatus h)
      | 0x74 => some (.claimStatus h)
      | 0x84 => some (.canRestart h)
      | 0x85 => some (.canErrclr h)
      | _ => none

/-- What a transaction's bytes are on port `p` (R177): byte 0 is its direction. A transaction without any byte, of which R177
says nothing, is ignored (DESIGN CHOICE, log entry 40). -/
def readTransaction (p : Port) (bytes : List Byte) : Option Instr :=
  match bytes with
  | [] => some (.ignoredTransaction p bytes)
  | b :: record =>
    if b = 0x02 then some (.responseRead p)
    else if b = 0x01 then
      if record.length < 10 then some (.ignoredTransaction p bytes) else readCommand p record
    else some (.ignoredTransaction p bytes)

/-! ### STATUS (R180) -/

/-- What STATUS reports to a port (R180). -/
def State.statusReport (s : State) (p : Port) : Payload :=
  .status s.cp.gen s.cp.faults (s.port p).mask (s.port p).irqEnable (s.port p).holdTime (s.port p).claimHold
    (s.port p).queue.length (s.port p).overflow (s.port (other p)).queue.length

/-- Set the fault summary to 0 (R180). -/
def State.clearFaults (s : State) : State := { s with cp := { s.cp with faults := 0 } }

/-- STATUS (R180): the response, its FAULT flag included, shows the summary before the clear. -/
def execStatus (h : Hdr) (clear : Bool) (s : State) : Outcome State Fault Refusal :=
  if h.got < 10 then .next s
  else if framed h h.fits then
    let t := s.respond h.port 0x01 .ok (s.statusReport h.port)
    .next (if clear then t.clearFaults else t)
  else .next (s.respond h.port 0x01 .badArg .empty)

/-! ### PORT_SETUP (R183) -/

/-- The flags of the notice kinds, bits 1 to 20 (R181; DEDUCED, log entry 19). -/
def kindFlags : Word32 := 0x1FFFFE

/-- PORT_SETUP (R183). -/
def judgePortSetup (p : Port) (mask : Word32) (irqEnable : Bool) (holdTime claimHold : Nat) (s : State) : Verdict :=
  if mask &&& kindFlags ≠ mask then .refuse .badArg
  else
    let t := clampNat 10 5000 holdTime
    let c := clampNat 100 10000 claimHold
    .take (clampResult (decide (t ≠ holdTime ∨ c ≠ claimHold))) .empty
      (s.setPort p { s.port p with mask := mask, irqEnable := irqEnable, holdTime := t, claimHold := c })

/-- PORT_SETUP (R183). -/
def execPortSetup (h : Hdr) (mask : Word32) (irqEnable : Bool) (holdTime claimHold : Nat) (s : State) :
    Outcome State Fault Refusal :=
  command s h 0x02 (judgePortSetup h.port mask irqEnable holdTime claimHold)

/-! ### EVENT_READ (R182) -/

/-- The most notices one EVENT_READ returns (R182). -/
def eventMax : Nat := 14

/-- The bytes of an EVENT_READ response (11 section 11.6, Notice record); the overflow flag's byte is 1 when it is set and 0
when it is clear (DESIGN CHOICE, log entry 38). -/
def PortState.eventBytes (q : PortState) : List Byte :=
  [BitVec.ofNat 8 (q.queue.take eventMax).length, (if q.overflow then 1 else 0),
    BitVec.ofNat 8 (q.queue.drop eventMax).length]
    ++ (q.queue.take eventMax).flatMap noticeBytes

/-- EVENT_READ (R182). -/
def judgeEventRead (p : Port) (s : State) : Verdict :=
  .take .ok (.bytes (s.port p).eventBytes)
    (s.setPort p { s.port p with queue := (s.port p).queue.drop eventMax, overflow := false })

/-- EVENT_READ (R182). -/
def execEventRead (h : Hdr) (s : State) : Outcome State Fault Refusal := bare s h 0x03 (judgeEventRead h.port)

end Sys2Proof.Machine
end

