-- ==== Sys2Proof/Machine/Resets.lean ====
section
/-! DEFINITION. The resets (00, Resets): what power-on reset and the reset pin leave, and each block's part of the
pipeline reset (R184). -/

namespace Sys2Proof.Machine

open Host (Outcome)

/-! ### What a reset abandons -/

/-- A memory in which the clear of area `a`, if one runs, stops where it stands (R24): which bytes of the range hold zero by
then is a FREE VALUE (log entry 4). -/
def State.stopClear (s : State) (m : Memory) (a : Fin 8) : Memory :=
  match s.fsc.areas[a] with
  | .range b l .clearing =>
    m.filter fun c =>
      !(decide (b * Config.unitBytes ≤ c.1 ∧ c.1 < l * Config.unitBytes) && Config.clearReach s.fresh c.1)
  | _ => m

/-- DRAM at a reset, which abandons the pass in flight (R105) and every clear that runs (R24). -/
def State.abandonedDram (s : State) : Memory := (List.finRange 8).foldl s.stopClear s.stopPass

/-! ### Power-on reset and the reset pin -/

/-- What a hard reset does not reach: the contents of DRAM (R43) but for what it abandons (R24, R105), those of grid memory
(log entry 2), the link's lock (R20), the free-value counter and the commands that wait. Every other item takes its reset
value. -/
def State.hardReset (s : State) : State :=
  { State.reset with
    ciu := Vector.ofFn fun n : Fin 4 => { Cam.reset with locked := s.ciu[n].locked }
    dram := s.abandonedDram
    gs := { GridStore.reset with mem := s.gs.mem }
    fresh := s.fresh + 1
    pending := s.pending }

/-- POWER_ON_RESET (00, Resets). -/
def execPowerOnReset (s : State) : Outcome State Fault Refusal := .next s.hardReset

/-- RESET_PIN (00, Resets): the same effect as power-on reset. -/
def execResetPin (s : State) : Outcome State Fault Refusal := .next s.hardReset

/-! ### Pipeline reset, block by block -/

/-- An intake unit (R19). -/
def Cam.pipelineReset (c : Cam) : Cam :=
  { c with
    unjoinedNoticed := false
    reception := (match c.reception with | .receiving _ _ => .discarding | r => r) }

/-- An area entry (R24, R42). -/
def Area.pipelineReset : Area → Area
  | .range b l .clearing => .range b l .defined
  | a => a

/-- A camera ring (R42): every slot FREE, no pin or hold, the next sequence 0; the replaced counter is kept. -/
def CamRing.pipelineReset (r : CamRing) : CamRing :=
  { r with next := 0, slots := r.slots.map fun _ => CamSlot.empty }

/-- The output ring (R42). -/
def OutRing.pipelineReset (r : OutRing) : OutRing := { r with next := 0, slots := r.slots.map fun _ => OutSlot.empty }

/-- The frame store controller (R42). -/
def FrameStore.pipelineReset (f : FrameStore) : FrameStore :=
  { areas := Vector.ofFn fun i : Fin 8 => f.areas[i].pipelineReset
    camRing := Vector.ofFn fun n : Fin 4 => f.camRing[n].map CamRing.pipelineReset
    outRing := f.outRing.map OutRing.pipelineReset }

/-- The timebase unit (R45, R48, R52, R56 to R58): the period starts afresh for the current P. -/
def Timebase.pipelineReset (t : Timebase) : Timebase :=
  { t with
    running := t.period, timer := t.now + BitVec.ofNat 32 t.period, lastMask := 0, lastSkew := 0, skewOver := false
    cams := Vector.ofFn fun n : Fin 4 => { t.cams[n] with pulse := none, expired := none } }

/-- A grid set entry (R74). -/
def Grid.pipelineReset : Grid → Grid
  | .held g (.checking p n _) => .held g (.opened p n)
  | .held g (.valid b _) => .held g (.valid b false)
  | g => g

/-- The grid store (R74). -/
def GridStore.pipelineReset (g : GridStore) : GridStore :=
  { g with sets := Vector.ofFn fun i : Fin 32 => g.sets[i].pipelineReset }

/-- The composition engine (R84, R105, R167; log entry 22). -/
def Compositor.pipelineReset (c : Compositor) : Compositor :=
  { c with current := none, overrunNoticed := false, lastSeq := none }

/-- The balance unit (R119). -/
def Balance.pipelineReset (b : Balance) : Balance :=
  { b with gains := (match b.mode with | .manual => b.manual | .auto => .replicate 4 256), record := none }

/-- The claim arbiter (R152). -/
def Arbiter.pipelineReset (a : Arbiter) : Arbiter :=
  { a with
    stack := [], token := 1, lingerTimer := none, decision := { view := none, mute := false }, speedAt := 0 }

/-- The frame in progress (R176); the background colour is read at the reset (log entry 20). -/
def Display.pipelineReset (d : Display) (background : Yuv) : Display :=
  match d with
  | .composed _ => .blank background
  | .again _ => .blank background
  | .nothing => .nothing
  | .blank c => .blank c
  | .mute c => .mute c

/-- The scanout unit (R176). -/
def Scanout.pipelineReset (u : Scanout) (background : Yuv) : Scanout :=
  { u with held := none, frame := u.frame.pipelineReset background }

/-- A port (R184): its queue is emptied and its overflow flag cleared. -/
def PortState.pipelineReset (p : PortState) : PortState := { p with queue := [], overflow := false }

/-- The reverse entry that a pipeline reset makes afresh (R152). -/
def State.remakeGear (s : State) : State :=
  match s.ca.reverseView with
  | none => s
  | some v => if s.si.effGear = .reverse then s.makeGear v else s

/-- The pipeline reset of every block (R184), which abandons a pass in flight (R105) and clears that run (R24); the signal
intake keeps its state (R153, R160). -/
def State.pipelineReset (s : State) : State :=
  State.remakeGear
    { s with
      ciu := Vector.ofFn fun n : Fin 4 => s.ciu[n].pipelineReset
      fsc := s.fsc.pipelineReset
      dram := s.abandonedDram
      tbu := s.tbu.pipelineReset
      gs := s.gs.pipelineReset
      ce := s.ce.pipelineReset
      bu := s.bu.pipelineReset
      ou := { s.ou with markers := [] }
      ca := s.ca.pipelineReset
      su := s.su.pipelineReset (s.paletteColour 14)
      cp := { s.cp with portD := s.cp.portD.pipelineReset, portA := s.cp.portA.pipelineReset }
      fresh := s.fresh + 1 }

/-- PIPELINE_RESET (R184): answered OK with a response built after the reset. -/
def execPipelineReset (h : Hdr) (s : State) : Outcome State Fault Refusal :=
  bare s h 0x04 fun s => .take .ok .empty s.pipelineReset

end Sys2Proof.Machine
end

