-- ==== Sys2Proof/Machine/Dispatch.lean ====
section
/-! DEFINITION. The dispatch of every command and event to its meaning. -/

namespace Sys2Proof.Machine

/-- What a command or event does to the state, the queue left as it is. -/
def exec (i : Instr) (s : State) : Host.Outcome State Fault Refusal :=
  match i with
  | .powerOnReset => Sys2Proof.Machine.execPowerOnReset s
  | .resetPin => Sys2Proof.Machine.execResetPin s
  | .responseRead p => Sys2Proof.Machine.execResponseRead p s
  | .ignoredTransaction p bytes => Sys2Proof.Machine.execIgnoredTransaction p bytes s
  | .unknownCommand h code => Sys2Proof.Machine.execUnknownCommand h code s
  | .status h clear => Sys2Proof.Machine.execStatus h clear s
  | .portSetup h mask irqEnable holdTime claimHold => Sys2Proof.Machine.execPortSetup h mask irqEnable holdTime claimHold s
  | .eventRead h => Sys2Proof.Machine.execEventRead h s
  | .pipelineReset h => Sys2Proof.Machine.execPipelineReset h s
  | .camSetup h cam r => Sys2Proof.Machine.execCamSetup h cam r s
  | .camPowerOn h cam => Sys2Proof.Machine.execCamPowerOn h cam s
  | .camPowerOff h cam => Sys2Proof.Machine.execCamPowerOff h cam s
  | .camStatus h cam clear => Sys2Proof.Machine.execCamStatus h cam clear s
  | .camTriggerNow h cam => Sys2Proof.Machine.execCamTriggerNow h cam s
  | .camMask h mask => Sys2Proof.Machine.execCamMask h mask s
  | .areaDefine h area form => Sys2Proof.Machine.execAreaDefine h area form s
  | .areaClear h area => Sys2Proof.Machine.execAreaClear h area s
  | .areaJoin h area target => Sys2Proof.Machine.execAreaJoin h area target s
  | .areaUnjoin h area => Sys2Proof.Machine.execAreaUnjoin h area s
  | .areaStatus h area clear => Sys2Proof.Machine.execAreaStatus h area clear s
  | .areaWrite h payload => Sys2Proof.Machine.execAreaWrite h payload s
  | .frameHold h ring => Sys2Proof.Machine.execFrameHold h ring s
  | .frameRelease h ring => Sys2Proof.Machine.execFrameRelease h ring s
  | .frameRead h ring length => Sys2Proof.Machine.execFrameRead h ring length s
  | .timingSet h period stale skew => Sys2Proof.Machine.execTimingSet h period stale skew s
  | .timeStatus h => Sys2Proof.Machine.execTimeStatus h s
  | .gridOpen h id bw bh => Sys2Proof.Machine.execGridOpen h id bw bh s
  | .gridWrite h payload => Sys2Proof.Machine.execGridWrite h payload s
  | .gridFinish h id => Sys2Proof.Machine.execGridFinish h id s
  | .gridReopen h id => Sys2Proof.Machine.execGridReopen h id s
  | .gridDelete h id => Sys2Proof.Machine.execGridDelete h id s
  | .gridStatus h sel => Sys2Proof.Machine.execGridStatus h sel s
  | .viewDefine h view panes => Sys2Proof.Machine.execViewDefine h view panes s
  | .viewBind h view pane grid => Sys2Proof.Machine.execViewBind h view pane grid s
  | .viewUnbind h view pane => Sys2Proof.Machine.execViewUnbind h view pane s
  | .viewErase h view => Sys2Proof.Machine.execViewErase h view s
  | .defaultView h view => Sys2Proof.Machine.execDefaultView h view s
  | .viewStatus h sel => Sys2Proof.Machine.execViewStatus h sel s
  | .composeStatus h clear => Sys2Proof.Machine.execComposeStatus h clear s
  | .balanceSet h r => Sys2Proof.Machine.execBalanceSet h r s
  | .balanceStatus h => Sys2Proof.Machine.execBalanceStatus h s
  | .overlaySet h r => Sys2Proof.Machine.execOverlaySet h r s
  | .curveSet h t => Sys2Proof.Machine.execCurveSet h t s
  | .overlayStatus h => Sys2Proof.Machine.execOverlayStatus h s
  | .markPost h payload => Sys2Proof.Machine.execMarkPost h payload s
  | .markRemove h id => Sys2Proof.Machine.execMarkRemove h id s
  | .markClear h => Sys2Proof.Machine.execMarkClear h s
  | .markStatus h => Sys2Proof.Machine.execMarkStatus h s
  | .claim h view => Sys2Proof.Machine.execClaim h view s
  | .renew h token => Sys2Proof.Machine.execRenew h token s
  | .release h token => Sys2Proof.Machine.execRelease h token s
  | .gearSetup h view linger gate => Sys2Proof.Machine.execGearSetup h view linger gate s
  | .claimStatus h => Sys2Proof.Machine.execClaimStatus h s
  | .canSetup h r => Sys2Proof.Machine.execCanSetup h r s
  | .slotSetup h slot r => Sys2Proof.Machine.execSlotSetup h slot r s
  | .slotEnable h slot on => Sys2Proof.Machine.execSlotEnable h slot on s
  | .signalSetup h signal timeout hold confirm => Sys2Proof.Machine.execSignalSetup h signal timeout hold confirm s
  | .canRestart h => Sys2Proof.Machine.execCanRestart h s
  | .canErrclr h => Sys2Proof.Machine.execCanErrclr h s
  | .canStatus h clear => Sys2Proof.Machine.execCanStatus h clear s
  | .signalStatus h clear => Sys2Proof.Machine.execSignalStatus h clear s
  | .displaySet h on period => Sys2Proof.Machine.execDisplaySet h on period s
  | .displayStatus h clear => Sys2Proof.Machine.execDisplayStatus h clear s
  | .linkLock cam => Sys2Proof.Machine.execLinkLock cam s
  | .lossOfLock cam => Sys2Proof.Machine.execLossOfLock cam s
  | .frameStart cam => Sys2Proof.Machine.execFrameStart cam s
  | .line cam pairs => Sys2Proof.Machine.execLine cam pairs s
  | .frameEnd cam => Sys2Proof.Machine.execFrameEnd cam s
  | .feedFault cam => Sys2Proof.Machine.execFeedFault cam s
  | .settleTimerExpiry cam => Sys2Proof.Machine.execSettleTimerExpiry cam s
  | .seekTimerExpiry cam => Sys2Proof.Machine.execSeekTimerExpiry cam s
  | .frameTimeoutExpiry cam => Sys2Proof.Machine.execFrameTimeoutExpiry cam s
  | .areaClearCompletion area => Sys2Proof.Machine.execAreaClearCompletion area s
  | .holdExpiry p ring => Sys2Proof.Machine.execHoldExpiry p ring s
  | .composeStart => Sys2Proof.Machine.execComposeStart s
  | .triggerPulseDue cam => Sys2Proof.Machine.execTriggerPulseDue cam s
  | .composeCompletion => Sys2Proof.Machine.execComposeCompletion s
  | .gridCheckCompletion id => Sys2Proof.Machine.execGridCheckCompletion id s
  | .markerExpiry id => Sys2Proof.Machine.execMarkerExpiry id s
  | .claimExpiry token => Sys2Proof.Machine.execClaimExpiry token s
  | .lingerTimerExpiry => Sys2Proof.Machine.execLingerTimerExpiry s
  | .canFrameReceived f => Sys2Proof.Machine.execCanFrameReceived f s
  | .receiveError e => Sys2Proof.Machine.execReceiveError e s
  | .signalTimeoutExpiry sig => Sys2Proof.Machine.execSignalTimeoutExpiry sig s
  | .signalHoldExpiry sig => Sys2Proof.Machine.execSignalHoldExpiry sig s
  | .statusIntervalExpiry => Sys2Proof.Machine.execStatusIntervalExpiry s
  | .statusTxAttempt => Sys2Proof.Machine.execStatusTxAttempt s
  | .statusTxSent => Sys2Proof.Machine.execStatusTxSent s
  | .statusTxError e => Sys2Proof.Machine.execStatusTxError e s
  | .arbitrationLost => Sys2Proof.Machine.execArbitrationLost s
  | .recoveryWaitCompletion => Sys2Proof.Machine.execRecoveryWaitCompletion s
  | .displayFrameStart => Sys2Proof.Machine.execDisplayFrameStart s

end Sys2Proof.Machine
end

