-- ==== Sys2Proof/Machine/Idle.lean ====
section
/-! DEFINITION. What the part does by itself: which of its timers are due now, and the passing of time (R44). -/

namespace Sys2Proof.Machine

/-- The expiry `i` when its deadline is the counter value now. -/
def State.ifDue (s : State) (due : Option Word32) (i : Instr) : List Instr := if s.reached due then [i] else []

/-- Expiries of camera `n`'s timers and of its scheduled pulse (R7, R9, R48). -/
def State.dueCam (s : State) (n : Fin 4) : List Instr :=
  (match s.ciu[n].link with
    | .settling d => s.ifDue (some d) (.settleTimerExpiry n)
    | .seeking d => s.ifDue d (.seekTimerExpiry n)
    | .streaming d => s.ifDue (some d) (.frameTimeoutExpiry n)
    | _ => [])
    ++ s.ifDue s.tbu.cams[n].pulse (.triggerPulseDue n)

/-- Expiries of a port's holds (R36). -/
def State.dueHolds (s : State) (p : Port) : List Instr :=
  (List.finRange 4).flatMap (fun n =>
    match s.fsc.camRing[n] with
    | none => []
    | some r => if r.slots.any (fun c => s.reached (c.hold p)) then [Instr.holdExpiry p (.camera n)] else [])
    ++ (match s.fsc.outRing with
      | none => []
      | some r => if r.slots.any (fun c => s.reached (c.hold p)) then [Instr.holdExpiry p .output] else [])

/-- Expiries of one signal's timers (R160). -/
def State.dueSignal (s : State) (sig : Signal) (st : SigState) : List Instr :=
  match st with
  | .fresh d => s.ifDue (some d) (.signalTimeoutExpiry sig)
  | .held d => s.ifDue (some d) (.signalHoldExpiry sig)
  | _ => []

/-- The deadline of a claim entry, where it has one (R138). -/
def Source.deadline : Source → Option Word32
  | .portA d => some d
  | .portD => none
  | .gear => none

/-- Every expiry that is due now (R44), each as the event of its table row. -/
def State.dueNow (s : State) : List Instr :=
  s.ifDue (some s.tbu.timer) .composeStart
    ++ ((List.finRange 4).flatMap s.dueCam
    ++ (s.dueHolds .d ++ (s.dueHolds .a
    ++ (s.ou.markers.flatMap (fun m => s.ifDue (some m.deadline) (.markerExpiry m.id))
    ++ (s.ca.stack.flatMap (fun e => s.ifDue e.source.deadline (.claimExpiry e.token))
    ++ (s.ifDue s.ca.lingerTimer .lingerTimerExpiry
    ++ (s.dueSignal .gear s.si.gear.st ++ (s.dueSignal .speed s.si.speed.st
    ++ (s.dueSignal .steer s.si.steer.st ++ (s.dueSignal .doors s.si.doors.st
    ++ (s.ifDue s.si.can.timer .statusIntervalExpiry
    ++ s.ifDue s.su.timer .displayFrameStart)))))))))))

/-- One microsecond passes (R44): the counter wraps. -/
def State.tick (s : State) : State := { s with tbu := { s.tbu with now := s.tbu.now + 1 } }

/-- Which of several expiries due at once is taken first: a FREE VALUE (log entry 8). -/
def State.pickDue (s : State) (i : Instr) (l : List Instr) : Instr :=
  (i :: l).getD (Config.dueChoice s.fresh % (l.length + 1)) i

/-- One more free value is taken (log entry 24). -/
def State.countFree (s : State) : State := { s with fresh := s.fresh + 1 }

end Sys2Proof.Machine
end

