-- ==== Sys2Proof/Machine/Step.lean ====
section
/-! DEFINITION. One step of the part: the command at the front of the queue, or the part's own time. -/

namespace Sys2Proof.Machine

/-- The state with its queue of waiting commands replaced. -/
def State.withPending (s : State) (l : List Instr) : State := { s with pending := l }

/-- One step: the command at the front of the queue is taken and carried out on the rest; on an empty queue an expiry
that is due now is taken, and with none due one microsecond passes (log entry 8). -/
def step (s : State) : Host.Outcome State Fault Refusal :=
  match s.pending with
  | i :: rest => exec i (s.withPending rest)
  | [] =>
    match s.dueNow with
    | [] => .next s.tick
    | [i] => exec i s
    | i :: j :: l => exec (s.pickDue i (j :: l)) s.countFree

/-- The state with the command that a table word spells at the front of its queue; unchanged where it spells none
(log entry 25). -/
def State.withFetchWord (s : State) (nbits w : Nat) : State :=
  match decodeTableWord nbits w with
  | none => s
  | some i => s.withPending (i :: s.pending)

end Sys2Proof.Machine
end

