-- ==== Sys2Proof/Safety.lean ====
section
/-! DEFINITION. What counts as a safe state: the properties that the manual says hold in every reachable state, and the
classes of commands that its whole-part rules speak of. -/

namespace Sys2Proof.Machine

/-! ### Properties of a state -/

/-- Both memories are in canonical form. -/
def MemoryInv (s : State) : Prop := s.dram.wf = true ∧ s.gs.mem.wf = true

/-- Every gain and manual gain lies within 128 to 512 (R108, R115), and k and Smax within their ranges (R108). -/
def GainInv (s : State) : Prop :=
  (∀ c : Fin 4, 128 ≤ s.bu.gains[c] ∧ s.bu.gains[c] ≤ 512) ∧ (∀ c : Fin 4, 128 ≤ s.bu.manual[c] ∧ s.bu.manual[c] ≤ 512)
    ∧ (1 ≤ s.bu.k ∧ s.bu.k ≤ 16) ∧ 1 ≤ s.bu.smax ∧ s.bu.smax ≤ 64

/-- Each notice queue holds at most 32 notices (R181). -/
def QueueInv (s : State) : Prop := s.cp.portD.queue.length ≤ 32 ∧ s.cp.portA.queue.length ≤ 32

/-- The marker list (R131): at most 16 markers, no two of one id, severities 1 to 3 that never increase toward the tail. -/
def MarkerInv (s : State) : Prop :=
  s.ou.markers.length ≤ 16 ∧ (s.ou.markers.Pairwise fun a b => a.id ≠ b.id)
    ∧ (s.ou.markers.Pairwise fun a b => b.severity ≤ a.severity) ∧ ∀ m ∈ s.ou.markers, 1 ≤ m.severity ∧ m.severity ≤ 3

/-- The claim stack (R138, R139): at most six entries, ranks that never increase from the head down, distinct tokens
from 1 to 255, and the limits of the three sources. -/
def ClaimInv (s : State) : Prop :=
  s.ca.stack.length ≤ 6 ∧ (s.ca.stack.Pairwise fun a b => b.rank ≤ a.rank)
    ∧ (s.ca.stack.Pairwise fun a b => a.token ≠ b.token) ∧ (∀ e ∈ s.ca.stack, e.token ≠ 0) ∧ s.ca.token ≠ 0
    ∧ countRank 1 s.ca.stack ≤ 3 ∧ countRank 2 s.ca.stack ≤ 1 ∧ countRank 3 s.ca.stack ≤ 4

/-- A view in use is DEFINED (R76). -/
def ViewInv (s : State) : Prop := ∀ v : Fin 16, s.viewInUse v = true → s.vc.views[v].isSome = true

/-- Ranges of the area table lie within DRAM and no two share a unit (R21, R22). -/
def AreaInv (s : State) : Prop :=
  (∀ (a : Fin 8) (b l : Nat) (p : AreaPhase), s.fsc.areas[a] = .range b l p → b < l ∧ l ≤ 4096)
    ∧ ∀ (a a' : Fin 8) (b l b' l' : Nat) (p p' : AreaPhase), a ≠ a' → s.fsc.areas[a] = .range b l p →
        s.fsc.areas[a'] = .range b' l' p' → sharesUnit b l b' l' = false

/-- A camera slot that is pinned or held is READY (R29). -/
def CamSlot.heldReady (c : CamSlot) : Prop := c.loose = false → ∃ q t l, c.st = .ready q t l

/-- An output slot that a port holds is DONE (R32). -/
def OutSlot.heldDone (c : OutSlot) : Prop := c.unheld = false → ∃ f, c.st = .finished f

/-- Pins and holds stand on READY and DONE slots only (R29, R32), scanout holds a slot only while it is RUNNING (R170),
and an output ring exists only with an area JOINED to OUTPUT (R25, R27). -/
def HoldInv (s : State) : Prop :=
  (∀ (n : Fin 4) (r : CamRing), s.fsc.camRing[n] = some r → ∀ c ∈ r.slots, c.heldReady)
    ∧ (∀ r : OutRing, s.fsc.outRing = some r → ∀ c ∈ r.slots, c.heldDone)
    ∧ (∀ k : Nat, s.su.held = some k → s.su.timer.isSome = true
        ∧ ∃ r c f, s.fsc.outRing = some r ∧ r.slots[k]? = some c ∧ c.st = .finished f)
    ∧ (s.fsc.outRing.isSome = true → (s.fsc.joined .output).isSome = true)

/-- The cell lies in the extent (R60). -/
def Extent.has (e : Extent) (cell : Nat) : Prop := e.base ≤ cell ∧ cell < e.base + e.len

/-- The cell lies in the run of the set (R61). -/
def Grid.has (g : Grid) (cell : Nat) : Prop := ∃ sh ph, g = .held sh ph ∧ sh.base ≤ cell ∧ cell < sh.base + sh.size

/-- The free extents and the grid sets cover grid memory once (R60): the extents stand in base order with no two adjacent,
none is empty, no extent or set passes the 65,536 cells, and each cell lies in one extent or in one set. -/
def GridCellsInv (s : State) : Prop :=
  (s.gs.free.Pairwise fun a b => a.base + a.len < b.base) ∧ (∀ e ∈ s.gs.free, 0 < e.len ∧ e.base + e.len ≤ 65536)
    ∧ (∀ (i : Fin 32) (g : GridShape) (p : GridPhase), s.gs.sets[i] = .held g p → g.base + g.size ≤ 65536)
    ∧ ∀ cell : Nat, cell < 65536 →
        ((∃ e ∈ s.gs.free, e.has cell) ∧ ∀ i : Fin 32, ¬ s.gs.sets[i].has cell)
        ∨ ((∀ e ∈ s.gs.free, ¬ e.has cell) ∧ ∃ i : Fin 32, s.gs.sets[i].has cell ∧ ∀ j : Fin 32, j ≠ i → ¬ s.gs.sets[j].has cell)

/-- How many panes, across all views, have a binding that names set `i` (R72). -/
def State.paneBinds (s : State) (i : Fin 32) : Nat :=
  (s.vc.views.toList.map fun v => (v.getD []).countP fun p => decide (p.binding = some i)).sum

/-- The bind count of an entry, 0 unless VALID (R61). -/
def Grid.binds : Grid → Nat
  | .held _ (.valid b _) => b
  | _ => 0

/-- The in-use flag of an entry, clear unless VALID (R61). -/
def Grid.inUse : Grid → Bool
  | .held _ (.valid _ u) => u
  | _ => false

/-- Bind counts equal the panes' bindings, and a set's in-use flag is set when a pane of the compose in flight is bound to it
(R72): so a set that is bound or in use is VALID. -/
def BindInv (s : State) : Prop :=
  (∀ i : Fin 32, s.gs.sets[i].binds = s.paneBinds i)
    ∧ ∀ i : Fin 32, s.gs.sets[i].inUse = true ↔ ∃ c, s.ce.current = some c ∧ ∃ p ∈ c.snap.panes, p.binding = some i

/-- A FILLING slot of camera `n`'s ring is the one of the frame in RECEIVING, and a COMPOSING slot is the target of the compose
in flight; so a ring has at most one of them (R29, R32). -/
def OneOpenInv (s : State) : Prop :=
  (∀ (n : Fin 4) (r : CamRing) (k : Nat) (c : CamSlot) (q st : Word32) (l : Count), s.fsc.camRing[n] = some r →
      r.slots[k]? = some c → c.st = .filling q st l → ∃ pend, s.ciu[n].reception = .receiving k pend)
    ∧ ∀ (r : OutRing) (k : Nat) (c : OutSlot) (st : Word32) (m : BitVec 4), s.fsc.outRing = some r → r.slots[k]? = some c →
      c.st = .composing st m → ∃ x, s.ce.current = some x ∧ x.target = k

/-! ### What a grid record's check, a layout, a balance update and a composed picture are, rule by rule -/

/-- A coordinate (u, v) lies outside the size copied for camera `c` (R68, COORD_RANGE). -/
def outsideFrame (sizes : Vector (Nat × Nat) 4) (c u v : Nat) : Prop :=
  ∃ n : Fin 4, n.val = c ∧ ((sizes[n].1 - 1) * 16 < u ∨ (sizes[n].2 - 1) * 16 < v)

/-- The record at `a` has a second camera: bit 0 of its byte 2 (11, Grid node and block records). -/
def hasSecond (m : Memory) (a : Nat) : Prop := (m.read (a + 2)).getLsbD 0 = true

/-- An entry of node (nx, ny) of set `g` names camera `c` (R62, R63). -/
def nodeNames (m : Memory) (g : GridShape) (c nx ny : Nat) : Prop :=
  ∃ a, a = (g.base + (ny * (g.bw + 1) + nx)) * 16
    ∧ ((m.read a).toNat = c ∨ hasSecond m a ∧ (m.read (a + 1)).toNat = c)

/-- BAD_CAMERA of the node record at `a` (R68). -/
def NodeBadCamera (m : Memory) (a : Nat) : Prop :=
  3 < (m.read a).toNat ∨ hasSecond m a ∧ (3 < (m.read (a + 1)).toNat ∨ m.read (a + 1) = m.read a)

/-- COORD_RANGE of the node record at `a` (R68). -/
def NodeCoordRange (m : Memory) (sizes : Vector (Nat × Nat) 4) (a : Nat) : Prop :=
  outsideFrame sizes (m.read a).toNat (m.read16 (a + 4)) (m.read16 (a + 6))
    ∨ hasSecond m a ∧ outsideFrame sizes (m.read (a + 1)).toNat (m.read16 (a + 8)) (m.read16 (a + 10))

/-- BAD_CAMERA of the block record at `a`, whose P is NONE at 255 (R68). -/
def BlockBadCamera (m : Memory) (a : Nat) : Prop :=
  3 < (m.read a).toNat ∧ m.read a ≠ 255 ∨ hasSecond m a ∧ 3 < (m.read (a + 1)).toNat

/-- BAD_PAIR of the block record at `a` (R68): cameras are adjacent when their numbers differ by one modulo 4. -/
def BlockBadPair (m : Memory) (a : Nat) : Prop :=
  hasSecond m a ∧ (m.read a = 255 ∨ m.read (a + 1) = m.read a
    ∨ ((m.read a).toNat + 1) % 4 ≠ (m.read (a + 1)).toNat ∧ ((m.read (a + 1)).toNat + 1) % 4 ≠ (m.read a).toNat)

/-- Some corner node of block (bx, by) does not name camera `c` (R62, R68). -/
def cornerMisses (m : Memory) (g : GridShape) (bx byy c : Nat) : Prop :=
  ∃ dx dy, dx ≤ 1 ∧ dy ≤ 1 ∧ ¬ nodeNames m g c (bx + dx) (byy + dy)

/-- MISSING_CAMERA of the block record at `a`, which is block (bx, by) (R68). -/
def BlockMissing (m : Memory) (g : GridShape) (a bx byy : Nat) : Prop :=
  m.read a ≠ 255 ∧ cornerMisses m g bx byy (m.read a).toNat ∨ hasSecond m a ∧ cornerMisses m g bx byy (m.read (a + 1)).toNat

/-- WEIGHT_RANGE of the block record at `a` (R68). -/
def BlockWeightRange (m : Memory) (a : Nat) : Prop := hasSecond m a ∧ ∃ k, k < 4 ∧ 256 < m.read16 (a + 4 + 2 * k)

/-- What `checkRecord` finds in record `k` of a set (R62, R68): node records first, then block records, and within a record
the causes in table order. That BAD_CAMERA of either entry of a node record stands before COORD_RANGE of either is the model's
choice of log entry 33. -/
def RecordIsJudged (m : Memory) (g : GridShape) (sizes : Vector (Nat × Nat) 4) (k nodes a : Nat) : Prop :=
  nodes = (g.bw + 1) * (g.bh + 1) → a = (g.base + k) * 16 →
    (k < nodes →
      (NodeBadCamera m a → checkRecord m g sizes k = some .badCamera)
        ∧ (¬ NodeBadCamera m a → NodeCoordRange m sizes a → checkRecord m g sizes k = some .coordRange)
        ∧ (¬ NodeBadCamera m a → ¬ NodeCoordRange m sizes a → checkRecord m g sizes k = none))
    ∧ ∀ bx byy, nodes ≤ k → bx = (k - nodes) % g.bw → byy = (k - nodes) / g.bw →
      (BlockBadCamera m a → checkRecord m g sizes k = some .badCamera)
        ∧ (¬ BlockBadCamera m a → BlockBadPair m a → checkRecord m g sizes k = some .badPair)
        ∧ (¬ BlockBadCamera m a → ¬ BlockBadPair m a → BlockMissing m g a bx byy →
            checkRecord m g sizes k = some .missingCamera)
        ∧ (¬ BlockBadCamera m a → ¬ BlockBadPair m a → ¬ BlockMissing m g a bx byy → BlockWeightRange m a →
            checkRecord m g sizes k = some .weightRange)
        ∧ (¬ BlockBadCamera m a → ¬ BlockBadPair m a → ¬ BlockMissing m g a bx byy → ¬ BlockWeightRange m a →
            checkRecord m g sizes k = none)

/-- A place on the pane's pixels as R75 allows it. -/
def paneCoord (v : Int) : Prop := -2048 ≤ v ∧ v ≤ 4095

/-- The operand `r` names a pane that R75 and R77 allow, and `p` is its record with no binding. -/
def StoredPane (r : PaneArg) (p : Pane) : Prop :=
  0 ≤ r.x ∧ r.x % 16 = 0 ∧ 16 ≤ r.w ∧ r.w % 16 = 0 ∧ r.x + r.w ≤ 1280
    ∧ 0 ≤ r.y ∧ r.y % 16 = 0 ∧ 16 ≤ r.h ∧ r.h % 16 = 0 ∧ r.y + r.h ≤ 720
    ∧ p.x = r.x.toNat ∧ p.y = r.y.toNat ∧ p.w = r.w.toNat ∧ p.h = r.h.toNat ∧ p.binding = none
    ∧ match r.tag with
      | none => False
      | some .side => r.silhouette = false ∧ r.guides = false ∧ r.markers = false ∧ p.top = none
      | some .top => paneCoord r.x0 ∧ paneCoord r.y0 ∧ 8 ≤ r.sigma ∧ r.sigma ≤ 128
          ∧ (r.silhouette = true → paneCoord r.sx ∧ paneCoord r.sy)
          ∧ p.top = some
            { sil := if r.silhouette then some (r.sx, r.sy) else none, guides := r.guides, markers := r.markers
              x0 := r.x0, y0 := r.y0, sigma := r.sigma.toNat }

/-- The pane covers the pixel (x, y) of the output frame (R91). -/
def Pane.on (p : Pane) (x y : Nat) : Prop := p.x ≤ x ∧ x < p.x + p.w ∧ p.y ≤ y ∧ y < p.y + p.h

/-- The desire of a camera with raw sum `x` in a zone whose two sums add to `total` (R112). -/
def IsDesire (x total d : Nat) : Prop := (x = 0 → d = 512) ∧ (0 < x → d = (256 * total + x) / (2 * x))

/-- Zone `z` is used in an update (R112). -/
def ZoneUsed (b : Balance) (mask : BitVec 4) (stats : Vector ZoneStats 4) (z : Fin 4) : Prop :=
  mask.getLsbD z = true ∧ mask.getLsbD (z + 1 : Fin 4) = true ∧ b.nmin ≤ stats[z].n

/-- `t` is the balance unit after the update of a compose that took output sequence `seq`, with the zone desires `da` and
`db` (R111 to R116). -/
def BalanceUpdated (b : Balance) (seq : Word32) (mask : BitVec 4) (stats : Vector ZoneStats 4) (da db : Fin 4 → Nat)
    (t : Balance) : Prop :=
  (∀ z : Fin 4, IsDesire stats[z].sa (stats[z].sa + stats[z].sb) (da z)
      ∧ IsDesire stats[z].sb (stats[z].sa + stats[z].sb) (db z))
    ∧ { t with gains := b.gains, record := b.record } = b
    ∧ ∃ r : BalRecord, t.record = some r ∧ r.seq = seq ∧ r.mask = mask ∧ r.mode = b.mode
      ∧ (∀ z : Fin 4, r.zones[z].stats = stats[z]
          ∧ (ZoneUsed b mask stats z → r.zones[z].desires = some (min (da z) 65535, min (db z) 65535))
          ∧ (¬ ZoneUsed b mask stats z → r.zones[z].desires = none))
      ∧ (∀ c : Fin 4,
          (ZoneUsed b mask stats c → ZoneUsed b mask stats (c + 3) →
              r.cams[c].desire = some (max 128 (min ((da c + db (c + 3) + 1) / 2) 512)))
            ∧ (ZoneUsed b mask stats c → ¬ ZoneUsed b mask stats (c + 3) →
              r.cams[c].desire = some (max 128 (min (da c) 512)))
            ∧ (¬ ZoneUsed b mask stats c → ZoneUsed b mask stats (c + 3) →
              r.cams[c].desire = some (max 128 (min (db (c + 3)) 512)))
            ∧ (¬ ZoneUsed b mask stats c → ¬ ZoneUsed b mask stats (c + 3) → r.cams[c].desire = none))
      ∧ ∀ c : Fin 4,
          (b.mode = .manual ∨ r.cams[c].desire = none → r.cams[c].step = none ∧ t.gains[c] = b.gains[c])
            ∧ ∀ (d : Nat) (delta step : Int), b.mode = .auto → r.cams[c].desire = some d → delta = (d : Int) - b.gains[c] →
              step = (if (delta * b.k).tdiv 16 = 0 then delta.sign else (delta * b.k).tdiv 16) →
              r.cams[c].step = some (max (-(b.smax : Int)) (min step b.smax))
                ∧ t.gains[c] = (b.gains[c] + max (-(b.smax : Int)) (min step b.smax)).toNat

/-- An output frame packs its pixels pair by pair, each pair with the chroma of its even pixel (R41, R99). -/
def FramePacks : Prop :=
  ∀ (px : Nat → Nat → Yuv) (k y : Nat), k < 640 → y < 720 →
    packByte px (2560 * y + 4 * k) = (px (2 * k) y).y ∧ packByte px (2560 * y + 4 * k + 1) = (px (2 * k) y).u
      ∧ packByte px (2560 * y + 4 * k + 2) = (px (2 * k + 1) y).y ∧ packByte px (2560 * y + 4 * k + 3) = (px (2 * k) y).v

/-- The finished frame packs the finished pixels (R41, R99). -/
def PicturePacks (e : PassInput) : Prop :=
  FramePacks ∧ ∀ k y : Nat, k < 640 → y < 720 →
    e.outByte (2560 * y + 4 * k) = (e.pixel (2 * k) y).y ∧ e.outByte (2560 * y + 4 * k + 1) = (e.pixel (2 * k) y).u
      ∧ e.outByte (2560 * y + 4 * k + 2) = (e.pixel (2 * k + 1) y).y
      ∧ e.outByte (2560 * y + 4 * k + 3) = (e.pixel (2 * k) y).v

/-- The byte that the pass reads of the bitmap for bitmap pixel `p` (R40, R125): the one that DRAM holds p div 4 bytes into the
overlay area, or, where AREA_WRITE replaced that byte during the pass, one that it held since the compose start; which of them
is a free value (log entry 6). -/
def BitmapIs (e : PassInput) : Prop :=
  ∀ x y p a : Nat, a = e.overlayByte + p / 4 →
    ((∀ w ∈ e.compose.replacedBytes, w.1 ≠ a) → e.bitmap x y p = e.dram.read a)
      ∧ (e.bitmap x y p = e.dram.read a ∨ (a, e.bitmap x y p) ∈ e.compose.replacedBytes)

/-- The pixel part-way through the pass (R102, R105): under the first `n` of the entries that fall on it. -/
def PictureStages (e : PassInput) : Prop :=
  ∀ x y n : Nat,
    ((∀ p ∈ e.compose.snap.panes, ¬ p.on x y) → e.pixelAfter n x y = e.pixel x y)
      ∧ ∀ (l₁ l₂ : List Pane) (p : Pane), e.compose.snap.panes = l₁ ++ p :: l₂ → p.on x y → (∀ q ∈ l₁, ¬ q.on x y) →
        (p.binding = none ∨ p.top = none → e.pixelAfter n x y = e.pixel x y)
        ∧ ∀ (i : Fin 32) (g : GridShape) (bx byy : Nat) (t : TopPane), p.binding = some i → e.shape i = some g →
          bx = (x - p.x) / 16 → byy = (y - p.y) / 16 → p.top = some t →
          e.pixelAfter n x y
            = ((overlayEntries e.compose.snap t (e.bitmap x y) ((x : Int) - p.x) ((y : Int) - p.y)).take n).foldl mixPixel
              (e.planPixel g (e.grid.block g bx byy) bx byy ((x - p.x) % 16) ((y - p.y) % 16) x y).1

/-- The colour of latched palette entry `i`, drawn opaque (R99). -/
def PassInput.colour (e : PassInput) (i : Fin 16) : Yuv :=
  { y := e.compose.snap.overlay.palette[i].y, u := e.compose.snap.overlay.palette[i].u
    v := e.compose.snap.overlay.palette[i].v }

/-- Every pixel by the cases of R91: background outside every pane and in a pane with no binding, else the pixel of its block
at its offsets, over which a TOP pane receives its overlays (R102); (bx, by) and (i, j) are the block and the offsets. -/
def PictureCases (e : PassInput) : Prop :=
  ∀ x y : Nat,
    ((∀ p ∈ e.compose.snap.panes, ¬ p.on x y) → e.pixel x y = e.colour 14 ∧ e.adds x y = none)
      ∧ ∀ (l₁ l₂ : List Pane) (p : Pane), e.compose.snap.panes = l₁ ++ p :: l₂ → p.on x y → (∀ q ∈ l₁, ¬ q.on x y) →
        (p.binding = none → e.pixel x y = e.colour 14 ∧ e.adds x y = none)
        ∧ ∀ (n : Fin 32) (g : GridShape) (bx byy i j : Nat) (r : BlockRec), p.binding = some n → e.shape n = some g →
          bx = (x - p.x) / 16 → byy = (y - p.y) / 16 → i = (x - p.x) % 16 → j = (y - p.y) % 16 → r = e.grid.block g bx byy →
          (p.top = none → e.pixel x y = (e.planPixel g r bx byy i j x y).1 ∧ e.adds x y = none)
          ∧ ∀ t, p.top = some t →
            e.pixel x y = (overlayEntries e.compose.snap t (e.bitmap x y) ((x : Int) - p.x) ((y : Int) - p.y)).foldl mixPixel
              (e.planPixel g r bx byy i j x y).1
            ∧ e.adds x y = (e.planPixel g r bx byy i j x y).2

/-- The pixel of a block by its plan, and what it adds to its zone (R92, R98 to R101). -/
def PicturePlans (e : PassInput) : Prop :=
  ∀ (g : GridShape) (r : BlockRec) (bx byy i j x y : Nat) (hatch : Yuv), i < 16 → j < 16 →
    hatch = (if (x + y) / 8 % 2 = 0 then e.colour 11 else e.colour 12) →
    (r.p = 255 → e.planPixel g r bx byy i j x y = (e.colour 13, none))
      ∧ (r.p ≠ 255 → e.cam r.p = none → (∀ c, r.s = some c → e.cam c = none) →
          e.planPixel g r bx byy i j x y = (hatch, none))
      ∧ (∀ (c : Nat) (f : CamFrame) (a : CamSample), r.p ≠ 255 → e.cam c = some f → a = e.sample g bx byy i j c f →
          (c = r.p ∧ ∀ d, r.s = some d → e.cam d = none) ∨ (r.s = some c ∧ e.cam r.p = none) →
          e.planPixel g r bx byy i j x y = ({ y := .ofNat 8 a.y, u := .ofNat 8 a.u, v := .ofNat 8 a.v }, none))
      ∧ ∀ (c : Nat) (f f' : CamFrame) (a b : CamSample) (w : Nat), r.p ≠ 255 → r.s = some c → e.cam r.p = some f →
          e.cam c = some f' → a = e.sample g bx byy i j r.p f → b = e.sample g bx byy i j c f' →
          w = ((16 - i) * (16 - j) * r.w00 + i * (16 - j) * r.w10 + (16 - i) * j * r.w01 + i * j * r.w11 + 128) / 256 →
          (e.planPixel g r bx byy i j x y).1
              = { y := .ofNat 8 ((w * a.y + (256 - w) * b.y + 128) / 256)
                  u := .ofNat 8 ((w * a.u + (256 - w) * b.u + 128) / 256)
                  v := .ofNat 8 ((w * a.v + (256 - w) * b.v + 128) / 256) }
            ∧ ∀ z : Fin 4, (r.p = z.val → c = (z + 1 : Fin 4).val →
                (e.planPixel g r bx byy i j x y).2 = some { zone := z, a := a.raw, b := b.raw })
              ∧ (c = z.val → r.p = (z + 1 : Fin 4).val →
                (e.planPixel g r bx byy i j x y).2 = some { zone := z, a := b.raw, b := a.raw })

/-- What one camera gives at offsets (i, j) of a block whose corner nodes name it (R93, R95 to R97). -/
def PictureSamples (e : PassInput) : Prop :=
  ∀ (g : GridShape) (bx byy i j : Nat) (c : Fin 4) (f : CamFrame) (n00 n10 n01 n11 : NodeEntry) (u v fx fy raw : Nat)
    (p : Nat → Nat → Nat), i < 16 → j < 16 →
    (e.grid.node g bx byy).entry c = some n00 → (e.grid.node g (bx + 1) byy).entry c = some n10 →
    (e.grid.node g bx (byy + 1)).entry c = some n01 → (e.grid.node g (bx + 1) (byy + 1)).entry c = some n11 →
    u = ((16 - i) * (16 - j) * n00.u + i * (16 - j) * n10.u + (16 - i) * j * n01.u + i * j * n11.u + 128) / 256 →
    v = ((16 - i) * (16 - j) * n00.v + i * (16 - j) * n10.v + (16 - i) * j * n01.v + i * j * n11.v + 128) / 256 →
    (∀ dx dy, p dx dy = (e.dram.read (f.base + min (v / 16 + dy) (f.height - 1) * (f.width * 2)
        + 2 * min (u / 16 + dx) (f.width - 1))).toNat) →
    fx = u % 16 → fy = v % 16 →
    raw = ((16 - fx) * (16 - fy) * p 0 0 + fx * (16 - fy) * p 1 0 + (16 - fx) * fy * p 0 1 + fx * fy * p 1 1 + 128) / 256 →
    e.sample g bx byy i j c f
      = { raw := raw
          y := min 255 ((raw * e.compose.snap.gains[c] + 128) / 256)
          u := (e.dram.read (f.base + min ((v + 8) / 16) (f.height - 1) * (f.width * 2)
            + 4 * (min ((u + 8) / 16) (f.width - 1) / 2) + 1)).toNat
          v := (e.dram.read (f.base + min ((v + 8) / 16) (f.height - 1) * (f.width * 2)
            + 4 * (min ((u + 8) / 16) (f.width - 1) / 2) + 3)).toNat }

/-- The statistics at the end of the pass: what the record held and what every pixel of the output frame adds (R101). -/
def PictureSums (e : PassInput) : Prop :=
  ∀ (z : Fin 4) (l : List ZoneAdd),
    l = ((framePixels.filterMap fun xy => e.adds xy.1 xy.2).filter fun a => decide (a.zone = z)) →
    e.stats[z].sa = e.compose.stats[z].sa + (l.map ZoneAdd.a).sum
      ∧ e.stats[z].sb = e.compose.stats[z].sb + (l.map ZoneAdd.b).sum ∧ e.stats[z].n = e.compose.stats[z].n + l.length

/-- How an entry combines with a pixel (R124). -/
def OverlayMixes : Prop :=
  ∀ (q : Yuv) (e : PalEntry), e.alpha ≤ 16 →
    (mixPixel q e).y.toNat = (e.alpha * e.y.toNat + (16 - e.alpha) * q.y.toNat + 8) / 16
      ∧ (mixPixel q e).u.toNat = (e.alpha * e.u.toNat + (16 - e.alpha) * q.u.toNat + 8) / 16
      ∧ (mixPixel q e).v.toNat = (e.alpha * e.v.toNat + (16 - e.alpha) * q.v.toNat + 8) / 16

/-- The quotient of `n` by `d` rounded half away from zero (00, Conventions). -/
def IsRoundedAway (n : Int) (d : Nat) (q : Int) : Prop :=
  (0 ≤ n → q = ((2 * n.natAbs + d) / (2 * d) : Nat)) ∧ (n < 0 → q = -((2 * n.natAbs + d) / (2 * d) : Nat))

/-- The curvature of a compose (R127). -/
def CurvatureIs (curve : Vector Int 33) (steer kappa : Int) (unknown : Bool) : Prop :=
  (unknown = true → kappa = 0)
    ∧ ∀ a : Nat, unknown = false → (a : Int) = max (-8000) (min steer 8000) + 8000 →
      (a = 16000 → kappa = curve[32])
      ∧ ∀ k : Fin 32, k.val = a / 500 →
        ∃ q : Int, IsRoundedAway ((curve[k.val + 1] - curve[k.val]) * (a % 500 : Nat)) 500 q ∧ kappa = curve[k.val] + q

/-- Row at distance `dy` from y0 is a guide row that is drawn (R128, R130). -/
def GuideRowDrawn (c : Snapshot) (t : TopPane) (dy : Nat) : Prop :=
  (c.overlay.guide.start * t.sigma + 500) / 1000 ≤ dy ∧ dy ≤ (c.overlay.guide.stop * t.sigma + 500) / 1000
    ∧ (c.steerUnknown = true → (dy - (c.overlay.guide.start * t.sigma + 500) / 1000) / 8 % 2 = 0)

/-- The guide layer calls for being drawn in the pane (R126). -/
def GuidesCalled (c : Snapshot) (t : TopPane) : Prop :=
  t.guides = true ∧ (c.overlay.guide.cond = .forcedOn ∨ c.overlay.guide.cond = .auto ∧ c.gear = .reverse)

/-- The guide layer at a pane pixel (R126 to R130): nothing off the guide rows; on one, entry 7 from x_L to x_R of a mark row,
else a line's band entry (the pixels of a mark row outside x_L to x_R, and a mark whose distance lies just outside the guide
rows, are the model's choices of log entries 36 and 37). -/
def GuidesAre : Prop :=
  ∀ (c : Snapshot) (t : TopPane) (px py : Int),
    (¬ GuidesCalled c t ∨ (∀ dy : Nat, py = t.y0 + dy → ¬ GuideRowDrawn c t dy) → guideLayer c t px py = [])
      ∧ ∀ (dy band : Nat) (kappa shift xL xR half : Int) (mark line : Prop), GuidesCalled c t → py = t.y0 + dy →
        GuideRowDrawn c t dy → 1 ≤ c.overlay.guide.thick → CurvatureIs c.overlay.curve c.steer kappa c.steerUnknown →
        IsRoundedAway (kappa * dy * dy) (131072 * t.sigma) shift →
        half = ((c.overlay.guide.halfTrack * t.sigma + 500) / 1000 : Nat) → xL = t.x0 - half + shift →
        xR = t.x0 + half + shift →
        (mark ↔ ∃ m ∈ c.overlay.guide.marks, (m * t.sigma + 500) / 1000 ≤ dy
          ∧ dy < (m * t.sigma + 500) / 1000 + c.overlay.guide.thick) →
        (line ↔ ∃ x, (x = xL ∨ x = xR) ∧ x - (c.overlay.guide.thick / 2 : Nat) ≤ px
          ∧ px < x - (c.overlay.guide.thick / 2 : Nat) + c.overlay.guide.thick) →
        band = (if dy < (c.overlay.guide.near * t.sigma + 500) / 1000 then 4
          else if dy < (c.overlay.guide.mid * t.sigma + 500) / 1000 then 5 else 6) →
        (mark → xL ≤ px → px ≤ xR → guideLayer c t px py = [c.overlay.entry 7])
          ∧ (¬ (mark ∧ xL ≤ px ∧ px ≤ xR) → line → guideLayer c t px py = [c.overlay.entry band])
          ∧ (¬ (mark ∧ xL ≤ px ∧ px ≤ xR) → ¬ line → guideLayer c t px py = [])

/-- The silhouette layer at a pane pixel (R125; 11, Silhouette packing): `read p` is the byte that holds bitmap pixel `p`. -/
def SilhouetteIs : Prop :=
  ∀ (o : OverlaySetup) (place : Int × Int) (read : Nat → Byte) (px py : Int),
    silhouetteLayer o none read px py = []
      ∧ ((∀ c r : Nat, px = place.1 + c → py = place.2 + r → o.silW ≤ c ∨ o.silH ≤ r) →
          silhouetteLayer o (some place) read px py = [])
      ∧ ∀ (c r p : Nat) (k : Fin 4), px = place.1 + c → py = place.2 + r → c < o.silW → r < o.silH → p = r * o.silW + c →
          k.val = (read p).toNat / 4 ^ (p % 4) % 4 →
          silhouetteLayer o (some place) read px py = if k = 0 then [] else [o.palette[k.val]]

/-- A marker covers a pane pixel (R135). -/
def MarkerOn (t : TopPane) (m : Marker) (px py : Int) : Prop :=
  ∃ (cx cy : Int) (hw hl : Nat), IsRoundedAway (m.x * t.sigma) 1000 (cx - t.x0) ∧ IsRoundedAway (m.y * t.sigma) 1000 (cy - t.y0)
    ∧ hw = (m.width * t.sigma + 1000) / 2000 ∧ hl = (m.length * t.sigma + 1000) / 2000
    ∧ cx - hw ≤ px ∧ px ≤ cx + hw ∧ cy - hl ≤ py ∧ py ≤ cy + hl
    ∧ (m.shape = .box → px < cx - hw + 3 ∨ cx + hw - 3 < px ∨ py < cy - hl + 3 ∨ cy + hl - 3 < py)

/-- The entries drawn at a pane pixel stand in the order silhouette, guides, markers, and the markers from the tail of the list
to its head in entry 7 + severity (R102, R124, R135); without an area JOINED to OVERLAY at the compose start there is no
silhouette. -/
def LayersAreOrdered : Prop :=
  ∀ (c : Snapshot) (t : TopPane) (read : Nat → Byte) (px py : Int),
    (∀ i : Fin 16, c.overlay.entry i = c.overlay.palette[i])
      ∧ (∀ m : Marker, markerCovers t m px py = true ↔ MarkerOn t m px py)
      ∧ overlayEntries c t read px py
        = silhouetteLayer c.overlay (if c.overlayArea.isSome then t.sil else none) read px py
          ++ (guideLayer c t px py
            ++ (if t.markers then
                (c.markers.reverse.filter fun m => markerCovers t m px py).map fun m => c.overlay.entry (7 + m.severity)
              else []))

/-- Every rule of what a picture is. -/
def PictureRules (e : PassInput) : Prop :=
  PicturePacks e ∧ PictureCases e ∧ PictureStages e ∧ BitmapIs e ∧ PicturePlans e ∧ PictureSamples e ∧ PictureSums e
    ∧ OverlayMixes ∧ GuidesAre ∧ SilhouetteIs ∧ LayersAreOrdered

/-- DRAM of `t` is that of `s` but for what a reset abandons (R24, R105): a byte of an area in CLEARING may hold zero, and a byte
of the target slot of the compose in flight may hold what the pass had made of it; which of them do is a free value (log
entries 4 and 5). With no clear and no pass in progress DRAM is as it was. -/
def DramAbandoned (s t : State) : Prop :=
  (s.ce.current = none → (∀ (a : Fin 8) (b l : Nat), s.fsc.areas[a] ≠ .range b l .clearing) → t.dram = s.dram)
    ∧ ∀ x : Nat, t.dram.read x = s.dram.read x
      ∨ (t.dram.read x = 0
        ∧ ∃ (a : Fin 8) (b l : Nat), s.fsc.areas[a] = .range b l .clearing ∧ b * 65536 ≤ x ∧ x < l * 65536)
      ∨ ∃ (c : Compose) (r : OutRing) (k n : Nat), s.ce.current = some c ∧ s.fsc.outRing = some r ∧ k < 1843200
        ∧ x = s.outSlotByte r c.target + k ∧ t.dram.read x = packByte ((s.passInput c).pixelAfter n) k

/-! ### Classes of commands -/

/-- The header of a command record; an event, a response read and an ignored transaction have none (R177). -/
def headerOf : Instr → Option Hdr
  | .powerOnReset => none
  | .resetPin => none
  | .responseRead _ => none
  | .ignoredTransaction _ _ => none
  | .unknownCommand h _ => some h
  | .status h _ => some h
  | .portSetup h _ _ _ _ => some h
  | .eventRead h => some h
  | .pipelineReset h => some h
  | .camSetup h _ _ => some h
  | .camPowerOn h _ => some h
  | .camPowerOff h _ => some h
  | .camStatus h _ _ => some h
  | .camTriggerNow h _ => some h
  | .camMask h _ => some h
  | .areaDefine h _ _ => some h
  | .areaClear h _ => some h
  | .areaJoin h _ _ => some h
  | .areaUnjoin h _ => some h
  | .areaStatus h _ _ => some h
  | .areaWrite h _ => some h
  | .frameHold h _ => some h
  | .frameRelease h _ => some h
  | .frameRead h _ _ => some h
  | .timingSet h _ _ _ => some h
  | .timeStatus h => some h
  | .gridOpen h _ _ _ => some h
  | .gridWrite h _ => some h
  | .gridFinish h _ => some h
  | .gridReopen h _ => some h
  | .gridDelete h _ => some h
  | .gridStatus h _ => some h
  | .viewDefine h _ _ => some h
  | .viewBind h _ _ _ => some h
  | .viewUnbind h _ _ => some h
  | .viewErase h _ => some h
  | .defaultView h _ => some h
  | .viewStatus h _ => some h
  | .composeStatus h _ => some h
  | .balanceSet h _ => some h
  | .balanceStatus h => some h
  | .overlaySet h _ => some h
  | .curveSet h _ => some h
  | .overlayStatus h => some h
  | .markPost h _ => some h
  | .markRemove h _ => some h
  | .markClear h => some h
  | .markStatus h => some h
  | .claim h _ => some h
  | .renew h _ => some h
  | .release h _ => some h
  | .gearSetup h _ _ _ => some h
  | .claimStatus h => some h
  | .canSetup h _ => some h
  | .slotSetup h _ _ => some h
  | .slotEnable h _ _ => some h
  | .signalSetup h _ _ _ _ => some h
  | .canRestart h => some h
  | .canErrclr h => some h
  | .canStatus h _ => some h
  | .signalStatus h _ => some h
  | .displaySet h _ _ => some h
  | .displayStatus h _ => some h
  | .linkLock _ => none
  | .lossOfLock _ => none
  | .frameStart _ => none
  | .line _ _ => none
  | .frameEnd _ => none
  | .feedFault _ => none
  | .settleTimerExpiry _ => none
  | .seekTimerExpiry _ => none
  | .frameTimeoutExpiry _ => none
  | .areaClearCompletion _ => none
  | .holdExpiry _ _ => none
  | .composeStart => none
  | .triggerPulseDue _ => none
  | .composeCompletion => none
  | .gridCheckCompletion _ => none
  | .markerExpiry _ => none
  | .claimExpiry _ => none
  | .lingerTimerExpiry => none
  | .canFrameReceived _ => none
  | .receiveError _ => none
  | .signalTimeoutExpiry _ => none
  | .signalHoldExpiry _ => none
  | .statusIntervalExpiry => none
  | .statusTxAttempt => none
  | .statusTxSent => none
  | .statusTxError _ => none
  | .arbitrationLost => none
  | .recoveryWaitCompletion => none
  | .displayFrameStart => none

/-- The code of a command (11 section 11.7); UNKNOWN_COMMAND's is its operand, and what is no command has none. -/
def codeOf : Instr → Option Byte
  | .powerOnReset => none
  | .resetPin => none
  | .responseRead _ => none
  | .ignoredTransaction _ _ => none
  | .unknownCommand _ code => some code
  | .status _ _ => some 0x01
  | .portSetup _ _ _ _ _ => some 0x02
  | .eventRead _ => some 0x03
  | .pipelineReset _ => some 0x04
  | .camSetup _ _ _ => some 0x10
  | .camPowerOn _ _ => some 0x11
  | .camPowerOff _ _ => some 0x11
  | .camStatus _ _ _ => some 0x12
  | .camTriggerNow _ _ => some 0x13
  | .camMask _ _ => some 0x14
  | .areaDefine _ _ _ => some 0x20
  | .areaClear _ _ => some 0x21
  | .areaJoin _ _ _ => some 0x22
  | .areaUnjoin _ _ => some 0x23
  | .areaStatus _ _ _ => some 0x24
  | .areaWrite _ _ => some 0x25
  | .frameHold _ _ => some 0x26
  | .frameRelease _ _ => some 0x27
  | .frameRead _ _ _ => some 0x28
  | .timingSet _ _ _ _ => some 0x30
  | .timeStatus _ => some 0x31
  | .gridOpen _ _ _ _ => some 0x40
  | .gridWrite _ _ => some 0x41
  | .gridFinish _ _ => some 0x42
  | .gridReopen _ _ => some 0x43
  | .gridDelete _ _ => some 0x44
  | .gridStatus _ _ => some 0x45
  | .viewDefine _ _ _ => some 0x48
  | .viewBind _ _ _ _ => some 0x49
  | .viewUnbind _ _ _ => some 0x4A
  | .viewErase _ _ => some 0x4B
  | .defaultView _ _ => some 0x4C
  | .viewStatus _ _ => some 0x4D
  | .composeStatus _ _ => some 0x50
  | .balanceSet _ _ => some 0x51
  | .balanceStatus _ => some 0x52
  | .overlaySet _ _ => some 0x60
  | .curveSet _ _ => some 0x61
  | .overlayStatus _ => some 0x62
  | .markPost _ _ => some 0x63
  | .markRemove _ _ => some 0x64
  | .markClear _ => some 0x65
  | .markStatus _ => some 0x66
  | .claim _ _ => some 0x70
  | .renew _ _ => some 0x71
  | .release _ _ => some 0x72
  | .gearSetup _ _ _ _ => some 0x73
  | .claimStatus _ => some 0x74
  | .canSetup _ _ => some 0x80
  | .slotSetup _ _ _ => some 0x81
  | .slotEnable _ _ _ => some 0x82
  | .signalSetup _ _ _ _ _ => some 0x83
  | .canRestart _ => some 0x84
  | .canErrclr _ => some 0x85
  | .canStatus _ _ => some 0x86
  | .signalStatus _ _ => some 0x87
  | .displaySet _ _ _ => some 0x90
  | .displayStatus _ _ => some 0x91
  | .linkLock _ => none
  | .lossOfLock _ => none
  | .frameStart _ => none
  | .line _ _ => none
  | .frameEnd _ => none
  | .feedFault _ => none
  | .settleTimerExpiry _ => none
  | .seekTimerExpiry _ => none
  | .frameTimeoutExpiry _ => none
  | .areaClearCompletion _ => none
  | .holdExpiry _ _ => none
  | .composeStart => none
  | .triggerPulseDue _ => none
  | .composeCompletion => none
  | .gridCheckCompletion _ => none
  | .markerExpiry _ => none
  | .claimExpiry _ => none
  | .lingerTimerExpiry => none
  | .canFrameReceived _ => none
  | .receiveError _ => none
  | .signalTimeoutExpiry _ => none
  | .signalHoldExpiry _ => none
  | .statusIntervalExpiry => none
  | .statusTxAttempt => none
  | .statusTxSent => none
  | .statusTxError _ => none
  | .arbitrationLost => none
  | .recoveryWaitCompletion => none
  | .displayFrameStart => none

/-- The commands whose fields are typed operands, of which `Hdr.fits` says whether the payload held them (log entry 11). -/
def typedFields : Instr → Bool
  | .powerOnReset => false
  | .resetPin => false
  | .responseRead _ => false
  | .ignoredTransaction _ _ => false
  | .unknownCommand _ _ => false
  | .status _ _ => true
  | .portSetup _ _ _ _ _ => true
  | .eventRead _ => false
  | .pipelineReset _ => false
  | .camSetup _ _ _ => true
  | .camPowerOn _ _ => true
  | .camPowerOff _ _ => true
  | .camStatus _ _ _ => true
  | .camTriggerNow _ _ => true
  | .camMask _ _ => true
  | .areaDefine _ _ _ => true
  | .areaClear _ _ => true
  | .areaJoin _ _ _ => true
  | .areaUnjoin _ _ => true
  | .areaStatus _ _ _ => true
  | .areaWrite _ _ => false
  | .frameHold _ _ => true
  | .frameRelease _ _ => true
  | .frameRead _ _ _ => true
  | .timingSet _ _ _ _ => true
  | .timeStatus _ => false
  | .gridOpen _ _ _ _ => true
  | .gridWrite _ _ => false
  | .gridFinish _ _ => true
  | .gridReopen _ _ => true
  | .gridDelete _ _ => true
  | .gridStatus _ _ => true
  | .viewDefine _ _ _ => true
  | .viewBind _ _ _ _ => true
  | .viewUnbind _ _ _ => true
  | .viewErase _ _ => true
  | .defaultView _ _ => true
  | .viewStatus _ _ => true
  | .composeStatus _ _ => true
  | .balanceSet _ _ => true
  | .balanceStatus _ => false
  | .overlaySet _ _ => true
  | .curveSet _ _ => true
  | .overlayStatus _ => false
  | .markPost _ _ => false
  | .markRemove _ _ => true
  | .markClear _ => false
  | .markStatus _ => false
  | .claim _ _ => true
  | .renew _ _ => true
  | .release _ _ => true
  | .gearSetup _ _ _ _ => true
  | .claimStatus _ => false
  | .canSetup _ _ => true
  | .slotSetup _ _ _ => true
  | .slotEnable _ _ _ => true
  | .signalSetup _ _ _ _ _ => true
  | .canRestart _ => false
  | .canErrclr _ => false
  | .canStatus _ _ => true
  | .signalStatus _ _ => true
  | .displaySet _ _ _ => true
  | .displayStatus _ _ => true
  | .linkLock _ => false
  | .lossOfLock _ => false
  | .frameStart _ => false
  | .line _ _ => false
  | .frameEnd _ => false
  | .feedFault _ => false
  | .settleTimerExpiry _ => false
  | .seekTimerExpiry _ => false
  | .frameTimeoutExpiry _ => false
  | .areaClearCompletion _ => false
  | .holdExpiry _ _ => false
  | .composeStart => false
  | .triggerPulseDue _ => false
  | .composeCompletion => false
  | .gridCheckCompletion _ => false
  | .markerExpiry _ => false
  | .claimExpiry _ => false
  | .lingerTimerExpiry => false
  | .canFrameReceived _ => false
  | .receiveError _ => false
  | .signalTimeoutExpiry _ => false
  | .signalHoldExpiry _ => false
  | .statusIntervalExpiry => false
  | .statusTxAttempt => false
  | .statusTxSent => false
  | .statusTxError _ => false
  | .arbitrationLost => false
  | .recoveryWaitCompletion => false
  | .displayFrameStart => false

/-- The header of a guarded command (11 section 11.7); GRID_DELETE's guard applies to VALID sets. -/
def guardedHeader (i : Instr) : Option Hdr :=
  match i with
  | .camSetup h _ _ => some h
  | .camMask h _ => some h
  | .areaDefine h _ _ => some h
  | .areaClear h _ => some h
  | .areaJoin h _ _ => some h
  | .areaUnjoin h _ => some h
  | .areaWrite h _ => some h
  | .timingSet h _ _ _ => some h
  | .gridDelete h _ => some h
  | .viewDefine h _ _ => some h
  | .viewBind h _ _ _ => some h
  | .viewUnbind h _ _ => some h
  | .viewErase h _ => some h
  | .defaultView h _ => some h
  | .balanceSet h _ => some h
  | .overlaySet h _ => some h
  | .curveSet h _ => some h
  | .gearSetup h _ _ _ => some h
  | .canSetup h _ => some h
  | .slotSetup h _ _ => some h
  | .slotEnable h _ _ => some h
  | .signalSetup h _ _ _ _ => some h
  | .displaySet h _ _ => some h
  | _ => none

/-- Power-on reset or the reset pin. -/
def isHardReset (i : Instr) : Bool := decide (i = .powerOnReset ∨ i = .resetPin)

/-- A result that accepts a command: OK, CLAMPED or ACCEPTED (R178). -/
def Result.accepts : Result → Bool
  | .ok => true
  | .clamped => true
  | .accepted => true
  | _ => false

/-- The events and commands that write DRAM (R13, R24, R40, R99), beside the resets, which part-write it (`abandons`). -/
def writesDram : Instr → Bool
  | .line _ _ => true
  | .areaClearCompletion _ => true
  | .areaWrite _ _ => true
  | .composeCompletion => true
  | _ => false

/-- A reset, which abandons a pass in flight and the clears that run (R24, R105). -/
def abandons : Instr → Bool
  | .powerOnReset => true
  | .resetPin => true
  | .pipelineReset _ => true
  | _ => false

/-- A record that is sound in its framing (R177 step 3). -/
def soundRecord (h : Hdr) : Prop := h.len.toNat ≤ 240 ∧ 10 + h.len.toNat ≤ h.got ∧ h.fits = true

/-- A record that is whole (R177 step 3), for the commands that need no field. -/
def wholeRecord (h : Hdr) : Prop := h.len.toNat ≤ 240 ∧ 10 + h.len.toNat ≤ h.got

/-- Camera `n` is usable for a compose that starts in `s`, with the frame of capture timestamp `stamp` in slot `k`, the newest
READY slot of its ring (R51 to R55): the frame is neither stale nor of an expired sequence, the camera's door is shut and
the composition camera mask includes it. -/
def UsableFrame (s : State) (n : Fin 4) (k : Nat) (stamp : Word32) : Prop :=
  ∃ (r : CamRing) (c : CamSlot) (q : Word32) (l : Count), s.fsc.camRing[n] = some r ∧ r.newestReady = some k
    ∧ r.slots[k]? = some c ∧ c.st = .ready q stamp l
    ∧ (s.tbu.now - stamp).toNat < 2 ^ 31 ∧ (s.tbu.now - stamp).toNat ≤ s.tbu.stale * 1000
    ∧ s.tbu.cams[n].expired ≠ some q ∧ (∀ b : Fin 8, s.ciu[n].setup.door = some b → s.si.effDoors.getLsbD b = false)
    ∧ s.tbu.mask.getLsbD n = true

/-- The guard lets a command through (R178). -/
def passesGuard (s : State) (h : Hdr) : Prop := h.gen = s.cp.gen ∧ s.cp.gen ≠ genMax

end Sys2Proof.Machine
end

