-- ==== Sys2Proof/Certificates/Slice0/Obligations.lean ====
section
/-! DEFINITION. The statements for the provers: what the manual's rules say of the commands, the events and the whole
part. An equation between states is its own frame: what the right side does not write is unchanged, memory included.
`s.respond p code r l` is the state with that response pending on port p, its flags and generation read from `s`; `.empty` is
the payload of a response for which no rule lists values, and of every refusal (the model's choice of log entry 13). -/

open Sys2Proof Sys2Proof.Machine

/-! ### Steps, resets and the ports -/

/-- A step with a command at the front of the queue is that command's `exec` on the state with the queue's rest. -/
def Obligations.StepRunsFrontCommand : Prop :=
  ∀ (s : State) (i : Instr) (rest : List Instr), step (s.withPending (i :: rest)) = exec i (s.withPending rest)

/-- On an empty queue an expiry that is alone in being due now is taken, and with none due the microsecond counter
advances by one, from 4,294,967,295 to 0, and nothing else changes (R44; the model's choice of log entry 8). -/
def Obligations.IdleStep : Prop :=
  ∀ s : State, s.pending = [] →
    (∀ i, s.dueNow = [i] → step s = exec i s)
      ∧ (s.dueNow = [] → step s = .next { s with tbu := { s.tbu with now := s.tbu.now + 1 } })

/-- Power-on reset and the reset pin put every block into its initial state, from any state (R20, R43, R44, R45, R60, R75, R84,
R108, R120, R121, R131, R137, R153, R156, R160, R170, R178, R181, R183), and leave the contents of grid memory (R60; log
entry 2), the links' lock (the model's choice of log entry 3) and those of DRAM (R43), in which a clear and a pass that the
reset abandons stand where they stopped (R24, R105; which bytes they had reached is free: log entries 4 and 5). The fields
`pulses`, `acks` and `delivered` are the model's own (log entry 14). -/
def Obligations.HardResets : Prop :=
  ∀ (s : State) (i : Instr), i = .powerOnReset ∨ i = .resetPin →
    ∃ t, exec i s = .next t ∧ DramAbandoned s t ∧ t.gs.mem = s.gs.mem ∧ t.pending = s.pending
      ∧ (∀ n : Fin 4, t.ciu[n].link = .off ∧ t.ciu[n].reception = .noFrame ∧ t.ciu[n].seekNoticed = false
          ∧ t.ciu[n].unjoinedNoticed = false ∧ t.ciu[n].locked = s.ciu[n].locked ∧ t.ciu[n].pulses = 0
          ∧ t.ciu[n].setup = { width := 1280, height := 800, settle := 50, seek := 2000, timeout := 100, door := none,
                               trig := .freeRun, phase := 0 }
          ∧ t.ciu[n].counts = { good := 0, damaged := 0, dropped := 0, unjoined := 0, faults := 0, stray := 0 })
      ∧ (∀ a : Fin 8, t.fsc.areas[a] = .undefined) ∧ (∀ n : Fin 4, t.fsc.camRing[n] = none) ∧ t.fsc.outRing = none
      ∧ (t.tbu.now = 0 ∧ t.tbu.period = 33333 ∧ t.tbu.running = 33333 ∧ t.tbu.timer = 33333 ∧ t.tbu.mask = 15
          ∧ t.tbu.lastMask = 0 ∧ t.tbu.lastSkew = 0 ∧ t.tbu.stale = 80 ∧ t.tbu.skewLimit = 10 ∧ t.tbu.skewOver = false
          ∧ ∀ n : Fin 4, t.tbu.cams[n] = { pulse := none, lastCapture := none, interval := none, expired := none })
      ∧ (t.gs.free = [{ base := 0, len := 65536 }] ∧ ∀ i : Fin 32, t.gs.sets[i] = .absent)
      ∧ (t.vc.dflt = none ∧ ∀ v : Fin 16, t.vc.views[v] = none)
      ∧ t.ce = { current := none, overrunNoticed := false, lastSeq := none
                 counts := { composed := 0, overrun := 0, blocked := 0, mutedSkip := 0, noView := 0 } }
      ∧ (t.bu.mode = .manual ∧ t.bu.k = 4 ∧ t.bu.smax = 8 ∧ t.bu.nmin = 4096 ∧ t.bu.record = none
          ∧ ∀ c : Fin 4, t.bu.gains[c] = 256 ∧ t.bu.manual[c] = 256)
      ∧ (t.ou.markers = [] ∧ t.ou.setup.silW = 16 ∧ t.ou.setup.silH = 16
          ∧ t.ou.setup.guide = { halfTrack := 900, start := 300, stop := 3000, thick := 3, near := 1000, mid := 2000
                                 marks := [], cond := .off }
          ∧ (∀ k : Fin 33, t.ou.setup.curve[k] = 0)
          ∧ ∀ k : Fin 16, t.ou.setup.palette[k] = (if k.val < 11 then { y := 0, u := 0, v := 0, alpha := 0 }
              else if k.val = 11 then { y := 235, u := 128, v := 128, alpha := 0 }
              else { y := 16, u := 128, v := 128, alpha := 0 }))
      ∧ t.ca = { stack := [], token := 1, reverseView := none, linger := 2000, lingerTimer := none, gate := 1500
                 decision := { view := none, mute := false }, speedAt := 0 }
      ∧ t.si.can = { setup := { mode := .off, rate := .k500, autoRecover := true, ext := false, ident := 0x5C0
                                interval := 100, singleShot := false }
                     tec := 0, recv := 0, err := .active, recovery := false
                     cause := { bit0 := false, bit1 := false, stuff := false, form := false, crc := false, ack := false
                                role := none }
                     buffer := none, attempt := none, timer := none, rolling := 0, late := 0, failed := 0, short := 0
                     acks := 0 }
      ∧ (t.si.gear = { value := none, st := .never, last := none, saturated := false, timeout := 200, hold := 1000 }
          ∧ t.si.speed = { value := none, st := .never, last := none, saturated := false, timeout := 200, hold := 1000 }
          ∧ t.si.steer = { value := none, st := .never, last := none, saturated := false, timeout := 200, hold := 1000 }
          ∧ t.si.doors = { value := none, st := .never, last := none, saturated := false, timeout := 200, hold := 1000 }
          ∧ t.si.confirm = 2 ∧ t.si.gearPending = none
          ∧ ∀ i : Fin 12, t.si.slots[i] = { enabled := false, setup := none })
      ∧ t.su = { timer := none, period := 16667, held := none, frame := .nothing, repeated := 0, blank := 0, muted := 0 }
      ∧ (t.cp.gen = 0 ∧ t.cp.faults = 0)
      ∧ ∀ p : Port, (t.port p).pending = none ∧ (t.port p).delivered = none ∧ (t.port p).queue = []
          ∧ (t.port p).overflow = false ∧ (t.port p).mask = 0 ∧ (t.port p).irqEnable = false ∧ (t.port p).irq = false
          ∧ (t.port p).holdTime = 1000 ∧ (t.port p).claimHold = 1500

/-- A response read returns the pending response, or an empty one with code 0x00 and result OK, and leaves none pending; an
ignored transaction changes nothing, one without any byte among them, which is the model's choice of log entry 40; an
unknown code is answered UNKNOWN_COMMAND whatever its length field (R177). What the read returned is seen in `delivered`,
the model's own field (the model's choice of log entry 14). A record shorter than its header is ignored, whatever command it
carries; one with a payload length above 240, one that ends before its payload does, and one whose payload is too short for
the fields of its command is refused with BAD_ARG (R177), before the generation check by the model's choice of log entry 15.
Every response carries the code, the result, the generation and the four condition flags: DEGRADED when the last usable mask
is not 15, MUTED with the mute flag of the decision, ALERT while a PORT_A entry stands in the claim stack, FAULT when the
fault summary is not 0 (R177, R180). -/
def Obligations.TransactionsOfThePorts : Prop :=
  (∀ (s : State) (p : Port),
    exec (.responseRead p) s
        = .next (s.setPort p
            { s.port p with
              pending := none
              delivered := some ((s.port p).pending.getD
                { code := 0, result := .ok, flags := s.flags, gen := s.cp.gen, payload := .empty }) })
      ∧ (∀ bytes, exec (.ignoredTransaction p bytes) s = .next s)
      ∧ ∀ (h : Hdr) (code : Byte), 10 ≤ h.got → commandCodes.contains code = false →
          exec (.unknownCommand h code) s = .next (s.respond h.port code .unknownCommand .empty))
    ∧ (∀ (s : State) (i : Instr) (h : Hdr), headerOf i = some h →
      (h.got < 10 → exec i s = .next s)
        ∧ ∀ code : Byte, codeOf i = some code → (∀ c, i ≠ .unknownCommand h c) → 10 ≤ h.got →
          (240 < h.len.toNat ∨ h.got < 10 + h.len.toNat ∨ (typedFields i = true ∧ h.fits = false)
            ∨ (h.len.toNat < 12 ∧ ∃ bs, i = .markPost h bs)) →
          exec i s = .next (s.respond h.port code .badArg .empty))
    ∧ ∀ (s : State) (p : Port) (code : Byte) (res : Result) (payload : Payload),
      s.respond p code res payload
          = s.setPort p { s.port p with
              pending := some { code := code, result := res, flags := s.flags, gen := s.cp.gen, payload := payload } }
        ∧ (s.flags.getLsbD 0 = true ↔ s.tbu.lastMask ≠ 15) ∧ (s.flags.getLsbD 1 = true ↔ s.ca.decision.mute = true)
        ∧ (s.flags.getLsbD 2 = true ↔ ∃ e ∈ s.ca.stack, ∃ d, e.source = .portA d)
        ∧ (s.flags.getLsbD 3 = true ↔ s.cp.faults ≠ 0)

/-- PORT_SETUP refuses a mask with a flag outside bits 1 to 20, and otherwise clamps the two times and stores all four
values on the issuing port alone (R183); a port's interrupt line is up when its interrupt is enabled and its queue is not
empty (R181). -/
def Obligations.PortSetupStores : Prop :=
  (∀ (s : State) (h : Hdr) (mask : Word32) (en : Bool) (hold claim : Nat), soundRecord h →
    ((∃ b, mask.getLsbD b = true ∧ (b = 0 ∨ 20 < b)) →
        exec (.portSetup h mask en hold claim) s = .next (s.respond h.port 0x02 .badArg .empty))
      ∧ ((∀ b, mask.getLsbD b = true → 1 ≤ b ∧ b ≤ 20) →
        exec (.portSetup h mask en hold claim) s
          = .next ((s.setPort h.port
              { s.port h.port with
                mask := mask, irqEnable := en, holdTime := max 10 (min hold 5000),
                claimHold := max 100 (min claim 10000) }).respond h.port 0x02
              (if 10 ≤ hold ∧ hold ≤ 5000 ∧ 100 ≤ claim ∧ claim ≤ 10000 then .ok else .clamped) .empty)))
    ∧ ∀ q : PortState, q.irq = true ↔ q.irqEnable = true ∧ q.queue ≠ []

/-- EVENT_READ removes up to 14 notices from the front of the issuing port's queue and returns them oldest first with the
overflow flag as it stood, which it then clears (R182; 11, Notice record); that the flag's byte is 1 for set and 0 for clear
is the model's choice of log entry 38. A notice carries its kind, the counter, its subject and its value; it goes to the end
of the queue of each port whose mask has the flag of its kind, or to its owner's whatever the mask, and where 32 stand
already it is discarded for that port and the overflow flag set (R181). -/
def Obligations.EventReadReturnsOldest : Prop :=
  (∀ (s : State) (h : Hdr), wholeRecord h →
    exec (.eventRead h) s
      = .next ((s.setPort h.port
          { s.port h.port with queue := (s.port h.port).queue.drop 14, overflow := false }).respond h.port 0x03 .ok
          (.bytes ([BitVec.ofNat 8 (min 14 (s.port h.port).queue.length), (if (s.port h.port).overflow then 1 else 0),
              BitVec.ofNat 8 ((s.port h.port).queue.length - 14)]
            ++ ((s.port h.port).queue.take 14).flatMap noticeBytes))))
    ∧ (∀ n : Notice, noticeBytes n = [BitVec.ofNat 8 n.kind.code, n.subject]
        ++ (List.range 4).map (fun i => BitVec.ofNat 8 (n.time.toNat / 256 ^ i))
        ++ (List.range 4).map (fun i => BitVec.ofNat 8 (n.value.toNat / 256 ^ i)))
    ∧ [NoticeKind.camState, .seekTimeout, .camUnjoined, .areaCleared, .holdExpired, .skewOver, .skewOk, .camUsability, .gridValid,
        .gridRejected, .overrun, .frameDone, .markerEvicted, .markerExpired, .claimEvicted, .claimExpired, .viewChanged,
        .signalState, .canState, .statusTxFailed].map NoticeKind.code = (List.range 20).map Nat.succ
    ∧ ∀ (s : State) (p : Port) (k : NoticeKind) (subject value : Nat) (n : Notice),
      n = { kind := k, time := s.tbu.now, subject := BitVec.ofNat 8 subject, value := BitVec.ofNat 32 value } →
      (∃ d a : PortState, s.notify k subject value = { s with cp := { s.cp with portD := d, portA := a } })
        ∧ ((s.port p).mask.getLsbD k.code = false → (s.notify k subject value).port p = s.port p)
        ∧ ((s.port p).queue.length < 32 →
          ((s.port p).mask.getLsbD k.code = true →
            (s.notify k subject value).port p = { s.port p with queue := (s.port p).queue ++ [n] })
          ∧ s.notifyOwner p k subject value = s.setPort p { s.port p with queue := (s.port p).queue ++ [n] })
        ∧ (32 ≤ (s.port p).queue.length →
          ((s.port p).mask.getLsbD k.code = true → (s.notify k subject value).port p = { s.port p with overflow := true })
          ∧ s.notifyOwner p k subject value = s.setPort p { s.port p with overflow := true })

/-- PIPELINE_RESET empties the moving state of every block as one event and keeps the configuration, whatever the record's
payload (R184): the frame being received is discarded (R19); clearing areas are DEFINED and every ring is emptied where it
stands (R24, R42); the compose period starts afresh (R45); checking sets are OPEN and no set is in use (R74); the compose in
flight is dropped and its slot holds a part-written frame, as an abandoned clear leaves its range zero in part (R24, R105;
which bytes they had reached is free: log entries 4 and 5); the gains take their start values (R119); the reverse claim is
made afresh while GEAR is REVERSE and a reverse view is set (R152); a composed frame on the display turns to background,
whose colour is read at the reset (R176; log entry 20). The output sequence of the status frame afterwards is the model's
choice of log entry 22. -/
def Obligations.PipelineResetKeepsConfiguration : Prop :=
  ∀ (s : State) (h : Hdr), wholeRecord h →
    ∃ t, exec (.pipelineReset h) s = .next t
      ∧ (t.port h.port).pending
          = some { code := 0x04, result := .ok, flags := t.flags, gen := s.cp.gen, payload := .empty }
      ∧ (t.port (other h.port)).pending = (s.port (other h.port)).pending
      ∧ (∀ p, (t.port p).queue = [] ∧ (t.port p).overflow = false ∧ (t.port p).mask = (s.port p).mask
          ∧ (t.port p).irqEnable = (s.port p).irqEnable ∧ (t.port p).irq = false ∧ (t.port p).holdTime = (s.port p).holdTime
          ∧ (t.port p).claimHold = (s.port p).claimHold ∧ (t.port p).delivered = (s.port p).delivered)
      ∧ t.cp.gen = s.cp.gen ∧ t.cp.faults = s.cp.faults ∧ DramAbandoned s t ∧ t.si = s.si ∧ t.vc = s.vc
      ∧ t.pending = s.pending
      ∧ (∀ n : Fin 4, t.ciu[n] = { s.ciu[n] with
          unjoinedNoticed := false
          reception := (match s.ciu[n].reception with
            | .noFrame => .noFrame
            | .receiving _ _ => .discarding
            | .discarding => .discarding) })
      ∧ (∀ a : Fin 8, (s.fsc.areas[a] = .undefined → t.fsc.areas[a] = .undefined)
          ∧ ∀ b l p, s.fsc.areas[a] = .range b l p →
              t.fsc.areas[a] = .range b l (if p = .clearing then .defined else p))
      ∧ (∀ n : Fin 4, t.fsc.camRing[n] = s.fsc.camRing[n].map fun r => { r with
          next := 0, slots := List.replicate r.slots.length (CamSlot.mk .free false none none) })
      ∧ t.fsc.outRing = s.fsc.outRing.map (fun r => { r with
          next := 0, slots := List.replicate r.slots.length (OutSlot.mk .free none none) })
      ∧ { t.tbu with cams := s.tbu.cams }
          = { s.tbu with running := s.tbu.period, timer := s.tbu.now + BitVec.ofNat 32 s.tbu.period, lastMask := 0
                         lastSkew := 0, skewOver := false }
      ∧ (∀ n : Fin 4, t.tbu.cams[n] = { s.tbu.cams[n] with pulse := none, expired := none })
      ∧ t.gs.mem = s.gs.mem ∧ t.gs.free = s.gs.free
      ∧ (∀ i : Fin 32, (s.gs.sets[i] = .absent → t.gs.sets[i] = .absent)
          ∧ (∀ g p n, s.gs.sets[i] = .held g (.opened p n) → t.gs.sets[i] = .held g (.opened p n))
          ∧ (∀ g p n z, s.gs.sets[i] = .held g (.checking p n z) → t.gs.sets[i] = .held g (.opened p n))
          ∧ (∀ g b u, s.gs.sets[i] = .held g (.valid b u) → t.gs.sets[i] = .held g (.valid b false))
          ∧ ∀ g p n k c, s.gs.sets[i] = .held g (.rejected p n k c) → t.gs.sets[i] = .held g (.rejected p n k c))
      ∧ t.ce = { s.ce with current := none, overrunNoticed := false, lastSeq := none }
      ∧ { t.bu with gains := s.bu.gains } = { s.bu with record := none }
      ∧ (∀ c : Fin 4, t.bu.gains[c] = (match s.bu.mode with | .manual => s.bu.manual[c] | .auto => 256))
      ∧ t.ou = { s.ou with markers := [] }
      ∧ (∀ v, s.ca.reverseView = some v → s.si.effGear = .reverse →
          t.ca = { s.ca with
            stack := [{ token := 1, source := .gear, view := v, time := s.tbu.now }], token := 2, lingerTimer := none
            decision := { view := none, mute := false }, speedAt := 0 })
      ∧ (s.ca.reverseView = none ∨ s.si.effGear ≠ .reverse →
          t.ca = { s.ca with
            stack := [], token := 1, lingerTimer := none, decision := { view := none, mute := false }, speedAt := 0 })
      ∧ t.su = { s.su with
          held := none
          frame := (match s.su.frame with
            | .nothing => .nothing
            | .composed _ => .blank (Yuv.mk s.ou.setup.palette[14].y s.ou.setup.palette[14].u s.ou.setup.palette[14].v)
            | .again _ => .blank (Yuv.mk s.ou.setup.palette[14].y s.ou.setup.palette[14].u s.ou.setup.palette[14].v)
            | .blank c => .blank c
            | .mute c => .mute c) }

/-! ### Reading commands -/

/-- The status commands that take no clear option are answered OK in every state and change nothing but the issuing port's
pending response, whose payload gives what their rules list (R59, R73, R83, R118, R136, R151): of a grid set the fields of
R61 that are present in its state. The longest extent of an empty free-extent list is given as 0, and bits 4 to 7 of a marker
record's byte 1 as 0, by the model's choices of log entries 42 and 31. -/
def Obligations.StatusCommandsOnlyReport : Prop :=
  ∀ (s : State) (h : Hdr), soundRecord h →
    (exec (.timeStatus h) s
        = .next (s.respond h.port 0x31 .ok
            (.time s.tbu.now s.tbu.period s.tbu.running (s.tbu.timer - s.tbu.now).toNat s.tbu.stale s.tbu.skewLimit
              s.tbu.mask s.tbu.lastMask s.tbu.lastSkew s.tbu.skewOver
              (Vector.ofFn fun n : Fin 4 =>
                { trig := s.ciu[n].setup.trig, phase := s.ciu[n].setup.phase
                  effective := min s.ciu[n].setup.phase (s.tbu.period - 1), timing := s.tbu.cams[n] }))))
      ∧ (∀ i : Fin 32,
        (s.gs.sets[i] = .absent → exec (.gridStatus h (.set i)) s
          = .next (s.respond h.port 0x45 .ok (.grid
              { state := .absent, owner := none, shape := none, size := none, written := none, rejection := none, binds := 0
                inUse := false })))
        ∧ ∀ (g : GridShape) (size : Nat), size = (g.bw + 1) * (g.bh + 1) + g.bw * g.bh →
          (∀ p n, s.gs.sets[i] = .held g (.opened p n) → exec (.gridStatus h (.set i)) s
            = .next (s.respond h.port 0x45 .ok (.grid
                { state := .opened, owner := some p, shape := some g, size := some size, written := some n
                  rejection := none, binds := 0, inUse := false })))
          ∧ (∀ p n z, s.gs.sets[i] = .held g (.checking p n z) → exec (.gridStatus h (.set i)) s
            = .next (s.respond h.port 0x45 .ok (.grid
                { state := .checking, owner := some p, shape := some g, size := some size, written := some n
                  rejection := none, binds := 0, inUse := false })))
          ∧ (∀ b u, s.gs.sets[i] = .held g (.valid b u) → exec (.gridStatus h (.set i)) s
            = .next (s.respond h.port 0x45 .ok (.grid
                { state := .valid, owner := none, shape := some g, size := some size, written := none, rejection := none
                  binds := b, inUse := u })))
          ∧ ∀ p n k c, s.gs.sets[i] = .held g (.rejected p n k c) → exec (.gridStatus h (.set i)) s
            = .next (s.respond h.port 0x45 .ok (.grid
                { state := .rejected, owner := some p, shape := some g, size := some size, written := some n
                  rejection := some (k, c), binds := 0, inUse := false })))
      ∧ (∃ longest, ((∀ e ∈ s.gs.free, e.len ≤ longest) ∧ (longest = 0 ∨ ∃ e ∈ s.gs.free, e.len = longest))
          ∧ exec (.gridStatus h .store) s
            = .next (s.respond h.port 0x45 .ok
                (.gridStore s.gs.free s.gs.free.length (s.gs.free.map Extent.len).sum longest
                  (s.gs.sets.toList.countP fun g => decide (g = .absent))
                  (s.gs.sets.toList.countP fun g => match g with | .held _ (.opened _ _) => true | _ => false)
                  (s.gs.sets.toList.countP fun g => match g with | .held _ (.checking _ _ _) => true | _ => false)
                  (s.gs.sets.toList.countP fun g => match g with | .held _ (.valid _ _) => true | _ => false)
                  (s.gs.sets.toList.countP fun g => match g with | .held _ (.rejected _ _ _ _) => true | _ => false))))
      ∧ (∀ v : Fin 16, exec (.viewStatus h (.view v)) s
        = .next (s.respond h.port 0x4D .ok (.view s.vc.views[v] (decide (s.vc.dflt = some v))
            (decide (∃ e ∈ s.ca.stack, e.view = v)) (decide (s.ca.reverseView = some v)))))
      ∧ exec (.viewStatus h .defaultView) s = .next (s.respond h.port 0x4D .ok (.defaultView s.vc.dflt))
      ∧ exec (.balanceStatus h) s = .next (s.respond h.port 0x52 .ok (.balance s.bu))
      ∧ exec (.overlayStatus h) s = .next (s.respond h.port 0x62 .ok (.overlay s.ou.setup s.ou.markers.length))
      ∧ exec (.markStatus h) s
        = .next (s.respond h.port 0x66 .ok (.bytes (BitVec.ofNat 8 s.ou.markers.length ::
            s.ou.markers.flatMap fun m => markerBytes m ((m.deadline - s.tbu.now).toNat / 1000))))
      ∧ exec (.claimStatus h) s
        = .next (s.respond h.port 0x74 .ok
            (.claims s.ca.stack.length
              (s.ca.stack.map fun e => match e.source with
                | .portD => ClaimReport.mk e.token .portD e.view e.time none
                | .gear => ClaimReport.mk e.token .gear e.view e.time none
                | .portA d => ClaimReport.mk e.token .portA e.view e.time (some ((d - s.tbu.now).toNat / 1000)))
              (s.ca.stack.countP fun e => decide (e.source = .portD)) (s.ca.stack.countP fun e => decide (e.source = .gear))
              (s.ca.stack.countP fun e => match e.source with | .portA _ => true | _ => false)
              s.ca.token s.ca.reverseView s.ca.linger s.ca.gate
              (s.ca.lingerTimer.map fun d => (d - s.tbu.now).toNat / 1000) s.ca.speedAt s.ca.decision))

/-- The status commands with a clear option report first and clear only the items their rules name (R14, R28, R107, R169, R175);
STATUS gives the generation, the fault summary and the port's settings, and its clear makes the summary 0 after its value
and the FAULT flag of the response are taken (R180). CAN_STATUS gives the transmit state as PENDING or not, without the
frame buffer, by the model's choice (log entry 12). -/
def Obligations.StatusCommandsClearAfterReporting : Prop :=
  ∀ (s : State) (h : Hdr) (clear : Bool), soundRecord h →
    (∀ n : Fin 4, exec (.camStatus h n clear) s
        = .next ((if clear then
            { s with ciu := s.ciu.set n { s.ciu[n] with
                counts := { good := 0, damaged := 0, dropped := 0, unjoined := 0, faults := 0, stray := 0 } } }
            else s).respond h.port 0x12 .ok
              (.cam s.ciu[n].setup s.ciu[n].link.code
                (match s.ciu[n].reception with
                  | .noFrame => .noFrame
                  | .receiving _ _ => .receiving
                  | .discarding => .discarding)
                s.ciu[n].locked s.ciu[n].link.feed (s.openLines n) s.ciu[n].counts)))
      ∧ (∀ (a : Fin 8) (n : Fin 4) (r : CamRing) (b l : Nat), s.fsc.areas[a] = .range b l (.joined (.camera n)) →
          s.fsc.camRing[n] = some r →
          exec (.areaStatus h a clear) s
            = .next ((if clear then
                { s with fsc := { s.fsc with camRing := s.fsc.camRing.set n (some { r with replaced := 0 }) } }
                else s).respond h.port 0x24 .ok
                  (.area s.fsc.areas[a]
                    (.camera r.slots.length ((s.ciu[n].setup.width * s.ciu[n].setup.height * 2 + 65535) / 65536) r.next
                      r.replaced (r.slots.map fun c => CamSlotReport.mk c.st c.pin c.holdD.isSome c.holdA.isSome)))))
      ∧ (∀ (a : Fin 8) (r : OutRing) (b l : Nat), s.fsc.areas[a] = .range b l (.joined .output) → s.fsc.outRing = some r →
          exec (.areaStatus h a clear) s
            = .next (s.respond h.port 0x24 .ok
                (.area s.fsc.areas[a]
                  (.output r.slots.length 29 r.next (r.slots.mapIdx fun k c =>
                    OutSlotReport.mk c.st (decide (s.su.held = some k)) c.holdD.isSome c.holdA.isSome)))))
      ∧ (∀ a : Fin 8, (∀ b l t, s.fsc.areas[a] = .range b l (.joined t) → t = .overlay) →
          exec (.areaStatus h a clear) s = .next (s.respond h.port 0x24 .ok (.area s.fsc.areas[a] .noRing)))
      ∧ exec (.composeStatus h clear) s
          = .next ((if clear then
              { s with ce := { s.ce with
                  counts := { composed := 0, overrun := 0, blocked := 0, mutedSkip := 0, noView := 0 } } }
              else s).respond h.port 0x50 .ok
                (.compose (s.ce.current.map fun c => (c.target, c.snap.view, c.start, c.mask, c.skew))
                  s.ce.overrunNoticed s.ce.counts))
      ∧ exec (.canStatus h clear) s
          = .next ((if clear then
              { s with si := { s.si with can := { s.si.can with late := 0, failed := 0, short := 0 } } }
              else s).respond h.port 0x86 .ok
                (.can s.si.can.setup s.si.can.tec s.si.can.recv s.si.can.err s.si.can.recovery s.si.can.cause
                  s.si.can.buffer.isSome s.si.can.rolling s.si.can.late s.si.can.failed s.si.can.short))
      ∧ exec (.signalStatus h clear) s
          = .next ((if clear then
              { s with si := { s.si with
                  gear := { s.si.gear with saturated := false }, speed := { s.si.speed with saturated := false },
                  steer := { s.si.steer with saturated := false }, doors := { s.si.doors with saturated := false } } }
              else s).respond h.port 0x87 .ok
                (.signals
                  (SigReport.mk s.si.gear.value s.si.gear.st.code s.si.gear.last s.si.gear.saturated s.si.gear.timeout
                    s.si.gear.hold
                    (if s.si.gear.st.code = 1 ∨ s.si.gear.st.code = 2 then
                      (match s.si.gear.value with
                        | some .reverse => .reverse
                        | some .notReverse => .notReverse
                        | none => .unknown)
                    else .unknown))
                  s.si.confirm s.si.gearPending
                  (SigReport.mk s.si.speed.value s.si.speed.st.code s.si.speed.last s.si.speed.saturated s.si.speed.timeout
                    s.si.speed.hold
                    (if s.si.speed.st.code = 1 ∨ s.si.speed.st.code = 2 then s.si.speed.value.getD 0 else 0))
                  (SigReport.mk s.si.steer.value s.si.steer.st.code s.si.steer.last s.si.steer.saturated s.si.steer.timeout
                    s.si.steer.hold
                    (if s.si.steer.st.code = 1 ∨ s.si.steer.st.code = 2 then (s.si.steer.value.getD 0, false)
                      else (0, true)))
                  (SigReport.mk s.si.doors.value s.si.doors.st.code s.si.doors.last s.si.doors.saturated s.si.doors.timeout
                    s.si.doors.hold
                    (if s.si.doors.st.code = 1 ∨ s.si.doors.st.code = 2 then s.si.doors.value.getD 0 else 0))
                  s.si.slots))
      ∧ exec (.displayStatus h clear) s
          = .next ((if clear then { s with su := { s.su with repeated := 0, blank := 0, muted := 0 } }
              else s).respond h.port 0x91 .ok
                (.display s.su.timer.isSome s.su.period (s.su.timer.map fun d => (d - s.tbu.now).toNat) s.su.held
                  (match s.su.frame with
                    | .nothing => .nothing
                    | .composed k => .composed k
                    | .again k => .again k
                    | .blank _ => .blank
                    | .mute _ => .mute)
                  s.su.repeated s.su.blank s.su.muted))
      ∧ ∃ t, exec (.status h clear) s = .next t
          ∧ (t.port h.port).pending = some
              { code := 0x01, result := .ok, flags := s.flags, gen := s.cp.gen
                payload := .status s.cp.gen s.cp.faults (s.port h.port).mask (s.port h.port).irqEnable (s.port h.port).holdTime
                  (s.port h.port).claimHold (s.port h.port).queue.length (s.port h.port).overflow
                  (s.port (other h.port)).queue.length }
          ∧ t.cp.faults = (if clear then 0 else s.cp.faults)
          ∧ { t with cp := s.cp } = s ∧ t.port (other h.port) = s.port (other h.port) ∧ t.cp.gen = s.cp.gen
          ∧ { t.port h.port with pending := (s.port h.port).pending } = s.port h.port

/-! ### Camera links and frame intake -/

/-- CAM_SETUP, for a camera that is OFF and unjoined, clamps the tuning values of a record whose structural fields are in
range and stores it (R1, R2, R47); a width or height out of range or off its step, or a camera index above 3, is refused
with BAD_ARG, and a camera not OFF or with its area joined with WRONG_STATE. -/
def Obligations.CamSetupStores : Prop :=
  ∀ (s : State) (h : Hdr) (n : Fin 4) (r : SetupArg), soundRecord h → passesGuard s h →
    (∀ cam : Nat, 3 < cam → exec (.camSetup h cam r) s = .next (s.respond h.port 0x10 .badArg .empty))
      ∧ ((s.ciu[n].link ≠ .off ∨ (s.fsc.joined (.camera n)).isSome = true) →
          exec (.camSetup h n r) s = .next (s.respond h.port 0x10 .wrongState .empty))
      ∧ (s.ciu[n].link = .off → s.fsc.joined (.camera n) = none →
          (r.width < 640 ∨ 1920 < r.width ∨ r.width % 32 ≠ 0 ∨ r.height < 480 ∨ 1280 < r.height ∨ r.height % 16 ≠ 0
              ∨ r.trig = none ∨ (∃ b, r.door = some b ∧ 7 < b) →
            exec (.camSetup h n r) s = .next (s.respond h.port 0x10 .badArg .empty))
          ∧ ∀ (d : Option (Fin 8)) (m : TrigMode), r.trig = some m → r.door = d.map Fin.val →
            640 ≤ r.width → r.width ≤ 1920 → r.width % 32 = 0 → 480 ≤ r.height → r.height ≤ 1280 → r.height % 16 = 0 →
            1 ≤ s.tbu.period →
            exec (.camSetup h n r) s
              = .next (({ s with ciu := s.ciu.set n { s.ciu[n] with
                    setup := { width := r.width, height := r.height, settle := max 10 (min r.settle 250),
                               seek := max 100 (min r.seek 5000), timeout := max 20 (min r.timeout 1000), door := d,
                               trig := m, phase := min r.phase (s.tbu.period - 1) } } }).advanceGen.respond h.port 0x10
                  (if 10 ≤ r.settle ∧ r.settle ≤ 250 ∧ 100 ≤ r.seek ∧ r.seek ≤ 5000 ∧ 20 ≤ r.timeout ∧ r.timeout ≤ 1000
                      ∧ r.phase < s.tbu.period then .ok else .clamped) .empty))

/-- CAM_POWER on takes an OFF or FAULTED camera to SETTLING with its settle timer started, its timing record emptied and
CAM_STATE sent, and leaves a powered camera as it is (R3, R7, R11, R50); CAM_POWER off takes any other state to OFF with
CAM_STATE sent, the frame being received becoming DAMAGED with cause POWER unless one is pending, and one being discarded given
up (R4, R11, R16). Both are refused with BAD_ARG for a camera index above 3 (R3, R4). -/
def Obligations.CamPower : Prop :=
  ∀ (s : State) (h : Hdr) (n : Fin 4), soundRecord h →
    (∀ cam : Nat, 3 < cam →
        exec (.camPowerOn h cam) s = .next (s.respond h.port 0x11 .badArg .empty)
          ∧ exec (.camPowerOff h cam) s = .next (s.respond h.port 0x11 .badArg .empty))
      ∧ (s.ciu[n].link.feed = true → exec (.camPowerOn h n) s = .next (s.respond h.port 0x11 .ok .empty))
      ∧ (s.ciu[n].link.feed = false →
          exec (.camPowerOn h n) s
            = .next ((({ s with
                  tbu := { s.tbu with cams := s.tbu.cams.set n { s.tbu.cams[n] with lastCapture := none, interval := none } }
                  ciu := s.ciu.set n { s.ciu[n] with
                    link := .settling (s.tbu.now + BitVec.ofNat 32 (s.ciu[n].setup.settle * 1000)) } }).notify .camState n
                (1 + 256 * s.ciu[n].link.code)).respond h.port 0x11 .ok .empty))
      ∧ (s.ciu[n].link = .off → exec (.camPowerOff h n) s = .next (s.respond h.port 0x11 .ok .empty))
      ∧ (s.ciu[n].link ≠ .off → ∃ t, exec (.camPowerOff h n) s = .next t ∧ t.ciu[n].link = .off
          ∧ t.ciu[n].reception = .noFrame ∧ t.dram = s.dram ∧ t.cp.gen = s.cp.gen ∧ t.cp.faults = s.cp.faults
          ∧ (∀ m : Fin 4, m ≠ n → t.ciu[m] = s.ciu[m] ∧ t.fsc.camRing[m] = s.fsc.camRing[m])
          ∧ (s.ciu[n].reception = .noFrame ∨ s.ciu[n].reception = .discarding →
              t = (({ s with ciu := s.ciu.set n { s.ciu[n] with link := .off, reception := .noFrame } }).notify .camState n
                (256 * s.ciu[n].link.code)).respond h.port 0x11 .ok .empty)
          ∧ ∀ (k : Nat) (r : CamRing) (c : CamSlot) (q st : Word32) (l : Count) (pend : Option Damage),
              s.ciu[n].reception = .receiving k pend → s.fsc.camRing[n] = some r → r.slots[k]? = some c →
              c.st = .filling q st l →
              t.ciu[n].counts = { s.ciu[n].counts with damaged := bump s.ciu[n].counts.damaged }
                ∧ (∃ r', t.fsc.camRing[n] = some r' ∧ r'.next = r.next
                  ∧ r'.slots[k]? = some { c with st := .damaged q st l (pend.getD .power) }
                  ∧ ∀ j, j ≠ k → r'.slots[j]? = r.slots[j]?)
                ∧ t = (({ s with
                    ciu := s.ciu.set n { s.ciu[n] with
                      link := .off, reception := .noFrame
                      counts := { s.ciu[n].counts with damaged := bump s.ciu[n].counts.damaged } }
                    fsc := { s.fsc with camRing := s.fsc.camRing.set n (some { r with
                      slots := r.slots.modify k fun x => { x with st := .damaged q st l (pend.getD .power) } }) }
                  }).notify .camState n (256 * s.ciu[n].link.code)).respond h.port 0x11 .ok .empty)

/-- How the link state moves: the lock indication follows the link in every state, and a loss of lock takes STREAMING and
STALLED to SEEKING with the seek timer started and the seek-notice flag cleared (R6, R8, R10). At their deadlines the settle
timer brings SEEKING, the seek timer one SEEK_TIMEOUT and no restart, the frame timeout STALLED with the frame being
received left open (R7, R9, R11). A feed fault in a powered state takes the camera to FAULTED, which switches its feed off,
counts it, latches FEED_FAULT and sends CAM_STATE (R5, R180). A frame being received is closed early by a loss of lock with
cause LINK_LOST and by a feed fault with cause POWER, unless a cause is pending; one being discarded is given up (R10, R16). -/
def Obligations.LinkStateMoves : Prop :=
  ∀ (s : State) (n : Fin 4),
    exec (.linkLock n) s = .next { s with ciu := s.ciu.set n { s.ciu[n] with locked := true } }
      ∧ ((∀ d, s.ciu[n].link ≠ .streaming d) → s.ciu[n].link ≠ .stalled →
          exec (.lossOfLock n) s = .next { s with ciu := s.ciu.set n { s.ciu[n] with locked := false } })
      ∧ (∀ d, s.ciu[n].link = .streaming d ∨ s.ciu[n].link = .stalled →
          (s.ciu[n].reception = .noFrame ∨ s.ciu[n].reception = .discarding →
            exec (.lossOfLock n) s
              = .next (({ s with ciu := s.ciu.set n { s.ciu[n] with
                    locked := false, seekNoticed := false, reception := .noFrame
                    link := .seeking (some (s.tbu.now + BitVec.ofNat 32 (s.ciu[n].setup.seek * 1000))) } }).notify .camState n
                  (2 + 256 * s.ciu[n].link.code)))
          ∧ ∀ (k : Nat) (pend : Option Damage) (r : CamRing) (c : CamSlot) (q st : Word32) (l : Count),
            s.ciu[n].reception = .receiving k pend → s.fsc.camRing[n] = some r → r.slots[k]? = some c →
            c.st = .filling q st l →
            exec (.lossOfLock n) s
              = .next (({ s with
                  ciu := s.ciu.set n { s.ciu[n] with
                    locked := false, seekNoticed := false, reception := .noFrame
                    link := .seeking (some (s.tbu.now + BitVec.ofNat 32 (s.ciu[n].setup.seek * 1000)))
                    counts := { s.ciu[n].counts with damaged := bump s.ciu[n].counts.damaged } }
                  fsc := { s.fsc with camRing := s.fsc.camRing.set n (some { r with
                    slots := r.slots.modify k fun x => { x with st := .damaged q st l (pend.getD .linkLost) } }) }
                }).notify .camState n (2 + 256 * s.ciu[n].link.code)))
      ∧ (s.ciu[n].link = .settling s.tbu.now →
        exec (.settleTimerExpiry n) s
          = .next (({ s with ciu := s.ciu.set n { s.ciu[n] with
                seekNoticed := false
                link := .seeking (some (s.tbu.now + BitVec.ofNat 32 (s.ciu[n].setup.seek * 1000))) } }).notify .camState n
              (2 + 256 * 1)))
      ∧ (s.ciu[n].link = .seeking (some s.tbu.now) → s.ciu[n].seekNoticed = false →
        exec (.seekTimerExpiry n) s
          = .next (({ s with ciu := s.ciu.set n { s.ciu[n] with link := .seeking none, seekNoticed := true } }).notify
              .seekTimeout n s.ciu[n].setup.seek))
      ∧ (s.ciu[n].link = .streaming s.tbu.now →
        exec (.frameTimeoutExpiry n) s
          = .next (({ s with ciu := s.ciu.set n { s.ciu[n] with link := .stalled } }).notify .camState n (4 + 256 * 3)))
      ∧ (s.ciu[n].link.feed = false → exec (.feedFault n) s = .next s)
      ∧ (s.ciu[n].link.feed = true →
          (s.ciu[n].reception = .noFrame ∨ s.ciu[n].reception = .discarding →
            ∃ t, exec (.feedFault n) s = .next t
              ∧ t = (({ s with
                  ciu := s.ciu.set n { s.ciu[n] with
                    link := .faulted, reception := .noFrame
                    counts := { s.ciu[n].counts with faults := bump s.ciu[n].counts.faults } }
                  cp := { s.cp with faults := s.cp.faults ||| 1 } }).notify .camState n (5 + 256 * s.ciu[n].link.code))
              ∧ t.ciu[n].link.feed = false)
          ∧ ∀ (k : Nat) (pend : Option Damage) (r : CamRing) (c : CamSlot) (q st : Word32) (l : Count),
            s.ciu[n].reception = .receiving k pend → s.fsc.camRing[n] = some r → r.slots[k]? = some c →
            c.st = .filling q st l →
            exec (.feedFault n) s
              = .next (({ s with
                  ciu := s.ciu.set n { s.ciu[n] with
                    link := .faulted, reception := .noFrame
                    counts := { s.ciu[n].counts with
                      damaged := bump s.ciu[n].counts.damaged, faults := bump s.ciu[n].counts.faults } }
                  fsc := { s.fsc with camRing := s.fsc.camRing.set n (some { r with
                    slots := r.slots.modify k fun x => { x with st := .damaged q st l (pend.getD .power) } }) }
                  cp := { s.cp with faults := s.cp.faults ||| 1 } }).notify .camState n (5 + 256 * s.ciu[n].link.code)))

/-- A frame start in STREAMING with no frame open restarts the frame timeout, is captured by the timebase, and, where the ring
has a fill target, takes that slot with the ring's next sequence number and the present count; where it has none the frame
is dropped and DROP latched, with nothing else changed at the ports; with no area joined it is an unjoined frame, and the
first one sends CAM_UNJOINED with the count (R9, R12, R17, R18, R30, R31, R50). A frame still open is closed first, a
received one with cause SHORT unless a cause is pending (R12, R16); in SEEKING and STALLED the link first becomes STREAMING
with its frame timeout started and CAM_STATE sent (R8, R9, R11); in the other states a frame start is no link traffic and
changes nothing (R6). -/
def Obligations.FrameStartOpensAFrame : Prop :=
  (∀ (s : State) (n : Fin 4) (d : Word32), s.ciu[n].link = .streaming d → s.ciu[n].reception = .noFrame →
    ∃ t, exec (.frameStart n) s = .next t
      ∧ t.ciu[n].link = .streaming (s.tbu.now + BitVec.ofNat 32 (s.ciu[n].setup.timeout * 1000))
      ∧ t.tbu.cams[n].lastCapture = some s.tbu.now
      ∧ (∀ c, s.tbu.cams[n].lastCapture = some c → t.tbu.cams[n].interval = some (s.tbu.now - c))
      ∧ (s.tbu.cams[n].lastCapture = none → t.tbu.cams[n].interval = s.tbu.cams[n].interval)
      ∧ t.dram = s.dram ∧ t.si = s.si ∧ t.ou = s.ou ∧ t.ca = s.ca ∧ t.ce = s.ce ∧ t.su = s.su ∧ t.bu = s.bu ∧ t.cp.gen = s.cp.gen
      ∧ (∀ m : Fin 4, m ≠ n → t.ciu[m] = s.ciu[m] ∧ t.fsc.camRing[m] = s.fsc.camRing[m] ∧ t.tbu.cams[m] = s.tbu.cams[m])
      ∧ (∀ (r : CamRing) (k : Nat) (b : Bool), s.fsc.camRing[n] = some r → r.fillTarget = some (k, b) →
          t.ciu[n].reception = .receiving k none ∧ t.ciu[n].counts = s.ciu[n].counts ∧ t.cp = s.cp
            ∧ t.fsc.camRing[n] = some
              { area := r.area, next := r.next + 1, replaced := if b then bump r.replaced else r.replaced
                slots := r.slots.modify k fun c => { c with st := .filling r.next s.tbu.now 0 } })
      ∧ (∀ r : CamRing, s.fsc.camRing[n] = some r → r.fillTarget = none →
          t.ciu[n].reception = .discarding
            ∧ t.ciu[n].counts = { s.ciu[n].counts with dropped := bump s.ciu[n].counts.dropped }
            ∧ t.cp = { s.cp with faults := s.cp.faults ||| 8 } ∧ t.fsc.camRing[n] = some { r with next := r.next + 1 })
      ∧ (s.fsc.camRing[n] = none →
          t.ciu[n].reception = .discarding ∧ t.ciu[n].unjoinedNoticed = true ∧ t.fsc = s.fsc
            ∧ t.ciu[n].counts = { s.ciu[n].counts with unjoined := bump s.ciu[n].counts.unjoined }
            ∧ (s.ciu[n].unjoinedNoticed = true → t.cp = s.cp)
            ∧ (s.ciu[n].unjoinedNoticed = false →
                t.cp = (s.notify .camUnjoined n (bump s.ciu[n].counts.unjoined).toNat).cp)))
    ∧ ∀ (s : State) (n : Fin 4),
      (s.ciu[n].link = .off ∨ s.ciu[n].link = .faulted ∨ (∃ d, s.ciu[n].link = .settling d) →
          exec (.frameStart n) s = .next s)
        ∧ ((∃ d, s.ciu[n].link = .seeking d) ∨ s.ciu[n].link = .stalled →
          exec (.frameStart n) s
            = exec (.frameStart n) (({ s with ciu := s.ciu.set n { s.ciu[n] with
                link := .streaming (s.tbu.now + BitVec.ofNat 32 (s.ciu[n].setup.timeout * 1000)) } }).notify .camState n
              (3 + 256 * s.ciu[n].link.code)))
        ∧ ∀ d, s.ciu[n].link = .streaming d →
          (s.ciu[n].reception = .discarding →
            exec (.frameStart n) s
              = exec (.frameStart n) { s with ciu := s.ciu.set n { s.ciu[n] with reception := .noFrame } })
          ∧ ∀ (k : Nat) (pend : Option Damage) (r : CamRing) (c : CamSlot) (q st : Word32) (l : Count),
            s.ciu[n].reception = .receiving k pend → s.fsc.camRing[n] = some r → r.slots[k]? = some c →
            c.st = .filling q st l →
            exec (.frameStart n) s
              = exec (.frameStart n) { s with
                  ciu := s.ciu.set n { s.ciu[n] with
                    reception := .noFrame, counts := { s.ciu[n].counts with damaged := bump s.ciu[n].counts.damaged } }
                  fsc := { s.fsc with camRing := s.fsc.camRing.set n (some { r with
                    slots := r.slots.modify k fun x => { x with st := .damaged q st l (pend.getD .short) } }) } }

/-- A line that arrives in RECEIVING, of index below H, is written to that row of the slot, its first W pixels at most, as Y,
U, Y, V; every other byte of DRAM reads as before; the line count goes up by one and a line of another length than W gives
the frame the pending cause LINE_LENGTH (R13, R41). A line of index H or above is counted and judged in the same way but not
written; one that arrives in NO_FRAME or DISCARDING is discarded without a count (R13). -/
def Obligations.LineWritesItsRow : Prop :=
  (∀ (s : State) (n : Fin 4) (ps : List Pair),
    (s.ciu[n].reception = .noFrame ∨ s.ciu[n].reception = .discarding → exec (.line n ps) s = .next s)
      ∧ ∀ (k : Nat) (pend : Option Damage) (r : CamRing) (c : CamSlot) (q st : Word32) (l : Count),
        s.ciu[n].link.live = true → s.ciu[n].reception = .receiving k pend → s.fsc.camRing[n] = some r →
        r.slots[k]? = some c → c.st = .filling q st l → s.ciu[n].setup.height ≤ l.toNat →
        exec (.line n ps) s
          = .next { s with
              ciu := s.ciu.set n { s.ciu[n] with
                reception := .receiving k
                  (if 2 * ps.length = s.ciu[n].setup.width then pend else some (pend.getD .lineLength)) }
              fsc := { s.fsc with camRing := s.fsc.camRing.set n (some { r with
                slots := r.slots.modify k fun x => { x with st := .filling q st (bump l) } }) } })
    ∧ ∀ (s : State) (n : Fin 4) (ps : List Pair) (k : Nat) (pend : Option Damage) (r : CamRing) (c : CamSlot) (q st : Word32)
    (l : Count) (row : Nat),
    s.ciu[n].link.live = true → s.ciu[n].reception = .receiving k pend → s.fsc.camRing[n] = some r →
    r.slots[k]? = some c → c.st = .filling q st l → l.toNat < s.ciu[n].setup.height →
    row = s.camSlotByte n r k + l.toNat * (s.ciu[n].setup.width * 2) →
    row + 4 * min ps.length (s.ciu[n].setup.width / 2) ≤ 4096 * 65536 →
    ∃ t, exec (.line n ps) s = .next t
      ∧ (∀ a, (∀ j, a ≠ row + j ∨ 4 * min ps.length (s.ciu[n].setup.width / 2) ≤ j) → t.dram.read a = s.dram.read a)
      ∧ (∀ j (p : Pair), j < s.ciu[n].setup.width / 2 → ps[j]? = some p →
          t.dram.read (row + 4 * j) = p.y0 ∧ t.dram.read (row + 4 * j + 1) = p.u
            ∧ t.dram.read (row + 4 * j + 2) = p.y1 ∧ t.dram.read (row + 4 * j + 3) = p.v)
      ∧ t.fsc.camRing[n] = some { r with slots := r.slots.modify k fun c => { c with st := .filling q st (bump l) } }
      ∧ t.ciu[n] = { s.ciu[n] with
          reception := .receiving k
            (if 2 * ps.length = s.ciu[n].setup.width then pend else some (pend.getD .lineLength)) }
      ∧ t.tbu = s.tbu ∧ t.si = s.si ∧ t.ou = s.ou ∧ t.ca = s.ca ∧ t.ce = s.ce ∧ t.su = s.su ∧ t.bu = s.bu ∧ t.cp = s.cp
      ∧ ∀ m : Fin 4, m ≠ n → t.ciu[m] = s.ciu[m] ∧ t.fsc.camRing[m] = s.fsc.camRing[m]

/-- A frame end in RECEIVING makes the slot READY when H lines came and no cause is pending, and otherwise DAMAGED with the
pending cause, SHORT or LONG; in NO_FRAME it is a stray end (R15, R16). -/
def Obligations.FrameEndClosesTheFrame : Prop :=
  ∀ (s : State) (n : Fin 4), s.ciu[n].link.live = true →
    (s.ciu[n].reception = .noFrame →
        exec (.frameEnd n) s = .next { s with ciu := s.ciu.set n { s.ciu[n] with
          counts := { s.ciu[n].counts with stray := bump s.ciu[n].counts.stray } } })
      ∧ (s.ciu[n].reception = .discarding →
        exec (.frameEnd n) s = .next { s with ciu := s.ciu.set n { s.ciu[n] with reception := .noFrame } })
      ∧ ∀ (k : Nat) (pend : Option Damage) (r : CamRing) (c : CamSlot) (q st : Word32) (l : Count),
        s.ciu[n].reception = .receiving k pend → s.fsc.camRing[n] = some r → r.slots[k]? = some c → c.st = .filling q st l →
        ∃ t, exec (.frameEnd n) s = .next t ∧ t.dram = s.dram ∧ t.tbu = s.tbu ∧ t.cp = s.cp ∧ t.ce = s.ce
          ∧ t.ciu[n].reception = .noFrame ∧ t.ciu[n].link = s.ciu[n].link ∧ t.ciu[n].setup = s.ciu[n].setup
          ∧ (∀ m : Fin 4, m ≠ n → t.ciu[m] = s.ciu[m] ∧ t.fsc.camRing[m] = s.fsc.camRing[m])
          ∧ (pend = none → l.toNat = s.ciu[n].setup.height →
              t.ciu[n].counts = { s.ciu[n].counts with good := bump s.ciu[n].counts.good }
                ∧ t.fsc.camRing[n] = some { r with slots := r.slots.modify k fun c => { c with st := .ready q st l } })
          ∧ (pend ≠ none ∨ l.toNat ≠ s.ciu[n].setup.height →
              t.ciu[n].counts = { s.ciu[n].counts with damaged := bump s.ciu[n].counts.damaged }
                ∧ t.fsc.camRing[n] = some { r with slots := r.slots.modify k fun c => { c with
                    st := .damaged q st l (pend.getD (if l.toNat < s.ciu[n].setup.height then .short else .long)) } })

/-! ### Frame store -/

/-- AREA_DEFINE gives an UNDEFINED or DEFINED entry a range within DRAM that shares no unit with another entry, or releases
it; an index or a range out of bounds is refused with BAD_ARG, an overlap with OVERLAP, and in both forms a CLEARING entry with
BUSY and a CLEAN or JOINED one with WRONG_STATE (R22). -/
def Obligations.AreaDefineJudges : Prop :=
  ∀ (s : State) (h : Hdr) (a : Fin 8) (b l : Nat), soundRecord h → passesGuard s h →
    (4095 < b ∨ l < 1 ∨ 4096 < l ∨ l ≤ b →
        exec (.areaDefine h a (.range b l)) s = .next (s.respond h.port 0x20 .badArg .empty))
      ∧ (b ≤ 4095 → 1 ≤ l → l ≤ 4096 → b < l →
          (∀ b' l', s.fsc.areas[a] = .range b' l' .clearing →
            exec (.areaDefine h a (.range b l)) s = .next (s.respond h.port 0x20 .busy .empty))
          ∧ (∀ b' l' t, s.fsc.areas[a] = .range b' l' (.joined t) ∨ s.fsc.areas[a] = .range b' l' .clean →
            exec (.areaDefine h a (.range b l)) s = .next (s.respond h.port 0x20 .wrongState .empty))
          ∧ ((s.fsc.areas[a] = .undefined ∨ ∃ b' l', s.fsc.areas[a] = .range b' l' .defined) →
            ((∃ (i : Fin 8) (b' l' : Nat) (p : AreaPhase), i ≠ a ∧ s.fsc.areas[i] = .range b' l' p ∧ b < l' ∧ b' < l) →
              exec (.areaDefine h a (.range b l)) s = .next (s.respond h.port 0x20 .overlap .empty))
            ∧ ((∀ (i : Fin 8) (b' l' : Nat) (p : AreaPhase), i ≠ a → s.fsc.areas[i] = .range b' l' p → l' ≤ b ∨ l ≤ b') →
              exec (.areaDefine h a (.range b l)) s
                = .next (({ s with fsc := { s.fsc with areas := s.fsc.areas.set a (.range b l .defined) } }).advanceGen.respond
                    h.port 0x20 .ok .empty))))
      ∧ ((s.fsc.areas[a] = .undefined ∨ ∃ b' l', s.fsc.areas[a] = .range b' l' .defined) →
          exec (.areaDefine h a .release) s
            = .next (({ s with fsc := { s.fsc with areas := s.fsc.areas.set a .undefined } }).advanceGen.respond h.port 0x20
                .ok .empty))
      ∧ (∀ (n : Nat) (form : AreaForm), 7 < n → exec (.areaDefine h n form) s = .next (s.respond h.port 0x20 .badArg .empty))
      ∧ (∀ b' l', s.fsc.areas[a] = .range b' l' .clearing →
          exec (.areaDefine h a .release) s = .next (s.respond h.port 0x20 .busy .empty))
      ∧ ∀ b' l' t, s.fsc.areas[a] = .range b' l' (.joined t) ∨ s.fsc.areas[a] = .range b' l' .clean →
          exec (.areaDefine h a .release) s = .next (s.respond h.port 0x20 .wrongState .empty)

/-- AREA_CLEAR starts the clear of a DEFINED or CLEAN area with ACCEPTED; its completion writes zero to every byte of the
range and to no other byte, makes the entry CLEAN and sends AREA_CLEARED with the size in units (R23, R24; that the bytes
change at the completion is log entry 4). -/
def Obligations.AreaClearWritesZero : Prop :=
  ∀ (s : State) (a : Fin 8) (b l : Nat),
    (∀ h : Hdr, soundRecord h → passesGuard s h →
        s.fsc.areas[a] = .range b l .defined ∨ s.fsc.areas[a] = .range b l .clean →
        exec (.areaClear h a) s
          = .next (({ s with fsc := { s.fsc with areas := s.fsc.areas.set a (.range b l .clearing) } }).advanceGen.respond
              h.port 0x21 .accepted .empty))
      ∧ (s.fsc.areas[a] = .range b l .clearing → b < l → l ≤ 4096 →
        ∃ t, exec (.areaClearCompletion a) s = .next t
          ∧ (∀ x, b * 65536 ≤ x → x < l * 65536 → t.dram.read x = 0)
          ∧ (∀ x, x < b * 65536 ∨ l * 65536 ≤ x → t.dram.read x = s.dram.read x)
          ∧ { t with dram := s.dram }
            = ({ s with fsc := { s.fsc with areas := s.fsc.areas.set a (.range b l .clean) } }).notify .areaCleared a (l - b))

/-- AREA_JOIN of a CLEAN area to a camera that has none makes a ring of up to four FREE slots of the camera's stride, with the
next sequence and the replaced counter 0, or is refused with AREA_TOO_SMALL below two slots; the output ring needs three
slots of 29 units; for OVERLAY the area is joined whole and no ring is made. An area in another state, a target that has an
area already, and an operand out of range are refused (R25). -/
def Obligations.AreaJoinMakesTheRing : Prop :=
  ∀ (s : State) (h : Hdr), soundRecord h → passesGuard s h →
    (∀ t : Target,
        (∀ k : Nat, 7 < k → exec (.areaJoin h k (some t)) s = .next (s.respond h.port 0x22 .badArg .empty))
        ∧ ∀ a : Fin 8, exec (.areaJoin h a none) s = .next (s.respond h.port 0x22 .badArg .empty)
          ∧ ((∃ b l, s.fsc.areas[a] = .range b l .clearing) →
            exec (.areaJoin h a (some t)) s = .next (s.respond h.port 0x22 .busy .empty))
          ∧ ((s.fsc.areas[a] = .undefined ∨ (∃ b l, s.fsc.areas[a] = .range b l .defined)
              ∨ ∃ b l x, s.fsc.areas[a] = .range b l (.joined x)) →
            exec (.areaJoin h a (some t)) s = .next (s.respond h.port 0x22 .wrongState .empty)))
    ∧ ∀ (a : Fin 8) (b l : Nat), s.fsc.areas[a] = .range b l .clean →
    (∀ n : Fin 4, s.fsc.joined (.camera n) = none →
        ((l - b) / s.ciu[n].setup.stride < 2 →
          exec (.areaJoin h a (some (.camera n))) s = .next (s.respond h.port 0x22 .areaTooSmall .empty))
        ∧ (2 ≤ (l - b) / s.ciu[n].setup.stride →
          exec (.areaJoin h a (some (.camera n))) s
            = .next (({ s with
                ciu := s.ciu.set n { s.ciu[n] with unjoinedNoticed := false }
                tbu := { s.tbu with cams := s.tbu.cams.set n { s.tbu.cams[n] with expired := none } }
                fsc := { s.fsc with
                  areas := s.fsc.areas.set a (.range b l (.joined (.camera n)))
                  camRing := s.fsc.camRing.set n (some (CamRing.mk a 0 0
                    (List.replicate (min 4 ((l - b) / s.ciu[n].setup.stride)) .empty))) } }).advanceGen.respond
                h.port 0x22 .ok .empty)))
      ∧ (s.fsc.joined .output = none →
          ((l - b) / 29 < 3 → exec (.areaJoin h a (some .output)) s = .next (s.respond h.port 0x22 .areaTooSmall .empty))
          ∧ (3 ≤ (l - b) / 29 →
            exec (.areaJoin h a (some .output)) s
              = .next (({ s with fsc := { s.fsc with
                  areas := s.fsc.areas.set a (.range b l (.joined .output))
                  outRing := some { area := a, next := 0, slots := List.replicate (min 4 ((l - b) / 29)) .empty } } }
                ).advanceGen.respond h.port 0x22 .ok .empty)))
      ∧ (s.fsc.joined .overlay = none → b < l →
          exec (.areaJoin h a (some .overlay)) s
            = .next (({ s with fsc := { s.fsc with
                areas := s.fsc.areas.set a (.range b l (.joined .overlay)) } }).advanceGen.respond h.port 0x22 .ok .empty))
      ∧ (∀ t : Target, (s.fsc.joined t).isSome = true →
          exec (.areaJoin h a (some t)) s = .next (s.respond h.port 0x22 .inUse .empty))

/-- AREA_UNJOIN of a camera's area needs the camera OFF and no pin or hold in the ring, that of the output area the scanout
OFF, no compose and no hold, that of the overlay area no compose; then the area is DEFINED and its ring is discarded, and
else the command is refused with IN_USE (R27). -/
def Obligations.AreaUnjoinNeedsAnIdleUser : Prop :=
  ∀ (s : State) (h : Hdr) (a : Fin 8) (b l : Nat), soundRecord h → passesGuard s h →
    (∀ (n : Fin 4) (r : CamRing), s.fsc.areas[a] = .range b l (.joined (.camera n)) → s.fsc.camRing[n] = some r →
        ((s.ciu[n].link ≠ .off ∨ ∃ c ∈ r.slots, c.pin = true ∨ c.holdD.isSome = true ∨ c.holdA.isSome = true) →
          exec (.areaUnjoin h a) s = .next (s.respond h.port 0x23 .inUse .empty))
        ∧ (s.ciu[n].link = .off → (∀ c ∈ r.slots, c.pin = false ∧ c.holdD = none ∧ c.holdA = none) →
          exec (.areaUnjoin h a) s
            = .next (({ s with
                ciu := s.ciu.set n { s.ciu[n] with unjoinedNoticed := false }
                tbu := { s.tbu with cams := s.tbu.cams.set n { s.tbu.cams[n] with expired := none } }
                fsc := { s.fsc with
                  areas := s.fsc.areas.set a (.range b l .defined), camRing := s.fsc.camRing.set n none } }).advanceGen.respond
                h.port 0x23 .ok .empty)))
      ∧ (s.fsc.areas[a] = .range b l (.joined .overlay) →
        (s.ce.current.isSome = true → exec (.areaUnjoin h a) s = .next (s.respond h.port 0x23 .inUse .empty))
        ∧ (s.ce.current = none →
          exec (.areaUnjoin h a) s
            = .next (({ s with fsc := { s.fsc with areas := s.fsc.areas.set a (.range b l .defined) } }).advanceGen.respond
                h.port 0x23 .ok .empty)))
      ∧ (s.fsc.areas[a] = .range b l (.joined .output) → (s.su.timer.isSome = true ∨ s.ce.current.isSome = true) →
          exec (.areaUnjoin h a) s = .next (s.respond h.port 0x23 .inUse .empty))
      ∧ ∀ r : OutRing, s.fsc.areas[a] = .range b l (.joined .output) → s.fsc.outRing = some r →
        ((∃ c ∈ r.slots, c.holdD.isSome = true ∨ c.holdA.isSome = true) →
          exec (.areaUnjoin h a) s = .next (s.respond h.port 0x23 .inUse .empty))
        ∧ (s.su.timer = none → s.ce.current = none → (∀ c ∈ r.slots, c.holdD = none ∧ c.holdA = none) →
          exec (.areaUnjoin h a) s
            = .next (({ s with fsc := { s.fsc with
                areas := s.fsc.areas.set a (.range b l .defined), outRing := none } }).advanceGen.respond h.port 0x23 .ok
                .empty))

/-- AREA_WRITE stores its bytes from the argument word's offset into the area JOINED to OVERLAY; every other byte of DRAM
reads as before, and beside the overlay bytes kept for a compose in flight nothing but the response and the generation
changes (R40; the bytes kept are the model's own field of log entry 6). -/
def Obligations.AreaWriteStores : Prop :=
  ∀ (s : State) (h : Hdr) (bs : List Byte) (a : Fin 8) (b l first : Nat),
    h.len.toNat = bs.length → h.got = 10 + bs.length → 1 ≤ bs.length → bs.length ≤ 240 → passesGuard s h →
    s.fsc.joined .overlay = some a → s.fsc.areas[a] = .range b l (.joined .overlay) → b < l → l ≤ 4096 →
    h.arg.toNat + bs.length ≤ (l - b) * 65536 → first = b * 65536 + h.arg.toNat →
    ∃ t, exec (.areaWrite h bs) s = .next t
      ∧ (∀ i, i < bs.length → t.dram.read (first + i) = bs.getD i 0)
      ∧ (∀ x, x < first ∨ first + bs.length ≤ x → t.dram.read x = s.dram.read x)
      ∧ { t with dram := s.dram, ce := s.ce } = s.advanceGen.respond h.port 0x25 .ok .empty
      ∧ (s.ce.current = none → t.ce = s.ce)
      ∧ ∀ c, s.ce.current = some c →
          t.ce = { s.ce with current := some { c with
            replacedBytes := ((List.range bs.length).map fun i => (first + i, s.dram.read (first + i))) ++ c.replacedBytes } }

/-- FRAME_HOLD holds the newest READY slot of a camera ring, or the newest DONE slot of the output ring, for the port's hold
time, FRAME_RELEASE drops the port's hold, and at its deadline a hold expires with HOLD_EXPIRED to its port; a slot's state
does not change (R35, R36, R37). -/
def Obligations.HoldsOfACameraRing : Prop :=
  (∀ (s : State) (h : Hdr) (n : Fin 4) (r : CamRing) (k : Nat) (c : CamSlot), s.fsc.camRing[n] = some r → r.slots[k]? = some c →
    (∀ q st l, soundRecord h → (∀ x ∈ r.slots, x.hold h.port = none) → r.newestReady = some k → c.st = .ready q st l →
        exec (.frameHold h (some (.camera n))) s
          = .next (({ s with fsc := { s.fsc with camRing := s.fsc.camRing.set n (some { r with
              slots := r.slots.modify k fun x =>
                x.setHold h.port (some (s.tbu.now + BitVec.ofNat 32 ((s.port h.port).holdTime * 1000))) }) } }).respond h.port
            0x26 .ok
            (.held (.camera n) k (s.ciu[n].setup.width * s.ciu[n].setup.height * 2)
              (.camera q st s.ciu[n].setup.width s.ciu[n].setup.height))))
      ∧ (soundRecord h → (c.hold h.port).isSome = true → (∀ j x, j < k → r.slots[j]? = some x → x.hold h.port = none) →
        exec (.frameHold h (some (.camera n))) s = .next (s.respond h.port 0x26 .wrongState .empty)
          ∧ exec (.frameRelease h (some (.camera n))) s
            = .next (({ s with fsc := { s.fsc with camRing := s.fsc.camRing.set n (some { r with
                slots := r.slots.modify k fun x => x.setHold h.port none }) } }).respond h.port 0x27 .ok .empty))
      ∧ (soundRecord h → (∀ x ∈ r.slots, x.hold h.port = none) →
        exec (.frameRelease h (some (.camera n))) s = .next (s.respond h.port 0x27 .notFound .empty))
      ∧ (∀ p, c.hold p = some s.tbu.now → (∀ j x, j < k → r.slots[j]? = some x → x.hold p ≠ some s.tbu.now) →
        exec (.holdExpiry p (.camera n)) s
          = .next (({ s with fsc := { s.fsc with camRing := s.fsc.camRing.set n (some { r with
              slots := r.slots.modify k fun x => x.setHold p none }) } }).notifyOwner p .holdExpired n c.st.seq.toNat)))
    ∧ ∀ (s : State) (h : Hdr),
      (soundRecord h → s.fsc.outRing = none →
        exec (.frameHold h (some .output)) s = .next (s.respond h.port 0x26 .notFound .empty))
      ∧ ∀ (r : OutRing), s.fsc.outRing = some r →
        (soundRecord h → (∀ x ∈ r.slots, x.hold h.port = none) →
          exec (.frameRelease h (some .output)) s = .next (s.respond h.port 0x27 .notFound .empty)
            ∧ (r.newestDone = none →
              exec (.frameHold h (some .output)) s = .next (s.respond h.port 0x26 .notFound .empty)))
        ∧ ∀ (k : Nat) (c : OutSlot), r.slots[k]? = some c →
          (∀ f, soundRecord h → (∀ x ∈ r.slots, x.hold h.port = none) → r.newestDone = some k → c.st = .finished f →
            exec (.frameHold h (some .output)) s
              = .next (({ s with fsc := { s.fsc with outRing := some { r with
                  slots := r.slots.modify k fun x =>
                    x.setHold h.port (some (s.tbu.now + BitVec.ofNat 32 ((s.port h.port).holdTime * 1000))) } } }).respond h.port
                0x26 .ok (.held .output k 1843200 (.output f))))
          ∧ (soundRecord h → (c.hold h.port).isSome = true → (∀ j x, j < k → r.slots[j]? = some x → x.hold h.port = none) →
            exec (.frameHold h (some .output)) s = .next (s.respond h.port 0x26 .wrongState .empty)
              ∧ exec (.frameRelease h (some .output)) s
                = .next (({ s with fsc := { s.fsc with outRing := some { r with
                    slots := r.slots.modify k fun x => x.setHold h.port none } } }).respond h.port 0x27 .ok .empty))
          ∧ ∀ p f, c.st = .finished f → c.hold p = some s.tbu.now →
            (∀ j x, j < k → r.slots[j]? = some x → x.hold p ≠ some s.tbu.now) →
            exec (.holdExpiry p .output) s
              = .next (({ s with fsc := { s.fsc with outRing := some { r with
                  slots := r.slots.modify k fun x => x.setHold p none } } }).notifyOwner p .holdExpired 4 f.seq.toNat)

/-- FRAME_READ returns the bytes of the frame that the issuing port holds, from the argument word's offset, and changes
nothing; past the frame, with a length outside 1 to 240 or no ring it is refused with BAD_ARG, and with no hold with NOT_FOUND
(R38). The frame is that of the slot which the port holds: k strides from the ring's area, W × H × 2 bytes of a camera frame or
1,843,200 of an output frame (R1, R26, R35). -/
def Obligations.FrameReadReturnsBytes : Prop :=
  (∀ (s : State) (p : Port),
    (∀ n : Fin 4, s.fsc.camRing[n] = none → s.heldFrame p (.camera n) = none)
      ∧ (∀ (n : Fin 4) (r : CamRing), s.fsc.camRing[n] = some r →
        ((∀ c ∈ r.slots, c.hold p = none) → s.heldFrame p (.camera n) = none)
        ∧ ∀ (k : Nat) (c : CamSlot) (b l w v : Nat) (ph : AreaPhase), s.fsc.areas[r.area] = .range b l ph →
          w = s.ciu[n].setup.width → v = s.ciu[n].setup.height →
          r.slots[k]? = some c → (c.hold p).isSome = true → (∀ j x, j < k → r.slots[j]? = some x → x.hold p = none) →
          s.heldFrame p (.camera n) = some ((b + k * ((w * v * 2 + 65535) / 65536)) * 65536, w * v * 2))
      ∧ (s.fsc.outRing = none → s.heldFrame p .output = none)
      ∧ ∀ r : OutRing, s.fsc.outRing = some r →
        ((∀ c ∈ r.slots, c.hold p = none) → s.heldFrame p .output = none)
        ∧ ∀ (k : Nat) (c : OutSlot) (b l : Nat) (ph : AreaPhase), s.fsc.areas[r.area] = .range b l ph →
          r.slots[k]? = some c → (c.hold p).isSome = true → (∀ j x, j < k → r.slots[j]? = some x → x.hold p = none) →
          s.heldFrame p .output = some ((b + k * 29) * 65536, 1843200))
    ∧ (∀ (s : State) (h : Hdr) (ring : Option Ring) (len : Nat), soundRecord h → ring = none ∨ len < 1 ∨ 240 < len →
      exec (.frameRead h ring len) s = .next (s.respond h.port 0x28 .badArg .empty))
    ∧ ∀ (s : State) (h : Hdr) (ring : Ring) (len a size : Nat), soundRecord h → 1 ≤ len → len ≤ 240 →
    (s.heldFrame h.port ring = none →
        exec (.frameRead h (some ring) len) s = .next (s.respond h.port 0x28 .notFound .empty))
      ∧ (s.heldFrame h.port ring = some (a, size) → size < h.arg.toNat + len →
        exec (.frameRead h (some ring) len) s = .next (s.respond h.port 0x28 .badArg .empty))
      ∧ (s.heldFrame h.port ring = some (a, size) → h.arg.toNat + len ≤ size → a + size ≤ 4096 * 65536 →
        exec (.frameRead h (some ring) len) s
          = .next (s.respond h.port 0x28 .ok
              (.bytes ((List.range len).map fun i => s.dram.read (a + h.arg.toNat + i)))))

/-- The fill target (R31): the FREE or DAMAGED slot of lowest index that nothing pins or holds; else the oldest of the READY
slots that nothing pins or holds, and then a frame is replaced; else none. The compose target (R33): the FREE slot of lowest
index; else the oldest DONE slot that nothing holds and that is not the newest DONE slot; else none. The newest READY or DONE
slot is the one whose sequence lies nearest below the ring's next sequence number, modulo 2^32 (R30). -/
def Obligations.TargetsAreNeverHeld : Prop :=
  (∀ r : CamRing,
      (∀ k, r.fillTarget = some (k, false) →
          ∃ c, r.slots[k]? = some c ∧ c.st.reusable = true ∧ c.loose = true
            ∧ ∀ j c', j < k → r.slots[j]? = some c' → c'.st.reusable = true → c'.loose = false)
        ∧ (∀ k, r.fillTarget = some (k, true) →
          ∃ c q t l, r.slots[k]? = some c ∧ c.st = .ready q t l ∧ c.loose = true
            ∧ (∀ c' ∈ r.slots, c'.st.reusable = true → c'.loose = false)
            ∧ ∀ c' ∈ r.slots, ∀ q' t' l', c'.st = .ready q' t' l' → c'.loose = true →
                (r.next - q').toNat ≤ (r.next - q).toNat)
        ∧ (r.fillTarget = none ↔ ∀ c ∈ r.slots, c.loose = true → ∃ q t l, c.st = .filling q t l)
        ∧ (∀ k, r.newestReady = some k →
          ∃ c q t l, r.slots[k]? = some c ∧ c.st = .ready q t l
            ∧ ∀ c' ∈ r.slots, ∀ q' t' l', c'.st = .ready q' t' l' → (r.next - q).toNat ≤ (r.next - q').toNat)
        ∧ (r.newestReady = none ↔ ∀ c ∈ r.slots, ∀ q t l, c.st ≠ .ready q t l))
    ∧ (∀ r : OutRing,
      (∀ k, r.newestDone = some k →
          ∃ c f, r.slots[k]? = some c ∧ c.st = .finished f
            ∧ ∀ c' ∈ r.slots, ∀ f', c'.st = .finished f' → (r.next - f.seq).toNat ≤ (r.next - f'.seq).toNat)
        ∧ (r.newestDone = none ↔ ∀ c ∈ r.slots, ∀ f, c.st ≠ .finished f)
        ∧ ∀ held : Option Nat, r.composeTarget held = none →
          (∀ c ∈ r.slots, c.st ≠ .free)
            ∧ ∀ (j : Nat) (c : OutSlot) (f : OutFrame), r.slots[j]? = some c → c.st = .finished f →
              c.unheld = false ∨ held = some j ∨ r.newestDone = some j)
    ∧ ∀ (r : OutRing) (held : Option Nat) (k : Nat), r.composeTarget held = some k →
        ∃ c, r.slots[k]? = some c
          ∧ (c.st = .free ∧ (∀ j c', j < k → r.slots[j]? = some c' → c'.st ≠ .free)
            ∨ (∀ c' ∈ r.slots, c'.st ≠ .free) ∧ (∃ f, c.st = .finished f) ∧ c.unheld = true ∧ held ≠ some k
              ∧ r.newestDone ≠ some k
              ∧ ∀ (j : Nat) (c' : OutSlot), r.slots[j]? = some c' → c'.unheld = true → held ≠ some j → r.newestDone ≠ some j →
                  ∀ f f', c.st = .finished f → c'.st = .finished f' → (r.next - f'.seq).toNat ≤ (r.next - f.seq).toNat)

/-! ### Timebase -/

/-- TIMING_SET clamps and stores its three values, and CAM_MASK stores a mask of up to 15 or is refused with BAD_ARG (R46,
R53); neither touches the timer that runs. -/
def Obligations.TimingAndMask : Prop :=
  ∀ (s : State) (h : Hdr), soundRecord h → passesGuard s h →
    (∀ p st sk : Nat, exec (.timingSet h p st sk) s
        = .next (({ s with tbu := { s.tbu with
              period := max 20000 (min p 100000), stale := max 10 (min st 500), skewLimit := min sk 100 } }).advanceGen.respond
            h.port 0x30
            (if 20000 ≤ p ∧ p ≤ 100000 ∧ 10 ≤ st ∧ st ≤ 500 ∧ sk ≤ 100 then .ok else .clamped) .empty))
      ∧ (∀ m : BitVec 4, exec (.camMask h m.toNat) s
        = .next (({ s with tbu := { s.tbu with mask := m } }).advanceGen.respond h.port 0x14 .ok .empty))
      ∧ (∀ m : Nat, 15 < m → exec (.camMask h m) s = .next (s.respond h.port 0x14 .badArg .empty))

/-- CAM_TRIGGER_NOW sends one pulse at once in SEEKING, STREAMING and STALLED and is refused with WRONG_STATE in the other link
states and with BAD_ARG for an index above 3; no scheduled pulse moves (R49). A scheduled pulse that falls due is sent in
the same three states and is gone either way (R48). The count of pulses is the model's own field (log entry 14). -/
def Obligations.TriggerPulses : Prop :=
  ∀ (s : State) (n : Fin 4),
    (∀ h : Hdr, soundRecord h →
        (∀ cam : Nat, 3 < cam → exec (.camTriggerNow h cam) s = .next (s.respond h.port 0x13 .badArg .empty))
        ∧ (s.ciu[n].link = .off ∨ s.ciu[n].link = .faulted ∨ (∃ d, s.ciu[n].link = .settling d) →
          exec (.camTriggerNow h n) s = .next (s.respond h.port 0x13 .wrongState .empty))
        ∧ ((∃ d, s.ciu[n].link = .seeking d) ∨ (∃ d, s.ciu[n].link = .streaming d) ∨ s.ciu[n].link = .stalled →
          exec (.camTriggerNow h n) s
            = .next (({ s with ciu := s.ciu.set n { s.ciu[n] with pulses := s.ciu[n].pulses + 1 } }).respond h.port 0x13 .ok
                .empty)))
      ∧ (s.tbu.cams[n].pulse = some s.tbu.now →
        exec (.triggerPulseDue n) s
          = .next { s with
              ciu := s.ciu.set n { s.ciu[n] with pulses := s.ciu[n].pulses + if s.ciu[n].link.live then 1 else 0 }
              tbu := { s.tbu with cams := s.tbu.cams.set n { s.tbu.cams[n] with pulse := none } } })

/-! ### Grid store and view catalogue -/

/-- GRID_OPEN of an ABSENT set takes its cells first fit from the free extents, an extent of exactly the set's size leaving the
list, and makes the issuing port its owner; with no extent long enough it is refused with NO_SPACE, and with an id, bw or bh out
of range with BAD_ARG (R61, R65). -/
def Obligations.GridOpenTakesCells : Prop :=
  (∀ (s : State) (h : Hdr) (id bw bh : Nat), soundRecord h →
    31 < id ∨ bw < 1 ∨ 80 < bw ∨ bh < 1 ∨ 45 < bh →
    exec (.gridOpen h id bw bh) s = .next (s.respond h.port 0x40 .badArg .empty))
    ∧ ∀ (s : State) (h : Hdr) (i : Fin 32) (bw bh : Nat), soundRecord h → 1 ≤ bw → bw ≤ 80 → 1 ≤ bh → bh ≤ 45 →
    (s.gs.sets[i] ≠ .absent → exec (.gridOpen h i bw bh) s = .next (s.respond h.port 0x40 .wrongState .empty))
      ∧ (s.gs.sets[i] = .absent →
        ((∀ e ∈ s.gs.free, e.len < (bw + 1) * (bh + 1) + bw * bh) →
          exec (.gridOpen h i bw bh) s = .next (s.respond h.port 0x40 .noSpace .empty))
        ∧ ∀ (l₁ l₂ : List Extent) (e : Extent), s.gs.free = l₁ ++ e :: l₂ →
          (∀ x ∈ l₁, x.len < (bw + 1) * (bh + 1) + bw * bh) →
          ((bw + 1) * (bh + 1) + bw * bh < e.len →
            exec (.gridOpen h i bw bh) s
              = .next (({ s with gs := { s.gs with
                  free := l₁ ++ Extent.mk (e.base + ((bw + 1) * (bh + 1) + bw * bh))
                    (e.len - ((bw + 1) * (bh + 1) + bw * bh)) :: l₂
                  sets := s.gs.sets.set i (.held { base := e.base, bw := bw, bh := bh } (.opened h.port 0)) } }).respond h.port
                0x40 .ok (.gridOpened e.base ((bw + 1) * (bh + 1) + bw * bh))))
          ∧ (e.len = (bw + 1) * (bh + 1) + bw * bh →
            exec (.gridOpen h i bw bh) s
              = .next (({ s with gs := { s.gs with
                  free := l₁ ++ l₂
                  sets := s.gs.sets.set i (.held { base := e.base, bw := bw, bh := bh } (.opened h.port 0)) } }).respond h.port
                0x40 .ok (.gridOpened e.base ((bw + 1) * (bh + 1) + bw * bh)))))

/-- GRID_WRITE appends its records to an OPEN set of the issuing port in grid memory, changes no other byte of it, and answers
the new write count; past the set's size it is refused with OVERFLOW (R62, R66). -/
def Obligations.GridWriteAppends : Prop :=
  ∀ (s : State) (h : Hdr) (i : Fin 32) (g : GridShape) (count m : Nat) (bs : List Byte),
    h.arg.toNat = i → h.len.toNat = bs.length → h.got = 10 + bs.length → bs.length = 16 * m → 1 ≤ m → m ≤ 15 →
    s.gs.sets[i] = .held g (.opened h.port count) →
    (g.size < count + m → exec (.gridWrite h bs) s = .next (s.respond h.port 0x41 .overflow .empty))
      ∧ (count + m ≤ g.size →
        ∃ t, exec (.gridWrite h bs) s = .next t
          ∧ (∀ j, j < bs.length → t.gs.mem.read ((g.base + count) * 16 + j) = bs.getD j 0)
          ∧ (∀ x, x < (g.base + count) * 16 ∨ (g.base + count) * 16 + bs.length ≤ x → t.gs.mem.read x = s.gs.mem.read x)
          ∧ { t with gs := { t.gs with mem := s.gs.mem } }
            = ({ s with gs := { s.gs with sets := s.gs.sets.set i (.held g (.opened h.port (count + m))) } }).respond h.port
                0x41 .ok (.gridWritten (count + m)))

/-- GRID_FINISH takes the owner's OPEN set to CHECKING with a copy of every camera's width and height, GRID_REOPEN takes its
REJECTED set back to OPEN with write count 0, both are refused with NOT_OWNER for a set that the other port owns and with
WRONG_STATE for an ABSENT or VALID set or one in another state (R67, R70). A check completes (R68, R69): a set whose write count
is short of its size is REJECTED with cause INCOMPLETE at that index; one in which no record fails becomes VALID with bind count
0; else it is REJECTED at its first failing record; its owner is told. Each record is judged by the table of R68, in a node
record both entries for BAD_CAMERA before either for COORD_RANGE, which is the model's choice of log entry 33. -/
def Obligations.GridSetsAreChecked : Prop :=
  (∀ (s : State) (h : Hdr) (i : Fin 32) (g : GridShape) (count : Nat), soundRecord h →
      (s.gs.sets[i] = .held g (.opened h.port count) →
          exec (.gridFinish h i) s
            = .next (({ s with gs := { s.gs with sets := s.gs.sets.set i (.held g (.checking h.port count
                (Vector.ofFn fun n : Fin 4 => (s.ciu[n].setup.width, s.ciu[n].setup.height)))) } }).respond h.port 0x42 .accepted
              .empty))
        ∧ (∀ k c, s.gs.sets[i] = .held g (.rejected h.port count k c) →
          exec (.gridReopen h i) s
            = .next (({ s with gs := { s.gs with sets := s.gs.sets.set i (.held g (.opened h.port 0)) } }).respond h.port 0x43 .ok
                .empty))
        ∧ (s.gs.sets[i] = .held g (.opened (other h.port) count)
            ∨ (∃ z, s.gs.sets[i] = .held g (.checking (other h.port) count z))
            ∨ (∃ k c, s.gs.sets[i] = .held g (.rejected (other h.port) count k c)) →
          exec (.gridFinish h i) s = .next (s.respond h.port 0x42 .notOwner .empty)
            ∧ exec (.gridReopen h i) s = .next (s.respond h.port 0x43 .notOwner .empty))
        ∧ (s.gs.sets[i] = .absent ∨ (∃ b u, s.gs.sets[i] = .held g (.valid b u))
            ∨ (∃ z, s.gs.sets[i] = .held g (.checking h.port count z)) →
          exec (.gridFinish h i) s = .next (s.respond h.port 0x42 .wrongState .empty)
            ∧ exec (.gridReopen h i) s = .next (s.respond h.port 0x43 .wrongState .empty))
        ∧ (s.gs.sets[i] = .held g (.opened h.port count) →
          exec (.gridReopen h i) s = .next (s.respond h.port 0x43 .wrongState .empty))
        ∧ ∀ k c, s.gs.sets[i] = .held g (.rejected h.port count k c) →
          exec (.gridFinish h i) s = .next (s.respond h.port 0x42 .wrongState .empty))
    ∧ (∀ (m : Memory) (g : GridShape) (sizes : Vector (Nat × Nat) 4) (k nodes a : Nat), RecordIsJudged m g sizes k nodes a)
    ∧ ∀ (s : State) (i : Fin 32) (g : GridShape) (p : Port) (count : Nat) (sizes : Vector (Nat × Nat) 4),
        s.gs.sets[i] = .held g (.checking p count sizes) →
        (count ≠ g.size →
            exec (.gridCheckCompletion i) s
              = .next (({ s with gs := { s.gs with sets := s.gs.sets.set i (.held g (.rejected p count count .incomplete)) }
                }).notifyOwner p .gridRejected i (65536 + count)))
          ∧ (count = g.size → (∀ k, k < g.size → checkRecord s.gs.mem g sizes k = none) →
            exec (.gridCheckCompletion i) s
              = .next (({ s with gs := { s.gs with sets := s.gs.sets.set i (.held g (.valid 0 false)) } }).notifyOwner p .gridValid
                  i g.size))
          ∧ ∀ k c, count = g.size → k < g.size → checkRecord s.gs.mem g sizes k = some c →
              (∀ j, j < k → checkRecord s.gs.mem g sizes j = none) →
              exec (.gridCheckCompletion i) s
                = .next (({ s with gs := { s.gs with sets := s.gs.sets.set i (.held g (.rejected p count k c)) }
                  }).notifyOwner p .gridRejected i (c.code * 65536 + k))

/-- GRID_DELETE frees the cells of a set: a VALID one under the guard when nothing binds it and no compose reads it, another
only for its owner and whatever the expected generation; a VALID set that is bound or in use is refused with IN_USE, one under
a generation that does not match with GEN_MISMATCH, another port's set with NOT_OWNER and an ABSENT set with WRONG_STATE
(R71). Freeing a run that meets no free extent keeps the free list ordered with no two extents adjacent, and adds exactly
the run's cells to it (R60). -/
def Obligations.GridDeleteFrees : Prop :=
  (∀ (s : State) (h : Hdr) (i : Fin 32), soundRecord h →
      (s.gs.sets[i] = .absent → exec (.gridDelete h i) s = .next (s.respond h.port 0x44 .wrongState .empty))
      ∧ ∀ g : GridShape,
        (∀ binds inUse, s.gs.sets[i] = .held g (.valid binds inUse) →
          (h.gen ≠ s.cp.gen → exec (.gridDelete h i) s = .next (s.respond h.port 0x44 .genMismatch .empty))
          ∧ (h.gen = s.cp.gen → s.cp.gen = 4294967295 →
            exec (.gridDelete h i) s = .next (s.respond h.port 0x44 .wrongState .empty))
          ∧ (passesGuard s h → (0 < binds ∨ inUse = true) →
            exec (.gridDelete h i) s = .next (s.respond h.port 0x44 .inUse .empty)))
        ∧ (s.gs.sets[i] = .held g (.valid 0 false) → passesGuard s h →
          exec (.gridDelete h i) s
            = .next (({ s with gs := { s.gs with
                free := freeCells { base := g.base, len := g.size } s.gs.free, sets := s.gs.sets.set i .absent } }
              ).advanceGen.respond h.port 0x44 .ok .empty))
        ∧ ∀ (p : Port) (count : Nat),
          s.gs.sets[i] = .held g (.opened p count) ∨ (∃ sizes, s.gs.sets[i] = .held g (.checking p count sizes))
            ∨ (∃ k c, s.gs.sets[i] = .held g (.rejected p count k c)) →
          (p = h.port →
            exec (.gridDelete h i) s
              = .next (({ s with gs := { s.gs with
                  free := freeCells { base := g.base, len := g.size } s.gs.free, sets := s.gs.sets.set i .absent } }).respond
                h.port 0x44 .ok .empty))
          ∧ (p = other h.port → exec (.gridDelete h i) s = .next (s.respond h.port 0x44 .notOwner .empty)))
    ∧ ∀ (l : List Extent) (e : Extent), (l.Pairwise fun a b => a.base + a.len < b.base) → (∀ x ∈ l, 0 < x.len) → 0 < e.len →
        (∀ x ∈ l, x.base + x.len ≤ e.base ∨ e.base + e.len ≤ x.base) →
        ((freeCells e l).Pairwise fun a b => a.base + a.len < b.base) ∧ (∀ x ∈ freeCells e l, 0 < x.len)
          ∧ ((freeCells e l).map Extent.len).sum = (l.map Extent.len).sum + e.len
          ∧ ∀ cell : Nat, (∃ x ∈ freeCells e l, x.base ≤ cell ∧ cell < x.base + x.len)
              ↔ (∃ x ∈ l, x.base ≤ cell ∧ cell < x.base + x.len) ∨ e.base ≤ cell ∧ cell < e.base + e.len

/-- VIEW_DEFINE stores a layout for a view that nothing names and VIEW_ERASE empties one, each removing the bindings of the
former panes, so that a set's bind count falls by the number of those bound to it (R72); a view in use is refused with IN_USE
(R76, R77, R80); DEFAULT_VIEW names a DEFINED view or none (R81). A layout is one or two panes within the ranges of R75 that
share no pixel, else the command is refused with BAD_ARG (R77; that the silhouette's place is judged only with its flag set is
the model's choice of log entry 17); a view is in use when a claim, the default or the reverse view names it (R76). -/
def Obligations.ViewsInUseStay : Prop :=
  (∀ (panes : List PaneArg) (l : List Pane),
      layoutOf panes = some l ↔ (panes.length = 1 ∨ panes.length = 2) ∧ List.Forall₂ StoredPane panes l
        ∧ l.Pairwise fun p q => ∀ x y, ¬ (p.on x y ∧ q.on x y))
    ∧ (∀ (s : State) (v : Fin 16), s.viewInUse v = true
        ↔ (∃ e ∈ s.ca.stack, e.view = v) ∨ s.vc.dflt = some v ∨ s.ca.reverseView = some v)
    ∧ ∀ (s : State) (h : Hdr) (v : Fin 16), soundRecord h → passesGuard s h →
      (∀ panes, layoutOf panes = none → exec (.viewDefine h v panes) s = .next (s.respond h.port 0x48 .badArg .empty))
      ∧ (∀ panes l, layoutOf panes = some l → s.viewInUse v = true →
        exec (.viewDefine h v panes) s = .next (s.respond h.port 0x48 .inUse .empty))
      ∧ (∀ panes l, layoutOf panes = some l → s.viewInUse v = false →
        (∀ old, s.vc.views[v] = some old → ∀ p ∈ old, p.binding = none) →
        exec (.viewDefine h v panes) s
          = .next (({ s with vc := { s.vc with views := s.vc.views.set v (some l) } }).advanceGen.respond h.port 0x48 .ok
              .empty))
      ∧ (∀ (old : List Pane) (gone : Vector Grid 32), s.vc.views[v] = some old → s.viewInUse v = false →
        (∀ i : Fin 32, (∀ g b u, s.gs.sets[i] = .held g (.valid b u) →
              gone[i] = .held g (.valid (b - old.countP (fun p : Pane => decide (p.binding = some i))) u))
            ∧ ((∀ g b u, s.gs.sets[i] ≠ .held g (.valid b u)) → gone[i] = s.gs.sets[i])) →
        (∀ panes l, layoutOf panes = some l →
          exec (.viewDefine h v panes) s
            = .next (({ s with
                gs := { s.gs with sets := gone }, vc := { s.vc with views := s.vc.views.set v (some l) } }).advanceGen.respond
              h.port 0x48 .ok .empty))
        ∧ exec (.viewErase h v) s
          = .next (({ s with
              gs := { s.gs with sets := gone }, vc := { s.vc with views := s.vc.views.set v none } }).advanceGen.respond
            h.port 0x4B .ok .empty))
      ∧ (s.vc.views[v] = none → exec (.viewErase h v) s = .next (s.respond h.port 0x4B .wrongState .empty))
      ∧ (∀ l, s.vc.views[v] = some l → s.viewInUse v = true →
        exec (.viewErase h v) s = .next (s.respond h.port 0x4B .inUse .empty))
      ∧ (∀ l, s.vc.views[v] = some l → s.viewInUse v = false → (∀ p ∈ l, p.binding = none) →
        exec (.viewErase h v) s
          = .next (({ s with vc := { s.vc with views := s.vc.views.set v none } }).advanceGen.respond h.port 0x4B .ok .empty))
      ∧ exec (.defaultView h none) s
          = .next (({ s with vc := { s.vc with dflt := none } }).advanceGen.respond h.port 0x4C .ok .empty)
      ∧ (s.vc.views[v] = none → exec (.defaultView h (some v)) s = .next (s.respond h.port 0x4C .notFound .empty))
      ∧ (∀ l, s.vc.views[v] = some l →
        exec (.defaultView h (some v)) s
          = .next (({ s with vc := { s.vc with dflt := some v } }).advanceGen.respond h.port 0x4C .ok .empty))

/-- VIEW_BIND binds a VALID set whose blocks match the pane and raises its bind count, that of a set bound to the pane before
falling by one, so that naming the same set again leaves it; a set of another size is refused with SIZE_MISMATCH;
VIEW_UNBIND removes the binding and lowers the count, and refuses a pane with none with NOT_FOUND (R72, R78, R79). -/
def Obligations.BindingsAreCounted : Prop :=
  ∀ (s : State) (h : Hdr) (v : Fin 16) (i : Fin 32) (l : List Pane) (k : Nat) (p : Pane) (g : GridShape) (binds : Nat)
    (inUse : Bool), soundRecord h → passesGuard s h → s.vc.views[v] = some l → k ≤ 1 → l[k]? = some p →
    s.gs.sets[i] = .held g (.valid binds inUse) →
    (g.bw ≠ p.w / 16 ∨ g.bh ≠ p.h / 16 →
        exec (.viewBind h v k i) s = .next (s.respond h.port 0x49 .sizeMismatch .empty))
      ∧ (g.bw = p.w / 16 → g.bh = p.h / 16 → p.binding = none →
        exec (.viewBind h v k i) s
          = .next (({ s with
              gs := { s.gs with sets := s.gs.sets.set i (.held g (.valid (binds + 1) inUse)) }
              vc := { s.vc with views := s.vc.views.set v (some (l.modify k fun q => { q with binding := some i })) }
            }).advanceGen.respond h.port 0x49 .ok .empty))
      ∧ (∀ (j : Fin 32) (g' : GridShape) (binds' : Nat) (inUse' : Bool) (less : Vector Grid 32), g.bw = p.w / 16 →
        g.bh = p.h / 16 → p.binding = some j → j ≠ i → s.gs.sets[j] = .held g' (.valid binds' inUse') →
        less = s.gs.sets.set j (.held g' (.valid (binds' - 1) inUse')) →
        exec (.viewBind h v k i) s
          = .next (({ s with
              gs := { s.gs with sets := less.set i (.held g (.valid (binds + 1) inUse)) }
              vc := { s.vc with views := s.vc.views.set v (some (l.modify k fun q => { q with binding := some i })) }
            }).advanceGen.respond h.port 0x49 .ok .empty))
      ∧ (g.bw = p.w / 16 → g.bh = p.h / 16 → p.binding = some i → 0 < binds →
        exec (.viewBind h v k i) s = .next (s.advanceGen.respond h.port 0x49 .ok .empty))
      ∧ (p.binding = none → exec (.viewUnbind h v k) s = .next (s.respond h.port 0x4A .notFound .empty))
      ∧ (p.binding = some i →
        exec (.viewUnbind h v k) s
          = .next (({ s with
              gs := { s.gs with sets := s.gs.sets.set i (.held g (.valid (binds - 1) inUse)) }
              vc := { s.vc with views := s.vc.views.set v (some (l.modify k fun q => { q with binding := none })) }
            }).advanceGen.respond h.port 0x4A .ok .empty))

/-! ### Settings of the balance and overlay units -/

/-- BALANCE_SET stores the mode and the clamped settings; naming MANUAL makes the gains the manual gains, naming AUTO leaves
them; a mode of neither kind is refused with BAD_ARG (R109, R110). -/
def Obligations.BalanceSetStores : Prop :=
  ∀ (s : State) (h : Hdr) (r : BalanceArg) (manual : Vector Nat 4), soundRecord h → passesGuard s h →
    manual = #v[max 128 (min r.m0 512), max 128 (min r.m1 512), max 128 (min r.m2 512), max 128 (min r.m3 512)] →
    (r.mode = none → exec (.balanceSet h r) s = .next (s.respond h.port 0x51 .badArg .empty))
      ∧ ∀ m : BalMode, r.mode = some m →
        exec (.balanceSet h r) s
          = .next (({ s with bu := { s.bu with
                mode := m, manual := manual, gains := (match m with | .manual => manual | .auto => s.bu.gains)
                k := max 1 (min r.k 16), smax := max 1 (min r.smax 64), nmin := max 256 (min r.nmin 65535) } }).advanceGen.respond
              h.port 0x51
              (if (128 ≤ r.m0 ∧ r.m0 ≤ 512) ∧ (128 ≤ r.m1 ∧ r.m1 ≤ 512) ∧ (128 ≤ r.m2 ∧ r.m2 ≤ 512) ∧ (128 ≤ r.m3 ∧ r.m3 ≤ 512)
                  ∧ (1 ≤ r.k ∧ r.k ≤ 16) ∧ (1 ≤ r.smax ∧ r.smax ≤ 64) ∧ 256 ≤ r.nmin ∧ r.nmin ≤ 65535 then .ok else .clamped)
              .empty)

/-- CURVE_SET stores the 33 values, each clamped to −16,384 to 16,384, with CLAMPED when any was, in every state of the
composition engine, whose snapshot in flight keeps its own table (R123). -/
def Obligations.CurveSetStores : Prop :=
  ∀ (s : State) (h : Hdr) (t : Vector Int 33), soundRecord h →
    (passesGuard s h →
        exec (.curveSet h t) s
          = .next (({ s with ou := { s.ou with setup := { s.ou.setup with
                curve := Vector.ofFn fun i : Fin 33 => max (-16384) (min t[i] 16384) } } }).advanceGen.respond h.port 0x61
              (if ∀ i : Fin 33, -16384 ≤ t[i] ∧ t[i] ≤ 16384 then .ok else .clamped) .empty))
      ∧ (h.gen ≠ s.cp.gen → exec (.curveSet h t) s = .next (s.respond h.port 0x61 .genMismatch .empty))

/-- OVERLAY_SET refuses a silhouette extent out of range or off its step of 16, more than four marks, and a condition of no
kind; else it stores the palette with its alphas clamped, the extents and the guide setup, whose stop lies at least 500
past its start and whose mid is not below its near, and leaves the curvature table and the markers (R122). -/
def Obligations.OverlaySetStores : Prop :=
  ∀ (s : State) (h : Hdr) (r : OverlayArg), soundRecord h → passesGuard s h →
    (r.silW < 16 ∨ 256 < r.silW ∨ r.silW % 16 ≠ 0 ∨ r.silH < 16 ∨ 512 < r.silH ∨ r.silH % 16 ≠ 0 ∨ 4 < r.marks.length
        ∨ r.cond = none →
      exec (.overlaySet h r) s = .next (s.respond h.port 0x60 .badArg .empty))
      ∧ ∀ c : GuideCond, r.cond = some c → 16 ≤ r.silW → r.silW ≤ 256 → r.silW % 16 = 0 → 16 ≤ r.silH → r.silH ≤ 512 →
        r.silH % 16 = 0 → r.marks.length ≤ 4 →
        ∃ res : Result, (res = .ok ∨ res = .clamped)
          ∧ (res = .ok ↔ (∀ i : Fin 16, r.palette[i].alpha ≤ 16) ∧ 300 ≤ r.halfTrack ∧ r.halfTrack ≤ 1500 ∧ r.start ≤ 3000
              ∧ r.start + 500 ≤ r.stop ∧ r.stop ≤ 8000 ∧ 2 ≤ r.thick ∧ r.thick ≤ 8 ∧ r.near ≤ r.mid ∧ r.mid ≤ 8000
              ∧ ∀ m ∈ r.marks, m ≤ 8000)
          ∧ exec (.overlaySet h r) s
            = .next (({ s with ou := { s.ou with setup := { s.ou.setup with
                  palette := Vector.ofFn fun i : Fin 16 => { r.palette[i] with alpha := min r.palette[i].alpha 16 }
                  silW := r.silW, silH := r.silH
                  guide := { halfTrack := max 300 (min r.halfTrack 1500), start := min r.start 3000
                             stop := max (min r.start 3000 + 500) (min r.stop 8000), thick := max 2 (min r.thick 8)
                             near := min r.near 8000, mid := max (min r.near 8000) (min r.mid 8000)
                             marks := r.marks.map fun m => min m 8000, cond := c } } } }).advanceGen.respond h.port 0x60 res
                .empty)

/-! ### Markers -/

/-- MARK_POST judges its record, puts the marker at the front of the group of its severity in place of one of the same id,
and on a full list evicts the last entry if that is of a lower severity, telling its owner; else it is FULL (R131, R132). -/
def Obligations.MarkPostPlaces : Prop :=
  ∀ (s : State) (h : Hdr) (payload : List Byte) (m : MarkArg) (x : Marker) (res : Result),
    h.len.toNat = payload.length → h.got = 10 + payload.length → 12 ≤ payload.length → payload.length ≤ 240 →
    m = readMark payload →
    x = { id := byteAt payload 0, owner := h.port, severity := m.severity, shape := m.shape, x := m.x, y := m.y
          width := m.width, length := m.length, timeout := max 50 (min m.timeout 5000)
          deadline := s.tbu.now + BitVec.ofNat 32 (max 50 (min m.timeout 5000) * 1000) } →
    res = (if 50 ≤ m.timeout ∧ m.timeout ≤ 5000 then .ok else .clamped) →
    (m.severity = 0 ∨ m.x < -20000 ∨ 20000 < m.x ∨ m.y < -20000 ∨ 20000 < m.y ∨ m.width < 100 ∨ 10000 < m.width
        ∨ m.length < 100 ∨ 10000 < m.length →
      exec (.markPost h payload) s = .next (s.respond h.port 0x63 .badArg .empty))
      ∧ (m.severity ≠ 0 → -20000 ≤ m.x → m.x ≤ 20000 → -20000 ≤ m.y → m.y ≤ 20000 → 100 ≤ m.width → m.width ≤ 10000 →
        100 ≤ m.length → m.length ≤ 10000 →
        (∀ hi lo : List Marker, (∃ y ∈ s.ou.markers, y.id = x.id) ∨ s.ou.markers.length < 16 →
            (s.ou.markers.filter fun y => decide (y.id ≠ x.id)) = hi ++ lo → (∀ y ∈ hi, m.severity < y.severity) →
            (∀ y ∈ lo, y.severity ≤ m.severity) →
          exec (.markPost h payload) s
            = .next (({ s with ou := { s.ou with markers := hi ++ x :: lo } }).respond h.port 0x63 res
                (.placed hi.length (hi ++ x :: lo).length)))
        ∧ ∀ (front : List Marker) (e : Marker), s.ou.markers = front ++ [e] → 15 ≤ front.length →
            (∀ y ∈ s.ou.markers, y.id ≠ x.id) →
          (m.severity ≤ e.severity → exec (.markPost h payload) s = .next (s.respond h.port 0x63 .full .empty))
          ∧ ∀ hi lo : List Marker, e.severity < m.severity → front = hi ++ lo → (∀ y ∈ hi, m.severity < y.severity) →
              (∀ y ∈ lo, y.severity ≤ m.severity) →
            exec (.markPost h payload) s
              = .next (({ s with ou := { s.ou with markers := hi ++ x :: lo } }.notifyOwner e.owner .markerEvicted e.id.toNat
                  x.id.toNat).respond h.port 0x63 res (.placed hi.length (hi ++ x :: lo).length)))

/-- MARK_REMOVE removes one marker from either port with no notice, MARK_CLEAR removes all and answers how many (R134); a
marker at its deadline expires and its owner is told (R133). -/
def Obligations.MarkersLeave : Prop :=
  ∀ s : State,
    (∀ h : Hdr, soundRecord h →
        (∀ id : Nat, 255 < id → exec (.markRemove h id) s = .next (s.respond h.port 0x64 .badArg .empty))
        ∧ (∀ id : Byte, (∀ m ∈ s.ou.markers, m.id ≠ id) →
          exec (.markRemove h id.toNat) s = .next (s.respond h.port 0x64 .notFound .empty))
        ∧ (∀ id : Byte, (∃ m ∈ s.ou.markers, m.id = id) →
          exec (.markRemove h id.toNat) s
            = .next (({ s with ou := { s.ou with markers := s.ou.markers.filter fun m : Marker => decide (m.id ≠ id) } }).respond h.port
                0x64 .ok .empty))
        ∧ exec (.markClear h) s
          = .next (({ s with ou := { s.ou with markers := [] } }).respond h.port 0x65 .ok (.removed s.ou.markers.length)))
      ∧ ∀ (l₁ l₂ : List Marker) (m : Marker), s.ou.markers = l₁ ++ m :: l₂ → (∀ y ∈ l₁ ++ l₂, y.id ≠ m.id) →
        m.deadline = s.tbu.now →
        exec (.markerExpiry m.id) s
          = .next (({ s with ou := { s.ou with markers := l₁ ++ l₂ } }).notifyOwner m.owner .markerExpired m.id.toNat
              m.severity)

/-! ### Claims -/

/-- CLAIM of a DEFINED view below its source's limit makes an entry with the first token value not carried, at the front of
its rank's group; on a full stack a PORT_A claim evicts the PORT_D entry at its end, whose token is free again, and Port D is
told, and one that finds no entry of lower rank there is refused with FULL (R138 to R141). -/
def Obligations.ClaimMakesAnEntry : Prop :=
  ∀ (s : State) (h : Hdr) (v : Fin 16) (src : Source) (limit : Nat), soundRecord h →
    (src, limit) = (match h.port with
      | .d => (Source.portD, 3)
      | .a => (.portA (s.tbu.now + BitVec.ofNat 32 (s.cp.portA.claimHold * 1000)), 4)) →
    (∀ n : Nat, 15 < n → exec (.claim h n) s = .next (s.respond h.port 0x70 .badArg .empty))
      ∧ (s.vc.views[v] = none → exec (.claim h v) s = .next (s.respond h.port 0x70 .notFound .empty))
      ∧ (s.vc.views[v].isSome = true →
        (limit ≤ countRank src.rank s.ca.stack → exec (.claim h v) s = .next (s.respond h.port 0x70 .full .empty))
        ∧ (countRank src.rank s.ca.stack < limit → ∀ (k : Nat) (t : Byte) (hi lo : List Claim), t = nextToken^[k] s.ca.token →
          k ≤ (hi ++ lo).length → (∀ j, j < k → ∃ e ∈ hi ++ lo, e.token = nextToken^[j] s.ca.token) →
          (∀ e ∈ hi ++ lo, e.token ≠ t) → (∀ e ∈ hi, src.rank < e.rank) → (∀ e ∈ lo, e.rank ≤ src.rank) →
          ∀ u : State, u = { s with ca := { s.ca with stack := hi ++ Claim.mk t src v s.tbu.now :: lo, token := nextToken t } } →
          (s.ca.stack.length < 6 → s.ca.stack = hi ++ lo →
            exec (.claim h v) s = .next (u.respond h.port 0x70 .ok (.claimed t hi.length ((hi ++ lo).length + 1))))
          ∧ ∀ e : Claim, s.ca.stack = hi ++ lo ++ [e] → 5 ≤ (hi ++ lo).length → h.port = .a → e.source = .portD →
            exec (.claim h v) s
              = .next ((u.notifyOwner .d .claimEvicted e.token.toNat e.view).respond h.port 0x70 .ok
                  (.claimed t hi.length ((hi ++ lo).length + 1))))
        ∧ ∀ (front : List Claim) (e : Claim), countRank src.rank s.ca.stack < limit → s.ca.stack = front ++ [e] →
          5 ≤ front.length → src.rank ≤ e.rank → exec (.claim h v) s = .next (s.respond h.port 0x70 .full .empty))

/-- RENEW gives a PORT_A entry a new deadline and moves it to the front of its group, on Port A only; RELEASE removes an entry
of the issuing port's own source; with a token outside 1 to 255 both are refused with BAD_ARG, and with one that no entry
carries, on any stack, with NOT_FOUND; a PORT_A entry at its deadline expires and Port A is told (R142, R143, R144). -/
def Obligations.ClaimsRenewAndLeave : Prop :=
  (∀ (s : State) (h : Hdr), soundRecord h →
    (∀ n : Nat, n = 0 ∨ 255 < n →
        exec (.renew h n) s = .next (s.respond h.port 0x71 .badArg .empty)
          ∧ exec (.release h n) s = .next (s.respond h.port 0x72 .badArg .empty))
      ∧ ∀ u : Byte, u ≠ 0 → (∀ x ∈ s.ca.stack, x.token ≠ u) →
        exec (.renew h u.toNat) s = .next (s.respond h.port 0x71 .notFound .empty)
          ∧ exec (.release h u.toNat) s = .next (s.respond h.port 0x72 .notFound .empty))
    ∧ ∀ (s : State) (t : Byte) (l₁ l₂ : List Claim) (e : Claim), s.ca.stack = l₁ ++ e :: l₂ → e.token = t → t ≠ 0 →
    (∀ x ∈ l₁ ++ l₂, x.token ≠ t) →
    (∀ h : Hdr, soundRecord h →
        (h.port = .d ∨ (∀ d, e.source ≠ .portA d) →
          exec (.renew h t.toNat) s = .next (s.respond h.port 0x71 .notOwner .empty))
        ∧ (∀ d, h.port = .a → e.source = .portA d →
          exec (.renew h t.toNat) s
            = .next (({ s with ca := { s.ca with
                  stack := { e with source := .portA (s.tbu.now + BitVec.ofNat 32 (s.cp.portA.claimHold * 1000)) }
                    :: (l₁ ++ l₂) } }).respond h.port 0x71 .ok (.renewed 0 (l₁ ++ e :: l₂).length)))
        ∧ ((h.port = .d ∧ e.source ≠ .portD) ∨ (h.port = .a ∧ ∀ d, e.source ≠ .portA d) →
          exec (.release h t.toNat) s = .next (s.respond h.port 0x72 .notOwner .empty))
        ∧ ((h.port = .d ∧ e.source = .portD) ∨ (h.port = .a ∧ ∃ d, e.source = .portA d) →
          exec (.release h t.toNat) s
            = .next (({ s with ca := { s.ca with stack := l₁ ++ l₂ } }).respond h.port 0x72 .ok .empty)))
      ∧ (e.source = .portA s.tbu.now →
        exec (.claimExpiry t) s
          = .next (({ s with ca := { s.ca with stack := l₁ ++ l₂ } }).notifyOwner .a .claimExpired t.toNat e.view))

/-- GEAR_SETUP stores the reverse view, the clamped linger and the gate; naming none removes the reverse claim and stops the
linger timer, naming a view moves the claim to it, and while GEAR is REVERSE and no claim stands one is made with the first
token value not carried, below every PORT_A and above every PORT_D entry (R139, R145, R146); on a full stack the PORT_D
entry at its end leaves first, and Port D is told (R141). At its deadline the linger timer takes the claim away (R147). -/
def Obligations.ReverseClaim : Prop :=
  ∀ (s : State) (l : Nat) (g : BitVec 16) (v : Fin 16),
    (∀ (h : Hdr) (res : Result), soundRecord h → passesGuard s h → res = (if l ≤ 10000 then .ok else .clamped) →
        (∀ n : Nat, 15 < n → exec (.gearSetup h (some n) l g) s = .next (s.respond h.port 0x73 .badArg .empty))
        ∧ (s.vc.views[v] = none → exec (.gearSetup h (some v) l g) s = .next (s.respond h.port 0x73 .notFound .empty))
        ∧ exec (.gearSetup h none l g) s
          = .next (({ s with ca := { s.ca with
                reverseView := none, linger := min l 10000, gate := g, lingerTimer := none
                stack := s.ca.stack.filter fun e : Claim => decide (e.source ≠ Source.gear) } }).advanceGen.respond h.port 0x73 res .empty)
        ∧ (s.vc.views[v].isSome = true → (∃ e ∈ s.ca.stack, e.source = .gear) →
          exec (.gearSetup h (some v) l g) s
            = .next (({ s with ca := { s.ca with
                  reverseView := some v, linger := min l 10000, gate := g
                  stack := s.ca.stack.map fun e : Claim => if e.source = Source.gear then { e with view := v } else e } }).advanceGen.respond
                h.port 0x73 res .empty))
        ∧ (s.vc.views[v].isSome = true → (∀ e ∈ s.ca.stack, e.source ≠ .gear) →
          (s.si.effGear ≠ .reverse →
            exec (.gearSetup h (some v) l g) s
              = .next (({ s with ca := { s.ca with reverseView := some v, linger := min l 10000, gate := g } }).advanceGen.respond
                  h.port 0x73 res .empty))
          ∧ ∀ (hi lo : List Claim) (k : Nat) (t : Byte) (u : State), s.si.effGear = .reverse →
              (∀ e ∈ hi, 2 < e.rank) → (∀ e ∈ lo, e.rank ≤ 2) →
              t = nextToken^[k] s.ca.token → k ≤ (hi ++ lo).length →
              (∀ j, j < k → ∃ e ∈ hi ++ lo, e.token = nextToken^[j] s.ca.token) → (∀ e ∈ hi ++ lo, e.token ≠ t) →
              u = { s with ca := { s.ca with
                reverseView := some v, linger := min l 10000, gate := g, lingerTimer := none
                token := nextToken t, stack := hi ++ Claim.mk t .gear v s.tbu.now :: lo } } →
              (s.ca.stack.length < 6 → s.ca.stack = hi ++ lo →
                exec (.gearSetup h (some v) l g) s = .next (u.advanceGen.respond h.port 0x73 res .empty))
              ∧ ∀ e : Claim, s.ca.stack = hi ++ lo ++ [e] → 5 ≤ (hi ++ lo).length → e.source = .portD →
                exec (.gearSetup h (some v) l g) s
                  = .next ((u.notifyOwner .d .claimEvicted e.token.toNat e.view).advanceGen.respond h.port 0x73 res .empty)))
      ∧ (s.ca.lingerTimer = some s.tbu.now →
        exec .lingerTimerExpiry s
          = .next { s with ca := { s.ca with
              lingerTimer := none, stack := s.ca.stack.filter fun e : Claim => decide (e.source ≠ Source.gear) } })

/-! ### CAN controller and signal intake -/

/-- CAN_SETUP restarts the controller when the mode or the rate changes, with CAN_STATE sent when the error state was not
ERROR_ACTIVE, and else only stores (R154); CAN_RESTART starts the
recovery wait in BUS_OFF; when the wait completes the counters are 0 and the state is ERROR_ACTIVE, and CAN_STATE is sent
(R165), and with no wait running a completion changes nothing (the model's choice of log entry 10); CAN_ERRCLR clears the
error cause record (R166). -/
def Obligations.CanControllerSettings : Prop :=
  ∀ s : State,
    (∀ (h : Hdr) (r : CanArg), soundRecord h → passesGuard s h →
        (r.mode = none ∨ r.rate = none ∨ (r.ext = false ∧ 0x7FF < r.ident) ∨ 0x1FFFFFFF < r.ident →
          exec (.canSetup h r) s = .next (s.respond h.port 0x80 .badArg .empty))
        ∧ ∀ (m : CanMode) (b : CanRate) (p : CanSetup) (res : Result), r.mode = some m → r.rate = some b →
          r.ident ≤ (if r.ext then 0x1FFFFFFF else 0x7FF) →
          p = { mode := m, rate := b, autoRecover := r.autoRecover, ext := r.ext, ident := BitVec.ofNat 29 r.ident
                interval := max 50 (min r.interval 1000), singleShot := r.singleShot } →
          res = (if 50 ≤ r.interval ∧ r.interval ≤ 1000 then .ok else .clamped) →
          (m = s.si.can.setup.mode → b = s.si.can.setup.rate →
            exec (.canSetup h r) s
              = .next (({ s with si := { s.si with can := { s.si.can with setup := p } } }).advanceGen.respond h.port 0x80 res
                  .empty))
          ∧ (m ≠ s.si.can.setup.mode ∨ b ≠ s.si.can.setup.rate → s.si.can.err = .active →
            exec (.canSetup h r) s
              = .next (({ s with si := { s.si with can := { s.si.can with
                    setup := p, tec := 0, recv := 0, recovery := false, buffer := none, attempt := none
                    timer := (match m with
                      | .normal => some (s.tbu.now + BitVec.ofNat 32 (max 50 (min r.interval 1000) * 1000))
                      | .loopback => some (s.tbu.now + BitVec.ofNat 32 (max 50 (min r.interval 1000) * 1000))
                      | .off => none
                      | .listen => none) } } }).advanceGen.respond h.port 0x80 res .empty))
          ∧ ∀ old : Nat, m ≠ s.si.can.setup.mode ∨ b ≠ s.si.can.setup.rate →
            s.si.can.err = .passive ∧ old = 1 ∨ s.si.can.err = .busOff ∧ old = 2 →
            exec (.canSetup h r) s
              = .next ((({ s with si := { s.si with can := { s.si.can with
                    setup := p, tec := 0, recv := 0, err := .active, recovery := false, buffer := none, attempt := none
                    timer := (match m with
                      | .normal => some (s.tbu.now + BitVec.ofNat 32 (max 50 (min r.interval 1000) * 1000))
                      | .loopback => some (s.tbu.now + BitVec.ofNat 32 (max 50 (min r.interval 1000) * 1000))
                      | .off => none
                      | .listen => none) } } }).notify .canState 0 (256 * old)).advanceGen.respond h.port 0x80 res .empty))
      ∧ (∀ h : Hdr, soundRecord h →
        (s.si.can.setup.mode = .normal → s.si.can.err = .busOff →
          exec (.canRestart h) s
            = .next (({ s with si := { s.si with can := { s.si.can with recovery := true } } }).respond h.port 0x84 .ok .empty))
        ∧ (s.si.can.setup.mode ≠ .normal ∨ s.si.can.err ≠ .busOff →
          exec (.canRestart h) s = .next (s.respond h.port 0x84 .wrongState .empty))
        ∧ exec (.canErrclr h) s
          = .next (({ s with si := { s.si with can := { s.si.can with cause :=
              { bit0 := false, bit1 := false, stuff := false, form := false, crc := false, ack := false, role := none } } }
            }).respond h.port 0x85 .ok .empty))
      ∧ (s.si.can.err = .busOff →
        (s.si.can.recovery = false → exec .recoveryWaitCompletion s = .next s)
        ∧ (s.si.can.recovery = true →
          exec .recoveryWaitCompletion s
            = .next (({ s with si := { s.si with can := { s.si.can with
                tec := 0, recv := 0, err := .active, recovery := false } } }).notify .canState 0 (256 * 2))))

/-- SLOT_SETUP writes a slot that is not enabled, for each of the four targets, only GEAR storing its reverse code, and refuses
a field out of range or a reverse code that the field cannot hold with BAD_ARG; SLOT_ENABLE switches a slot that is set up,
and SIGNAL_SETUP stores the clamped times of one signal and leaves its running timers (R156, R157, R163). -/
def Obligations.SlotAndSignalSettings : Prop :=
  ∀ (s : State) (h : Hdr) (i : Fin 12), soundRecord h → passesGuard s h →
    (∀ (n : Nat) (r : SlotArg) (on : Bool), 11 < n →
        exec (.slotSetup h n r) s = .next (s.respond h.port 0x81 .badArg .empty)
          ∧ exec (.slotEnable h n on) s = .next (s.respond h.port 0x82 .badArg .empty))
      ∧ (s.si.slots[i].enabled = true → ∀ r : SlotArg,
        exec (.slotSetup h i r) s = .next (s.respond h.port 0x81 .slotActive .empty))
      ∧ (s.si.slots[i].enabled = false → ∀ (r : SlotArg) (least most : Int),
        (r.signed = true → least = -(2 ^ (r.length - 1) : Int) ∧ most = 2 ^ (r.length - 1) - 1) →
        (r.signed = false → least = 0 ∧ most = 2 ^ r.length - 1) →
        ((r.length < 1 ∨ 16 < r.length ∨ 63 < r.start ∨ 64 < r.start + r.length ∨ r.mult < -128 ∨ 127 < r.mult ∨ r.mult = 0
            ∨ r.offset < -32768 ∨ 32767 < r.offset ∨ (if r.ext then 0x1FFFFFFF else 0x7FF) < r.ident
            ∨ (if r.ext then 0x1FFFFFFF else 0x7FF) < r.mask ∨ r.target = none
            ∨ r.target = some .gear ∧ (r.reverse < least ∨ most < r.reverse) →
          exec (.slotSetup h i r) s = .next (s.respond h.port 0x81 .badArg .empty))
        ∧ ∀ t : SlotTarget, r.length ≤ 16 → 1 ≤ r.length → r.start + r.length ≤ 64 →
          -128 ≤ r.mult → r.mult ≤ 127 → r.mult ≠ 0 → -32768 ≤ r.offset → r.offset ≤ 32767 →
          r.ident ≤ (if r.ext then 0x1FFFFFFF else 0x7FF) → r.mask ≤ (if r.ext then 0x1FFFFFFF else 0x7FF) →
          r.target = some .speed ∧ t = .speed ∨ r.target = some .steer ∧ t = .steer ∨ r.target = some .doors ∧ t = .doors
            ∨ r.target = some .gear ∧ least ≤ r.reverse ∧ r.reverse ≤ most ∧ t = .gear r.reverse →
          exec (.slotSetup h i r) s
            = .next (({ s with si := { s.si with slots := s.si.slots.set i { s.si.slots[i] with
                setup := some (SlotSetup.mk r.ext (BitVec.ofNat 29 r.ident) (BitVec.ofNat 29 r.mask) r.start r.length r.signed
                  r.mult r.offset t) } } }
              ).advanceGen.respond h.port 0x81 .ok .empty)))
      ∧ (s.si.slots[i].setup = none → exec (.slotEnable h i true) s = .next (s.respond h.port 0x82 .wrongState .empty))
      ∧ (∀ on : Bool, on = false ∨ s.si.slots[i].setup.isSome = true →
        exec (.slotEnable h i on) s
          = .next (({ s with si := { s.si with slots := s.si.slots.set i { s.si.slots[i] with enabled := on } } }
            ).advanceGen.respond h.port 0x82 .ok .empty))
      ∧ (∀ n t d c : Nat, 3 < n → exec (.signalSetup h n t d c) s = .next (s.respond h.port 0x83 .badArg .empty))
      ∧ (∀ t d c : Nat, exec (.signalSetup h 0 t d c) s
        = .next (({ s with si := { s.si with
              gear := { s.si.gear with timeout := max 20 (min t 2000), hold := min d 5000 }, confirm := max 1 (min c 4)
              gearPending := none } }).advanceGen.respond h.port 0x83
            (if 20 ≤ t ∧ t ≤ 2000 ∧ d ≤ 5000 ∧ 1 ≤ c ∧ c ≤ 4 then .ok else .clamped) .empty))
      ∧ ∀ (t d c : Nat) (res : Result), res = (if 20 ≤ t ∧ t ≤ 2000 ∧ d ≤ 5000 then .ok else .clamped) →
        exec (.signalSetup h 1 t d c) s
            = .next (({ s with si := { s.si with
                  speed := { s.si.speed with timeout := max 20 (min t 2000), hold := min d 5000 } } }).advanceGen.respond h.port
                0x83 res .empty)
          ∧ exec (.signalSetup h 2 t d c) s
            = .next (({ s with si := { s.si with
                  steer := { s.si.steer with timeout := max 20 (min t 2000), hold := min d 5000 } } }).advanceGen.respond h.port
                0x83 res .empty)
          ∧ exec (.signalSetup h 3 t d c) s
            = .next (({ s with si := { s.si with
                  doors := { s.si.doors with timeout := max 20 (min t 2000), hold := min d 5000 } } }).advanceGen.respond h.port
                0x83 res .empty)

/-- Each of the four signals ages: at its timeout it is HELD for its hold time, or UNKNOWN at once when that is 0; at its hold
deadline it is UNKNOWN; each change sends SIGNAL_STATE, and nothing else changes (R160, R162): GEAR's entry to UNKNOWN
leaves the reverse claim (R146). -/
def Obligations.SignalsAge : Prop :=
  ∀ s : State,
    (s.si.gear.st = .fresh s.tbu.now →
        (s.si.gear.hold ≠ 0 →
          exec (.signalTimeoutExpiry .gear) s
            = .next (({ s with si := { s.si with gear := { s.si.gear with
                st := .held (s.tbu.now + BitVec.ofNat 32 (s.si.gear.hold * 1000)) } } }).notify .signalState 0 (2 + 256 * 1)))
        ∧ (s.si.gear.hold = 0 →
          exec (.signalTimeoutExpiry .gear) s
            = .next (({ s with si := { s.si with gear := { s.si.gear with st := .unknown } } }).notify .signalState 0
                (3 + 256 * 1))))
      ∧ (s.si.gear.st = .held s.tbu.now →
        exec (.signalHoldExpiry .gear) s
          = .next (({ s with si := { s.si with gear := { s.si.gear with st := .unknown } } }).notify .signalState 0
              (3 + 256 * 2)))
      ∧ (s.si.speed.st = .fresh s.tbu.now →
        (s.si.speed.hold ≠ 0 →
          exec (.signalTimeoutExpiry .speed) s
            = .next (({ s with si := { s.si with speed := { s.si.speed with
                st := .held (s.tbu.now + BitVec.ofNat 32 (s.si.speed.hold * 1000)) } } }).notify .signalState 1 (2 + 256 * 1)))
        ∧ (s.si.speed.hold = 0 →
          exec (.signalTimeoutExpiry .speed) s
            = .next (({ s with si := { s.si with speed := { s.si.speed with st := .unknown } } }).notify .signalState 1
                (3 + 256 * 1))))
      ∧ (s.si.speed.st = .held s.tbu.now →
        exec (.signalHoldExpiry .speed) s
          = .next (({ s with si := { s.si with speed := { s.si.speed with st := .unknown } } }).notify .signalState 1
              (3 + 256 * 2)))
      ∧ (s.si.steer.st = .fresh s.tbu.now →
        (s.si.steer.hold ≠ 0 →
          exec (.signalTimeoutExpiry .steer) s
            = .next (({ s with si := { s.si with steer := { s.si.steer with
                st := .held (s.tbu.now + BitVec.ofNat 32 (s.si.steer.hold * 1000)) } } }).notify .signalState 2 (2 + 256 * 1)))
        ∧ (s.si.steer.hold = 0 →
          exec (.signalTimeoutExpiry .steer) s
            = .next (({ s with si := { s.si with steer := { s.si.steer with st := .unknown } } }).notify .signalState 2
                (3 + 256 * 1))))
      ∧ (s.si.steer.st = .held s.tbu.now →
        exec (.signalHoldExpiry .steer) s
          = .next (({ s with si := { s.si with steer := { s.si.steer with st := .unknown } } }).notify .signalState 2
              (3 + 256 * 2)))
      ∧ (s.si.doors.st = .fresh s.tbu.now →
        (s.si.doors.hold ≠ 0 →
          exec (.signalTimeoutExpiry .doors) s
            = .next (({ s with si := { s.si with doors := { s.si.doors with
                st := .held (s.tbu.now + BitVec.ofNat 32 (s.si.doors.hold * 1000)) } } }).notify .signalState 3 (2 + 256 * 1)))
        ∧ (s.si.doors.hold = 0 →
          exec (.signalTimeoutExpiry .doors) s
            = .next (({ s with si := { s.si with doors := { s.si.doors with st := .unknown } } }).notify .signalState 3
                (3 + 256 * 1))))
      ∧ (s.si.doors.st = .held s.tbu.now →
        exec (.signalHoldExpiry .doors) s
          = .next (({ s with si := { s.si with doors := { s.si.doors with st := .unknown } } }).notify .signalState 3
              (3 + 256 * 2)))

/-- A received data frame is taken by the enabled slots in slot order: what the lowest of them does with it comes first, and the
others then do with it what they would do in LISTEN, which counts nothing again (R158). One enabled slot that accepts it updates
the slot's signal (R155, R158 to R161): the raw value is the
slot's bits of the payload in two's complement where it is signed; SPEED and STEER take it scaled and clamped with the
saturated flag, DOORS its low byte, each FRESH from any state; GEAR needs its confirm count of equal values, and a confirmed
change of the effective GEAR moves the reverse claim and the linger timer (R146, R162), a claim made on a full stack
evicting the PORT_D entry at its end with CLAIM_EVICTED to Port D, after SIGNAL_STATE (R141, R162). A change of state sends
SIGNAL_STATE (R160). The controller `can` after the reception is as before in LISTEN and LOOPBACK; in NORMAL REC falls by
one, not below 0, and the frame is acknowledged whether or not a slot accepts it (R155, R164), which `acks`, the model's own
count, shows (log entry 14). A controller that is OFF or in BUS_OFF takes nothing (that the event then changes nothing is
the model's choice of log entry 10). `fresh` counts the free values of log entry 7. -/
def Obligations.FramesUpdateSignals : Prop :=
  (∀ (c : SlotSetup) (data : List Byte), 1 ≤ c.length →
      (c.signed = true → -(2 ^ (c.length - 1) : Int) ≤ c.raw data ∧ c.raw data < 2 ^ (c.length - 1))
        ∧ (c.signed = false → 0 ≤ c.raw data ∧ c.raw data < 2 ^ c.length)
        ∧ ∀ k, k < c.length → ((c.raw data % 2 ^ c.length).toNat.testBit k
            = (byteAt data ((c.start + k) / 8)).getLsbD ((c.start + k) % 8)))
    ∧ (∀ (s : State) (f : CanFrame),
      (s.si.can.setup.mode = .off ∨ s.si.can.err = .busOff → exec (.canFrameReceived f) s = .next s)
        ∧ (s.si.can.setup.mode = .normal → s.si.can.err = .passive → s.si.can.tec.toNat < 128 → s.si.can.recv = 128 →
          (∀ i : Fin 12, s.si.slots[i].enabled = false) →
          exec (.canFrameReceived f) s
            = .next ({ s with
                fresh := s.fresh + 1
                si := { s.si with can := { s.si.can with recv := 127, err := .active, acks := s.si.can.acks + 1 } } }.notify
              .canState 0 (0 + 256 * 1))))
    ∧ ∀ (s : State) (f : CanFrame) (can : CanCtl),
      ((s.si.can.setup.mode = .listen ∨ s.si.can.setup.mode = .loopback) ∧ s.si.can.err ≠ .busOff ∧ can = s.si.can)
        ∨ (s.si.can.setup.mode = .normal ∧ s.si.can.err = .active ∧ s.si.can.tec.toNat < 128 ∧ s.si.can.recv.toNat < 128
          ∧ can = { s.si.can with
              recv := if s.si.can.recv = 0 then 0 else s.si.can.recv - 1, acks := s.si.can.acks + 1 }) →
      ((∀ i : Fin 12, s.si.slots[i].enabled = false) →
        exec (.canFrameReceived f) s = .next { s with si := { s.si with can := can } })
      ∧ (∀ (i : Fin 12) (only rest : Vector CanSlot 12) (t u : State), (∀ j : Fin 12, s.si.slots[j].enabled = true → i ≤ j) →
        (∀ j : Fin 12, only[j] = if j = i then s.si.slots[j] else { s.si.slots[j] with enabled := false }) →
        (∀ j : Fin 12, rest[j] = if j = i then { s.si.slots[j] with enabled := false } else s.si.slots[j]) →
        exec (.canFrameReceived f) { s with si := { s.si with slots := only } } = .next t →
        exec (.canFrameReceived f) { t with si := { t.si with
            slots := rest, can := { t.si.can with setup := { t.si.can.setup with mode := .listen } } } } = .next u →
        exec (.canFrameReceived f) s
          = .next { u with si := { u.si with slots := s.si.slots, can := { u.si.can with setup := s.si.can.setup } } })
      ∧ ∀ (i : Fin 12) (c : SlotSetup),
        (∀ j : Fin 12, j ≠ i → s.si.slots[j].enabled = false) → s.si.slots[i] = { enabled := true, setup := some c } →
        (f.remote = true ∨ c.ext ≠ f.ext ∨ f.ident &&& c.mask ≠ c.ident &&& c.mask →
          exec (.canFrameReceived f) s = .next { s with si := { s.si with can := can } })
        ∧ (f.remote = false → c.ext = f.ext → f.ident &&& c.mask = c.ident &&& c.mask →
          (8 * f.data.length < c.start + c.length →
            exec (.canFrameReceived f) s
              = .next { s with si := { s.si with can := { can with short := bump can.short } } })
          ∧ (c.start + c.length ≤ 8 * f.data.length →
            (c.target = .speed → ∀ u : State,
              u = { s with si := { s.si with can := can, speed := { s.si.speed with
                  value := some (max 0 (min (c.raw f.data * c.mult + c.offset) 65535)).toNat
                  st := .fresh (s.tbu.now + BitVec.ofNat 32 (s.si.speed.timeout * 1000)), last := some (s.tbu.now, i)
                  saturated := s.si.speed.saturated || decide (c.raw f.data * c.mult + c.offset < 0
                    ∨ 65535 < c.raw f.data * c.mult + c.offset) } } } →
              exec (.canFrameReceived f) s
                = .next (if s.si.speed.st.code = 1 then u else u.notify .signalState 1 (1 + 256 * s.si.speed.st.code)))
            ∧ (c.target = .steer → ∀ u : State,
              u = { s with si := { s.si with can := can, steer := { s.si.steer with
                  value := some (max (-8000) (min (c.raw f.data * c.mult + c.offset) 8000))
                  st := .fresh (s.tbu.now + BitVec.ofNat 32 (s.si.steer.timeout * 1000)), last := some (s.tbu.now, i)
                  saturated := s.si.steer.saturated || decide (c.raw f.data * c.mult + c.offset < -8000
                    ∨ 8000 < c.raw f.data * c.mult + c.offset) } } } →
              exec (.canFrameReceived f) s
                = .next (if s.si.steer.st.code = 1 then u else u.notify .signalState 2 (1 + 256 * s.si.steer.st.code)))
            ∧ (c.target = .doors → ∀ u : State,
              u = { s with si := { s.si with can := can, doors := { s.si.doors with
                  value := some (BitVec.ofInt 8 (c.raw f.data))
                  st := .fresh (s.tbu.now + BitVec.ofNat 32 (s.si.doors.timeout * 1000)), last := some (s.tbu.now, i) } } } →
              exec (.canFrameReceived f) s
                = .next (if s.si.doors.st.code = 1 then u else u.notify .signalState 3 (1 + 256 * s.si.doors.st.code)))
            ∧ ∀ (rev : Int) (v : Gear) (votes : Nat) (due : SigState) (last : Option (Word32 × Fin 12)),
              c.target = .gear rev → v = (if c.raw f.data = rev then .reverse else .notReverse) →
              votes = (match s.si.gearPending with
                | none => 1
                | some (w, k) => if w = v then k + 1 else 1) →
              due = .fresh (s.tbu.now + BitVec.ofNat 32 (s.si.gear.timeout * 1000)) → last = some (s.tbu.now, i) →
              (∀ u : State, s.si.gear.st.code = 1 ∨ s.si.gear.st.code = 2 → s.si.gear.value = some v →
                u = { s with si := { s.si with
                  can := can, gear := { s.si.gear with st := due, last := last }, gearPending := none } } →
                exec (.canFrameReceived f) s
                  = .next (if s.si.gear.st.code = 1 then u else u.notify .signalState 0 (1 + 256 * s.si.gear.st.code)))
              ∧ (∀ (u : State) (w : Gear), s.si.gear.st.code = 1 ∨ s.si.gear.st.code = 2 → s.si.gear.value = some w → w ≠ v →
                votes < s.si.confirm →
                u = { s with si := { s.si with
                  can := can, gear := { s.si.gear with st := due, last := last }, gearPending := some (v, votes) } } →
                exec (.canFrameReceived f) s
                  = .next (if s.si.gear.st.code = 1 then u else u.notify .signalState 0 (1 + 256 * s.si.gear.st.code)))
              ∧ (s.si.gear.st = .never → votes < s.si.confirm →
                exec (.canFrameReceived f) s
                  = .next { s with si := { s.si with can := can, gearPending := some (v, votes) } })
              ∧ (s.si.gear.st = .unknown → votes < s.si.confirm →
                exec (.canFrameReceived f) s
                  = .next { s with si := { s.si with
                      can := can, gear := { s.si.gear with last := last }, gearPending := some (v, votes) } })
              ∧ ∀ u u' : State,
                s.si.gear.st = .never ∨ s.si.gear.st = .unknown
                  ∨ (s.si.gear.st.code = 1 ∨ s.si.gear.st.code = 2) ∧ (∃ w, s.si.gear.value = some w ∧ w ≠ v) →
                s.si.confirm ≤ votes →
                u = { s with si := { s.si with
                  can := can, gear := { s.si.gear with value := some v, st := due, last := last }, gearPending := none } } →
                u' = (if s.si.gear.st.code = 1 then u else u.notify .signalState 0 (1 + 256 * s.si.gear.st.code)) →
                (v = .reverse → (s.ca.reverseView = none ∨ ∃ e ∈ s.ca.stack, e.source = .gear) →
                  exec (.canFrameReceived f) s = .next { u' with ca := { s.ca with lingerTimer := none } })
                ∧ (∀ (view : Fin 16) (hi lo : List Claim) (k : Nat) (tk : Byte), v = .reverse → s.ca.reverseView = some view →
                  (∀ e ∈ s.ca.stack, e.source ≠ .gear) →
                  (∀ e ∈ hi, 2 < e.rank) → (∀ e ∈ lo, e.rank ≤ 2) → tk = nextToken^[k] s.ca.token →
                  k ≤ (hi ++ lo).length → (∀ j, j < k → ∃ e ∈ hi ++ lo, e.token = nextToken^[j] s.ca.token) →
                  (∀ e ∈ hi ++ lo, e.token ≠ tk) →
                  ∀ w : State, w = { u' with ca := { s.ca with
                    lingerTimer := none, token := nextToken tk
                    stack := hi ++ Claim.mk tk .gear view s.tbu.now :: lo } } →
                  (s.ca.stack.length < 6 → s.ca.stack = hi ++ lo → exec (.canFrameReceived f) s = .next w)
                  ∧ ∀ e : Claim, s.ca.stack = hi ++ lo ++ [e] → 5 ≤ (hi ++ lo).length → e.source = .portD →
                    exec (.canFrameReceived f) s = .next (w.notifyOwner .d .claimEvicted e.token.toNat e.view))
                ∧ (v = .notReverse → ((∀ e ∈ s.ca.stack, e.source ≠ .gear) ∨ s.ca.lingerTimer.isSome = true) →
                  exec (.canFrameReceived f) s = .next u')
                ∧ (v = .notReverse → (∃ e ∈ s.ca.stack, e.source = .gear) → s.ca.lingerTimer = none →
                  (s.ca.linger ≠ 0 →
                    exec (.canFrameReceived f) s
                      = .next { u' with ca := { s.ca with
                          lingerTimer := some (s.tbu.now + BitVec.ofNat 32 (s.ca.linger * 1000)) } })
                  ∧ (s.ca.linger = 0 →
                    exec (.canFrameReceived f) s
                      = .next { u' with ca := { s.ca with
                          stack := s.ca.stack.filter fun e : Claim => decide (e.source ≠ Source.gear) } }))))

/-- An error detected while receiving raises REC by one up to 255 in NORMAL and sets the error state by the counters, telling
the ports of a change; in LISTEN and LOOPBACK, whose counters are frozen, it only notes the cause, as RECEIVER; OFF and BUS_OFF
take none (R155, R164, R166). -/
def Obligations.ReceiveErrorsCount : Prop :=
  ∀ (s : State) (e : BusError) (c : CauseRecord),
    c = (match e with
      | .bit0 => { s.si.can.cause with bit0 := true, role := some .receiver }
      | .bit1 => { s.si.can.cause with bit1 := true, role := some .receiver }
      | .stuff => { s.si.can.cause with stuff := true, role := some .receiver }
      | .form => { s.si.can.cause with form := true, role := some .receiver }
      | .crc => { s.si.can.cause with crc := true, role := some .receiver }
      | .ack => { s.si.can.cause with ack := true, role := some .receiver }) →
    (s.si.can.setup.mode = .off ∨ s.si.can.err = .busOff → exec (.receiveError e) s = .next s)
      ∧ (s.si.can.setup.mode = .listen ∨ s.si.can.setup.mode = .loopback → s.si.can.err ≠ .busOff →
        exec (.receiveError e) s = .next { s with si := { s.si with can := { s.si.can with cause := c } } })
      ∧ (s.si.can.setup.mode = .normal → s.si.can.err = .active → s.si.can.tec.toNat < 128 →
        (s.si.can.recv.toNat < 127 →
          exec (.receiveError e) s
            = .next { s with si := { s.si with can := { s.si.can with cause := c, recv := s.si.can.recv + 1 } } })
        ∧ (s.si.can.recv.toNat = 127 →
          exec (.receiveError e) s
            = .next (({ s with si := { s.si with can := { s.si.can with cause := c, recv := 128, err := .passive } } }).notify
                .canState 0 1)))
      ∧ (s.si.can.setup.mode = .normal → s.si.can.err = .passive → 128 ≤ s.si.can.tec.toNat ∨ 128 ≤ s.si.can.recv.toNat →
        (s.si.can.recv.toNat < 255 →
          exec (.receiveError e) s
            = .next { s with si := { s.si with can := { s.si.can with cause := c, recv := s.si.can.recv + 1 } } })
        ∧ (s.si.can.recv.toNat = 255 →
          exec (.receiveError e) s = .next { s with si := { s.si with can := { s.si.can with cause := c } } }))

/-- At the interval's deadline the status frame is built from the state, the rolling counter advances and the timer restarts;
a frame still waiting is replaced and counted late (R167). In LOOPBACK it completes at once and goes to the slots as a frame
received without error, so that the event then does what CAN_FRAME_RECEIVED does with it (R155, R158, R168). Bits 5 to 7 of its
fault summary byte are 0 by the model's choice (log entry 41). An attempt begins only in NORMAL outside BUS_OFF for a frame that
is pending (R168); elsewhere the event changes nothing (the model's choice of log entry 10). -/
def Obligations.StatusFrameIsBuilt : Prop :=
  ∀ s : State,
    (s.si.can.timer = some s.tbu.now →
        ∃ (f : StatusFrame) (can : CanCtl),
          can = { s.si.can with
            timer := some (s.tbu.now + BitVec.ofNat 32 (s.si.can.setup.interval * 1000)), rolling := s.si.can.rolling + 1
            late := if s.si.can.buffer.isSome then bump s.si.can.late else s.si.can.late
            attempt := s.si.can.attempt.map fun a => { a with replaced := true } }
            ∧ (s.si.can.setup.mode = .normal →
              exec .statusIntervalExpiry s = .next { s with si := { s.si with can := { can with buffer := some f } } })
            ∧ (s.si.can.setup.mode = .loopback → ∀ u : State,
              u = { s with si := { s.si with can := { can with buffer := none } } } →
              ((∀ i : Fin 12, s.si.slots[i].enabled = false) → exec .statusIntervalExpiry s = .next u)
              ∧ (s.si.can.err ≠ .busOff →
                exec .statusIntervalExpiry s
                  = exec (.canFrameReceived { ext := f.ext, ident := f.ident, remote := false, data := f.data.toList }) u))
            ∧ f.ident = s.si.can.setup.ident ∧ f.ext = s.si.can.setup.ext ∧ f.singleShot = s.si.can.setup.singleShot
            ∧ f.count = s.si.can.rolling + 1
            ∧ f.data[0] = (match s.ca.decision.view with | none => 255 | some v => BitVec.ofNat 8 v)
            ∧ f.data[1] = BitVec.ofNat 8 (s.tbu.lastMask.toNat + (if s.ca.decision.mute then 16 else 0)
                + (if s.ca.stack.any (fun e : Claim => e.source.isPortA) then 32 else 0))
            ∧ f.data[2].toNat = s.cp.faults.toNat
            ∧ f.data[3] = BitVec.ofNat 8 (s.ce.lastSeq.getD 0).toNat
            ∧ f.data[4].toNat = min 255 (s.tbu.lastSkew.toNat / 1000)
            ∧ f.data[5] = BitVec.ofNat 8 s.ca.stack.length ∧ f.data[6] = s.si.can.recv
            ∧ f.data[7].toNat = (s.si.can.rolling + 1).toNat + 16 * s.si.can.err.code)
      ∧ (∀ f, s.si.can.setup.mode = .normal → s.si.can.err ≠ .busOff → s.si.can.buffer = some f → s.si.can.attempt = none →
        exec .statusTxAttempt s
          = .next { s with si := { s.si with can := { s.si.can with attempt := some { frame := f, replaced := false } } } })
      ∧ (s.si.can.setup.mode ≠ .normal ∨ s.si.can.err = .busOff ∨ s.si.can.buffer = none →
        exec .statusTxAttempt s = .next s)

/-- An attempt ends (R164 to R166, R168): sent, TEC falls by one, not below 0, and the frame leaves the buffer unless it was
replaced; lost in arbitration, nothing is counted; with an error of any kind the cause is recorded with role TRANSMITTER and TEC
rises by 8, which past 127 is ERROR_PASSIVE and past 255 BUS_OFF, with CAN_BUS_OFF latched; each change of the error state sends
CAN_STATE. A single-shot frame that is not sent is dropped, counted and reported with STATUS_TX_FAILED, after CAN_STATE at
BUS_OFF; in which order the two stand at ERROR_PASSIVE is free (log entry 7). -/
def Obligations.StatusAttemptEnds : Prop :=
  ∀ (s : State) (a : Attempt) (left : Option StatusFrame), s.si.can.attempt = some a →
    left = (if a.replaced then s.si.can.buffer else none) →
    (∀ tec : Byte, tec = (if s.si.can.tec = 0 then 0 else s.si.can.tec - 1) →
      (s.si.can.err = .active ∧ s.si.can.tec.toNat < 128 ∧ s.si.can.recv.toNat < 128
          ∨ s.si.can.err = .passive ∧ (128 ≤ tec.toNat ∨ 128 ≤ s.si.can.recv.toNat) →
        exec .statusTxSent s
          = .next { s with si := { s.si with can := { s.si.can with tec := tec, attempt := none, buffer := left } } })
      ∧ (s.si.can.err = .passive → tec.toNat < 128 → s.si.can.recv.toNat < 128 →
        exec .statusTxSent s
          = .next (({ s with si := { s.si with can := { s.si.can with
                tec := tec, err := .active, attempt := none, buffer := left } } }).notify .canState 0 (256 * 1))))
      ∧ (a.frame.singleShot = false →
        exec .arbitrationLost s = .next { s with si := { s.si with can := { s.si.can with attempt := none } } })
      ∧ (a.frame.singleShot = true →
        exec .arbitrationLost s
          = .next (({ s with si := { s.si with can := { s.si.can with
                attempt := none, buffer := left, failed := bump s.si.can.failed } } }).notify .statusTxFailed 0
              a.frame.count.toNat))
      ∧ ∀ (e : BusError) (cause : CauseRecord) (can : CanCtl),
        cause = (match e with
          | .bit0 => { s.si.can.cause with bit0 := true, role := some .transmitter }
          | .bit1 => { s.si.can.cause with bit1 := true, role := some .transmitter }
          | .stuff => { s.si.can.cause with stuff := true, role := some .transmitter }
          | .form => { s.si.can.cause with form := true, role := some .transmitter }
          | .crc => { s.si.can.cause with crc := true, role := some .transmitter }
          | .ack => { s.si.can.cause with ack := true, role := some .transmitter }) →
        can = (if a.frame.singleShot then
            { s.si.can with cause := cause, attempt := none, buffer := left, failed := bump s.si.can.failed }
          else { s.si.can with cause := cause, attempt := none }) →
        (s.si.can.err = .active ∧ s.si.can.tec.toNat < 120 ∧ s.si.can.recv.toNat < 128
            ∨ s.si.can.err = .passive ∧ s.si.can.tec.toNat < 248 ∧ (120 ≤ s.si.can.tec.toNat ∨ 128 ≤ s.si.can.recv.toNat) →
          ∀ u : State, u = { s with si := { s.si with can := { can with tec := s.si.can.tec + 8 } } } →
          exec (.statusTxError e) s
            = .next (if a.frame.singleShot then u.notify .statusTxFailed 0 a.frame.count.toNat else u))
        ∧ (s.si.can.err = .active → 120 ≤ s.si.can.tec.toNat → s.si.can.tec.toNat < 248 →
          ∀ u : State, u = { s with si := { s.si with can := { can with tec := s.si.can.tec + 8, err := .passive } } } →
          (a.frame.singleShot = false → exec (.statusTxError e) s = .next (u.notify .canState 0 1))
          ∧ (a.frame.singleShot = true → ∃ first : Bool, exec (.statusTxError e) s
              = .next (if first then
                  ({ u with fresh := s.fresh + 1 }.notify .canState 0 1).notify .statusTxFailed 0 a.frame.count.toNat
                else ({ u with fresh := s.fresh + 1 }.notify .statusTxFailed 0 a.frame.count.toNat).notify .canState 0 1)))
        ∧ ∀ (old : Nat) (u : State), s.si.can.err = .active ∧ old = 0 ∨ s.si.can.err = .passive ∧ old = 1 →
          248 ≤ s.si.can.tec.toNat →
          u = ({ s with
            si := { s.si with can := { can with tec := 255, err := .busOff, recovery := s.si.can.setup.autoRecover } }
            cp := { s.cp with faults := s.cp.faults ||| 2 } }).notify .canState 0 (2 + 256 * old) →
          exec (.statusTxError e) s
            = .next (if a.frame.singleShot then u.notify .statusTxFailed 0 a.frame.count.toNat else u)

/-! ### Scanout -/

/-- DISPLAY_SET turns the display on or off with a clamped period (R174): turning it on from OFF starts the display timer for
the new period, turning it off stops it, cuts the frame in progress short and releases the held slot; the counters keep
their values. -/
def Obligations.DisplaySetSwitches : Prop :=
  ∀ (s : State) (h : Hdr) (p : Nat) (res : Result), soundRecord h → passesGuard s h →
    res = (if 16000 ≤ p ∧ p ≤ 40000 then .ok else .clamped) →
    exec (.displaySet h none p) s = .next (s.respond h.port 0x90 .badArg .empty)
      ∧ (s.su.timer = none →
        exec (.displaySet h (some true) p) s
            = .next (({ s with su := { s.su with
                  period := max 16000 (min p 40000)
                  timer := some (s.tbu.now + BitVec.ofNat 32 (max 16000 (min p 40000))) } }).advanceGen.respond h.port 0x90 res
                .empty)
          ∧ exec (.displaySet h (some false) p) s
            = .next (({ s with su := { s.su with period := max 16000 (min p 40000) } }).advanceGen.respond h.port 0x90 res
                .empty))
      ∧ (s.su.timer.isSome = true →
        exec (.displaySet h (some true) p) s
            = .next (({ s with su := { s.su with period := max 16000 (min p 40000) } }).advanceGen.respond h.port 0x90 res
                .empty)
          ∧ exec (.displaySet h (some false) p) s
            = .next (({ s with su := { s.su with
                  period := max 16000 (min p 40000), timer := none, held := none, frame := .nothing } }).advanceGen.respond
                h.port 0x90 res .empty))

/-- A display frame start restarts the display timer and chooses the content (R171, R172): mute colour while the decision is
muted, background with no view or no DONE slot, the newest DONE slot otherwise, counted as a repeat when it is held
already; the scanout hold moves with the choice. Of the 1,280 by 720 pixels of a frame (R170) the link then sends the one
colour, or the slot's pixels as they stand in DRAM in the layout of R41 (R173). -/
def Obligations.DisplayFrameContent : Prop :=
  (∀ (s : State) (due : Option Word32), s.su.timer = some s.tbu.now →
    due = some (s.tbu.now + BitVec.ofNat 32 s.su.period) →
    (s.ca.decision.mute = true →
        exec .displayFrameStart s
          = .next { s with su := { s.su with
              timer := due, held := none, muted := bump s.su.muted
              frame := .mute (Yuv.mk s.ou.setup.palette[15].y s.ou.setup.palette[15].u s.ou.setup.palette[15].v) } })
      ∧ (s.ca.decision.mute = false → s.ca.decision.view = none ∨ (∀ r, s.fsc.outRing = some r → r.newestDone = none) →
        exec .displayFrameStart s
          = .next { s with su := { s.su with
              timer := due, held := none, blank := bump s.su.blank
              frame := .blank (Yuv.mk s.ou.setup.palette[14].y s.ou.setup.palette[14].u s.ou.setup.palette[14].v) } })
      ∧ ∀ (r : OutRing) (k : Nat), s.ca.decision.mute = false → s.ca.decision.view.isSome = true → s.fsc.outRing = some r →
        r.newestDone = some k →
        (s.su.held = some k →
          exec .displayFrameStart s
            = .next { s with su := { s.su with timer := due, repeated := bump s.su.repeated, frame := .again k } })
        ∧ (s.su.held ≠ some k →
          exec .displayFrameStart s
            = .next { s with su := { s.su with timer := due, held := some k, frame := .composed k } }))
    ∧ ∀ (s : State) (x y : Nat),
      (1280 ≤ x ∨ 720 ≤ y ∨ s.su.frame = .nothing → s.displayPixel x y = none)
      ∧ (x < 1280 → y < 720 →
        (∀ c, s.su.frame = .blank c ∨ s.su.frame = .mute c → s.displayPixel x y = some c)
        ∧ ∀ (r : OutRing) (k row : Nat), s.su.frame = .composed k ∨ s.su.frame = .again k → s.fsc.outRing = some r →
          row = (s.fsc.areas[r.area].base + k * 29) * 65536 + y * 2560 →
          s.displayPixel x y
            = some { y := s.dram.read (row + 2 * x), u := s.dram.read (row + 4 * (x / 2) + 1)
                     v := s.dram.read (row + 4 * (x / 2) + 3) })

/-! ### Composition -/

/-- A compose start at the deadline restarts the compose period for the current setting, schedules the pulses of the TRIGGERED
cameras, checks each camera's newest frame for an age of 2^31 µs and, while a compose is in flight, counts and latches an
overrun, tells the ports of the first one with OVERRUN, and takes no decision: the mute state, the last usable mask, the
last skew and the skew-over flag stay (R45, R47, R52, R85). -/
def Obligations.ComposeStartOverrun : Prop :=
  ∀ (s : State) (c : Compose), s.tbu.timer = s.tbu.now → s.ce.current = some c →
    ∃ t, exec .composeStart s = .next t
      ∧ t.tbu.timer = s.tbu.now + BitVec.ofNat 32 s.tbu.period ∧ t.tbu.running = s.tbu.period ∧ t.tbu.now = s.tbu.now
      ∧ (∀ n : Fin 4, t.tbu.cams[n].pulse = (match s.ciu[n].setup.trig with
          | .freeRun => s.tbu.cams[n].pulse
          | .triggered => some (s.tbu.now + BitVec.ofNat 32 (min s.ciu[n].setup.phase (s.tbu.period - 1))))
        ∧ t.tbu.cams[n].lastCapture = s.tbu.cams[n].lastCapture ∧ t.tbu.cams[n].interval = s.tbu.cams[n].interval
        ∧ (∀ (r : CamRing) (k : Nat) (x : CamSlot) (q st : Word32) (l : Count), s.fsc.camRing[n] = some r →
            r.newestReady = some k → r.slots[k]? = some x → x.st = .ready q st l →
            t.tbu.cams[n].expired = (if (s.tbu.now - st).toNat < 2 ^ 31 then s.tbu.cams[n].expired else some q))
        ∧ ((∀ r, s.fsc.camRing[n] = some r → r.newestReady = none) → t.tbu.cams[n].expired = s.tbu.cams[n].expired))
      ∧ t.ce = { s.ce with
          current := some c, overrunNoticed := true, counts := { s.ce.counts with overrun := bump s.ce.counts.overrun } }
      ∧ t.ca = s.ca ∧ t.fsc = s.fsc ∧ t.dram = s.dram ∧ t.ciu = s.ciu ∧ t.su = s.su ∧ t.si = s.si ∧ t.gs = s.gs
      ∧ t.bu = s.bu ∧ t.ou = s.ou ∧ t.vc = s.vc ∧ t.fresh = s.fresh ∧ t.pending = s.pending
      ∧ t.tbu.lastMask = s.tbu.lastMask ∧ t.tbu.lastSkew = s.tbu.lastSkew ∧ t.tbu.skewOver = s.tbu.skewOver
      ∧ t.tbu.period = s.tbu.period ∧ t.tbu.stale = s.tbu.stale ∧ t.tbu.skewLimit = s.tbu.skewLimit ∧ t.tbu.mask = s.tbu.mask
      ∧ (s.ce.overrunNoticed = true → t.cp = { s.cp with faults := s.cp.faults ||| 4 })
      ∧ (s.ce.overrunNoticed = false →
          t.cp = { (s.notify .overrun c.target (bump s.ce.counts.overrun).toNat).cp with faults := s.cp.faults ||| 4 })

/-- A compose start in IDLE takes the decision (R86, R148, R149): muted by the gate when the effective speed is above it and
no claim of rank 2 or more stands at the head; else the head's view, or the default view on an empty stack; a decision other
than the last one sends VIEW_CHANGED (R150). A muted one, one with no view and one with no compose target are counted, and the
last latches BLOCKED (R87). With a target, the usable cameras' newest frames are pinned and their mask and skew recorded, with
CAM_USABILITY, SKEW_OVER and SKEW_OK on a change (R34, R51 to R58), the sets of the view's panes are in use (R72, R88), and the
snapshot is taken (R89). The timebase's part comes first (R45, R47, R52; that it does is the model's inference of log entry
28). -/
def Obligations.ComposeStartDecides : Prop :=
  ∀ (s : State) (mute : Bool) (view : Option (Fin 16)) (decision : Decision) (u : State),
    s.tbu.timer = s.tbu.now → s.ce.current = none →
    (mute = true ↔ s.ca.gate.toNat < s.si.effSpeed ∧ ∀ e, s.ca.stack.head? = some e → e.source = .portD) →
    view = (match s.ca.stack with | [] => s.vc.dflt | e :: _ => some e.view) →
    decision = (if mute then { view := none, mute := true } else { view := view, mute := false }) →
    u = (if decision = s.ca.decision then s
      else s.notify .viewChanged ((decision.view.map Fin.val).getD 255)
        ((if decision.mute then 1 else 0) + 256 * (s.ca.decision.view.map Fin.val).getD 255
          + (if s.ca.decision.mute then 65536 else 0))) →
    ∃ t, exec .composeStart s = .next t
      ∧ t.ca = { s.ca with decision := decision, speedAt := s.si.effSpeed }
      ∧ t.dram = s.dram ∧ t.ciu = s.ciu ∧ t.si = s.si ∧ t.ou = s.ou ∧ t.su = s.su ∧ t.bu = s.bu ∧ t.vc = s.vc
      ∧ t.cp.gen = s.cp.gen ∧ t.pending = s.pending ∧ t.fsc.areas = s.fsc.areas
      ∧ t.gs.mem = s.gs.mem ∧ t.gs.free = s.gs.free
      ∧ (t.tbu.now = s.tbu.now ∧ t.tbu.timer = s.tbu.now + BitVec.ofNat 32 s.tbu.period ∧ t.tbu.running = s.tbu.period
          ∧ t.tbu.period = s.tbu.period ∧ t.tbu.stale = s.tbu.stale ∧ t.tbu.skewLimit = s.tbu.skewLimit
          ∧ t.tbu.mask = s.tbu.mask)
      ∧ (∀ n : Fin 4, t.tbu.cams[n].pulse = (match s.ciu[n].setup.trig with
            | .freeRun => s.tbu.cams[n].pulse
            | .triggered => some (s.tbu.now + BitVec.ofNat 32 (min s.ciu[n].setup.phase (s.tbu.period - 1))))
          ∧ t.tbu.cams[n].lastCapture = s.tbu.cams[n].lastCapture ∧ t.tbu.cams[n].interval = s.tbu.cams[n].interval
          ∧ (∀ (r : CamRing) (k : Nat) (c : CamSlot) (q st : Word32) (l : Count), s.fsc.camRing[n] = some r →
              r.newestReady = some k → r.slots[k]? = some c → c.st = .ready q st l →
              t.tbu.cams[n].expired = (if 2 ^ 31 ≤ (s.tbu.now - st).toNat then some q else s.tbu.cams[n].expired))
          ∧ ((∀ r, s.fsc.camRing[n] = some r → r.newestReady = none) → t.tbu.cams[n].expired = s.tbu.cams[n].expired))
      ∧ (mute = true → t.ce = { s.ce with counts := { s.ce.counts with mutedSkip := bump s.ce.counts.mutedSkip } }
          ∧ t.fsc = s.fsc ∧ t.gs = s.gs ∧ t.tbu.lastMask = s.tbu.lastMask ∧ t.cp = u.cp)
      ∧ (mute = false → view = none →
          t.ce = { s.ce with counts := { s.ce.counts with noView := bump s.ce.counts.noView } }
            ∧ t.fsc = s.fsc ∧ t.gs = s.gs ∧ t.tbu.lastMask = s.tbu.lastMask ∧ t.cp = u.cp)
      ∧ (mute = false → view.isSome = true → (∀ r, s.fsc.outRing = some r → r.composeTarget s.su.held = none) →
          t.ce = { s.ce with counts := { s.ce.counts with blocked := bump s.ce.counts.blocked } }
            ∧ t.fsc = s.fsc ∧ t.gs = s.gs ∧ t.tbu.lastMask = s.tbu.lastMask
            ∧ t.cp = { u.cp with faults := s.cp.faults ||| 16 })
      ∧ (∀ (v : Fin 16) (r : OutRing) (k : Nat), mute = false → view = some v → s.fsc.outRing = some r →
          r.composeTarget s.su.held = some k →
          (∀ n : Fin 4, t.tbu.lastMask.getLsbD n = true ↔ ∃ j st, UsableFrame s n j st)
            ∧ (∀ n : Fin 4, (∀ j st, ¬ UsableFrame s n j st) → t.fsc.camRing[n] = s.fsc.camRing[n])
            ∧ (∀ (n : Fin 4) (j : Nat) (st : Word32) (q : CamRing), UsableFrame s n j st → s.fsc.camRing[n] = some q →
                t.fsc.camRing[n] = some { q with slots := q.slots.modify j fun x => { x with pin := true } })
            ∧ (∃ skew : Nat, t.tbu.lastSkew = BitVec.ofNat 32 skew ∧ t.tbu.skewOver = decide (s.tbu.skewLimit * 1000 < skew)
                ∧ (∀ (n m : Fin 4) (i j : Nat) (st st' : Word32), UsableFrame s n i st → UsableFrame s m j st' →
                    (s.tbu.now - st).toNat ≤ (s.tbu.now - st').toNat + skew)
                ∧ (skew = 0 ∨ ∃ (n m : Fin 4) (i j : Nat) (st st' : Word32), UsableFrame s n i st ∧ UsableFrame s m j st'
                    ∧ (s.tbu.now - st).toNat = (s.tbu.now - st').toNat + skew)
                ∧ ∀ w x : State,
                  w = (if t.tbu.lastMask = s.tbu.lastMask then u
                    else u.notify .camUsability 0 (t.tbu.lastMask.toNat + 16 * s.tbu.lastMask.toNat)) →
                  x = (if s.tbu.skewLimit * 1000 < skew ∧ s.tbu.skewOver = false then w.notify .skewOver 0 skew
                    else if skew ≤ s.tbu.skewLimit * 1000 ∧ s.tbu.skewOver = true then w.notify .skewOk 0 skew else w) →
                  t.cp = x.cp)
            ∧ (∀ (i : Fin 32) (g : GridShape) (b : Nat) (f : Bool), s.gs.sets[i] = .held g (.valid b f) →
                t.gs.sets[i] = .held g (.valid b
                  (f || ((s.vc.views[v]).getD []).any fun p => decide (p.binding = some i))))
            ∧ (∀ i : Fin 32, (∀ g b f, s.gs.sets[i] ≠ .held g (.valid b f)) → t.gs.sets[i] = s.gs.sets[i])
            ∧ (∃ c, t.ce = { s.ce with current := some c } ∧ c.target = k ∧ c.start = s.tbu.now ∧ c.mask = t.tbu.lastMask
              ∧ c.skew = t.tbu.lastSkew ∧ c.snap.view = v ∧ c.snap.gains = s.bu.gains ∧ c.snap.overlay = s.ou.setup
              ∧ c.snap.markers = s.ou.markers ∧ c.snap.gear = s.si.effGear ∧ c.snap.panes = (s.vc.views[v]).getD []
              ∧ (c.snap.steer, c.snap.steerUnknown) = s.si.effSteer ∧ c.snap.overlayArea = s.fsc.joined .overlay
              ∧ (∀ z : Fin 4, c.stats[z] = { sa := 0, sb := 0, n := 0 }) ∧ c.replacedBytes = [])
            ∧ t.cp.faults = s.cp.faults
            ∧ t.fsc.outRing = some { r with slots := r.slots.modify k fun x => { x with
                st := .composing s.tbu.now t.tbu.lastMask } })

/-- A compose completes (R103), its pass being carried out whole at that moment (the model's choice of log entry 5): its slot is
DONE with the output ring's next sequence, no pin is left, the latched sets are no longer in use, FRAME_DONE is sent, the
engine is IDLE, the balance unit runs its update on the pass's statistics (R111 to R116), and of DRAM only the target slot's
frame is written, with the picture of R91 to R102 and R124 to R135 (its choices: log entries 6, 34, 36 and 37), whose
silhouette is read p div 4 bytes into the overlay area for bitmap pixel p (R125); a view with no panes gives the background
entry at every pixel. -/
def Obligations.ComposeCompletes : Prop :=
  (∀ e : PassInput, PictureRules e)
    ∧ ∀ (s : State) (c : Compose) (r : OutRing) (a : Nat), s.ce.current = some c → s.fsc.outRing = some r →
    s.passInDram c r = true → a = s.outSlotByte r c.target →
    ∃ t, exec .composeCompletion s = .next t
      ∧ t.ce.current = none ∧ t.ce.overrunNoticed = false ∧ t.ce.lastSeq = some r.next
      ∧ t.ce.counts = { s.ce.counts with composed := bump s.ce.counts.composed }
      ∧ t.fsc.outRing = some { r with
          next := r.next + 1
          slots := r.slots.modify c.target fun x => { x with
            st := .finished (OutFrame.mk r.next c.snap.view c.mask c.start c.skew (decide (c.mask ≠ 15))) } }
      ∧ (∀ n : Fin 4, t.fsc.camRing[n] = s.fsc.camRing[n].map fun q => { q with
          slots := q.slots.map fun x => { x with pin := false } })
      ∧ t.fsc.areas = s.fsc.areas
      ∧ (∀ x, x < a ∨ a + 1843200 ≤ x → t.dram.read x = s.dram.read x)
      ∧ (∀ k, k < 1843200 → t.dram.read (a + k) = (s.passInput c).outByte k)
      ∧ (c.snap.panes = [] → ∀ k, k < 1843200 → t.dram.read (a + k)
          = (match k % 4 with
            | 1 => c.snap.overlay.palette[14].u
            | 3 => c.snap.overlay.palette[14].v
            | _ => c.snap.overlay.palette[14].y))
      ∧ ((s.passInput c).compose = c ∧ (s.passInput c).dram = s.dram ∧ (s.passInput c).grid = s.gs.mem
          ∧ (∀ (i : Fin 32) (g : GridShape) (p : GridPhase), s.gs.sets[i] = .held g p → (s.passInput c).shape i = some g)
          ∧ (∀ (o : Fin 8) (b l : Nat) (p : AreaPhase), c.snap.overlayArea = some o → s.fsc.areas[o] = .range b l p →
              (s.passInput c).overlayByte = b * 65536)
          ∧ (∀ n : Fin 4, c.mask.getLsbD n = false → (s.passInput c).cam n = none)
          ∧ ∀ (n : Fin 4) (q : CamRing) (k : Nat) (x : CamSlot), c.mask.getLsbD n = true → s.fsc.camRing[n] = some q →
              q.slots[k]? = some x → x.pin = true → (∀ j y, j < k → q.slots[j]? = some y → y.pin = false) →
              (s.passInput c).cam n
                = some { base := s.camSlotByte n q k, width := s.ciu[n].setup.width, height := s.ciu[n].setup.height })
      ∧ t.bu = s.bu.update r.next c.mask (s.passInput c).stats
      ∧ (∃ da db, BalanceUpdated s.bu r.next c.mask (s.passInput c).stats da db t.bu)
      ∧ (∀ (i : Fin 32) (g : GridShape) (b : Nat) (f : Bool), s.gs.sets[i] = .held g (.valid b f) →
          t.gs.sets[i] = .held g (.valid b (f && !(c.snap.panes.any fun p => decide (p.binding = some i)))))
      ∧ (∀ i : Fin 32, (∀ g b f, s.gs.sets[i] ≠ .held g (.valid b f)) → t.gs.sets[i] = s.gs.sets[i])
      ∧ t.cp = (s.notify .frameDone c.target r.next.toNat).cp
      ∧ t.ciu = s.ciu ∧ t.tbu = s.tbu ∧ t.gs.mem = s.gs.mem ∧ t.gs.free = s.gs.free ∧ t.vc = s.vc ∧ t.ou = s.ou
      ∧ t.ca = s.ca ∧ t.si = s.si ∧ t.su = s.su ∧ t.pending = s.pending ∧ t.cp.gen = s.cp.gen ∧ t.cp.faults = s.cp.faults

/-! ### The whole part -/

/-- Every invariant of this file holds right after power-on reset. -/
def Obligations.InvariantsHoldAtReset : Prop :=
  MemoryInv State.reset ∧ GainInv State.reset ∧ QueueInv State.reset ∧ MarkerInv State.reset ∧ ClaimInv State.reset
    ∧ ViewInv State.reset ∧ AreaInv State.reset ∧ HoldInv State.reset ∧ GridCellsInv State.reset ∧ BindInv State.reset
    ∧ OneOpenInv State.reset

/-- Every step keeps both memories canonical, both notice queues at 32 notices at most (R181), and every gain within 128 to
512 (R108, R115). -/
def Obligations.StepKeepsMemoriesQueuesAndGains : Prop :=
  ∀ s t : State, step s = .next t →
    (MemoryInv s → MemoryInv t) ∧ (QueueInv s → QueueInv t) ∧ (GainInv s → GainInv t)

/-- Every step keeps the marker list as R131 has it: at most 16, distinct ids, severities falling from the head. -/
def Obligations.StepKeepsMarkers : Prop :=
  ∀ s t : State, MarkerInv s → step s = .next t → MarkerInv t

/-- Every step keeps the claim stack as R138 and R139 have it: at most six entries, ranks falling from the head, distinct
tokens that are never 0, and the limits of the three sources. -/
def Obligations.StepKeepsClaims : Prop :=
  ∀ s t : State, ClaimInv s → step s = .next t → ClaimInv t

/-- Every step keeps the areas within DRAM and apart (R22), every view in use DEFINED (R76), grid memory covered once by the
free extents and the sets (R60), and the bind counts and in-use flags equal to the panes' bindings and to what the compose in
flight reads (R72). -/
def Obligations.StepKeepsAreasAndViews : Prop :=
  ∀ s t : State, step s = .next t →
    (AreaInv s → AreaInv t) ∧ (ViewInv s → ViewInv t) ∧ (GridCellsInv s → GridCellsInv t) ∧ (BindInv s → BindInv t)

/-- Every step keeps pins and holds on READY and DONE slots only (R29, R32), so that no frame in use is overwritten, and at
most one FILLING or COMPOSING slot in a ring, that of the frame being received or of the compose in flight (R29, R32). -/
def Obligations.StepKeepsHolds : Prop :=
  ∀ s t : State, step s = .next t → (HoldInv s → HoldInv t) ∧ (OneOpenInv s → OneOpenInv t)

/-- The configuration generation changes only by one, on an accepted guarded command whose expected generation matches, and
returns to 0 only at a hard reset; and each guarded command that is accepted advances it by one, its response already
carrying the new value. A guarded command that does not match is refused with GEN_MISMATCH and changes only its response,
and at the greatest generation with WRONG_STATE (R178), AREA_WRITE among them (R40). GRID_DELETE is guarded for a VALID set
alone (R71). -/
def Obligations.GenerationCountsAcceptedCommands : Prop :=
  (∀ (i : Instr) (s t : State), exec i s = .next t →
      t.cp.gen = s.cp.gen ∨ (isHardReset i = true ∧ t.cp.gen = 0)
        ∨ ∃ h x, guardedHeader i = some h ∧ h.gen = s.cp.gen ∧ s.cp.gen ≠ 4294967295 ∧ t.cp.gen = s.cp.gen + 1
          ∧ (t.port h.port).pending = some x ∧ x.result.accepts = true)
    ∧ (∀ (i : Instr) (s t : State) (h : Hdr) (x : Response), guardedHeader i = some h → 10 ≤ h.got →
      (∀ h' id, i = .gridDelete h' id → ∃ (k : Fin 32) (g : GridShape) (b : Nat) (u : Bool),
        id = k ∧ s.gs.sets[k] = .held g (.valid b u)) →
      exec i s = .next t → (t.port h.port).pending = some x → x.result.accepts = true →
      t.cp.gen = s.cp.gen + 1 ∧ x.gen = s.cp.gen + 1)
    ∧ (∀ (i : Instr) (s : State) (h : Hdr) (code : Byte), guardedHeader i = some h → codeOf i = some code → soundRecord h →
      (∀ h bs, i ≠ .areaWrite h bs) → (∀ h id, i ≠ .gridDelete h id) →
      (h.gen ≠ s.cp.gen → exec i s = .next (s.respond h.port code .genMismatch .empty))
        ∧ (h.gen = s.cp.gen → s.cp.gen = 4294967295 → exec i s = .next (s.respond h.port code .wrongState .empty)))
    ∧ ∀ (s : State) (h : Hdr) (bs : List Byte), wholeRecord h → h.len.toNat ≤ bs.length →
      (h.gen ≠ s.cp.gen → exec (.areaWrite h bs) s = .next (s.respond h.port 0x25 .genMismatch .empty))
        ∧ (h.gen = s.cp.gen → s.cp.gen = 4294967295 →
          exec (.areaWrite h bs) s = .next (s.respond h.port 0x25 .wrongState .empty))

/-- A refused command changes no state of the part but its response, which replaces the pending one and has an empty payload
(R177, R179; the empty payload is the model's choice of log entry 13). -/
def Obligations.RefusedCommandsChangeNothing : Prop :=
  ∀ (i : Instr) (s t : State) (h : Hdr), headerOf i = some h → exec i s = .next t →
    t = s ∨ ∃ x, (t.port h.port).pending = some x
      ∧ (x.result.accepts = true ∨ t = s.respond h.port x.code x.result .empty)

/-- What only its own rules change: DRAM, by the events and commands of R13, R24, R40 and R99 alone (that a clear and a pass
write it at their completions alone, and not while they run, is the model's choice of log entries 4 and 5) and, for the
clears and the pass that they abandon, by the resets (R24, R105), grid memory (R66), the counter (R44), the bits of the
fault summary, which stay set (R180), and the notices queued, which stay in order at the front of their queue (R181). -/
def Obligations.StandingState : Prop :=
  ∀ (i : Instr) (s t : State), exec i s = .next t →
    t.pending = s.pending
      ∧ (writesDram i = false → abandons i = false → t.dram = s.dram)
      ∧ (abandons i = true → DramAbandoned s t)
      ∧ ((∀ h bs, i ≠ .gridWrite h bs) → t.gs.mem = s.gs.mem)
      ∧ (isHardReset i = false → t.tbu.now = s.tbu.now)
      ∧ (isHardReset i = false → (∀ h, i ≠ .status h true) → s.cp.faults &&& t.cp.faults = s.cp.faults)
      ∧ (isHardReset i = false → (∀ h, i ≠ .pipelineReset h) → ∀ p : Port, (∀ h, i = .eventRead h → h.port ≠ p) →
        (s.port p).queue <+: (t.port p).queue)
end

