-- ==== Sys2Proof/Laws/Memory.lean ====
section
/-! SUPPORT. The laws of the byte memories: what a write and a clear leave at every address, and that each operation
keeps the canonical form. -/

namespace Sys2Proof.Machine

/-- Reading through two lists: the first that lists the address decides. -/
theorem Memory.read_append (m n : Memory) (a : Nat) :
    Memory.read (m ++ n) a = if a ∈ m.map Prod.fst then Memory.read m a else Memory.read n a := by
  induction m with
  | nil => simp
  | cons c m ih =>
    by_cases h : c.1 = a
    · simp [Memory.read, h]
    · simp only [List.cons_append, Memory.read, h, if_false, ih, List.map_cons, List.mem_cons, Ne.symm h, false_or]

/-- An address that is not listed reads 0. -/
theorem Memory.read_unlisted (m : Memory) (a : Nat) (h : a ∉ m.map Prod.fst) : m.read a = 0 := by
  induction m with
  | nil => rfl
  | cons c m ih =>
    simp only [List.map_cons, List.mem_cons, not_or] at h
    simp [Memory.read, Ne.symm h.1, ih h.2]

/-- Filtering by address keeps what an address that passes reads. -/
theorem Memory.read_filter (m : Memory) (p : Nat → Bool) (a : Nat) :
    Memory.read (m.filter fun c => p c.1) a = if p a then m.read a else 0 := by
  induction m with
  | nil => simp [Memory.read]
  | cons c m ih =>
    by_cases hp : p c.1 <;> by_cases h : c.1 = a
    · subst h; simp [hp, Memory.read]
    · simp [hp, Memory.read, h, ih]
    · subst h; simp [hp, ih]
    · simp [hp, Memory.read, h, ih]

/-- The addresses that a range of cells lists. -/
theorem Memory.mem_cells {base len : Nat} {f : Nat → Byte} {c : Host.Cell} :
    c ∈ Memory.cells base len f ↔ ∃ i < len, f i ≠ 0 ∧ c = (base + i, f i) := by
  simp only [Memory.cells, List.mem_filterMap, List.mem_range]
  constructor
  · rintro ⟨i, hi, h⟩
    split at h
    · cases h
    · exact ⟨i, hi, by assumption, by simpa using h.symm⟩
  · rintro ⟨i, hi, h0, rfl⟩
    exact ⟨i, hi, if_neg h0⟩

/-- The cells of a range rise strictly. -/
theorem Memory.cells_pairwise (base len : Nat) (f : Nat → Byte) :
    (Memory.cells base len f).Pairwise fun c d => c.1 < d.1 := by
  unfold Memory.cells
  refine List.Pairwise.filterMap _ ?_ (List.pairwise_lt_range)
  intro i j hij c hc d hd
  split at hc <;> split at hd <;> simp_all
  subst hc hd
  simpa using hij

/-- What an address reads in a range of cells. -/
theorem Memory.read_cells (base len : Nat) (f : Nat → Byte) (a : Nat) :
    Memory.read (Memory.cells base len f) a = if base ≤ a ∧ a < base + len then f (a - base) else 0 := by
  induction len with
  | zero =>
    rw [if_neg (by omega)]
    rfl
  | succ n ih =>
    have hc : Memory.cells base (n + 1) f
        = Memory.cells base n f ++ (if f n = 0 then [] else [(base + n, f n)]) := by
      unfold Memory.cells
      rw [List.range_succ, List.filterMap_append]
      congr 1
      by_cases h : f n = 0
      · rw [if_pos h]; simp only [List.filterMap_cons, if_pos h, List.filterMap_nil]
      · rw [if_neg h]; simp only [List.filterMap_cons, if_neg h, List.filterMap_nil]
    rw [hc, Memory.read_append]
    by_cases hm : a ∈ (Memory.cells base n f).map Prod.fst
    · rw [if_pos hm, ih]
      obtain ⟨c, hc', rfl⟩ := List.mem_map.1 hm
      obtain ⟨i, hi, -, rfl⟩ := Memory.mem_cells.1 hc'
      rw [if_pos (by simp; omega), if_pos (by simp; omega)]
    · rw [if_neg hm]
      have hz := Memory.read_unlisted _ _ hm
      rw [ih] at hz
      by_cases ha : a = base + n
      · subst ha
        have hin : base ≤ base + n ∧ base + n < base + (n + 1) := by omega
        rw [if_pos hin, Nat.add_sub_cancel_left]
        by_cases h : f n = 0
        · rw [h, if_pos rfl]; rfl
        · simp only [if_neg h, Memory.read, if_true]
      · have : Memory.read (if f n = 0 then [] else [(base + n, f n)]) a = 0 := by
          split
          · rfl
          · simp [Memory.read, Ne.symm ha]
        rw [this]
        split
        · rw [if_pos (by omega)] at hz
          exact hz.symm
        · rfl

/-- Read after write: a range of bytes is replaced, every other address reads as before. -/
theorem Memory.read_write (m : Memory) (base len : Nat) (f : Nat → Byte) (a : Nat) :
    (m.write base len f).read a = if base ≤ a ∧ a < base + len then f (a - base) else m.read a := by
  unfold Memory.write Memory.below Memory.from
  rw [Memory.read_append, Memory.read_append, Memory.read_filter m (fun x => decide (x < base)),
    Memory.read_filter m (fun x => decide (base + len ≤ x)), Memory.read_cells]
  by_cases hb : a ∈ (m.filter fun c => decide (c.1 < base)).map Prod.fst
  · rw [if_pos hb]
    obtain ⟨c, hc, rfl⟩ := List.mem_map.1 hb
    have : c.1 < base := by simpa using (List.mem_filter.1 hc).2
    rw [if_pos (by simpa using this), if_neg (by omega)]
  · rw [if_neg hb]
    by_cases hl : a < base
    · have hu := Memory.read_unlisted _ _ hb
      rw [Memory.read_filter m (fun x => decide (x < base)), if_pos (by simpa using hl)] at hu
      have hm : a ∉ (Memory.cells base len f).map Prod.fst := by
        intro hm
        obtain ⟨c, hc, rfl⟩ := List.mem_map.1 hm
        obtain ⟨i, hi', -, rfl⟩ := Memory.mem_cells.1 hc
        simp at hl
      rw [if_neg hm, if_neg (by simp; omega), if_neg (by omega), hu]
    · by_cases hi : a < base + len
      · have h1 : base ≤ a ∧ a < base + len := ⟨by omega, hi⟩
        rw [if_pos h1]
        by_cases hm : a ∈ (Memory.cells base len f).map Prod.fst
        · rw [if_pos hm, if_pos h1]
        · rw [if_neg hm]
          have hz := Memory.read_unlisted _ _ hm
          rw [Memory.read_cells, if_pos h1] at hz
          rw [if_neg (by simp; omega), if_pos h1, hz]
      · have h1 : ¬ (base ≤ a ∧ a < base + len) := by omega
        have hm : a ∉ (Memory.cells base len f).map Prod.fst := by
          intro hm
          obtain ⟨c, hc, rfl⟩ := List.mem_map.1 hm
          obtain ⟨i, hi', -, rfl⟩ := Memory.mem_cells.1 hc
          simp at hi; omega
        rw [if_neg hm, if_neg h1, if_pos (by simp; omega)]

/-- Read after clear. -/
theorem Memory.read_clear (m : Memory) (base len : Nat) (a : Nat) :
    (m.clear base len).read a = if base ≤ a ∧ a < base + len then 0 else m.read a := by
  have h : m.clear base len = m.write base len fun _ => 0 := by
    simp [Memory.clear, Memory.write, Memory.cells]
  rw [h, Memory.read_write]

/-- Read after a run of bytes is written. -/
theorem Memory.read_writeBytes (m : Memory) (base : Nat) (bs : List Byte) (a : Nat) :
    (m.writeBytes base bs).read a
      = if base ≤ a ∧ a < base + bs.length then bs.getD (a - base) 0 else m.read a :=
  Memory.read_write m base bs.length _ a

/-- The canonical form, said as a property of the cells. -/
theorem Memory.wf_iff (m : Memory) :
    m.wf = true ↔ (m.Pairwise fun c d => c.1 < d.1) ∧ ∀ c ∈ m, c.2 ≠ 0 := by
  simp [Memory.wf]

/-- A write keeps the canonical form. -/
theorem Memory.write_wf (m : Memory) (base len : Nat) (f : Nat → Byte) (h : m.wf = true) :
    (m.write base len f).wf = true := by
  obtain ⟨hp, hz⟩ := (Memory.wf_iff m).1 h
  rw [Memory.wf_iff]
  unfold Memory.write Memory.below Memory.from
  refine ⟨?_, ?_⟩
  · rw [List.pairwise_append, List.pairwise_append]
    refine ⟨hp.filter _, ⟨Memory.cells_pairwise _ _ _, hp.filter _, ?_⟩, ?_⟩
    · intro c hc d hd
      obtain ⟨i, hi, -, rfl⟩ := Memory.mem_cells.1 hc
      have := (List.mem_filter.1 hd).2
      simp at this ⊢; omega
    · intro c hc d hd
      have hc' := (List.mem_filter.1 hc).2
      simp at hc'
      rcases List.mem_append.1 hd with hd | hd
      · obtain ⟨i, hi, -, rfl⟩ := Memory.mem_cells.1 hd
        simp; omega
      · have := (List.mem_filter.1 hd).2
        simp at this; omega
  · intro c hc
    rcases List.mem_append.1 hc with hc | hc
    · exact hz c (List.mem_of_mem_filter hc)
    · rcases List.mem_append.1 hc with hc | hc
      · obtain ⟨i, -, h0, rfl⟩ := Memory.mem_cells.1 hc
        exact h0
      · exact hz c (List.mem_of_mem_filter hc)

/-- A run of bytes keeps the canonical form. -/
theorem Memory.writeBytes_wf (m : Memory) (base : Nat) (bs : List Byte) (h : m.wf = true) :
    (m.writeBytes base bs).wf = true := Memory.write_wf m base bs.length _ h

/-- A clear keeps the canonical form. -/
theorem Memory.clear_wf (m : Memory) (base len : Nat) (h : m.wf = true) : (m.clear base len).wf = true := by
  have he : m.clear base len = m.write base len fun _ => 0 := by
    simp [Memory.clear, Memory.write, Memory.cells]
  rw [he]
  exact Memory.write_wf m base len _ h

/-- Dropping entries keeps the canonical form. -/
theorem Memory.filter_wf (m : Memory) (p : Host.Cell → Bool) (h : m.wf = true) : Memory.wf (m.filter p) = true := by
  obtain ⟨hp, hz⟩ := (Memory.wf_iff m).1 h
  exact (Memory.wf_iff _).2 ⟨hp.filter _, fun c hc => hz c (List.mem_of_mem_filter hc)⟩

end Sys2Proof.Machine
end

