-- ==== Sys2Proof/Laws/State.lean ====
section
/-! SUPPORT. What each named update of the state leaves in each field: one lemma per field per update, by computation. -/

namespace Sys2Proof.Machine

variable (s : State)

@[simp] theorem State.setPort_ciu (p : Port) (q : PortState) : (s.setPort p q).ciu = s.ciu := by cases p <;> rfl
@[simp] theorem State.setPort_fsc (p : Port) (q : PortState) : (s.setPort p q).fsc = s.fsc := by cases p <;> rfl
@[simp] theorem State.setPort_dram (p : Port) (q : PortState) : (s.setPort p q).dram = s.dram := by cases p <;> rfl
@[simp] theorem State.setPort_tbu (p : Port) (q : PortState) : (s.setPort p q).tbu = s.tbu := by cases p <;> rfl
@[simp] theorem State.setPort_gs (p : Port) (q : PortState) : (s.setPort p q).gs = s.gs := by cases p <;> rfl
@[simp] theorem State.setPort_vc (p : Port) (q : PortState) : (s.setPort p q).vc = s.vc := by cases p <;> rfl
@[simp] theorem State.setPort_ce (p : Port) (q : PortState) : (s.setPort p q).ce = s.ce := by cases p <;> rfl
@[simp] theorem State.setPort_bu (p : Port) (q : PortState) : (s.setPort p q).bu = s.bu := by cases p <;> rfl
@[simp] theorem State.setPort_ou (p : Port) (q : PortState) : (s.setPort p q).ou = s.ou := by cases p <;> rfl
@[simp] theorem State.setPort_ca (p : Port) (q : PortState) : (s.setPort p q).ca = s.ca := by cases p <;> rfl
@[simp] theorem State.setPort_si (p : Port) (q : PortState) : (s.setPort p q).si = s.si := by cases p <;> rfl
@[simp] theorem State.setPort_su (p : Port) (q : PortState) : (s.setPort p q).su = s.su := by cases p <;> rfl
@[simp] theorem State.setPort_fresh (p : Port) (q : PortState) : (s.setPort p q).fresh = s.fresh := by cases p <;> rfl
@[simp] theorem State.setPort_pending (p : Port) (q : PortState) : (s.setPort p q).pending = s.pending := by cases p <;> rfl

@[simp] theorem State.notifyOwner_ciu (p : Port) (k : NoticeKind) (a b : Nat) : (s.notifyOwner p k a b).ciu = s.ciu := by cases p <;> rfl
@[simp] theorem State.notifyOwner_fsc (p : Port) (k : NoticeKind) (a b : Nat) : (s.notifyOwner p k a b).fsc = s.fsc := by cases p <;> rfl
@[simp] theorem State.notifyOwner_dram (p : Port) (k : NoticeKind) (a b : Nat) : (s.notifyOwner p k a b).dram = s.dram := by cases p <;> rfl
@[simp] theorem State.notifyOwner_tbu (p : Port) (k : NoticeKind) (a b : Nat) : (s.notifyOwner p k a b).tbu = s.tbu := by cases p <;> rfl
@[simp] theorem State.notifyOwner_gs (p : Port) (k : NoticeKind) (a b : Nat) : (s.notifyOwner p k a b).gs = s.gs := by cases p <;> rfl
@[simp] theorem State.notifyOwner_vc (p : Port) (k : NoticeKind) (a b : Nat) : (s.notifyOwner p k a b).vc = s.vc := by cases p <;> rfl
@[simp] theorem State.notifyOwner_ce (p : Port) (k : NoticeKind) (a b : Nat) : (s.notifyOwner p k a b).ce = s.ce := by cases p <;> rfl
@[simp] theorem State.notifyOwner_bu (p : Port) (k : NoticeKind) (a b : Nat) : (s.notifyOwner p k a b).bu = s.bu := by cases p <;> rfl
@[simp] theorem State.notifyOwner_ou (p : Port) (k : NoticeKind) (a b : Nat) : (s.notifyOwner p k a b).ou = s.ou := by cases p <;> rfl
@[simp] theorem State.notifyOwner_ca (p : Port) (k : NoticeKind) (a b : Nat) : (s.notifyOwner p k a b).ca = s.ca := by cases p <;> rfl
@[simp] theorem State.notifyOwner_si (p : Port) (k : NoticeKind) (a b : Nat) : (s.notifyOwner p k a b).si = s.si := by cases p <;> rfl
@[simp] theorem State.notifyOwner_su (p : Port) (k : NoticeKind) (a b : Nat) : (s.notifyOwner p k a b).su = s.su := by cases p <;> rfl
@[simp] theorem State.notifyOwner_fresh (p : Port) (k : NoticeKind) (a b : Nat) : (s.notifyOwner p k a b).fresh = s.fresh := by cases p <;> rfl
@[simp] theorem State.notifyOwner_pending (p : Port) (k : NoticeKind) (a b : Nat) : (s.notifyOwner p k a b).pending = s.pending := by cases p <;> rfl

@[simp] theorem State.notify_ciu (k : NoticeKind) (a b : Nat) : (s.notify k a b).ciu = s.ciu := rfl
@[simp] theorem State.notify_fsc (k : NoticeKind) (a b : Nat) : (s.notify k a b).fsc = s.fsc := rfl
@[simp] theorem State.notify_dram (k : NoticeKind) (a b : Nat) : (s.notify k a b).dram = s.dram := rfl
@[simp] theorem State.notify_tbu (k : NoticeKind) (a b : Nat) : (s.notify k a b).tbu = s.tbu := rfl
@[simp] theorem State.notify_gs (k : NoticeKind) (a b : Nat) : (s.notify k a b).gs = s.gs := rfl
@[simp] theorem State.notify_vc (k : NoticeKind) (a b : Nat) : (s.notify k a b).vc = s.vc := rfl
@[simp] theorem State.notify_ce (k : NoticeKind) (a b : Nat) : (s.notify k a b).ce = s.ce := rfl
@[simp] theorem State.notify_bu (k : NoticeKind) (a b : Nat) : (s.notify k a b).bu = s.bu := rfl
@[simp] theorem State.notify_ou (k : NoticeKind) (a b : Nat) : (s.notify k a b).ou = s.ou := rfl
@[simp] theorem State.notify_ca (k : NoticeKind) (a b : Nat) : (s.notify k a b).ca = s.ca := rfl
@[simp] theorem State.notify_si (k : NoticeKind) (a b : Nat) : (s.notify k a b).si = s.si := rfl
@[simp] theorem State.notify_su (k : NoticeKind) (a b : Nat) : (s.notify k a b).su = s.su := rfl
@[simp] theorem State.notify_fresh (k : NoticeKind) (a b : Nat) : (s.notify k a b).fresh = s.fresh := rfl
@[simp] theorem State.notify_pending (k : NoticeKind) (a b : Nat) : (s.notify k a b).pending = s.pending := rfl

@[simp] theorem State.respond_ciu (p : Port) (c : Byte) (r : Result) (l : Payload) : (s.respond p c r l).ciu = s.ciu := by cases p <;> rfl
@[simp] theorem State.respond_fsc (p : Port) (c : Byte) (r : Result) (l : Payload) : (s.respond p c r l).fsc = s.fsc := by cases p <;> rfl
@[simp] theorem State.respond_dram (p : Port) (c : Byte) (r : Result) (l : Payload) : (s.respond p c r l).dram = s.dram := by cases p <;> rfl
@[simp] theorem State.respond_tbu (p : Port) (c : Byte) (r : Result) (l : Payload) : (s.respond p c r l).tbu = s.tbu := by cases p <;> rfl
@[simp] theorem State.respond_gs (p : Port) (c : Byte) (r : Result) (l : Payload) : (s.respond p c r l).gs = s.gs := by cases p <;> rfl
@[simp] theorem State.respond_vc (p : Port) (c : Byte) (r : Result) (l : Payload) : (s.respond p c r l).vc = s.vc := by cases p <;> rfl
@[simp] theorem State.respond_ce (p : Port) (c : Byte) (r : Result) (l : Payload) : (s.respond p c r l).ce = s.ce := by cases p <;> rfl
@[simp] theorem State.respond_bu (p : Port) (c : Byte) (r : Result) (l : Payload) : (s.respond p c r l).bu = s.bu := by cases p <;> rfl
@[simp] theorem State.respond_ou (p : Port) (c : Byte) (r : Result) (l : Payload) : (s.respond p c r l).ou = s.ou := by cases p <;> rfl
@[simp] theorem State.respond_ca (p : Port) (c : Byte) (r : Result) (l : Payload) : (s.respond p c r l).ca = s.ca := by cases p <;> rfl
@[simp] theorem State.respond_si (p : Port) (c : Byte) (r : Result) (l : Payload) : (s.respond p c r l).si = s.si := by cases p <;> rfl
@[simp] theorem State.respond_su (p : Port) (c : Byte) (r : Result) (l : Payload) : (s.respond p c r l).su = s.su := by cases p <;> rfl
@[simp] theorem State.respond_fresh (p : Port) (c : Byte) (r : Result) (l : Payload) : (s.respond p c r l).fresh = s.fresh := by cases p <;> rfl
@[simp] theorem State.respond_pending (p : Port) (c : Byte) (r : Result) (l : Payload) : (s.respond p c r l).pending = s.pending := by cases p <;> rfl

@[simp] theorem State.latch_ciu (b : FaultBit) : (s.latch b).ciu = s.ciu := rfl
@[simp] theorem State.latch_fsc (b : FaultBit) : (s.latch b).fsc = s.fsc := rfl
@[simp] theorem State.latch_dram (b : FaultBit) : (s.latch b).dram = s.dram := rfl
@[simp] theorem State.latch_tbu (b : FaultBit) : (s.latch b).tbu = s.tbu := rfl
@[simp] theorem State.latch_gs (b : FaultBit) : (s.latch b).gs = s.gs := rfl
@[simp] theorem State.latch_vc (b : FaultBit) : (s.latch b).vc = s.vc := rfl
@[simp] theorem State.latch_ce (b : FaultBit) : (s.latch b).ce = s.ce := rfl
@[simp] theorem State.latch_bu (b : FaultBit) : (s.latch b).bu = s.bu := rfl
@[simp] theorem State.latch_ou (b : FaultBit) : (s.latch b).ou = s.ou := rfl
@[simp] theorem State.latch_ca (b : FaultBit) : (s.latch b).ca = s.ca := rfl
@[simp] theorem State.latch_si (b : FaultBit) : (s.latch b).si = s.si := rfl
@[simp] theorem State.latch_su (b : FaultBit) : (s.latch b).su = s.su := rfl
@[simp] theorem State.latch_cp (b : FaultBit) : (s.latch b).cp = { s.cp with faults := s.cp.faults ||| b.mask } := rfl
@[simp] theorem State.latch_fresh (b : FaultBit) : (s.latch b).fresh = s.fresh := rfl
@[simp] theorem State.latch_pending (b : FaultBit) : (s.latch b).pending = s.pending := rfl

@[simp] theorem State.advanceGen_ciu : s.advanceGen.ciu = s.ciu := rfl
@[simp] theorem State.advanceGen_fsc : s.advanceGen.fsc = s.fsc := rfl
@[simp] theorem State.advanceGen_dram : s.advanceGen.dram = s.dram := rfl
@[simp] theorem State.advanceGen_tbu : s.advanceGen.tbu = s.tbu := rfl
@[simp] theorem State.advanceGen_gs : s.advanceGen.gs = s.gs := rfl
@[simp] theorem State.advanceGen_vc : s.advanceGen.vc = s.vc := rfl
@[simp] theorem State.advanceGen_ce : s.advanceGen.ce = s.ce := rfl
@[simp] theorem State.advanceGen_bu : s.advanceGen.bu = s.bu := rfl
@[simp] theorem State.advanceGen_ou : s.advanceGen.ou = s.ou := rfl
@[simp] theorem State.advanceGen_ca : s.advanceGen.ca = s.ca := rfl
@[simp] theorem State.advanceGen_si : s.advanceGen.si = s.si := rfl
@[simp] theorem State.advanceGen_su : s.advanceGen.su = s.su := rfl
@[simp] theorem State.advanceGen_cp : s.advanceGen.cp = { s.cp with gen := s.cp.gen + 1 } := rfl
@[simp] theorem State.advanceGen_fresh : s.advanceGen.fresh = s.fresh := rfl
@[simp] theorem State.advanceGen_pending : s.advanceGen.pending = s.pending := rfl

@[simp] theorem State.setCam_ciu (n : Fin 4) (c : Cam) : (s.setCam n c).ciu = s.ciu.set n c := rfl
@[simp] theorem State.setCam_fsc (n : Fin 4) (c : Cam) : (s.setCam n c).fsc = s.fsc := rfl
@[simp] theorem State.setCam_dram (n : Fin 4) (c : Cam) : (s.setCam n c).dram = s.dram := rfl
@[simp] theorem State.setCam_tbu (n : Fin 4) (c : Cam) : (s.setCam n c).tbu = s.tbu := rfl
@[simp] theorem State.setCam_gs (n : Fin 4) (c : Cam) : (s.setCam n c).gs = s.gs := rfl
@[simp] theorem State.setCam_vc (n : Fin 4) (c : Cam) : (s.setCam n c).vc = s.vc := rfl
@[simp] theorem State.setCam_ce (n : Fin 4) (c : Cam) : (s.setCam n c).ce = s.ce := rfl
@[simp] theorem State.setCam_bu (n : Fin 4) (c : Cam) : (s.setCam n c).bu = s.bu := rfl
@[simp] theorem State.setCam_ou (n : Fin 4) (c : Cam) : (s.setCam n c).ou = s.ou := rfl
@[simp] theorem State.setCam_ca (n : Fin 4) (c : Cam) : (s.setCam n c).ca = s.ca := rfl
@[simp] theorem State.setCam_si (n : Fin 4) (c : Cam) : (s.setCam n c).si = s.si := rfl
@[simp] theorem State.setCam_su (n : Fin 4) (c : Cam) : (s.setCam n c).su = s.su := rfl
@[simp] theorem State.setCam_cp (n : Fin 4) (c : Cam) : (s.setCam n c).cp = s.cp := rfl
@[simp] theorem State.setCam_fresh (n : Fin 4) (c : Cam) : (s.setCam n c).fresh = s.fresh := rfl
@[simp] theorem State.setCam_pending (n : Fin 4) (c : Cam) : (s.setCam n c).pending = s.pending := rfl

@[simp] theorem State.modifyCam_ciu (n : Fin 4) (f : Cam → Cam) : (s.modifyCam n f).ciu = s.ciu.set n (f s.ciu[n]) := rfl
@[simp] theorem State.modifyCam_fsc (n : Fin 4) (f : Cam → Cam) : (s.modifyCam n f).fsc = s.fsc := rfl
@[simp] theorem State.modifyCam_dram (n : Fin 4) (f : Cam → Cam) : (s.modifyCam n f).dram = s.dram := rfl
@[simp] theorem State.modifyCam_tbu (n : Fin 4) (f : Cam → Cam) : (s.modifyCam n f).tbu = s.tbu := rfl
@[simp] theorem State.modifyCam_gs (n : Fin 4) (f : Cam → Cam) : (s.modifyCam n f).gs = s.gs := rfl
@[simp] theorem State.modifyCam_vc (n : Fin 4) (f : Cam → Cam) : (s.modifyCam n f).vc = s.vc := rfl
@[simp] theorem State.modifyCam_ce (n : Fin 4) (f : Cam → Cam) : (s.modifyCam n f).ce = s.ce := rfl
@[simp] theorem State.modifyCam_bu (n : Fin 4) (f : Cam → Cam) : (s.modifyCam n f).bu = s.bu := rfl
@[simp] theorem State.modifyCam_ou (n : Fin 4) (f : Cam → Cam) : (s.modifyCam n f).ou = s.ou := rfl
@[simp] theorem State.modifyCam_ca (n : Fin 4) (f : Cam → Cam) : (s.modifyCam n f).ca = s.ca := rfl
@[simp] theorem State.modifyCam_si (n : Fin 4) (f : Cam → Cam) : (s.modifyCam n f).si = s.si := rfl
@[simp] theorem State.modifyCam_su (n : Fin 4) (f : Cam → Cam) : (s.modifyCam n f).su = s.su := rfl
@[simp] theorem State.modifyCam_cp (n : Fin 4) (f : Cam → Cam) : (s.modifyCam n f).cp = s.cp := rfl
@[simp] theorem State.modifyCam_fresh (n : Fin 4) (f : Cam → Cam) : (s.modifyCam n f).fresh = s.fresh := rfl
@[simp] theorem State.modifyCam_pending (n : Fin 4) (f : Cam → Cam) : (s.modifyCam n f).pending = s.pending := rfl

@[simp] theorem State.setCamRing_ciu (n : Fin 4) (r : Option CamRing) : (s.setCamRing n r).ciu = s.ciu := rfl
@[simp] theorem State.setCamRing_fsc (n : Fin 4) (r : Option CamRing) : (s.setCamRing n r).fsc = { s.fsc with camRing := s.fsc.camRing.set n r } := rfl
@[simp] theorem State.setCamRing_dram (n : Fin 4) (r : Option CamRing) : (s.setCamRing n r).dram = s.dram := rfl
@[simp] theorem State.setCamRing_tbu (n : Fin 4) (r : Option CamRing) : (s.setCamRing n r).tbu = s.tbu := rfl
@[simp] theorem State.setCamRing_gs (n : Fin 4) (r : Option CamRing) : (s.setCamRing n r).gs = s.gs := rfl
@[simp] theorem State.setCamRing_vc (n : Fin 4) (r : Option CamRing) : (s.setCamRing n r).vc = s.vc := rfl
@[simp] theorem State.setCamRing_ce (n : Fin 4) (r : Option CamRing) : (s.setCamRing n r).ce = s.ce := rfl
@[simp] theorem State.setCamRing_bu (n : Fin 4) (r : Option CamRing) : (s.setCamRing n r).bu = s.bu := rfl
@[simp] theorem State.setCamRing_ou (n : Fin 4) (r : Option CamRing) : (s.setCamRing n r).ou = s.ou := rfl
@[simp] theorem State.setCamRing_ca (n : Fin 4) (r : Option CamRing) : (s.setCamRing n r).ca = s.ca := rfl
@[simp] theorem State.setCamRing_si (n : Fin 4) (r : Option CamRing) : (s.setCamRing n r).si = s.si := rfl
@[simp] theorem State.setCamRing_su (n : Fin 4) (r : Option CamRing) : (s.setCamRing n r).su = s.su := rfl
@[simp] theorem State.setCamRing_cp (n : Fin 4) (r : Option CamRing) : (s.setCamRing n r).cp = s.cp := rfl
@[simp] theorem State.setCamRing_fresh (n : Fin 4) (r : Option CamRing) : (s.setCamRing n r).fresh = s.fresh := rfl
@[simp] theorem State.setCamRing_pending (n : Fin 4) (r : Option CamRing) : (s.setCamRing n r).pending = s.pending := rfl

@[simp] theorem State.setOutRing_ciu (r : Option OutRing) : (s.setOutRing r).ciu = s.ciu := rfl
@[simp] theorem State.setOutRing_fsc (r : Option OutRing) : (s.setOutRing r).fsc = { s.fsc with outRing := r } := rfl
@[simp] theorem State.setOutRing_dram (r : Option OutRing) : (s.setOutRing r).dram = s.dram := rfl
@[simp] theorem State.setOutRing_tbu (r : Option OutRing) : (s.setOutRing r).tbu = s.tbu := rfl
@[simp] theorem State.setOutRing_gs (r : Option OutRing) : (s.setOutRing r).gs = s.gs := rfl
@[simp] theorem State.setOutRing_vc (r : Option OutRing) : (s.setOutRing r).vc = s.vc := rfl
@[simp] theorem State.setOutRing_ce (r : Option OutRing) : (s.setOutRing r).ce = s.ce := rfl
@[simp] theorem State.setOutRing_bu (r : Option OutRing) : (s.setOutRing r).bu = s.bu := rfl
@[simp] theorem State.setOutRing_ou (r : Option OutRing) : (s.setOutRing r).ou = s.ou := rfl
@[simp] theorem State.setOutRing_ca (r : Option OutRing) : (s.setOutRing r).ca = s.ca := rfl
@[simp] theorem State.setOutRing_si (r : Option OutRing) : (s.setOutRing r).si = s.si := rfl
@[simp] theorem State.setOutRing_su (r : Option OutRing) : (s.setOutRing r).su = s.su := rfl
@[simp] theorem State.setOutRing_cp (r : Option OutRing) : (s.setOutRing r).cp = s.cp := rfl
@[simp] theorem State.setOutRing_fresh (r : Option OutRing) : (s.setOutRing r).fresh = s.fresh := rfl
@[simp] theorem State.setOutRing_pending (r : Option OutRing) : (s.setOutRing r).pending = s.pending := rfl

@[simp] theorem State.setArea_ciu (a : Fin 8) (x : Area) : (s.setArea a x).ciu = s.ciu := rfl
@[simp] theorem State.setArea_fsc (a : Fin 8) (x : Area) : (s.setArea a x).fsc = { s.fsc with areas := s.fsc.areas.set a x } := rfl
@[simp] theorem State.setArea_dram (a : Fin 8) (x : Area) : (s.setArea a x).dram = s.dram := rfl
@[simp] theorem State.setArea_tbu (a : Fin 8) (x : Area) : (s.setArea a x).tbu = s.tbu := rfl
@[simp] theorem State.setArea_gs (a : Fin 8) (x : Area) : (s.setArea a x).gs = s.gs := rfl
@[simp] theorem State.setArea_vc (a : Fin 8) (x : Area) : (s.setArea a x).vc = s.vc := rfl
@[simp] theorem State.setArea_ce (a : Fin 8) (x : Area) : (s.setArea a x).ce = s.ce := rfl
@[simp] theorem State.setArea_bu (a : Fin 8) (x : Area) : (s.setArea a x).bu = s.bu := rfl
@[simp] theorem State.setArea_ou (a : Fin 8) (x : Area) : (s.setArea a x).ou = s.ou := rfl
@[simp] theorem State.setArea_ca (a : Fin 8) (x : Area) : (s.setArea a x).ca = s.ca := rfl
@[simp] theorem State.setArea_si (a : Fin 8) (x : Area) : (s.setArea a x).si = s.si := rfl
@[simp] theorem State.setArea_su (a : Fin 8) (x : Area) : (s.setArea a x).su = s.su := rfl
@[simp] theorem State.setArea_cp (a : Fin 8) (x : Area) : (s.setArea a x).cp = s.cp := rfl
@[simp] theorem State.setArea_fresh (a : Fin 8) (x : Area) : (s.setArea a x).fresh = s.fresh := rfl
@[simp] theorem State.setArea_pending (a : Fin 8) (x : Area) : (s.setArea a x).pending = s.pending := rfl

@[simp] theorem State.modifyTiming_ciu (n : Fin 4) (f : CamTiming → CamTiming) : (s.modifyTiming n f).ciu = s.ciu := rfl
@[simp] theorem State.modifyTiming_fsc (n : Fin 4) (f : CamTiming → CamTiming) : (s.modifyTiming n f).fsc = s.fsc := rfl
@[simp] theorem State.modifyTiming_dram (n : Fin 4) (f : CamTiming → CamTiming) : (s.modifyTiming n f).dram = s.dram := rfl
@[simp] theorem State.modifyTiming_tbu (n : Fin 4) (f : CamTiming → CamTiming) : (s.modifyTiming n f).tbu = { s.tbu with cams := s.tbu.cams.set n (f s.tbu.cams[n]) } := rfl
@[simp] theorem State.modifyTiming_gs (n : Fin 4) (f : CamTiming → CamTiming) : (s.modifyTiming n f).gs = s.gs := rfl
@[simp] theorem State.modifyTiming_vc (n : Fin 4) (f : CamTiming → CamTiming) : (s.modifyTiming n f).vc = s.vc := rfl
@[simp] theorem State.modifyTiming_ce (n : Fin 4) (f : CamTiming → CamTiming) : (s.modifyTiming n f).ce = s.ce := rfl
@[simp] theorem State.modifyTiming_bu (n : Fin 4) (f : CamTiming → CamTiming) : (s.modifyTiming n f).bu = s.bu := rfl
@[simp] theorem State.modifyTiming_ou (n : Fin 4) (f : CamTiming → CamTiming) : (s.modifyTiming n f).ou = s.ou := rfl
@[simp] theorem State.modifyTiming_ca (n : Fin 4) (f : CamTiming → CamTiming) : (s.modifyTiming n f).ca = s.ca := rfl
@[simp] theorem State.modifyTiming_si (n : Fin 4) (f : CamTiming → CamTiming) : (s.modifyTiming n f).si = s.si := rfl
@[simp] theorem State.modifyTiming_su (n : Fin 4) (f : CamTiming → CamTiming) : (s.modifyTiming n f).su = s.su := rfl
@[simp] theorem State.modifyTiming_cp (n : Fin 4) (f : CamTiming → CamTiming) : (s.modifyTiming n f).cp = s.cp := rfl
@[simp] theorem State.modifyTiming_fresh (n : Fin 4) (f : CamTiming → CamTiming) : (s.modifyTiming n f).fresh = s.fresh := rfl
@[simp] theorem State.modifyTiming_pending (n : Fin 4) (f : CamTiming → CamTiming) : (s.modifyTiming n f).pending = s.pending := rfl

@[simp] theorem State.modifyCamSlot_ciu (n : Fin 4) (k : Nat) (f : CamSlot → CamSlot) : (s.modifyCamSlot n k f).ciu = s.ciu := by unfold State.modifyCamSlot; split <;> rfl
@[simp] theorem State.modifyCamSlot_dram (n : Fin 4) (k : Nat) (f : CamSlot → CamSlot) : (s.modifyCamSlot n k f).dram = s.dram := by unfold State.modifyCamSlot; split <;> rfl
@[simp] theorem State.modifyCamSlot_tbu (n : Fin 4) (k : Nat) (f : CamSlot → CamSlot) : (s.modifyCamSlot n k f).tbu = s.tbu := by unfold State.modifyCamSlot; split <;> rfl
@[simp] theorem State.modifyCamSlot_gs (n : Fin 4) (k : Nat) (f : CamSlot → CamSlot) : (s.modifyCamSlot n k f).gs = s.gs := by unfold State.modifyCamSlot; split <;> rfl
@[simp] theorem State.modifyCamSlot_vc (n : Fin 4) (k : Nat) (f : CamSlot → CamSlot) : (s.modifyCamSlot n k f).vc = s.vc := by unfold State.modifyCamSlot; split <;> rfl
@[simp] theorem State.modifyCamSlot_ce (n : Fin 4) (k : Nat) (f : CamSlot → CamSlot) : (s.modifyCamSlot n k f).ce = s.ce := by unfold State.modifyCamSlot; split <;> rfl
@[simp] theorem State.modifyCamSlot_bu (n : Fin 4) (k : Nat) (f : CamSlot → CamSlot) : (s.modifyCamSlot n k f).bu = s.bu := by unfold State.modifyCamSlot; split <;> rfl
@[simp] theorem State.modifyCamSlot_ou (n : Fin 4) (k : Nat) (f : CamSlot → CamSlot) : (s.modifyCamSlot n k f).ou = s.ou := by unfold State.modifyCamSlot; split <;> rfl
@[simp] theorem State.modifyCamSlot_ca (n : Fin 4) (k : Nat) (f : CamSlot → CamSlot) : (s.modifyCamSlot n k f).ca = s.ca := by unfold State.modifyCamSlot; split <;> rfl
@[simp] theorem State.modifyCamSlot_si (n : Fin 4) (k : Nat) (f : CamSlot → CamSlot) : (s.modifyCamSlot n k f).si = s.si := by unfold State.modifyCamSlot; split <;> rfl
@[simp] theorem State.modifyCamSlot_su (n : Fin 4) (k : Nat) (f : CamSlot → CamSlot) : (s.modifyCamSlot n k f).su = s.su := by unfold State.modifyCamSlot; split <;> rfl
@[simp] theorem State.modifyCamSlot_cp (n : Fin 4) (k : Nat) (f : CamSlot → CamSlot) : (s.modifyCamSlot n k f).cp = s.cp := by unfold State.modifyCamSlot; split <;> rfl
@[simp] theorem State.modifyCamSlot_fresh (n : Fin 4) (k : Nat) (f : CamSlot → CamSlot) : (s.modifyCamSlot n k f).fresh = s.fresh := by unfold State.modifyCamSlot; split <;> rfl
@[simp] theorem State.modifyCamSlot_pending (n : Fin 4) (k : Nat) (f : CamSlot → CamSlot) : (s.modifyCamSlot n k f).pending = s.pending := by unfold State.modifyCamSlot; split <;> rfl

@[simp] theorem State.setGrid_ciu (i : Fin 32) (g : Grid) : (s.setGrid i g).ciu = s.ciu := rfl
@[simp] theorem State.setGrid_fsc (i : Fin 32) (g : Grid) : (s.setGrid i g).fsc = s.fsc := rfl
@[simp] theorem State.setGrid_dram (i : Fin 32) (g : Grid) : (s.setGrid i g).dram = s.dram := rfl
@[simp] theorem State.setGrid_tbu (i : Fin 32) (g : Grid) : (s.setGrid i g).tbu = s.tbu := rfl
@[simp] theorem State.setGrid_gs (i : Fin 32) (g : Grid) : (s.setGrid i g).gs = { s.gs with sets := s.gs.sets.set i g } := rfl
@[simp] theorem State.setGrid_vc (i : Fin 32) (g : Grid) : (s.setGrid i g).vc = s.vc := rfl
@[simp] theorem State.setGrid_ce (i : Fin 32) (g : Grid) : (s.setGrid i g).ce = s.ce := rfl
@[simp] theorem State.setGrid_bu (i : Fin 32) (g : Grid) : (s.setGrid i g).bu = s.bu := rfl
@[simp] theorem State.setGrid_ou (i : Fin 32) (g : Grid) : (s.setGrid i g).ou = s.ou := rfl
@[simp] theorem State.setGrid_ca (i : Fin 32) (g : Grid) : (s.setGrid i g).ca = s.ca := rfl
@[simp] theorem State.setGrid_si (i : Fin 32) (g : Grid) : (s.setGrid i g).si = s.si := rfl
@[simp] theorem State.setGrid_su (i : Fin 32) (g : Grid) : (s.setGrid i g).su = s.su := rfl
@[simp] theorem State.setGrid_cp (i : Fin 32) (g : Grid) : (s.setGrid i g).cp = s.cp := rfl
@[simp] theorem State.setGrid_fresh (i : Fin 32) (g : Grid) : (s.setGrid i g).fresh = s.fresh := rfl
@[simp] theorem State.setGrid_pending (i : Fin 32) (g : Grid) : (s.setGrid i g).pending = s.pending := rfl

@[simp] theorem State.setView_ciu (v : Fin 16) (x : Option (List Pane)) : (s.setView v x).ciu = s.ciu := rfl
@[simp] theorem State.setView_fsc (v : Fin 16) (x : Option (List Pane)) : (s.setView v x).fsc = s.fsc := rfl
@[simp] theorem State.setView_dram (v : Fin 16) (x : Option (List Pane)) : (s.setView v x).dram = s.dram := rfl
@[simp] theorem State.setView_tbu (v : Fin 16) (x : Option (List Pane)) : (s.setView v x).tbu = s.tbu := rfl
@[simp] theorem State.setView_gs (v : Fin 16) (x : Option (List Pane)) : (s.setView v x).gs = s.gs := rfl
@[simp] theorem State.setView_vc (v : Fin 16) (x : Option (List Pane)) : (s.setView v x).vc = { s.vc with views := s.vc.views.set v x } := rfl
@[simp] theorem State.setView_ce (v : Fin 16) (x : Option (List Pane)) : (s.setView v x).ce = s.ce := rfl
@[simp] theorem State.setView_bu (v : Fin 16) (x : Option (List Pane)) : (s.setView v x).bu = s.bu := rfl
@[simp] theorem State.setView_ou (v : Fin 16) (x : Option (List Pane)) : (s.setView v x).ou = s.ou := rfl
@[simp] theorem State.setView_ca (v : Fin 16) (x : Option (List Pane)) : (s.setView v x).ca = s.ca := rfl
@[simp] theorem State.setView_si (v : Fin 16) (x : Option (List Pane)) : (s.setView v x).si = s.si := rfl
@[simp] theorem State.setView_su (v : Fin 16) (x : Option (List Pane)) : (s.setView v x).su = s.su := rfl
@[simp] theorem State.setView_cp (v : Fin 16) (x : Option (List Pane)) : (s.setView v x).cp = s.cp := rfl
@[simp] theorem State.setView_fresh (v : Fin 16) (x : Option (List Pane)) : (s.setView v x).fresh = s.fresh := rfl
@[simp] theorem State.setView_pending (v : Fin 16) (x : Option (List Pane)) : (s.setView v x).pending = s.pending := rfl

@[simp] theorem State.setDefault_ciu (d : Option (Fin 16)) : (s.setDefault d).ciu = s.ciu := rfl
@[simp] theorem State.setDefault_fsc (d : Option (Fin 16)) : (s.setDefault d).fsc = s.fsc := rfl
@[simp] theorem State.setDefault_dram (d : Option (Fin 16)) : (s.setDefault d).dram = s.dram := rfl
@[simp] theorem State.setDefault_tbu (d : Option (Fin 16)) : (s.setDefault d).tbu = s.tbu := rfl
@[simp] theorem State.setDefault_gs (d : Option (Fin 16)) : (s.setDefault d).gs = s.gs := rfl
@[simp] theorem State.setDefault_vc (d : Option (Fin 16)) : (s.setDefault d).vc = { s.vc with dflt := d } := rfl
@[simp] theorem State.setDefault_ce (d : Option (Fin 16)) : (s.setDefault d).ce = s.ce := rfl
@[simp] theorem State.setDefault_bu (d : Option (Fin 16)) : (s.setDefault d).bu = s.bu := rfl
@[simp] theorem State.setDefault_ou (d : Option (Fin 16)) : (s.setDefault d).ou = s.ou := rfl
@[simp] theorem State.setDefault_ca (d : Option (Fin 16)) : (s.setDefault d).ca = s.ca := rfl
@[simp] theorem State.setDefault_si (d : Option (Fin 16)) : (s.setDefault d).si = s.si := rfl
@[simp] theorem State.setDefault_su (d : Option (Fin 16)) : (s.setDefault d).su = s.su := rfl
@[simp] theorem State.setDefault_cp (d : Option (Fin 16)) : (s.setDefault d).cp = s.cp := rfl
@[simp] theorem State.setDefault_fresh (d : Option (Fin 16)) : (s.setDefault d).fresh = s.fresh := rfl
@[simp] theorem State.setDefault_pending (d : Option (Fin 16)) : (s.setDefault d).pending = s.pending := rfl

@[simp] theorem State.setStack_ciu (l : List Claim) : (s.setStack l).ciu = s.ciu := rfl
@[simp] theorem State.setStack_fsc (l : List Claim) : (s.setStack l).fsc = s.fsc := rfl
@[simp] theorem State.setStack_dram (l : List Claim) : (s.setStack l).dram = s.dram := rfl
@[simp] theorem State.setStack_tbu (l : List Claim) : (s.setStack l).tbu = s.tbu := rfl
@[simp] theorem State.setStack_gs (l : List Claim) : (s.setStack l).gs = s.gs := rfl
@[simp] theorem State.setStack_vc (l : List Claim) : (s.setStack l).vc = s.vc := rfl
@[simp] theorem State.setStack_ce (l : List Claim) : (s.setStack l).ce = s.ce := rfl
@[simp] theorem State.setStack_bu (l : List Claim) : (s.setStack l).bu = s.bu := rfl
@[simp] theorem State.setStack_ou (l : List Claim) : (s.setStack l).ou = s.ou := rfl
@[simp] theorem State.setStack_ca (l : List Claim) : (s.setStack l).ca = { s.ca with stack := l } := rfl
@[simp] theorem State.setStack_si (l : List Claim) : (s.setStack l).si = s.si := rfl
@[simp] theorem State.setStack_su (l : List Claim) : (s.setStack l).su = s.su := rfl
@[simp] theorem State.setStack_cp (l : List Claim) : (s.setStack l).cp = s.cp := rfl
@[simp] theorem State.setStack_fresh (l : List Claim) : (s.setStack l).fresh = s.fresh := rfl
@[simp] theorem State.setStack_pending (l : List Claim) : (s.setStack l).pending = s.pending := rfl

@[simp] theorem State.setLinger_ciu (t : Option Word32) : (s.setLinger t).ciu = s.ciu := rfl
@[simp] theorem State.setLinger_fsc (t : Option Word32) : (s.setLinger t).fsc = s.fsc := rfl
@[simp] theorem State.setLinger_dram (t : Option Word32) : (s.setLinger t).dram = s.dram := rfl
@[simp] theorem State.setLinger_tbu (t : Option Word32) : (s.setLinger t).tbu = s.tbu := rfl
@[simp] theorem State.setLinger_gs (t : Option Word32) : (s.setLinger t).gs = s.gs := rfl
@[simp] theorem State.setLinger_vc (t : Option Word32) : (s.setLinger t).vc = s.vc := rfl
@[simp] theorem State.setLinger_ce (t : Option Word32) : (s.setLinger t).ce = s.ce := rfl
@[simp] theorem State.setLinger_bu (t : Option Word32) : (s.setLinger t).bu = s.bu := rfl
@[simp] theorem State.setLinger_ou (t : Option Word32) : (s.setLinger t).ou = s.ou := rfl
@[simp] theorem State.setLinger_ca (t : Option Word32) : (s.setLinger t).ca = { s.ca with lingerTimer := t } := rfl
@[simp] theorem State.setLinger_si (t : Option Word32) : (s.setLinger t).si = s.si := rfl
@[simp] theorem State.setLinger_su (t : Option Word32) : (s.setLinger t).su = s.su := rfl
@[simp] theorem State.setLinger_cp (t : Option Word32) : (s.setLinger t).cp = s.cp := rfl
@[simp] theorem State.setLinger_fresh (t : Option Word32) : (s.setLinger t).fresh = s.fresh := rfl
@[simp] theorem State.setLinger_pending (t : Option Word32) : (s.setLinger t).pending = s.pending := rfl

@[simp] theorem State.setMarkers_ciu (l : List Marker) : (s.setMarkers l).ciu = s.ciu := rfl
@[simp] theorem State.setMarkers_fsc (l : List Marker) : (s.setMarkers l).fsc = s.fsc := rfl
@[simp] theorem State.setMarkers_dram (l : List Marker) : (s.setMarkers l).dram = s.dram := rfl
@[simp] theorem State.setMarkers_tbu (l : List Marker) : (s.setMarkers l).tbu = s.tbu := rfl
@[simp] theorem State.setMarkers_gs (l : List Marker) : (s.setMarkers l).gs = s.gs := rfl
@[simp] theorem State.setMarkers_vc (l : List Marker) : (s.setMarkers l).vc = s.vc := rfl
@[simp] theorem State.setMarkers_ce (l : List Marker) : (s.setMarkers l).ce = s.ce := rfl
@[simp] theorem State.setMarkers_bu (l : List Marker) : (s.setMarkers l).bu = s.bu := rfl
@[simp] theorem State.setMarkers_ou (l : List Marker) : (s.setMarkers l).ou = { s.ou with markers := l } := rfl
@[simp] theorem State.setMarkers_ca (l : List Marker) : (s.setMarkers l).ca = s.ca := rfl
@[simp] theorem State.setMarkers_si (l : List Marker) : (s.setMarkers l).si = s.si := rfl
@[simp] theorem State.setMarkers_su (l : List Marker) : (s.setMarkers l).su = s.su := rfl
@[simp] theorem State.setMarkers_cp (l : List Marker) : (s.setMarkers l).cp = s.cp := rfl
@[simp] theorem State.setMarkers_fresh (l : List Marker) : (s.setMarkers l).fresh = s.fresh := rfl
@[simp] theorem State.setMarkers_pending (l : List Marker) : (s.setMarkers l).pending = s.pending := rfl

@[simp] theorem State.setOverlay_ciu (o : OverlaySetup) : (s.setOverlay o).ciu = s.ciu := rfl
@[simp] theorem State.setOverlay_fsc (o : OverlaySetup) : (s.setOverlay o).fsc = s.fsc := rfl
@[simp] theorem State.setOverlay_dram (o : OverlaySetup) : (s.setOverlay o).dram = s.dram := rfl
@[simp] theorem State.setOverlay_tbu (o : OverlaySetup) : (s.setOverlay o).tbu = s.tbu := rfl
@[simp] theorem State.setOverlay_gs (o : OverlaySetup) : (s.setOverlay o).gs = s.gs := rfl
@[simp] theorem State.setOverlay_vc (o : OverlaySetup) : (s.setOverlay o).vc = s.vc := rfl
@[simp] theorem State.setOverlay_ce (o : OverlaySetup) : (s.setOverlay o).ce = s.ce := rfl
@[simp] theorem State.setOverlay_bu (o : OverlaySetup) : (s.setOverlay o).bu = s.bu := rfl
@[simp] theorem State.setOverlay_ou (o : OverlaySetup) : (s.setOverlay o).ou = { s.ou with setup := o } := rfl
@[simp] theorem State.setOverlay_ca (o : OverlaySetup) : (s.setOverlay o).ca = s.ca := rfl
@[simp] theorem State.setOverlay_si (o : OverlaySetup) : (s.setOverlay o).si = s.si := rfl
@[simp] theorem State.setOverlay_su (o : OverlaySetup) : (s.setOverlay o).su = s.su := rfl
@[simp] theorem State.setOverlay_cp (o : OverlaySetup) : (s.setOverlay o).cp = s.cp := rfl
@[simp] theorem State.setOverlay_fresh (o : OverlaySetup) : (s.setOverlay o).fresh = s.fresh := rfl
@[simp] theorem State.setOverlay_pending (o : OverlaySetup) : (s.setOverlay o).pending = s.pending := rfl

@[simp] theorem State.setSi_ciu (x : SignalIntake) : (s.setSi x).ciu = s.ciu := rfl
@[simp] theorem State.setSi_fsc (x : SignalIntake) : (s.setSi x).fsc = s.fsc := rfl
@[simp] theorem State.setSi_dram (x : SignalIntake) : (s.setSi x).dram = s.dram := rfl
@[simp] theorem State.setSi_tbu (x : SignalIntake) : (s.setSi x).tbu = s.tbu := rfl
@[simp] theorem State.setSi_gs (x : SignalIntake) : (s.setSi x).gs = s.gs := rfl
@[simp] theorem State.setSi_vc (x : SignalIntake) : (s.setSi x).vc = s.vc := rfl
@[simp] theorem State.setSi_ce (x : SignalIntake) : (s.setSi x).ce = s.ce := rfl
@[simp] theorem State.setSi_bu (x : SignalIntake) : (s.setSi x).bu = s.bu := rfl
@[simp] theorem State.setSi_ou (x : SignalIntake) : (s.setSi x).ou = s.ou := rfl
@[simp] theorem State.setSi_ca (x : SignalIntake) : (s.setSi x).ca = s.ca := rfl
@[simp] theorem State.setSi_si (x : SignalIntake) : (s.setSi x).si = x := rfl
@[simp] theorem State.setSi_su (x : SignalIntake) : (s.setSi x).su = s.su := rfl
@[simp] theorem State.setSi_cp (x : SignalIntake) : (s.setSi x).cp = s.cp := rfl
@[simp] theorem State.setSi_fresh (x : SignalIntake) : (s.setSi x).fresh = s.fresh := rfl
@[simp] theorem State.setSi_pending (x : SignalIntake) : (s.setSi x).pending = s.pending := rfl

@[simp] theorem State.setCan_ciu (c : CanCtl) : (s.setCan c).ciu = s.ciu := rfl
@[simp] theorem State.setCan_fsc (c : CanCtl) : (s.setCan c).fsc = s.fsc := rfl
@[simp] theorem State.setCan_dram (c : CanCtl) : (s.setCan c).dram = s.dram := rfl
@[simp] theorem State.setCan_tbu (c : CanCtl) : (s.setCan c).tbu = s.tbu := rfl
@[simp] theorem State.setCan_gs (c : CanCtl) : (s.setCan c).gs = s.gs := rfl
@[simp] theorem State.setCan_vc (c : CanCtl) : (s.setCan c).vc = s.vc := rfl
@[simp] theorem State.setCan_ce (c : CanCtl) : (s.setCan c).ce = s.ce := rfl
@[simp] theorem State.setCan_bu (c : CanCtl) : (s.setCan c).bu = s.bu := rfl
@[simp] theorem State.setCan_ou (c : CanCtl) : (s.setCan c).ou = s.ou := rfl
@[simp] theorem State.setCan_ca (c : CanCtl) : (s.setCan c).ca = s.ca := rfl
@[simp] theorem State.setCan_si (c : CanCtl) : (s.setCan c).si = { s.si with can := c } := rfl
@[simp] theorem State.setCan_su (c : CanCtl) : (s.setCan c).su = s.su := rfl
@[simp] theorem State.setCan_cp (c : CanCtl) : (s.setCan c).cp = s.cp := rfl
@[simp] theorem State.setCan_fresh (c : CanCtl) : (s.setCan c).fresh = s.fresh := rfl
@[simp] theorem State.setCan_pending (c : CanCtl) : (s.setCan c).pending = s.pending := rfl

@[simp] theorem State.setSlot_ciu (i : Fin 12) (c : CanSlot) : (s.setSlot i c).ciu = s.ciu := rfl
@[simp] theorem State.setSlot_fsc (i : Fin 12) (c : CanSlot) : (s.setSlot i c).fsc = s.fsc := rfl
@[simp] theorem State.setSlot_dram (i : Fin 12) (c : CanSlot) : (s.setSlot i c).dram = s.dram := rfl
@[simp] theorem State.setSlot_tbu (i : Fin 12) (c : CanSlot) : (s.setSlot i c).tbu = s.tbu := rfl
@[simp] theorem State.setSlot_gs (i : Fin 12) (c : CanSlot) : (s.setSlot i c).gs = s.gs := rfl
@[simp] theorem State.setSlot_vc (i : Fin 12) (c : CanSlot) : (s.setSlot i c).vc = s.vc := rfl
@[simp] theorem State.setSlot_ce (i : Fin 12) (c : CanSlot) : (s.setSlot i c).ce = s.ce := rfl
@[simp] theorem State.setSlot_bu (i : Fin 12) (c : CanSlot) : (s.setSlot i c).bu = s.bu := rfl
@[simp] theorem State.setSlot_ou (i : Fin 12) (c : CanSlot) : (s.setSlot i c).ou = s.ou := rfl
@[simp] theorem State.setSlot_ca (i : Fin 12) (c : CanSlot) : (s.setSlot i c).ca = s.ca := rfl
@[simp] theorem State.setSlot_si (i : Fin 12) (c : CanSlot) : (s.setSlot i c).si = { s.si with slots := s.si.slots.set i c } := rfl
@[simp] theorem State.setSlot_su (i : Fin 12) (c : CanSlot) : (s.setSlot i c).su = s.su := rfl
@[simp] theorem State.setSlot_cp (i : Fin 12) (c : CanSlot) : (s.setSlot i c).cp = s.cp := rfl
@[simp] theorem State.setSlot_fresh (i : Fin 12) (c : CanSlot) : (s.setSlot i c).fresh = s.fresh := rfl
@[simp] theorem State.setSlot_pending (i : Fin 12) (c : CanSlot) : (s.setSlot i c).pending = s.pending := rfl

@[simp] theorem State.setSu_ciu (x : Scanout) : (s.setSu x).ciu = s.ciu := rfl
@[simp] theorem State.setSu_fsc (x : Scanout) : (s.setSu x).fsc = s.fsc := rfl
@[simp] theorem State.setSu_dram (x : Scanout) : (s.setSu x).dram = s.dram := rfl
@[simp] theorem State.setSu_tbu (x : Scanout) : (s.setSu x).tbu = s.tbu := rfl
@[simp] theorem State.setSu_gs (x : Scanout) : (s.setSu x).gs = s.gs := rfl
@[simp] theorem State.setSu_vc (x : Scanout) : (s.setSu x).vc = s.vc := rfl
@[simp] theorem State.setSu_ce (x : Scanout) : (s.setSu x).ce = s.ce := rfl
@[simp] theorem State.setSu_bu (x : Scanout) : (s.setSu x).bu = s.bu := rfl
@[simp] theorem State.setSu_ou (x : Scanout) : (s.setSu x).ou = s.ou := rfl
@[simp] theorem State.setSu_ca (x : Scanout) : (s.setSu x).ca = s.ca := rfl
@[simp] theorem State.setSu_si (x : Scanout) : (s.setSu x).si = s.si := rfl
@[simp] theorem State.setSu_su (x : Scanout) : (s.setSu x).su = x := rfl
@[simp] theorem State.setSu_cp (x : Scanout) : (s.setSu x).cp = s.cp := rfl
@[simp] theorem State.setSu_fresh (x : Scanout) : (s.setSu x).fresh = s.fresh := rfl
@[simp] theorem State.setSu_pending (x : Scanout) : (s.setSu x).pending = s.pending := rfl

@[simp] theorem State.countCompose_ciu (f : ComposeCounts → ComposeCounts) : (s.countCompose f).ciu = s.ciu := rfl
@[simp] theorem State.countCompose_fsc (f : ComposeCounts → ComposeCounts) : (s.countCompose f).fsc = s.fsc := rfl
@[simp] theorem State.countCompose_dram (f : ComposeCounts → ComposeCounts) : (s.countCompose f).dram = s.dram := rfl
@[simp] theorem State.countCompose_tbu (f : ComposeCounts → ComposeCounts) : (s.countCompose f).tbu = s.tbu := rfl
@[simp] theorem State.countCompose_gs (f : ComposeCounts → ComposeCounts) : (s.countCompose f).gs = s.gs := rfl
@[simp] theorem State.countCompose_vc (f : ComposeCounts → ComposeCounts) : (s.countCompose f).vc = s.vc := rfl
@[simp] theorem State.countCompose_ce (f : ComposeCounts → ComposeCounts) : (s.countCompose f).ce = { s.ce with counts := f s.ce.counts } := rfl
@[simp] theorem State.countCompose_bu (f : ComposeCounts → ComposeCounts) : (s.countCompose f).bu = s.bu := rfl
@[simp] theorem State.countCompose_ou (f : ComposeCounts → ComposeCounts) : (s.countCompose f).ou = s.ou := rfl
@[simp] theorem State.countCompose_ca (f : ComposeCounts → ComposeCounts) : (s.countCompose f).ca = s.ca := rfl
@[simp] theorem State.countCompose_si (f : ComposeCounts → ComposeCounts) : (s.countCompose f).si = s.si := rfl
@[simp] theorem State.countCompose_su (f : ComposeCounts → ComposeCounts) : (s.countCompose f).su = s.su := rfl
@[simp] theorem State.countCompose_cp (f : ComposeCounts → ComposeCounts) : (s.countCompose f).cp = s.cp := rfl
@[simp] theorem State.countCompose_fresh (f : ComposeCounts → ComposeCounts) : (s.countCompose f).fresh = s.fresh := rfl
@[simp] theorem State.countCompose_pending (f : ComposeCounts → ComposeCounts) : (s.countCompose f).pending = s.pending := rfl

@[simp] theorem State.withPending_ciu (l : List Instr) : (s.withPending l).ciu = s.ciu := rfl
@[simp] theorem State.withPending_fsc (l : List Instr) : (s.withPending l).fsc = s.fsc := rfl
@[simp] theorem State.withPending_dram (l : List Instr) : (s.withPending l).dram = s.dram := rfl
@[simp] theorem State.withPending_tbu (l : List Instr) : (s.withPending l).tbu = s.tbu := rfl
@[simp] theorem State.withPending_gs (l : List Instr) : (s.withPending l).gs = s.gs := rfl
@[simp] theorem State.withPending_vc (l : List Instr) : (s.withPending l).vc = s.vc := rfl
@[simp] theorem State.withPending_ce (l : List Instr) : (s.withPending l).ce = s.ce := rfl
@[simp] theorem State.withPending_bu (l : List Instr) : (s.withPending l).bu = s.bu := rfl
@[simp] theorem State.withPending_ou (l : List Instr) : (s.withPending l).ou = s.ou := rfl
@[simp] theorem State.withPending_ca (l : List Instr) : (s.withPending l).ca = s.ca := rfl
@[simp] theorem State.withPending_si (l : List Instr) : (s.withPending l).si = s.si := rfl
@[simp] theorem State.withPending_su (l : List Instr) : (s.withPending l).su = s.su := rfl
@[simp] theorem State.withPending_cp (l : List Instr) : (s.withPending l).cp = s.cp := rfl
@[simp] theorem State.withPending_fresh (l : List Instr) : (s.withPending l).fresh = s.fresh := rfl
@[simp] theorem State.withPending_pending (l : List Instr) : (s.withPending l).pending = l := rfl

@[simp] theorem State.tick_ciu : s.tick.ciu = s.ciu := rfl
@[simp] theorem State.tick_fsc : s.tick.fsc = s.fsc := rfl
@[simp] theorem State.tick_dram : s.tick.dram = s.dram := rfl
@[simp] theorem State.tick_tbu : s.tick.tbu = { s.tbu with now := s.tbu.now + 1 } := rfl
@[simp] theorem State.tick_gs : s.tick.gs = s.gs := rfl
@[simp] theorem State.tick_vc : s.tick.vc = s.vc := rfl
@[simp] theorem State.tick_ce : s.tick.ce = s.ce := rfl
@[simp] theorem State.tick_bu : s.tick.bu = s.bu := rfl
@[simp] theorem State.tick_ou : s.tick.ou = s.ou := rfl
@[simp] theorem State.tick_ca : s.tick.ca = s.ca := rfl
@[simp] theorem State.tick_si : s.tick.si = s.si := rfl
@[simp] theorem State.tick_su : s.tick.su = s.su := rfl
@[simp] theorem State.tick_cp : s.tick.cp = s.cp := rfl
@[simp] theorem State.tick_fresh : s.tick.fresh = s.fresh := rfl
@[simp] theorem State.tick_pending : s.tick.pending = s.pending := rfl

@[simp] theorem State.countFree_ciu : s.countFree.ciu = s.ciu := rfl
@[simp] theorem State.countFree_fsc : s.countFree.fsc = s.fsc := rfl
@[simp] theorem State.countFree_dram : s.countFree.dram = s.dram := rfl
@[simp] theorem State.countFree_tbu : s.countFree.tbu = s.tbu := rfl
@[simp] theorem State.countFree_gs : s.countFree.gs = s.gs := rfl
@[simp] theorem State.countFree_vc : s.countFree.vc = s.vc := rfl
@[simp] theorem State.countFree_ce : s.countFree.ce = s.ce := rfl
@[simp] theorem State.countFree_bu : s.countFree.bu = s.bu := rfl
@[simp] theorem State.countFree_ou : s.countFree.ou = s.ou := rfl
@[simp] theorem State.countFree_ca : s.countFree.ca = s.ca := rfl
@[simp] theorem State.countFree_si : s.countFree.si = s.si := rfl
@[simp] theorem State.countFree_su : s.countFree.su = s.su := rfl
@[simp] theorem State.countFree_cp : s.countFree.cp = s.cp := rfl
@[simp] theorem State.countFree_fresh : s.countFree.fresh = s.fresh + 1 := rfl
@[simp] theorem State.countFree_pending : s.countFree.pending = s.pending := rfl

@[simp] theorem State.clearFaults_ciu : s.clearFaults.ciu = s.ciu := rfl
@[simp] theorem State.clearFaults_fsc : s.clearFaults.fsc = s.fsc := rfl
@[simp] theorem State.clearFaults_dram : s.clearFaults.dram = s.dram := rfl
@[simp] theorem State.clearFaults_tbu : s.clearFaults.tbu = s.tbu := rfl
@[simp] theorem State.clearFaults_gs : s.clearFaults.gs = s.gs := rfl
@[simp] theorem State.clearFaults_vc : s.clearFaults.vc = s.vc := rfl
@[simp] theorem State.clearFaults_ce : s.clearFaults.ce = s.ce := rfl
@[simp] theorem State.clearFaults_bu : s.clearFaults.bu = s.bu := rfl
@[simp] theorem State.clearFaults_ou : s.clearFaults.ou = s.ou := rfl
@[simp] theorem State.clearFaults_ca : s.clearFaults.ca = s.ca := rfl
@[simp] theorem State.clearFaults_si : s.clearFaults.si = s.si := rfl
@[simp] theorem State.clearFaults_su : s.clearFaults.su = s.su := rfl
@[simp] theorem State.clearFaults_cp : s.clearFaults.cp = { s.cp with faults := 0 } := rfl
@[simp] theorem State.clearFaults_fresh : s.clearFaults.fresh = s.fresh := rfl
@[simp] theorem State.clearFaults_pending : s.clearFaults.pending = s.pending := rfl

/-- Reading back a port that was put. -/
@[simp] theorem State.setPort_port (p : Port) (q : PortState) : (s.setPort p q).port p = q := by cases p <;> rfl

/-- Putting one port leaves the other. -/
@[simp] theorem State.setPort_other (p : Port) (q : PortState) : (s.setPort p q).port (other p) = s.port (other p) := by
  cases p <;> rfl

/-- The pending response after a command is answered. -/
@[simp] theorem State.respond_pending_response (p : Port) (c : Byte) (r : Result) (l : Payload) :
    ((s.respond p c r l).port p).pending
      = some { code := c, result := r, flags := s.flags, gen := s.cp.gen, payload := l } := by
  cases p <;> rfl

/-- An answer leaves the generation and the fault summary. -/
@[simp] theorem State.respond_gen (p : Port) (c : Byte) (r : Result) (l : Payload) :
    (s.respond p c r l).cp.gen = s.cp.gen := by cases p <;> rfl

/-- An answer leaves the fault summary. -/
@[simp] theorem State.respond_faults (p : Port) (c : Byte) (r : Result) (l : Payload) :
    (s.respond p c r l).cp.faults = s.cp.faults := by cases p <;> rfl

/-- An answer leaves the condition flags. -/
@[simp] theorem State.respond_flags (p : Port) (c : Byte) (r : Result) (l : Payload) :
    (s.respond p c r l).flags = s.flags := by cases p <;> rfl

end Sys2Proof.Machine
end

