-- ==== Sys2Proof/Laws/Ops.lean ====
section
/-! SUPPORT. Once for each shared operation, everything it can do: the path of a command, the generation guard, notices,
clamping and rounding. -/

namespace Sys2Proof.Machine

open Host (Outcome)

/-! ### The path of a command -/

/-- Every way a command that goes on can go on (R177, R179): its record is ignored; it is refused and only its response
is new; or its judgement takes it and its effect is answered. -/
theorem takeCommand_next {s t : State} {h : Hdr} {code : Byte} {fits : Bool} {judge : State → Verdict}
    (e : takeCommand s h code fits judge = .next t) :
    (h.got < 10 ∧ t = s) ∨
    (10 ≤ h.got ∧ framed h fits = false ∧ t = s.respond h.port code .badArg .empty) ∨
    (10 ≤ h.got ∧ framed h fits = true ∧ ∃ r, judge s = .refuse r ∧ t = s.respond h.port code r .empty) ∨
    (10 ≤ h.got ∧ framed h fits = true ∧ ∃ r p u, judge s = .take r p u ∧ t = u.respond h.port code r p) := by
  unfold takeCommand at e
  split at e
  · exact .inl ⟨by assumption, by simpa using e.symm⟩
  · have hg : 10 ≤ h.got := by omega
    split at e
    · rename_i hf
      unfold answer at e
      split at e
      · exact .inr (.inr (.inl ⟨hg, hf, _, by assumption, by simpa using e.symm⟩))
      · exact .inr (.inr (.inr ⟨hg, hf, _, _, _, by assumption, by simpa using e.symm⟩))
      · cases e
    · rename_i hf
      exact .inr (.inl ⟨hg, by simpa using hf, by simpa using e.symm⟩)

/-- A sound record's framing (R177 step 3). -/
theorem framed_of_sound {h : Hdr} (hs : soundRecord h) : framed h h.fits = true := by
  simp [framed, hs.1, hs.2.1, hs.2.2]

/-- A sound record is not shorter than its header. -/
theorem soundRecord.got_ge {h : Hdr} (hs : soundRecord h) : ¬ h.got < 10 := by
  have := hs.2.1; omega

/-- A sound record is judged by its own rule. -/
theorem command_sound {s : State} {h : Hdr} {code : Byte} {judge : State → Verdict} (hs : soundRecord h) :
    command s h code judge = answer s h code (judge s) := by
  simp [command, takeCommand, hs.got_ge, framed_of_sound hs]

/-- A sound record is whole. -/
theorem soundRecord.whole {h : Hdr} (hs : soundRecord h) : wholeRecord h := ⟨hs.1, hs.2.1⟩

/-- A whole record of a command that needs no field is judged by its own rule. -/
theorem bare_whole {s : State} {h : Hdr} {code : Byte} {judge : State → Verdict} (hw : wholeRecord h) :
    bare s h code judge = answer s h code (judge s) := by
  have h1 := hw.1
  have h2 := hw.2
  simp [bare, takeCommand, framed, h1, h2, show ¬ h.got < 10 by omega]

/-- Every way the guard lets a verdict through (R178). -/
theorem guardGen_take {s u : State} {h : Hdr} {judge : State → Verdict} {r : Result} {p : Payload}
    (e : guardGen h judge s = .take r p u) :
    h.gen = s.cp.gen ∧ s.cp.gen ≠ genMax ∧ ∃ v, judge s = .take r p v ∧ u = v.advanceGen := by
  unfold guardGen at e
  split at e
  · cases e
  · split at e
    · cases e
    · rename_i h1 h2
      refine ⟨by simpa using h1, h2, ?_⟩
      split at e
      · rename_i r' p' t ht
        simp only [Verdict.take.injEq] at e
        obtain ⟨rfl, rfl, rfl⟩ := e
        exact ⟨t, ht, rfl⟩
      · rename_i v hne ; exact absurd e (by intro e'; exact hne _ _ _ e')

/-- A guarded command that passes its guard is judged by its own rule and advances the generation (R178). -/
theorem guarded_sound {s u : State} {h : Hdr} {code : Byte} {judge : State → Verdict} {r : Result} {p : Payload}
    (hs : soundRecord h) (hg : passesGuard s h) (e : judge s = .take r p u) :
    guarded s h code judge = .next (u.advanceGen.respond h.port code r p) := by
  simp [guarded, takeCommand, hs.got_ge, framed_of_sound hs, guardGen, hg.1, hg.2, e, answer]

/-! ### Notices (R181) -/

/-- What an offer leaves in a queue: the notice at its end, or the queue as it was with the overflow flag set. -/
theorem PortState.offer_cases (q : PortState) (n : Notice) :
    (q.queue.length < 32 ∧ q.offer n = { q with queue := q.queue ++ [n] }) ∨
    (32 ≤ q.queue.length ∧ q.offer n = { q with overflow := true }) := by
  unfold PortState.offer Config.queueMax
  split
  · exact .inl ⟨by assumption, rfl⟩
  · exact .inr ⟨by omega, rfl⟩

/-- An offer never makes a queue of at most 32 longer than 32. -/
theorem PortState.offer_length (q : PortState) (n : Notice) (h : q.queue.length ≤ 32) :
    (q.offer n).queue.length ≤ 32 := by
  rcases q.offer_cases n with ⟨hl, he⟩ | ⟨-, he⟩
  · rw [he]; simp; omega
  · rw [he]; exact h

/-- An offer keeps what was queued, in its order. -/
theorem PortState.offer_keeps (q : PortState) (n : Notice) : q.queue <+: (q.offer n).queue := by
  rcases q.offer_cases n with ⟨-, he⟩ | ⟨-, he⟩ <;> rw [he]
  · exact List.prefix_append _ _

/-! ### Choosing -/

/-- What `argMax` answers: nothing where no element has a score, else an element whose score no other's passes. -/
theorem argMax_cases {α : Type} (score : α → Option Nat) (l : List α) :
    (argMax score l = none ∧ ∀ x ∈ l, score x = none) ∨
    (∃ k v x, argMax score l = some (k, v) ∧ l[k]? = some x ∧ score x = some v
      ∧ ∀ y ∈ l, ∀ w, score y = some w → w ≤ v) := by
  induction l with
  | nil => exact .inl ⟨rfl, by simp⟩
  | cons a l ih =>
    unfold argMax
    rcases ih with ⟨h, hn⟩ | ⟨k, v, x, h, hx, hv, hm⟩ <;> rcases ha : score a with _ | u <;> simp only [h]
    · exact .inl ⟨trivial, by simpa [ha] using hn⟩
    · refine .inr ⟨0, u, a, rfl, rfl, ha, ?_⟩
      intro y hy w hw
      rcases List.mem_cons.1 hy with rfl | hy
      · simp_all
      · simp [hn y hy] at hw
    · exact .inr ⟨k + 1, v, x, rfl, hx, hv, by simpa [ha] using hm⟩
    · by_cases huv : u < v
      · rw [if_pos huv]
        refine .inr ⟨k + 1, v, x, rfl, hx, hv, ?_⟩
        intro y hy w hw
        rcases List.mem_cons.1 hy with rfl | hy
        · simp_all; omega
        · exact hm y hy w hw
      · rw [if_neg huv]
        refine .inr ⟨0, u, a, rfl, rfl, ha, ?_⟩
        intro y hy w hw
        rcases List.mem_cons.1 hy with rfl | hy
        · simp_all
        · have := hm y hy w hw; omega

/-! ### Numbers -/

/-- A clamped value lies within its range. -/
theorem clampNat_range (lo hi x : Nat) (h : lo ≤ hi) : lo ≤ clampNat lo hi x ∧ clampNat lo hi x ≤ hi := by
  unfold clampNat
  split
  · exact ⟨le_refl _, h⟩
  · split <;> omega

/-- Clamping leaves a value within its range. -/
theorem clampNat_same (lo hi x : Nat) (h : lo ≤ x ∧ x ≤ hi) : clampNat lo hi x = x := by
  unfold clampNat
  rw [if_neg (by omega), if_neg (by omega)]

/-- A clamped signed value lies within its range. -/
theorem clampInt_range (lo hi x : Int) (h : lo ≤ hi) : lo ≤ clampInt lo hi x ∧ clampInt lo hi x ≤ hi := by
  unfold clampInt
  split
  · exact ⟨le_refl _, h⟩
  · split <;> omega

/-- A counter never falls and never passes 65,535. -/
theorem bump_cases (c : Count) : (c = 65535 ∧ bump c = 65535) ∨ (c ≠ 65535 ∧ bump c = c + 1) := by
  unfold bump
  split
  · exact .inl ⟨by assumption, by assumption⟩
  · exact .inr ⟨by assumption, rfl⟩

end Sys2Proof.Machine
end

