-- ==== Sys2Proof/Laws/Resets.lean ====
section
/-! SUPPORT. The laws of what a reset abandons: everything that the stop of a clear and of a pass can leave in DRAM, and that
both keep the canonical form. -/

namespace Sys2Proof.Machine

/-- A clear that stops leaves every byte as it was, or zero within the range of an area in CLEARING. -/
theorem State.stopClear_read (s : State) (m : Memory) (a : Fin 8) (x : Nat) :
    (s.stopClear m a).read x = m.read x
      ∨ ((s.stopClear m a).read x = 0
        ∧ ∃ b l, s.fsc.areas[a] = .range b l .clearing ∧ b * 65536 ≤ x ∧ x < l * 65536) := by
  unfold State.stopClear
  split
  · rename_i b l hb
    rw [Memory.read_filter m fun y =>
      !(decide (b * Config.unitBytes ≤ y ∧ y < l * Config.unitBytes) && Config.clearReach s.fresh y)]
    split
    · exact .inl rfl
    · rename_i hp
      simp only [Bool.not_eq_true', Bool.not_eq_false, Bool.and_eq_true, decide_eq_true_eq] at hp
      exact .inr ⟨rfl, b, l, hb, hp.1⟩
  · exact .inl rfl

/-- With no clear of area `a` nothing is stopped. -/
theorem State.stopClear_idle (s : State) (m : Memory) (a : Fin 8) (h : ∀ b l, s.fsc.areas[a] ≠ .range b l .clearing) :
    s.stopClear m a = m := by
  unfold State.stopClear
  split
  · rename_i b l hb
    exact absurd hb (h b l)
  · rfl

/-- A clear that stops keeps the canonical form. -/
theorem State.stopClear_wf (s : State) (m : Memory) (a : Fin 8) (h : m.wf = true) : (s.stopClear m a).wf = true := by
  unfold State.stopClear
  split
  · exact Memory.filter_wf m _ h
  · exact h

/-- The clears that stop, over a list of areas: every byte is as it was, or zero within an area in CLEARING. -/
theorem State.stopClears_read (s : State) (l : List (Fin 8)) (m : Memory) (x : Nat) :
    (l.foldl s.stopClear m).read x = m.read x
      ∨ ((l.foldl s.stopClear m).read x = 0
        ∧ ∃ (a : Fin 8) (b k : Nat), s.fsc.areas[a] = .range b k .clearing ∧ b * 65536 ≤ x ∧ x < k * 65536) := by
  induction l generalizing m with
  | nil => exact .inl rfl
  | cons a l ih =>
    rcases ih (s.stopClear m a) with h | h
    · rcases s.stopClear_read m a x with h' | ⟨h', b, k, hr⟩
      · exact .inl (h.trans h')
      · exact .inr ⟨h.trans h', a, b, k, hr⟩
    · exact .inr h

/-- A byte of the target slot where a pass stops: as it was, or at some stage of its pixel. -/
theorem State.partByte_cases (s : State) (c : Compose) (r : OutRing) (k : Nat) :
    s.partByte c r k = s.dram.read (s.outSlotByte r c.target + k)
      ∨ ∃ n, s.partByte c r k = packByte ((s.passInput c).pixelAfter n) k := by
  unfold State.partByte
  split
  · exact .inl rfl
  · exact .inr ⟨_, rfl⟩

/-- A pass that stops leaves every byte as it was, or a byte of its target slot at some stage of its pixel. -/
theorem State.stopPass_read (s : State) (x : Nat) :
    s.stopPass.read x = s.dram.read x
      ∨ ∃ (c : Compose) (r : OutRing) (k n : Nat), s.ce.current = some c ∧ s.fsc.outRing = some r ∧ k < 1843200
        ∧ x = s.outSlotByte r c.target + k ∧ s.stopPass.read x = packByte ((s.passInput c).pixelAfter n) k := by
  unfold State.stopPass
  split
  · rename_i c r hc hr
    split
    · rw [Memory.read_write]
      split
      · rename_i hx
        have hk : s.outSlotByte r c.target + (x - s.outSlotByte r c.target) = x := by omega
        rcases s.partByte_cases c r (x - s.outSlotByte r c.target) with h | ⟨n, h⟩
        · rw [hk] at h
          exact .inl h
        · exact .inr ⟨c, r, _, n, hc, hr, by have := hx.2; unfold Config.outBytes at this; omega, hk.symm, h⟩
      · exact .inl rfl
    · exact .inl rfl
  · exact .inl rfl

/-- A pass that stops keeps the canonical form. -/
theorem State.stopPass_wf (s : State) (h : s.dram.wf = true) : s.stopPass.wf = true := by
  unfold State.stopPass
  split
  · split
    · exact Memory.write_wf _ _ _ _ h
    · exact h
  · exact h

/-- What a reset abandons keeps the canonical form. -/
theorem State.abandonedDram_wf (s : State) (h : s.dram.wf = true) : s.abandonedDram.wf = true := by
  unfold State.abandonedDram
  have key : ∀ (l : List (Fin 8)) (m : Memory), m.wf = true → (l.foldl s.stopClear m).wf = true := by
    intro l
    induction l with
    | nil => exact fun _ hm => hm
    | cons a l ih => exact fun m hm => ih _ (s.stopClear_wf m a hm)
  exact key _ _ (s.stopPass_wf h)

end Sys2Proof.Machine
end

