-- ==== Sys2Proof/WellFormed.lean ====
section
/-! DEFINITION. Which terms of `Instr` are commands or events that can arrive: what the transaction layer (R177), the
record formats (11 section 11.6) and the CAN frame allow. Range checks that a command's own rule makes are not here:
the rule answers them with a result code. -/

namespace Sys2Proof

/-- A transaction that is ignored (R177): a first byte that is no direction, a command record shorter than its header, or no
byte at all, of which R177 says nothing (DESIGN CHOICE, log entry 40). -/
def ignorable : List Byte → Bool
  | [] => true
  | b :: record => if b = 0x01 then decide (record.length < 10) else decide (b ≠ 0x02)

/-- The header of a command: the record is not shorter than its header (a shorter one is an ignored transaction). -/
def Hdr.wf (h : Hdr) : Bool := decide (10 ≤ h.got)

/-- The bytes after the header are the payload that arrived. -/
def Hdr.carries (h : Hdr) (payload : List Byte) : Bool := decide (h.got = 10 + payload.length)

/-- A CAN frame: at most eight payload bytes, and an 11-bit identifier in the standard format (PRESUMED, log
entry 21). -/
def CanFrame.wf (f : CanFrame) : Bool :=
  decide (f.data.length ≤ 8) && (f.ext || decide (f.ident.toNat < 2048))

/-- The term is a command or an event that can arrive. -/
def Instr.wf : Instr → Bool
  | .powerOnReset => true
  | .resetPin => true
  | .responseRead _ => true
  | .ignoredTransaction _ bytes => ignorable bytes
  | .unknownCommand h code => h.wf && !commandCodes.contains code
  | .status h _ => h.wf
  | .portSetup h _ _ _ _ => h.wf
  | .eventRead h => h.wf
  | .pipelineReset h => h.wf
  | .camSetup h _ _ => h.wf
  | .camPowerOn h _ => h.wf
  | .camPowerOff h _ => h.wf
  | .camStatus h _ _ => h.wf
  | .camTriggerNow h _ => h.wf
  | .camMask h _ => h.wf
  | .areaDefine h _ _ => h.wf
  | .areaClear h _ => h.wf
  | .areaJoin h _ _ => h.wf
  | .areaUnjoin h _ => h.wf
  | .areaStatus h _ _ => h.wf
  | .areaWrite h payload => h.wf && h.carries payload
  | .frameHold h _ => h.wf
  | .frameRelease h _ => h.wf
  | .frameRead h _ _ => h.wf
  | .timingSet h _ _ _ => h.wf
  | .timeStatus h => h.wf
  | .gridOpen h _ _ _ => h.wf
  | .gridWrite h payload => h.wf && h.carries payload
  | .gridFinish h _ => h.wf
  | .gridReopen h _ => h.wf
  | .gridDelete h _ => h.wf
  | .gridStatus h _ => h.wf
  | .viewDefine h _ _ => h.wf
  | .viewBind h _ _ _ => h.wf
  | .viewUnbind h _ _ => h.wf
  | .viewErase h _ => h.wf
  | .defaultView h _ => h.wf
  | .viewStatus h _ => h.wf
  | .composeStatus h _ => h.wf
  | .balanceSet h _ => h.wf
  | .balanceStatus h => h.wf
  | .overlaySet h _ => h.wf
  | .curveSet h _ => h.wf
  | .overlayStatus h => h.wf
  | .markPost h payload => h.wf && h.carries payload
  | .markRemove h _ => h.wf
  | .markClear h => h.wf
  | .markStatus h => h.wf
  | .claim h _ => h.wf
  | .renew h _ => h.wf
  | .release h _ => h.wf
  | .gearSetup h _ _ _ => h.wf
  | .claimStatus h => h.wf
  | .canSetup h _ => h.wf
  | .slotSetup h _ _ => h.wf
  | .slotEnable h _ _ => h.wf
  | .signalSetup h _ _ _ _ => h.wf
  | .canRestart h => h.wf
  | .canErrclr h => h.wf
  | .canStatus h _ => h.wf
  | .signalStatus h _ => h.wf
  | .displaySet h _ _ => h.wf
  | .displayStatus h _ => h.wf
  | .linkLock _ => true
  | .lossOfLock _ => true
  | .frameStart _ => true
  | .line _ _ => true
  | .frameEnd _ => true
  | .feedFault _ => true
  | .settleTimerExpiry _ => true
  | .seekTimerExpiry _ => true
  | .frameTimeoutExpiry _ => true
  | .areaClearCompletion _ => true
  | .holdExpiry _ _ => true
  | .composeStart => true
  | .triggerPulseDue _ => true
  | .composeCompletion => true
  | .gridCheckCompletion _ => true
  | .markerExpiry _ => true
  | .claimExpiry _ => true
  | .lingerTimerExpiry => true
  | .canFrameReceived f => f.wf
  | .receiveError _ => true
  | .signalTimeoutExpiry _ => true
  | .signalHoldExpiry _ => true
  | .statusIntervalExpiry => true
  | .statusTxAttempt => true
  | .statusTxSent => true
  | .statusTxError _ => true
  | .arbitrationLost => true
  | .recoveryWaitCompletion => true
  | .displayFrameStart => true

end Sys2Proof
end

