-- ==== Sys2Proof/Tests/Slice0.lean ====
section
/-! SUPPORT. The model's own tests: ill-formed terms that WellFormed refuses, one-step tests whose expected values are the
manual's worked examples and rules, and for every statement with hypotheses a state and operands that meet them. -/

namespace Sys2Proof.Tests

open Sys2Proof Sys2Proof.Machine

/-! ### Helpers -/

/-- A sound command record of port D at generation 0. -/
def hd : Hdr := { port := .d, gen := 0, arg := 0, len := 0, got := 10, fits := true }

/-- The same on Port A. -/
def ha : Hdr := { hd with port := .a }

/-- A command record with an argument word and a payload of `n` bytes. -/
def hp (arg : Word32) (n : Nat) : Hdr := { hd with arg := arg, len := .ofNat 8 n, got := 10 + n }

/-- What a function gives of the next state. -/
def after {α : Type} (o : Host.Outcome State Fault Refusal) (f : State → α) : Option α :=
  match o with
  | .next t => some (f t)
  | _ => none

/-- The result code that a command on Port D was answered with. -/
def resultD (o : Host.Outcome State Fault Refusal) : Option Result := (after o fun t => t.cp.portD.pending.map (·.result)).join

/-- The queue of Port D as (kind, subject, value). -/
def noticesD (s : State) : List (NoticeKind × Nat × Nat) :=
  s.cp.portD.queue.map fun n => (n.kind, n.subject.toNat, n.value.toNat)

/-- Right after reset, with Port D subscribed to every kind. -/
def s0 : State := { State.reset with cp := { State.reset.cp with portD := { PortState.reset with mask := 0x1FFFFE } } }

/-! ### WellFormed refuses what cannot arrive -/

theorem test_wf_refuses_a_full_record_as_ignored : (Instr.ignoredTransaction .d [1, 1, 0, 0, 0, 0, 0, 0, 0, 0, 0]).wf = false := by
  decide
theorem test_wf_refuses_a_read_as_ignored : (Instr.ignoredTransaction .a [2]).wf = false := by decide
theorem test_wf_takes_an_empty_transaction : (Instr.ignoredTransaction .d []).wf = true := by decide
theorem test_wf_refuses_a_short_header : (Instr.status { hd with got := 9 } false).wf = false := by decide
theorem test_wf_refuses_a_known_code : (Instr.unknownCommand hd 0x01).wf = false := by decide
theorem test_wf_takes_an_unknown_code : (Instr.unknownCommand hd 0x05).wf = true := by decide
theorem test_wf_refuses_missing_payload_bytes : (Instr.markPost (hp 0 12) []).wf = false := by decide
theorem test_wf_refuses_missing_area_bytes : (Instr.areaWrite (hp 0 2) [1]).wf = false := by decide
theorem test_wf_refuses_missing_grid_bytes : (Instr.gridWrite (hp 0 16) []).wf = false := by decide
theorem test_wf_refuses_nine_data_bytes :
    (Instr.canFrameReceived { ext := false, ident := 0, remote := false, data := List.replicate 9 0 }).wf = false := by decide
theorem test_wf_refuses_a_wide_standard_identifier :
    (Instr.canFrameReceived { ext := false, ident := 2048, remote := false, data := [] }).wf = false := by decide
theorem test_wf_takes_the_widest_standard_identifier :
    (Instr.canFrameReceived { ext := false, ident := 2047, remote := false, data := [] }).wf = true := by decide

/-! ### Table words (the table gives no bits) -/

theorem test_no_word_spells_a_command : decodeTableWord 16 0 = none := by decide
theorem test_fetch_word_leaves_the_state (n w : Nat) : State.reset.withFetchWord n w = State.reset := rfl

/-! ### Worked examples of the manual -/

/-- 02, Frame formats and R1: 1,280 × 800 needs 2,048,000 bytes, 32 units. -/
theorem test_stride_of_the_default_setup : Setup.reset.stride = 32 := by decide

/-- 3.10: the age of C0's frame across the wrap is 19,000 µs. -/
theorem test_age_across_the_wrap : ({ s0 with tbu := { s0.tbu with now := 12000 } }).age 4294960296 = 19000 := by decide

/-- 4.2: a 40 × 45 set has 3,686 cells. -/
theorem test_grid_size : (GridShape.mk 0 40 45).size = 3686 := by decide

/-- 4.3, step 5: first fit takes the lowest extent that is long enough. -/
theorem test_first_fit : takeCells 636 [⟨3686, 3686⟩, ⟨14698, 50838⟩] = some (3686, [⟨4322, 3050⟩, ⟨14698, 50838⟩]) := by decide

/-- 4.3, step 7: the freed run merges with both neighbours. -/
theorem test_free_merges_both_sides :
    freeCells ⟨3686, 636⟩ [⟨0, 3686⟩, ⟨4322, 3050⟩, ⟨14698, 50838⟩] = [⟨0, 7372⟩, ⟨14698, 50838⟩] := by decide

/-- 5.11: C1's coordinates at i = 4, j = 8. -/
theorem test_bilinear_coordinates : bilinear 4 8 8000 8096 8032 8144 = 8042 ∧ bilinear 4 8 4800 4816 4928 4960 = 4870 := by decide

/-- 5.11: the blend weight of P. -/
theorem test_blend_weight : bilinear 4 8 208 144 208 144 = 192 := by decide

/-- A DRAM with the four luma neighbours of 5.11 and the chroma of their pair, for a frame at byte 0. -/
def dram511 : Memory :=
  [(779244, 90), (779245, 120), (779246, 110), (779247, 140), (781804, 100), (781806, 120)]

/-- 5.11: the raw luma and the chroma of C1, and its gained luma. -/
theorem test_pixel_of_one_camera :
    (CamFrame.mk 0 1280 800).rawLuma dram511 8042 4870 = 106 ∧ (CamFrame.mk 0 1280 800).chroma dram511 8042 4870 1 = 120
      ∧ (CamFrame.mk 0 1280 800).chroma dram511 8042 4870 3 = 140 ∧ gained 106 282 = 117 := by decide

/-- 5.11: the blended pixel. -/
theorem test_blended_pixel : blendPixel 192 ⟨106, 117, 120, 140⟩ ⟨133, 125, 132, 136⟩ = ⟨119, 123, 139⟩ := by decide

/-- 5.11: the zone of P = C1 and S = C2, and of P = C0 and S = C3 (Z3, whose first camera is C3). -/
theorem test_zones : zoneOf 1 2 = (1, true) ∧ zoneOf 0 3 = (3, false) := by decide

/-- 6.5: the desires of Z0 and Z1 and C1's camera desire. -/
theorem test_desires :
    desire 1000000 2200000 = 282 ∧ desire 1200000 2200000 = 235 ∧ desire 1280000 2410000 = 241 ∧ desire 1130000 2410000 = 273
      ∧ cameraDesire (some (241, 273)) (some (282, 235)) = some 238 := by decide

/-- 6.5, completions 1 and 8: truncation toward zero, and the forced step; 6.6: the step limit. -/
theorem test_gain_steps :
    gainStep 4 8 256 282 = 6 ∧ gainStep 4 8 256 238 = -4 ∧ gainStep 4 8 270 273 = 1 ∧ gainStep 4 8 241 238 = -1
      ∧ gainStep 4 8 256 512 = 8 ∧ gainStep 16 64 256 282 = 26 := by decide

/-- 6.5, completion 1: the four gains. -/
theorem test_balance_update :
    ((({ Balance.reset with mode := .auto }).update 9 7
        #v[⟨1000000, 1200000, 10000⟩, ⟨1280000, 1130000, 8000⟩, ⟨0, 0, 0⟩, ⟨0, 0, 0⟩]).gains) = #v[262, 252, 260, 256] := by
  decide

/-- 7.4: lateral shifts of the worked guides, the mark row and the bands; halves round away from zero. -/
theorem test_guide_shifts :
    lateralShift 3920 20 40 = 0 ∧ lateralShift 3920 60 40 = 3 ∧ lateralShift 3920 160 40 = 19 ∧ lateralShift 6554 120 40 = 18
      ∧ lateralShift (-6554) 120 40 = -18 ∧ lateralShift (-1280) 64 16 = -3 := by decide

/-- The guide setup of the worked example in 7.4. -/
def guide74 : Guide :=
  { halfTrack := 850, start := 500, stop := 4000, thick := 4, near := 1000, mid := 2500, marks := [1000, 2000], cond := .auto }

/-- 7.4: columns of the lines at Δy = 60 (entry 5) and of the mark at Δy = 40 (entry 7). -/
theorem test_guide_columns :
    guideEntry guide74 40 320 3920 60 287 = some 5 ∧ guideEntry guide74 40 320 3920 60 290 = some 5
      ∧ guideEntry guide74 40 320 3920 60 291 = none ∧ guideEntry guide74 40 320 3920 60 358 = some 5
      ∧ guideEntry guide74 40 320 3920 40 287 = some 7 ∧ guideEntry guide74 40 320 3920 40 355 = some 7
      ∧ guideEntry guide74 40 320 3920 20 284 = some 4 ∧ guideEntry guide74 40 320 3920 120 295 = some 6 := by decide

/-- 7.4: dashes while STEER is unknown. -/
theorem test_dashes : dashed 20 27 = false ∧ dashed 20 28 = true ∧ dashed 20 43 = false ∧ dashed 20 83 = true := by decide

/-- The slot setups of 9.3. -/
def slot93 (start length : Nat) (signed : Bool) (mult : Int) (t : SlotTarget) : SlotSetup :=
  { ext := false, ident := 0, mask := 0, start := start, length := length, signed := signed, mult := mult, offset := 0, target := t }

/-- 9.3: raw values. -/
theorem test_extraction :
    (slot93 16 16 false 4 .speed).scaled [0, 0, 0x3A, 0x01] = 1256 ∧ (slot93 0 16 true 1 .steer).raw [0x30, 0xFB] = -1232
      ∧ (slot93 0 16 true 2 .steer).scaled [0x78, 0xEC] = -10000 ∧ (slot93 40 8 false 1 .doors).raw [0, 0, 0, 0, 0, 0x0C] = 12
      ∧ (slot93 4 4 false 1 (.gear 9)).raw [0x93] = 9 ∧ (slot93 16 16 false 4 .speed).short [0, 0, 0x3A] = true := by decide

/-- R139: from 255 the token goes round to 1, and a carried value is passed over. -/
theorem test_tokens : nextToken 255 = 1 ∧ freeToken [⟨255, .portD, 0, 0⟩] 2 255 = 1 := by decide

/-! ### States for the tests -/

/-- Camera 1 with a link and a reception state. -/
def cam1 (l : Link) (r : Reception) : Cam := { Cam.reset with link := l, reception := r }

/-- `s0` with camera 1 so. -/
def sCam (l : Link) (r : Reception) : State := { s0 with ciu := s0.ciu.set 1 (cam1 l r) }

/-- `s0` with area 3 so. -/
def sArea (b l : Nat) (p : AreaPhase) : State := { s0 with fsc := { s0.fsc with areas := s0.fsc.areas.set 3 (.range b l p) } }

/-- A slot in a state, with no pin and no hold. -/
def slot (st : CamSlotState) : CamSlot := { CamSlot.empty with st := st }

/-- A state whose camera 1 has the ring `r` in area 3, units 0 to 128. -/
def ringed (s : State) (r : CamRing) : State :=
  { s with fsc := { s.fsc with
      areas := s.fsc.areas.set 3 (.range 0 128 (.joined (.camera 1))), camRing := s.fsc.camRing.set 1 (some r) } }

/-- A ring of two slots in area 3, next sequence 5. -/
def ring (a b : CamSlot) : CamRing := { area := 3, next := 5, replaced := 0, slots := [a, b] }

/-- The output ring in area 4, next sequence 5. -/
def outRing (l : List OutSlot) : OutRing := { area := 4, next := 5, slots := l }

/-- An output slot in a state that no port holds. -/
def oslot (st : OutSlotState) : OutSlot := { OutSlot.empty with st := st }

/-- A composed frame of a sequence. -/
def frame (q : Word32) : OutFrame := { seq := q, view := 0, mask := 15, start := 0, skew := 0, degraded := false }

/-- A state with the output ring in area 4, units 1,000 to 1,087. -/
def outed (s : State) (r : OutRing) : State :=
  { s with fsc := { s.fsc with areas := s.fsc.areas.set 4 (.range 1000 1087 (.joined .output)), outRing := some r } }

/-- `s0` with grid set 2 so. -/
def sGrid (g : GridShape) (p : GridPhase) : State := { s0 with gs := { s0.gs with sets := s0.gs.sets.set 2 (.held g p) } }

/-- A one-block grid set at cell 0: four nodes and one block. -/
def g1 : GridShape := { base := 0, bw := 1, bh := 1 }

/-- A SIDE pane of one block. -/
def side : Pane := { x := 0, y := 0, w := 16, h := 16, top := none, binding := none }

/-- The operand of VIEW_DEFINE for it. -/
def sideArg : PaneArg := ⟨some .side, 0, 0, 16, 16, false, false, false, 0, 0, 0, 0, 0⟩

/-- A setup operand at the lowest width and height, with door bit 7. -/
def setup640 : SetupArg := ⟨640, 480, 10, 100, 20, some 7, some .triggered, 33332⟩

/-- A state with view 6 so. -/
def sView (s : State) (l : List Pane) : State := { s with vc := { s.vc with views := s.vc.views.set 6 (some l) } }

/-- `s0` with markers. -/
def sMark (l : List Marker) : State := { s0 with ou := { s0.ou with markers := l } }

/-- A marker of an id and a severity, whose deadline is the counter value 0. -/
def mark (id : Byte) (sev : Nat) : Marker :=
  { id := id, owner := .d, severity := sev, shape := .box, x := 0, y := 0, width := 100, length := 100, timeout := 50, deadline := 0 }

/-- `s0` with view 6 defined and a claim stack. -/
def sClaim (l : List Claim) : State := { sView s0 [side] with ca := { s0.ca with stack := l } }

/-- A claim of a token and a source on view 6. -/
def clm (t : Byte) (src : Source) : Claim := { token := t, source := src, view := 6, time := 0 }

/-- `s0` with the CAN controller so. -/
def sCan (f : CanCtl → CanCtl) : State := { s0 with si := { s0.si with can := f s0.si.can } }

/-- `s0` with the scanout unit so. -/
def sSu (u : Scanout) : State := { s0 with su := u }

/-- A compose into slot 0 of a view with no panes. -/
def comp : Compose :=
  { target := 0, start := 0, mask := 15, skew := 0, stats := zeroStats, replacedBytes := []
    snap := { view := 6, panes := [], gains := .replicate 4 256, steer := 0, steerUnknown := true, gear := .unknown, markers := []
              overlay := s0.ou.setup, overlayArea := none } }

/-- A state with that compose in flight. -/
def composing (s : State) : State := { s with ce := { s.ce with current := some comp } }

theorem sound_hd : soundRecord hd := by unfold soundRecord; decide
theorem sound_ha : soundRecord ha := by unfold soundRecord; decide
theorem sound_read (arg : Word32) : soundRecord (hp arg 0) := ⟨by simp [hp], by simp [hp], rfl⟩
theorem pass_hd {s : State} (h : s.cp.gen = 0) : passesGuard s hd := ⟨h.symm, by rw [h]; decide⟩

/-! ### One step of a command -/

theorem test_reset_from_a_used_state :
    after (exec .resetPin (sCam .stalled .discarding)) (fun t => (t.ciu[1].link, t.tbu.period)) = some (.off, 33333) := by decide
theorem test_empty_response_read :
    after (exec (.responseRead .d) s0) (fun t => t.cp.portD.delivered.map fun r => (r.code, r.result)) = some (some (0, .ok)) := by
  decide
theorem test_unknown_command : resultD (exec (.unknownCommand { hd with len := 255 } 0x05) s0) = some .unknownCommand := by decide
theorem test_short_record_is_ignored : exec (.status { hd with got := 9 } true) s0 = .next s0 := rfl
theorem test_long_length_is_refused : resultD (exec (.status { hd with len := 241, got := 300 } false) s0) = some .badArg := by decide
theorem test_port_setup_refuses_bit_0 : resultD (exec (.portSetup hd 1 false 1000 1500) s0) = some .badArg := by decide
theorem test_port_setup_refuses_bit_21 : resultD (exec (.portSetup hd 0x200000 false 1000 1500) s0) = some .badArg := by decide
theorem test_port_setup_clamps_the_hold_time :
    after (exec (.portSetup hd 0x1FFFFE true 9 10001) s0) (fun t => (t.cp.portD.holdTime, t.cp.portD.claimHold)) = some (10, 10000) := by
  decide
theorem test_event_read_bytes :
    after (exec (.eventRead hd) (s0.notify .camState 2 513)) (fun t => t.cp.portD.pending.map (·.payload))
      = some (some (.bytes [1, 0, 0, 1, 2, 0, 0, 0, 0, 1, 2, 0, 0])) := by decide
theorem test_guard_mismatch : resultD (exec (.camMask { hd with gen := 1 } 3) s0) = some .genMismatch := by decide
theorem test_guard_at_the_greatest_generation :
    resultD (exec (.camMask { hd with gen := 4294967295 } 3) { s0 with cp := { s0.cp with gen := 4294967295 } }) = some .wrongState := by
  decide
theorem test_accepted_guarded_command_advances : after (exec (.camMask hd 3) s0) (fun t => t.cp.gen) = some 1 := by decide
theorem test_cam_setup_refuses_an_odd_width :
    resultD (exec (.camSetup hd 1 { setup640 with width := 656 }) s0) = some .badArg := by decide
theorem test_cam_setup_clamps_the_phase :
    after (exec (.camSetup hd 1 { setup640 with phase := 33333 }) s0) (fun t => t.ciu[1].setup.phase) = some 33332 := by decide
theorem test_power_on_notice :
    after (exec (.camPowerOn hd 1) s0) (fun t => (t.ciu[1].link, noticesD t)) = some (.settling 50000, [(.camState, 1, 1)]) := by decide
theorem test_trigger_in_settling : resultD (exec (.camTriggerNow hd 1) (sCam (.settling 5) .noFrame)) = some .wrongState := by decide
theorem test_frame_start_in_seeking :
    after (exec (.frameStart 1) (sCam (.seeking none) .noFrame)) (fun t => (t.ciu[1].link, t.ciu[1].reception, noticesD t))
      = some (.streaming 100000, .discarding, [(.camState, 1, 3 + 256 * 2), (.camUnjoined, 1, 1)]) := by decide
theorem test_line_is_written :
    after (exec (.line 1 [⟨1, 2, 3, 4⟩])
        (ringed (sCam .stalled (.receiving 1 none)) (ring (slot .free) (slot (.filling 4 0 1)))))
      (fun t => (t.dram, t.ciu[1].reception))
      = some ([(2099712, 1), (2099713, 2), (2099714, 3), (2099715, 4)], .receiving 1 (some .lineLength)) := by decide
theorem test_frame_end_short :
    after (exec (.frameEnd 1) (ringed (sCam .stalled (.receiving 1 none)) (ring (slot .free) (slot (.filling 4 0 799)))))
      (fun t => t.fsc.camRing[1].map fun r => r.slots.map (·.st)) = some (some [.free, .damaged 4 0 799 .short]) := by decide
theorem test_area_overlap : resultD (exec (.areaDefine hd 0 (.range 127 130)) (sArea 0 128 .defined)) = some .overlap := by decide
theorem test_area_join_two_slots :
    after (exec (.areaJoin hd 3 (some (.camera 1))) (sArea 0 95 .clean)) (fun t => t.fsc.camRing[1].map fun r => r.slots.length)
      = some (some 2) := by decide
theorem test_area_too_small : resultD (exec (.areaJoin hd 3 (some .output)) (sArea 0 86 .clean)) = some .areaTooSmall := by decide
theorem test_hold_without_a_ready_slot :
    resultD (exec (.frameHold hd (some (.camera 1))) (ringed s0 (ring (slot .free) (slot .free)))) = some .notFound := by decide
theorem test_grid_open_gives_the_base :
    after (exec (.gridOpen hd 1 40 45) s0) (fun t => t.gs.free) = some [⟨3686, 61850⟩] := by decide
theorem test_check_of_a_short_set :
    after (exec (.gridCheckCompletion 2) (sGrid g1 (.checking .d 4 (.replicate 4 (1280, 800))))) noticesD
      = some [(.gridRejected, 2, 65536 + 4)] := by decide
theorem test_view_define_refuses_three_panes :
    resultD (exec (.viewDefine hd 6 (List.replicate 3 sideArg)) s0) = some .badArg := by decide
theorem test_view_in_use_stays :
    resultD (exec (.viewErase hd 6) { sView s0 [side] with vc := { (sView s0 [side]).vc with dflt := some 6 } }) = some .inUse := by decide
theorem test_markers_of_one_severity :
    after (exec (.markPost (hp 0 12) [9, 2, 0, 0, 0, 0, 100, 0, 100, 0, 50, 0]) (sMark [mark 1 3, mark 2 2, mark 3 1]))
      (fun t => t.ou.markers.map (·.id)) = some [1, 9, 2, 3] := by decide
theorem test_marker_expiry_tells_the_owner :
    after (exec (.markerExpiry 2) (sMark [mark 1 3, mark 2 2])) (fun t => (t.ou.markers.map (·.id), noticesD t))
      = some ([1], [(.markerExpired, 2, 2)]) := by decide
theorem test_claim_stands_behind_port_a :
    after (exec (.claim hd 6) (sClaim [clm 7 (.portA 9), clm 1 .portD])) (fun t => t.ca.stack.map (·.token)) = some [7, 2, 1] := by decide
theorem test_renew_on_port_d : resultD (exec (.renew hd 7) (sClaim [clm 7 (.portA 9)])) = some .notOwner := by decide
theorem test_bus_off_entry :
    after (exec (.statusTxError .ack)
        (sCan fun c => { c with
          setup := { c.setup with mode := .normal }, tec := 248, err := .passive
          attempt := some ⟨⟨false, 0, .replicate 8 0, 7, false⟩, false⟩ }))
      (fun t => (t.si.can.err, t.cp.faults, noticesD t)) = some (.busOff, 2, [(.canState, 0, 258)]) := by decide
theorem test_gear_confirms_after_two :
    (({ s0.si with gearPending := some (.reverse, 1) }).gearUpdate s0 0 .reverse).gear.value = some .reverse := by decide
theorem test_display_mute :
    after (exec .displayFrameStart { sSu { s0.su with timer := some 0 } with
        ca := { s0.ca with decision := { view := none, mute := true } } }) (fun t => (t.su.frame, t.su.muted))
      = some (.mute ⟨16, 128, 128⟩, 1) := by decide
theorem test_compose_start_with_no_ring :
    after (exec .composeStart { sClaim [clm 1 .portD] with tbu := { s0.tbu with timer := 0 } })
      (fun t => (t.ce.counts.blocked, t.cp.faults, noticesD t)) = some (1, 16, [(.viewChanged, 6, 255 * 256)]) := by decide
theorem test_usable_cameras_at_a_start :
    after (exec .composeStart { outed (sClaim [clm 1 .portD]) (outRing [oslot .free, oslot .free]) with tbu := { s0.tbu with timer := 0 } })
      (fun t => (t.tbu.lastMask, t.ce.current.map (·.target))) = some (0, some 0) := by decide

/-! ### For every statement with hypotheses, states and operands that meet them, clause by clause -/

theorem witness_IdleStep :
    s0.pending = [] ∧ s0.dueNow = [] ∧ ({ s0 with tbu := { s0.tbu with now := 33333 } }).dueNow = [.composeStart] := by decide
theorem witness_HardResets : Instr.resetPin = .powerOnReset ∨ Instr.resetPin = .resetPin := by decide
theorem witness_TransactionsOfThePorts : 10 ≤ hd.got ∧ commandCodes.contains 0x05 = false := by decide
theorem witness_PortSetupStores :
    soundRecord hd ∧ ((1 : Word32).getLsbD 0 = true) ∧ ((0x200000 : Word32).getLsbD 21 = true ∧ 20 < 21)
      ∧ ∀ b, (0x100002 : Word32).getLsbD b = true → 1 ≤ b ∧ b ≤ 20 := by
  refine ⟨sound_hd, by decide, by decide, fun b h => ?_⟩
  have : b < 32 := BitVec.lt_of_getLsbD h
  interval_cases b <;> revert h <;> decide
theorem witness_EventReadReturnsOldest : soundRecord hd := sound_hd
theorem witness_PipelineResetKeepsConfiguration : soundRecord ha := sound_ha
theorem witness_StatusCommandsOnlyReport : soundRecord hd := sound_hd
theorem witness_StatusCommandsClearAfterReporting :
    soundRecord hd ∧ (ringed s0 (ring (slot .free) (slot .free))).fsc.areas[3] = .range 0 128 (.joined (.camera 1))
      ∧ (ringed s0 (ring (slot .free) (slot .free))).fsc.camRing[1] = some (ring (slot .free) (slot .free)) :=
  ⟨sound_hd, by decide, by decide⟩
theorem witness_CamSetupStores :
    soundRecord hd ∧ passesGuard s0 hd ∧ 3 < 4 ∧ (sCam (.settling 5) .noFrame).ciu[1].link ≠ .off
      ∧ ((sArea 0 64 (.joined (.camera 1))).fsc.joined (.camera 1)).isSome = true
      ∧ s0.ciu[1].link = .off ∧ s0.fsc.joined (.camera 1) = none
      ∧ (639 < 640 ∨ 1920 < 639) ∧ setup640.trig = some .triggered ∧ setup640.door = (some (7 : Fin 8)).map Fin.val
      ∧ 640 ≤ setup640.width ∧ setup640.width ≤ 1920 ∧ setup640.width % 32 = 0 ∧ 480 ≤ setup640.height
      ∧ setup640.height ≤ 1280 ∧ setup640.height % 16 = 0 ∧ 1 ≤ s0.tbu.period := by
  refine ⟨sound_hd, pass_hd rfl, ?_⟩
  decide
theorem witness_CamPower :
    soundRecord hd ∧ (sCam (.settling 5) .noFrame).ciu[1].link.feed = true ∧ s0.ciu[1].link.feed = false ∧ s0.ciu[1].link = .off
      ∧ (sCam .stalled .noFrame).ciu[1].link ≠ .off ∧ (sCam .stalled .discarding).ciu[1].reception = .discarding
      ∧ (ringed (sCam .stalled (.receiving 1 none)) (ring (slot .free) (slot (.filling 4 0 1)))).ciu[1].link ≠ .off
      ∧ (ringed (sCam .stalled (.receiving 1 none)) (ring (slot .free) (slot (.filling 4 0 1)))).ciu[1].reception = .receiving 1 none
      ∧ (ringed (sCam .stalled (.receiving 1 none)) (ring (slot .free) (slot (.filling 4 0 1)))).fsc.camRing[1]
          = some (ring (slot .free) (slot (.filling 4 0 1)))
      ∧ (ring (slot .free) (slot (.filling 4 0 1))).slots[1]? = some (slot (.filling 4 0 1)) := by
  refine ⟨sound_hd, ?_⟩
  decide
theorem witness_LinkStateMoves :
    (∀ d, (sCam (.seeking none) .noFrame).ciu[1].link ≠ .streaming d) ∧ (sCam (.seeking none) .noFrame).ciu[1].link ≠ .stalled
      ∧ (sCam (.streaming 9) .noFrame).ciu[1].reception = .noFrame ∧ (sCam (.streaming 9) .noFrame).ciu[1].link = .streaming 9
      ∧ (sCam .stalled .noFrame).ciu[1].link = .stalled
      ∧ (sCam (.settling 0) .noFrame).ciu[1].link = .settling (sCam (.settling 0) .noFrame).tbu.now
      ∧ (sCam (.seeking (some 0)) .noFrame).ciu[1].link = .seeking (some (sCam (.seeking (some 0)) .noFrame).tbu.now)
      ∧ (sCam (.seeking (some 0)) .noFrame).ciu[1].seekNoticed = false
      ∧ (sCam (.streaming 0) .noFrame).ciu[1].link = .streaming (sCam (.streaming 0) .noFrame).tbu.now
      ∧ s0.ciu[1].link.feed = false ∧ (sCam .stalled .noFrame).ciu[1].link.feed = true := by
  refine ⟨(fun _ h => nomatch h), ?_⟩
  decide
theorem witness_FrameStartOpensAFrame :
    (sCam (.streaming 9) .noFrame).ciu[1].link = .streaming 9 ∧ (sCam (.streaming 9) .noFrame).ciu[1].reception = .noFrame
      ∧ (sCam (.streaming 9) .noFrame).fsc.camRing[1] = none
      ∧ (ringed (sCam (.streaming 9) .noFrame) (ring (slot (.ready 3 0 800)) (slot .free))).fsc.camRing[1]
          = some (ring (slot (.ready 3 0 800)) (slot .free))
      ∧ (ring (slot (.ready 3 0 800)) (slot .free)).fillTarget = some (1, false)
      ∧ (ring (slot (.ready 3 0 800)) (slot (.ready 4 0 800))).fillTarget = some (0, true)
      ∧ (ring { slot (.ready 3 0 800) with pin := true } (slot (.filling 4 0 1))).fillTarget = none := by decide
theorem witness_LineWritesItsRow :
    let s := ringed (sCam .stalled (.receiving 1 none)) (ring (slot .free) (slot (.filling 4 0 799)))
    s.ciu[1].link.live = true ∧ s.ciu[1].reception = .receiving 1 none
      ∧ s.fsc.camRing[1] = some (ring (slot .free) (slot (.filling 4 0 799)))
      ∧ (ring (slot .free) (slot (.filling 4 0 799))).slots[1]? = some (slot (.filling 4 0 799))
      ∧ (799 : Count).toNat < s.ciu[1].setup.height
      ∧ s.camSlotByte 1 (ring (slot .free) (slot (.filling 4 0 799))) 1 + 799 * (s.ciu[1].setup.width * 2)
          + 4 * min 640 (s.ciu[1].setup.width / 2) ≤ 4096 * 65536 := by decide
theorem witness_FrameEndClosesTheFrame :
    let s := ringed (sCam .stalled (.receiving 1 none)) (ring (slot .free) (slot (.filling 4 0 800)))
    s.ciu[1].link.live = true ∧ (sCam .stalled .noFrame).ciu[1].reception = .noFrame
      ∧ (sCam .stalled .discarding).ciu[1].reception = .discarding ∧ s.ciu[1].reception = .receiving 1 none
      ∧ s.fsc.camRing[1] = some (ring (slot .free) (slot (.filling 4 0 800)))
      ∧ (ring (slot .free) (slot (.filling 4 0 800))).slots[1]? = some (slot (.filling 4 0 800))
      ∧ (800 : Count).toNat = s.ciu[1].setup.height ∧ (799 : Count).toNat ≠ s.ciu[1].setup.height
      ∧ (801 : Count).toNat ≠ s.ciu[1].setup.height := by decide
theorem witness_AreaDefineJudges :
    soundRecord hd ∧ passesGuard s0 hd ∧ (4095 < 4096 ∨ 1 < 1) ∧ (4095 ≤ 4095 ∧ 1 ≤ 4096 ∧ 4096 ≤ 4096 ∧ 4095 < 4096)
      ∧ (sArea 0 128 .clearing).fsc.areas[3] = .range 0 128 .clearing
      ∧ (sArea 0 128 (.joined .output)).fsc.areas[3] = .range 0 128 (.joined .output)
      ∧ (sArea 0 128 .clean).fsc.areas[3] = .range 0 128 .clean ∧ s0.fsc.areas[3] = .undefined
      ∧ (sArea 0 128 .defined).fsc.areas[3] = .range 0 128 .defined
      ∧ (∃ (i : Fin 8) (b' l' : Nat) (p : AreaPhase), i ≠ 0 ∧ (sArea 0 128 .clean).fsc.areas[i] = .range b' l' p ∧ 127 < l' ∧ b' < 128)
      ∧ ∀ (i : Fin 8) (b' l' : Nat) (p : AreaPhase), i ≠ 3 → (sArea 0 128 .defined).fsc.areas[i] = .range b' l' p →
          l' ≤ 4095 ∨ 4096 ≤ b' := by
  refine ⟨sound_hd, pass_hd rfl, by decide, by decide, by decide, by decide, by decide, by decide, by decide,
    ⟨3, 0, 128, .clean, by decide⟩, ?_⟩
  intro i b' l' p hi h
  have u : ∀ i : Fin 8, i ≠ 3 → (sArea 0 128 .defined).fsc.areas[i] = .undefined := by decide
  rw [u i hi] at h; cases h
theorem witness_AreaClearWritesZero :
    soundRecord hd ∧ passesGuard (sArea 4095 4096 .defined) hd
      ∧ (sArea 4095 4096 .defined).fsc.areas[3] = .range 4095 4096 .defined
      ∧ (sArea 4095 4096 .clean).fsc.areas[3] = .range 4095 4096 .clean
      ∧ (sArea 4095 4096 .clearing).fsc.areas[3] = .range 4095 4096 .clearing ∧ 4095 < 4096 ∧ 4096 ≤ 4096 := by
  refine ⟨sound_hd, pass_hd rfl, ?_⟩
  decide
theorem witness_AreaJoinMakesTheRing :
    soundRecord hd ∧ passesGuard (sArea 0 64 .clean) hd ∧ (sArea 0 64 .clean).fsc.areas[3] = .range 0 64 .clean
      ∧ (sArea 0 64 .clean).fsc.joined (.camera 1) = none ∧ (63 - 0) / (sArea 0 63 .clean).ciu[1].setup.stride < 2
      ∧ 2 ≤ (64 - 0) / (sArea 0 64 .clean).ciu[1].setup.stride ∧ (sArea 0 64 .clean).fsc.joined .output = none
      ∧ (86 - 0) / 29 < 3 ∧ 3 ≤ (87 - 0) / 29 ∧ (sArea 0 87 .clean).fsc.areas[3] = .range 0 87 .clean
      ∧ ((outed (sArea 0 87 .clean) (outRing [])).fsc.joined .output).isSome = true := by
  refine ⟨sound_hd, pass_hd rfl, ?_⟩
  decide
theorem witness_AreaUnjoinNeedsAnIdleUser :
    let r := ring (slot (.ready 4 0 800)) (slot .free)
    let s := ringed s0 r
    soundRecord hd ∧ passesGuard s hd ∧ s.fsc.areas[3] = .range 0 128 (.joined (.camera 1)) ∧ s.fsc.camRing[1] = some r
      ∧ (sCam .stalled .noFrame).ciu[1].link ≠ .off ∧ ({ slot .free with pin := true } : CamSlot).loose = false
      ∧ s.ciu[1].link = .off ∧ (∀ c ∈ r.slots, c.loose = true)
      ∧ (sArea 0 8 (.joined .overlay)).fsc.areas[3] = .range 0 8 (.joined .overlay)
      ∧ (composing (sArea 0 8 (.joined .overlay))).ce.current.isSome = true ∧ (sArea 0 8 (.joined .overlay)).ce.current = none
      ∧ (outed s0 (outRing [])).fsc.areas[4] = .range 1000 1087 (.joined .output)
      ∧ (sSu { s0.su with timer := some 9 }).su.timer.isSome = true := by
  refine ⟨sound_hd, pass_hd rfl, ?_⟩
  decide
theorem witness_AreaWriteStores :
    let s := sArea 0 1 (.joined .overlay)
    (hp 65535 1).len.toNat = [(7 : Byte)].length ∧ (hp 65535 1).got = 10 + [(7 : Byte)].length ∧ 1 ≤ [(7 : Byte)].length
      ∧ [(7 : Byte)].length ≤ 240 ∧ passesGuard s (hp 65535 1) ∧ s.fsc.joined .overlay = some 3
      ∧ s.fsc.areas[3] = .range 0 1 (.joined .overlay) ∧ 0 < 1 ∧ 1 ≤ 4096
      ∧ (hp 65535 1).arg.toNat + [(7 : Byte)].length ≤ (1 - 0) * 65536 ∧ s.ce.current = none :=
  ⟨by decide, by decide, by decide, by decide, ⟨by decide, by decide⟩, by decide, by decide, by decide, by decide, by decide, by decide⟩
theorem witness_HoldsOfACameraRing :
    let r := ring (slot (.ready 4 0 800)) (slot .free)
    let q := ring { slot (.ready 4 0 800) with holdD := some 0 } (slot .free)
    (ringed s0 r).fsc.camRing[1] = some r ∧ r.slots[0]? = some (slot (.ready 4 0 800)) ∧ soundRecord hd
      ∧ (∀ x ∈ r.slots, x.hold hd.port = none) ∧ r.newestReady = some 0 ∧ (ringed s0 q).fsc.camRing[1] = some q
      ∧ q.slots[0]? = some { slot (.ready 4 0 800) with holdD := some 0 }
      ∧ ((({ slot (.ready 4 0 800) with holdD := some 0 } : CamSlot).hold hd.port).isSome = true)
      ∧ (({ slot (.ready 4 0 800) with holdD := some 0 } : CamSlot).hold .d = some (ringed s0 q).tbu.now)
      ∧ ∀ j x, j < 0 → q.slots[j]? = some x → x.hold hd.port = none :=
  ⟨by decide, by decide, sound_hd, by decide, by decide, by decide, by decide, by decide, by decide, fun j _ h => absurd h (Nat.not_lt_zero j)⟩
theorem witness_FrameReadReturnsBytes :
    let s := ringed s0 (ring { slot (.ready 4 0 800) with holdD := some 0 } (slot .free))
    soundRecord (hp 2047999 0) ∧ 1 ≤ 1 ∧ 1 ≤ 240 ∧ s.heldFrame .a (.camera 1) = none
      ∧ s.heldFrame .d (.camera 1) = some (0, 2048000) ∧ 2048000 < (hp 2047999 0).arg.toNat + 2
      ∧ (hp 2047999 0).arg.toNat + 1 ≤ 2048000 ∧ 0 + 2048000 ≤ 4096 * 65536 := by
  refine ⟨sound_read _, ?_⟩
  decide
theorem witness_TargetsAreNeverHeld :
    (ring (slot (.ready 3 0 800)) (slot .free)).fillTarget = some (1, false)
      ∧ (ring (slot (.ready 3 0 800)) (slot (.ready 4 0 800))).fillTarget = some (0, true)
      ∧ (ring (slot (.filling 3 0 1)) { slot (.ready 4 0 800) with holdA := some 0 }).fillTarget = none
      ∧ (outRing [oslot (.finished (frame 3)), oslot .free]).composeTarget none = some 1
      ∧ (outRing [oslot (.finished (frame 2)), oslot (.finished (frame 3)), oslot (.finished (frame 4))]).composeTarget (some 0)
          = some 1 := by decide
theorem witness_TimingAndMask : soundRecord hd ∧ passesGuard s0 hd ∧ 15 < 16 := ⟨sound_hd, pass_hd rfl, by decide⟩
theorem witness_TriggerPulses :
    let p : CamTiming := { CamTiming.empty with pulse := some 0 }
    let s : State := { sCam .stalled .noFrame with tbu := { s0.tbu with cams := s0.tbu.cams.set 1 p } }
    soundRecord hd ∧ 3 < 4 ∧ s0.ciu[1].link = .off ∧ (sCam .faulted .noFrame).ciu[1].link = .faulted
      ∧ (sCam (.settling 5) .noFrame).ciu[1].link = .settling 5 ∧ (sCam (.seeking none) .noFrame).ciu[1].link = .seeking none
      ∧ (sCam (.streaming 5) .noFrame).ciu[1].link = .streaming 5 ∧ s.ciu[1].link = .stalled ∧ s.tbu.cams[1].pulse = some s.tbu.now := by
  refine ⟨sound_hd, ?_⟩
  decide
theorem witness_GridOpenTakesCells :
    soundRecord hd ∧ 1 ≤ 80 ∧ 80 ≤ 80 ∧ 1 ≤ 45 ∧ 45 ≤ 45 ∧ (sGrid g1 (.opened .d 0)).gs.sets[2] ≠ .absent ∧ s0.gs.sets[2] = .absent
      ∧ (∀ e ∈ ([] : List Extent), e.len < (80 + 1) * (45 + 1) + 80 * 45) ∧ s0.gs.free = [] ++ ⟨0, 65536⟩ :: []
      ∧ (80 + 1) * (45 + 1) + 80 * 45 < (⟨0, 65536⟩ : Extent).len := by
  refine ⟨sound_hd, ?_⟩
  decide
theorem witness_GridWriteAppends :
    let bs : List Byte := List.replicate 16 0
    (hp 2 16).arg.toNat = (2 : Fin 32) ∧ (hp 2 16).len.toNat = bs.length ∧ (hp 2 16).got = 10 + bs.length ∧ bs.length = 16 * 1
      ∧ (sGrid g1 (.opened .d 5)).gs.sets[2] = .held g1 (.opened (hp 2 16).port 5) ∧ g1.size < 5 + 1
      ∧ (sGrid g1 (.opened .d 4)).gs.sets[2] = .held g1 (.opened (hp 2 16).port 4) ∧ 4 + 1 ≤ g1.size := by decide
theorem witness_GridSetsAreChecked :
    let z : Vector (Nat × Nat) 4 := .replicate 4 (1280, 800)
    soundRecord hd ∧ (sGrid g1 (.opened .d 5)).gs.sets[2] = .held g1 (.opened hd.port 5)
      ∧ (sGrid g1 (.opened .a 5)).gs.sets[2] = .held g1 (.opened (other hd.port) 5)
      ∧ (sGrid g1 (.rejected .d 5 4 .badPair)).gs.sets[2] = .held g1 (.rejected hd.port 5 4 .badPair)
      ∧ (sGrid g1 (.checking .d 4 z)).gs.sets[2] = .held g1 (.checking .d 4 z) ∧ 4 ≠ g1.size ∧ 5 = g1.size := by
  refine ⟨sound_hd, ?_⟩
  decide
theorem witness_GridDeleteFrees :
    soundRecord hd ∧ (sGrid g1 (.valid 1 false)).gs.sets[2] = .held g1 (.valid 1 false) ∧ passesGuard s0 hd ∧ 0 < 1
      ∧ (sGrid g1 (.valid 0 true)).gs.sets[2] = .held g1 (.valid 0 true)
      ∧ (sGrid g1 (.valid 0 false)).gs.sets[2] = .held g1 (.valid 0 false)
      ∧ (sGrid g1 (.opened .d 3)).gs.sets[2] = .held g1 (.opened hd.port 3)
      ∧ ([⟨0, 4⟩, ⟨9, 1⟩] : List Extent).Pairwise (fun a b => a.base + a.len < b.base)
      ∧ (∀ x ∈ ([⟨0, 4⟩, ⟨9, 1⟩] : List Extent), 0 < x.len) ∧ 0 < (⟨4, 5⟩ : Extent).len
      ∧ ∀ x ∈ ([⟨0, 4⟩, ⟨9, 1⟩] : List Extent), x.base + x.len ≤ 4 ∨ 4 + 5 ≤ x.base := by
  refine ⟨sound_hd, by decide, pass_hd rfl, ?_⟩
  decide
theorem witness_ViewsInUseStay :
    let s := sView s0 [side]
    let d : State := { s with vc := { s.vc with dflt := some 6 } }
    soundRecord hd ∧ passesGuard s hd ∧ layoutOf [sideArg] = some [side] ∧ d.viewInUse 6 = true ∧ s0.viewInUse 6 = false
      ∧ s0.vc.views[6] = none ∧ d.vc.views[6] = some [side] ∧ s.vc.views[6] = some [side] ∧ s.viewInUse 6 = false
      ∧ ∀ p ∈ [side], p.binding = none := by
  refine ⟨sound_hd, pass_hd rfl, ?_⟩
  decide
theorem witness_BindingsAreCounted :
    let b : Pane := { side with binding := some 2 }
    let s := sView (sGrid g1 (.valid 1 false)) [b]
    soundRecord hd ∧ passesGuard s hd ∧ s.vc.views[6] = some [b] ∧ 0 ≤ 1 ∧ [b][0]? = some b
      ∧ s.gs.sets[2] = .held g1 (.valid 1 false) ∧ g1.bw ≠ 32 / 16 ∧ g1.bw = side.w / 16 ∧ g1.bh = side.h / 16
      ∧ side.binding = none ∧ b.binding = some 2 := by
  refine ⟨sound_hd, pass_hd rfl, ?_⟩
  decide
theorem witness_BalanceSetStores :
    let r : BalanceArg := ⟨some .auto, 128, 512, 127, 513, 1, 64, 256⟩
    soundRecord hd ∧ passesGuard s0 hd ∧ #v[128, 512, 128, 512]
        = #v[max 128 (min r.m0 512), max 128 (min r.m1 512), max 128 (min r.m2 512), max 128 (min r.m3 512)]
      ∧ r.mode = some .auto ∧ ({ r with mode := none } : BalanceArg).mode = none := by
  refine ⟨sound_hd, pass_hd rfl, ?_⟩
  decide
theorem witness_CurveSetStores : soundRecord hd ∧ passesGuard s0 hd ∧ ({ hd with gen := 1 } : Hdr).gen ≠ s0.cp.gen :=
  ⟨sound_hd, pass_hd rfl, by decide⟩

/-- An operand of OVERLAY_SET at the least silhouette. -/
def overlayArg : OverlayArg := ⟨paletteReset, 16, 512, 300, 0, 500, 2, 0, 0, [0, 1, 2, 8000], some .auto⟩

theorem witness_OverlaySetStores :
    soundRecord hd ∧ passesGuard s0 hd ∧ ({ overlayArg with silW := 15 } : OverlayArg).silW < 16
      ∧ ({ overlayArg with cond := none } : OverlayArg).cond = none ∧ overlayArg.cond = some .auto ∧ 16 ≤ overlayArg.silW
      ∧ overlayArg.silW ≤ 256 ∧ overlayArg.silW % 16 = 0 ∧ 16 ≤ overlayArg.silH ∧ overlayArg.silH ≤ 512 ∧ overlayArg.silH % 16 = 0
      ∧ overlayArg.marks.length ≤ 4 := by
  refine ⟨sound_hd, pass_hd rfl, ?_⟩
  decide

/-- A MARK_POST payload: id 9, severity 2, BOX at (0, 0), 100 by 100, timeout 50. -/
def post9 : List Byte := [9, 2, 0, 0, 0, 0, 100, 0, 100, 0, 50, 0]

theorem witness_MarkPostPlaces :
    let m := readMark post9
    (hp 0 12).len.toNat = post9.length ∧ (hp 0 12).got = 10 + post9.length ∧ 12 ≤ post9.length ∧ post9.length ≤ 240
      ∧ (readMark (9 :: 0 :: post9.drop 2)).severity = 0 ∧ m.severity ≠ 0 ∧ -20000 ≤ m.x ∧ m.x ≤ 20000 ∧ -20000 ≤ m.y ∧ m.y ≤ 20000
      ∧ 100 ≤ m.width ∧ m.width ≤ 10000 ∧ 100 ≤ m.length ∧ m.length ≤ 10000 := by decide
theorem witness_MarkPostPlaces_in_the_list :
    let m := readMark post9
    (∃ y ∈ (sMark [mark 9 1]).ou.markers, y.id = 9) ∧ (sMark [mark 1 3]).ou.markers.length < 16
      ∧ ((sMark [mark 1 3, mark 9 1, mark 2 2]).ou.markers.filter fun y => decide (y.id ≠ 9)) = [mark 1 3] ++ [mark 2 2]
      ∧ (∀ y ∈ [mark 1 3], m.severity < y.severity) ∧ ∀ y ∈ [mark 2 2], y.severity ≤ m.severity := by decide
theorem witness_MarkPostPlaces_on_a_full_list :
    let m := readMark post9
    let front := (List.finRange 15).map fun i => mark (.ofNat 8 (20 + i)) 3
    (sMark (front ++ [mark 1 1])).ou.markers = front ++ [mark 1 1] ∧ 15 ≤ front.length
      ∧ (∀ y ∈ (sMark (front ++ [mark 1 1])).ou.markers, y.id ≠ 9) ∧ m.severity ≤ (mark 1 2).severity
      ∧ (mark 1 1).severity < m.severity ∧ front = front ++ [] ∧ (∀ y ∈ front, m.severity < y.severity) := by decide
theorem witness_MarkersLeave :
    let s := sMark [mark 1 3, mark 2 2]
    soundRecord hd ∧ 255 < 256 ∧ (∀ m ∈ s.ou.markers, m.id ≠ 255) ∧ (∃ m ∈ s.ou.markers, m.id = 2)
      ∧ s.ou.markers = [mark 1 3] ++ mark 2 2 :: [] ∧ (∀ y ∈ [mark 1 3] ++ [], y.id ≠ (mark 2 2).id)
      ∧ (mark 2 2).deadline = s.tbu.now := by
  refine ⟨sound_hd, ?_⟩
  decide
theorem witness_ClaimMakesAnEntry :
    let s := sClaim [clm 9 (.portA 5), clm 1 .portD]
    soundRecord hd ∧ (Source.portD, 3) = (match hd.port with | .d => (Source.portD, 3) | .a => (.portA 0, 4)) ∧ 15 < 16
      ∧ s0.vc.views[6] = none ∧ s.vc.views[6].isSome = true
      ∧ 3 ≤ countRank Source.portD.rank (sClaim [clm 1 .portD, clm 2 .portD, clm 3 .portD]).ca.stack
      ∧ countRank Source.portD.rank s.ca.stack < 3 ∧ (2 : Byte) = nextToken^[1] s.ca.token ∧ 1 ≤ s.ca.stack.length
      ∧ (∀ j, j < 1 → ∃ e ∈ s.ca.stack, e.token = nextToken^[j] s.ca.token) ∧ (∀ e ∈ s.ca.stack, e.token ≠ 2)
      ∧ s.ca.stack.length < 6 ∧ s.ca.stack = [clm 9 (.portA 5)] ++ [clm 1 .portD]
      ∧ (∀ e ∈ [clm 9 (.portA 5)], Source.portD.rank < e.rank) ∧ ∀ e ∈ [clm 1 .portD], e.rank ≤ Source.portD.rank :=
  ⟨sound_hd, rfl, by decide, by decide, by decide, by decide, by decide, by decide, by decide,
    fun j hj => by obtain rfl : j = 0 := (by omega); exact ⟨clm 1 .portD, by decide, rfl⟩,
    by decide, by decide, by decide, by decide, by decide⟩
theorem witness_ClaimMakesAnEntry_on_a_full_stack :
    let front := [clm 11 (.portA 5), clm 12 (.portA 5), clm 13 (.portA 5), clm 14 .gear, clm 15 .portD]
    let s := sClaim (front ++ [clm 16 .portD])
    s.ca.stack = front ++ [clm 16 .portD] ∧ 5 ≤ front.length ∧ Source.portD.rank ≤ (clm 16 .portD).rank ∧ ha.port = .a
      ∧ (clm 16 .portD).source = .portD ∧ s.ca.token = 1 ∧ (∀ e ∈ s.ca.stack, e.token ≠ 1)
      ∧ countRank (Source.portA 5).rank s.ca.stack < 4 ∧ front = [] ++ front ∧ (∀ e ∈ front, e.rank ≤ 3)
      ∧ (1 : Byte) = nextToken^[0] s.ca.token := by decide
theorem witness_ClaimsRenewAndLeave :
    let s := sClaim [clm 9 (.portA 0), clm 1 .portD]
    s.ca.stack = [] ++ clm 9 (.portA 0) :: [clm 1 .portD] ∧ (clm 9 (.portA 0)).token = 9 ∧ (9 : Byte) ≠ 0
      ∧ (∀ x ∈ [] ++ [clm 1 .portD], x.token ≠ 9) ∧ soundRecord hd ∧ soundRecord ha ∧ (0 = 0 ∨ 255 < 0) ∧ 255 < 256
      ∧ ((255 : Byte) ≠ 0 ∧ ∀ x ∈ s.ca.stack, x.token ≠ 255) ∧ hd.port = .d ∧ ha.port = .a
      ∧ (clm 9 (.portA 0)).source = .portA s.tbu.now ∧ (clm 9 (.portA 0)).source ≠ .portD
      ∧ (∀ d, (clm 1 .portD).source ≠ .portA d) ∧ (clm 1 .portD).source = .portD :=
  ⟨by decide, by decide, by decide, by decide, sound_hd, sound_ha, by decide, by decide, by decide, by decide, by decide, by decide,
    by decide, (fun _ h => nomatch h), by decide⟩
theorem witness_ReverseClaim :
    let s := sClaim [clm 9 (.portA 0), clm 7 .gear]
    let n := sClaim [clm 9 (.portA 0), clm 8 .portD]
    let g : State := { n with si := { n.si with gear := { n.si.gear with value := some .reverse, st := .fresh 9 } } }
    let t : State := { s with ca := { s.ca with lingerTimer := some 0 } }
    soundRecord hd ∧ passesGuard s hd ∧ 15 < 16 ∧ s0.vc.views[6] = none ∧ s.vc.views[6].isSome = true
      ∧ (∃ e ∈ s.ca.stack, e.source = .gear) ∧ (∀ e ∈ n.ca.stack, e.source ≠ .gear) ∧ n.si.effGear ≠ .reverse
      ∧ g.si.effGear = .reverse ∧ g.ca.stack.length < 6 ∧ g.ca.stack = [clm 9 (.portA 0)] ++ [clm 8 .portD]
      ∧ (∀ e ∈ [clm 9 (.portA 0)], 2 < e.rank) ∧ (∀ e ∈ [clm 8 .portD], e.rank ≤ 2) ∧ (∀ e ∈ g.ca.stack, e.token ≠ g.ca.token)
      ∧ t.ca.lingerTimer = some t.tbu.now := by
  refine ⟨sound_hd, pass_hd rfl, ?_⟩
  decide
theorem witness_CanControllerSettings :
    let r : CanArg := ⟨some .normal, some .k500, true, false, 0x7FF, 50, false⟩
    let b := sCan fun c => { c with setup := { c.setup with mode := .normal }, err := .busOff }
    soundRecord hd ∧ passesGuard s0 hd ∧ (r.ext = false ∧ 0x7FF < 0x800) ∧ r.mode = some .normal ∧ r.rate = some .k500
      ∧ r.ident ≤ (if r.ext then 0x1FFFFFFF else 0x7FF) ∧ (CanMode.off = s0.si.can.setup.mode ∧ CanRate.k500 = s0.si.can.setup.rate)
      ∧ CanMode.normal ≠ s0.si.can.setup.mode ∧ s0.si.can.err = .active ∧ b.si.can.setup.mode = .normal ∧ b.si.can.err = .busOff
      ∧ s0.si.can.setup.mode ≠ .normal ∧ b.si.can.recovery = false
      ∧ (sCan fun c => { c with err := .busOff, recovery := true }).si.can.recovery = true := by
  refine ⟨sound_hd, pass_hd rfl, ?_⟩
  decide
theorem witness_SlotAndSignalSettings :
    let r : SlotArg := ⟨false, 0x7FF, 0x7FF, 48, 16, false, -128, 32767, some .speed, 0⟩
    let e : State := { s0 with si := { s0.si with slots := s0.si.slots.set 11 ⟨true, some (slot93 0 8 false 1 .speed)⟩ } }
    soundRecord hd ∧ passesGuard s0 hd ∧ 11 < 12 ∧ e.si.slots[11].enabled = true ∧ s0.si.slots[11].enabled = false ∧ r.length ≤ 16
      ∧ 1 ≤ r.length ∧ r.start + r.length ≤ 64 ∧ -128 ≤ r.mult ∧ r.mult ≤ 127 ∧ r.mult ≠ 0 ∧ -32768 ≤ r.offset ∧ r.offset ≤ 32767
      ∧ r.ident ≤ (if r.ext then 0x1FFFFFFF else 0x7FF) ∧ r.mask ≤ (if r.ext then 0x1FFFFFFF else 0x7FF) ∧ r.target = some .speed
      ∧ s0.si.slots[11].setup = none ∧ e.si.slots[11].setup.isSome = true ∧ 3 < 4 := by
  refine ⟨sound_hd, pass_hd rfl, ?_⟩
  decide
theorem witness_SignalsAge :
    let f : State := { s0 with si := { s0.si with
      gear := { s0.si.gear with st := .fresh 0 }, speed := { s0.si.speed with st := .fresh 0 } } }
    let h : State := { s0 with si := { s0.si with
      gear := { s0.si.gear with st := .held 0 }, steer := { s0.si.steer with st := .held 0 }, doors := { s0.si.doors with st := .held 0 } } }
    f.si.speed.st = .fresh f.tbu.now ∧ f.si.speed.hold ≠ 0 ∧ ({ f.si.speed with hold := 0 } : Sig Nat).hold = 0
      ∧ f.si.gear.st = .fresh f.tbu.now ∧ f.si.gear.hold ≠ 0 ∧ h.si.steer.st = .held h.tbu.now ∧ h.si.doors.st = .held h.tbu.now
      ∧ h.si.gear.st = .held h.tbu.now := by decide
theorem witness_FramesUpdateSignals :
    let c := slot93 16 16 false 4 .speed
    let f : CanFrame := { ext := false, ident := 0, remote := false, data := [0, 0, 0x3A, 0x01] }
    let s : State := { s0 with si := { s0.si with
      can := { s0.si.can with setup := { s0.si.can.setup with mode := .listen } }, speed := { s0.si.speed with st := .fresh 9 }
      slots := s0.si.slots.set 11 ⟨true, some c⟩ } }
    1 ≤ c.length ∧ c.signed = false ∧ (slot93 0 16 true 1 .steer).signed = true ∧ 15 < c.length ∧ s0.si.can.setup.mode = .off
      ∧ s.si.can.setup.mode = .listen ∧ s.si.can.err = .active ∧ (∀ j : Fin 12, j ≠ 11 → s.si.slots[j].enabled = false)
      ∧ s.si.slots[11] = { enabled := true, setup := some c } ∧ f.remote = false ∧ c.ext = f.ext
      ∧ f.ident &&& c.mask = c.ident &&& c.mask ∧ 8 * [(0 : Byte), 0, 0x3A].length < c.start + c.length
      ∧ c.start + c.length ≤ 8 * f.data.length ∧ c.target = .speed ∧ s.si.speed.st = .fresh 9 := by decide
theorem witness_ReceiveErrorsCount :
    let c : CauseRecord := { CauseRecord.clear with crc := true, role := some .receiver }
    let l := sCan fun c => { c with setup := { c.setup with mode := .listen } }
    let n := sCan fun c => { c with setup := { c.setup with mode := .normal }, recv := 127, tec := 127 }
    c = { s0.si.can.cause with crc := true, role := some .receiver } ∧ s0.si.can.setup.mode = .off
      ∧ l.si.can.setup.mode = .listen ∧ l.si.can.err ≠ .busOff ∧ n.si.can.setup.mode = .normal ∧ n.si.can.err = .active
      ∧ n.si.can.tec.toNat < 128 ∧ (126 : Byte).toNat < 127 ∧ n.si.can.recv.toNat = 127 := by decide
theorem witness_StatusFrameIsBuilt :
    let f : StatusFrame := ⟨false, 0x5C0, .replicate 8 0, 7, false⟩
    let n := sCan fun c => { c with setup := { c.setup with mode := .normal }, timer := some 0, buffer := some f }
    let l := sCan fun c => { c with setup := { c.setup with mode := .loopback }, timer := some 0 }
    n.si.can.timer = some n.tbu.now ∧ n.si.can.setup.mode = .normal ∧ l.si.can.timer = some l.tbu.now
      ∧ l.si.can.setup.mode = .loopback ∧ (∀ i : Fin 12, l.si.slots[i].enabled = false) ∧ n.si.can.err ≠ .busOff
      ∧ n.si.can.buffer = some f ∧ n.si.can.attempt = none ∧ s0.si.can.setup.mode ≠ .normal := by decide
theorem witness_StatusAttemptEnds :
    let a : Attempt := ⟨⟨false, 0x5C0, .replicate 8 0, 7, false⟩, true⟩
    let b : Attempt := ⟨⟨false, 0x5C0, .replicate 8 0, 7, true⟩, false⟩
    let n := sCan fun c => { c with attempt := some a, tec := 119, recv := 127 }
    let p := sCan fun c => { c with attempt := some a, tec := 248, err := .passive }
    n.si.can.attempt = some a ∧ n.si.can.err = .active ∧ n.si.can.tec.toNat < 120 ∧ n.si.can.recv.toNat < 128
      ∧ a.frame.singleShot = false ∧ (sCan fun c => { c with attempt := some b }).si.can.attempt = some b ∧ b.frame.singleShot = true
      ∧ p.si.can.attempt = some a ∧ p.si.can.err = .passive ∧ 248 ≤ p.si.can.tec.toNat := by decide
theorem witness_DisplaySetSwitches :
    soundRecord hd ∧ passesGuard s0 hd ∧ s0.su.timer = none ∧ (sSu { s0.su with timer := some 9 }).su.timer.isSome = true :=
  ⟨sound_hd, pass_hd rfl, by decide, by decide⟩
theorem witness_DisplayFrameContent :
    let r := outRing [oslot (.finished (frame 3)), oslot (.finished (frame 4)), oslot .free]
    let s := sSu { s0.su with timer := some 0 }
    let m : State := { s with ca := { s.ca with decision := ⟨none, true⟩ } }
    let v : State := { outed s r with ca := { s.ca with decision := ⟨some 6, false⟩ } }
    s.su.timer = some s.tbu.now ∧ m.ca.decision.mute = true ∧ s.ca.decision.mute = false ∧ s.ca.decision.view = none
      ∧ v.ca.decision.mute = false ∧ v.ca.decision.view.isSome = true ∧ v.fsc.outRing = some r ∧ r.newestDone = some 1
      ∧ v.su.held ≠ some 1 ∧ (sSu { s0.su with held := some 1 }).su.held = some 1 := by decide
theorem witness_ComposeStartOverrun :
    let s := composing { s0 with tbu := { s0.tbu with timer := 0 } }
    s.tbu.timer = s.tbu.now ∧ s.ce.current = some comp ∧ s0.ce.overrunNoticed = false := by decide
theorem witness_ComposeStartDecides :
    let s := outed { sClaim [clm 1 .portD] with tbu := { s0.tbu with timer := 0 } } (outRing [oslot .free])
    let f : State := { s with
      ca := { s.ca with gate := 5 }, si := { s.si with speed := { s.si.speed with value := some 6, st := .fresh 9 } } }
    s.tbu.timer = s.tbu.now ∧ s.ce.current = none
      ∧ (false = true ↔ s.ca.gate.toNat < s.si.effSpeed ∧ ∀ e, s.ca.stack.head? = some e → e.source = .portD)
      ∧ (true = true ↔ f.ca.gate.toNat < f.si.effSpeed ∧ ∀ e, f.ca.stack.head? = some e → e.source = .portD)
      ∧ some 6 = (match s.ca.stack with | [] => s.vc.dflt | e :: _ => some e.view)
      ∧ none = (match s0.ca.stack with | [] => s0.vc.dflt | e :: _ => some e.view)
      ∧ s.fsc.outRing = some (outRing [oslot .free]) ∧ (outRing [oslot .free]).composeTarget s.su.held = some 0
      ∧ (outRing [oslot (.finished (frame 3))]).composeTarget s.su.held = none := by
  refine ⟨by decide, by decide, ⟨(fun h => nomatch h), fun h => absurd h.1 (by decide)⟩,
    ⟨fun _ => ⟨by decide, fun e h => ?_⟩, fun _ => rfl⟩, by decide, by decide, by decide, by decide, by decide⟩
  obtain rfl : clm 1 .portD = e := by simpa [sClaim, outed] using h
  rfl
theorem witness_ComposeCompletes :
    let s := composing (outed s0 (outRing [oslot (.composing 0 15)]))
    s.ce.current = some comp ∧ s.fsc.outRing = some (outRing [oslot (.composing 0 15)])
      ∧ s.passInDram comp (outRing [oslot (.composing 0 15)]) = true ∧ comp.snap.panes = []
      ∧ 65536000 = s.outSlotByte (outRing [oslot (.composing 0 15)]) comp.target := by decide

/-! ### Further clauses of the statements above -/

/-- Bytes that a record or a transaction spells (11.6): EVENT_READ with generation 7 and an argument word, and what R177 ignores. -/
theorem test_transaction_bytes :
    readTransaction .a [1, 3, 0, 7, 0, 0, 0, 5, 0, 0, 0] = some (.eventRead ⟨.a, 7, 5, 0, 10, true⟩)
      ∧ readTransaction .a [1, 0x41, 1, 0, 0, 0, 0, 2, 0, 0, 0, 9] = some (.gridWrite ⟨.a, 0, 2, 1, 11, true⟩ [9])
      ∧ readTransaction .d [2] = some (.responseRead .d) ∧ readTransaction .d [1, 3, 0] = some (.ignoredTransaction .d [1, 3, 0])
      ∧ readTransaction .d [3, 3, 0] = some (.ignoredTransaction .d [3, 3, 0]) := by decide
theorem test_event_read_needs_no_field : resultD (exec (.eventRead { hd with fits := false }) s0) = some .ok := by decide
theorem test_no_pixel_outside_the_frame :
    let s := sSu { s0.su with frame := .blank ⟨1, 2, 3⟩ }
    s.displayPixel 1280 0 = none ∧ s.displayPixel 0 720 = none ∧ s.displayPixel 1279 719 = some ⟨1, 2, 3⟩ := by decide
theorem test_received_frames_are_acknowledged :
    let f : CanFrame := { ext := false, ident := 0, remote := true, data := [] }
    let n := fun m => after (exec (.canFrameReceived f) (sCan fun c => { c with setup := { c.setup with mode := m } }))
      fun t => t.si.can.acks
    n .normal = some 1 ∧ n .listen = some 0 ∧ n .loopback = some 0 ∧ n .off = some 0 := by decide

theorem witness_PortSetupStores_irq : ({ PortState.reset with irqEnable := true, queue := [⟨.camState, 0, 0, 0⟩] } : PortState).irq = true := by
  decide
theorem witness_PipelineResetKeepsConfiguration_clauses :
    let r := sClaim [clm 7 .gear]
    let g : State := { r with
      ca := { r.ca with reverseView := some 6 }
      si := { r.si with gear := { r.si.gear with value := some .reverse, st := .held 9 } } }
    wholeRecord { ha with fits := false } ∧ s0.fsc.areas[3] = .undefined ∧ (sArea 0 8 .clearing).fsc.areas[3] = .range 0 8 .clearing
      ∧ s0.gs.sets[2] = .absent ∧ (sGrid g1 (.opened .d 3)).gs.sets[2] = .held g1 (.opened .d 3)
      ∧ (sGrid g1 (.checking .d 5 (.replicate 4 (1280, 800)))).gs.sets[2] = .held g1 (.checking .d 5 (.replicate 4 (1280, 800)))
      ∧ (sGrid g1 (.valid 1 true)).gs.sets[2] = .held g1 (.valid 1 true)
      ∧ (sGrid g1 (.rejected .d 5 4 .badPair)).gs.sets[2] = .held g1 (.rejected .d 5 4 .badPair)
      ∧ g.ca.reverseView = some 6 ∧ g.si.effGear = .reverse ∧ (s0.ca.reverseView = none ∨ s0.si.effGear ≠ .reverse) := by
  refine ⟨⟨by decide, by decide⟩, ?_⟩
  decide
theorem witness_StatusCommandsOnlyReport_sets : (5 : Nat) = (g1.bw + 1) * (g1.bh + 1) + g1.bw * g1.bh := by decide
theorem witness_StatusCommandsClearAfterReporting_areas :
    let r := outRing [oslot .free]
    (outed s0 r).fsc.areas[4] = .range 1000 1087 (.joined .output) ∧ (outed s0 r).fsc.outRing = some r
      ∧ ∀ b l t, s0.fsc.areas[3] = .range b l (.joined t) → t = .overlay :=
  ⟨by decide, by decide, fun _ _ _ h => by cases h⟩

/-- Camera 1 receives its frame in slot 1. -/
def sReceiving (l : Link) : State := ringed (sCam l (.receiving 1 none)) (ring (slot .free) (slot (.filling 4 0 1)))

theorem witness_LinkStateMoves_open_frames :
    let s := sReceiving (.streaming 9)
    s.ciu[1].link = .streaming 9 ∧ s.ciu[1].link.feed = true ∧ s.ciu[1].reception = .receiving 1 none
      ∧ s.fsc.camRing[1] = some (ring (slot .free) (slot (.filling 4 0 1)))
      ∧ (ring (slot .free) (slot (.filling 4 0 1))).slots[1]? = some (slot (.filling 4 0 1))
      ∧ (sCam .stalled .discarding).ciu[1].reception = .discarding := by decide
theorem witness_FrameStartOpensAFrame_other_states :
    s0.ciu[1].link = .off ∧ (sCam .faulted .noFrame).ciu[1].link = .faulted ∧ (sCam (.settling 5) .noFrame).ciu[1].link = .settling 5
      ∧ (sCam (.seeking none) .noFrame).ciu[1].link = .seeking none ∧ (sCam .stalled .noFrame).ciu[1].link = .stalled
      ∧ (sCam (.streaming 9) .discarding).ciu[1].reception = .discarding ∧ (sReceiving (.streaming 9)).ciu[1].link = .streaming 9
      ∧ (sReceiving (.streaming 9)).ciu[1].reception = .receiving 1 none := by decide
theorem test_frame_start_closes_an_open_frame :
    after (exec (.frameStart 1) (sReceiving (.streaming 9))) (fun t => t.fsc.camRing[1].map fun r => r.slots.map (·.st))
      = some (some [.filling 5 0 0, .damaged 4 0 1 .short]) := by decide
theorem witness_AreaUnjoinNeedsAnIdleUser_output :
    let q := outRing [{ oslot (.finished (frame 3)) with holdA := some 9 }]
    let r := outRing [oslot (.finished (frame 3))]
    (outed s0 q).fsc.outRing = some q ∧ (∃ c ∈ q.slots, c.holdD.isSome = true ∨ c.holdA.isSome = true)
      ∧ (outed s0 r).fsc.outRing = some r ∧ (outed s0 r).su.timer = none ∧ (outed s0 r).ce.current = none
      ∧ (∀ c ∈ r.slots, c.holdD = none ∧ c.holdA = none)
      ∧ ∀ c ∈ (ring (slot (.ready 4 0 800)) (slot .free)).slots, c.pin = false ∧ c.holdD = none ∧ c.holdA = none := by decide
theorem witness_AreaWriteStores_in_flight :
    (composing (sArea 0 1 (.joined .overlay))).ce.current = some comp ∧ 65535 = 0 * 65536 + (hp 65535 1).arg.toNat := by decide
theorem witness_HoldsOfACameraRing_output :
    let r := outRing [oslot .free, oslot (.finished (frame 4))]
    let c : OutSlot := { oslot (.finished (frame 4)) with holdD := some 0 }
    let q := outRing [oslot .free, c]
    s0.fsc.outRing = none ∧ (outed s0 r).fsc.outRing = some r ∧ (∀ x ∈ r.slots, x.hold hd.port = none)
      ∧ (outRing [oslot .free]).newestDone = none ∧ r.newestDone = some 1 ∧ r.slots[1]? = some (oslot (.finished (frame 4)))
      ∧ q.slots[1]? = some c ∧ (c.hold hd.port).isSome = true ∧ c.st = .finished (frame 4) ∧ c.hold .d = some (outed s0 q).tbu.now
      ∧ (∀ x ∈ q.slots.take 1, x.hold .d = none) ∧ ∀ x ∈ (ring (slot .free) (slot .free)).slots, x.hold hd.port = none := by decide
theorem witness_TargetsAreNeverHeld_newest :
    (ring (slot (.ready 3 0 800)) (slot (.ready 4 0 800))).newestReady = some 1 ∧ (ring (slot .free) (slot .free)).newestReady = none
      ∧ (outRing [oslot (.finished (frame 4)), oslot .free]).newestDone = some 0 ∧ (outRing [oslot .free]).newestDone = none
      ∧ (outRing [oslot (.finished (frame 4))]).composeTarget none = none := by decide

/-- Grid memory of set `g1` with one record's first bytes at its record `k`. -/
def recordAt (k : Nat) (bs : List Byte) : Memory := Memory.writeBytes [] (16 * k) bs

/-- The sizes copied by a check of cameras at their default setup. -/
def sizes0 : Vector (Nat × Nat) 4 := .replicate 4 (1280, 800)

/-- Record 0 of `g1` is a node: camera 4 is BAD_CAMERA, u one past (1280 - 1) × 16 is COORD_RANGE, and u at it is in range. -/
theorem witness_GridSetsAreChecked_nodes :
    0 < (g1.bw + 1) * (g1.bh + 1) ∧ NodeBadCamera (recordAt 0 [4]) 0 ∧ ¬ NodeBadCamera (recordAt 0 [1, 0, 0, 0, 0xF1, 0x4F]) 0
      ∧ NodeCoordRange (recordAt 0 [1, 0, 0, 0, 0xF1, 0x4F]) sizes0 0 ∧ ¬ NodeCoordRange (recordAt 0 [1, 0, 0, 0, 0xF0, 0x4F]) sizes0 0 := by
  unfold NodeBadCamera NodeCoordRange outsideFrame hasSecond
  decide

/-- Record 4 of `g1` is its one block, at byte 64. -/
theorem witness_GridSetsAreChecked_blocks :
    (g1.bw + 1) * (g1.bh + 1) ≤ 4 ∧ BlockBadCamera (recordAt 4 [4]) 64 ∧ ¬ BlockBadCamera (recordAt 4 [0, 2, 1]) 64
      ∧ BlockBadPair (recordAt 4 [0, 2, 1]) 64 ∧ ¬ BlockBadPair (recordAt 4 [1]) 64 ∧ ¬ BlockBadCamera (recordAt 4 [1]) 64
      ∧ (recordAt 4 [1]).read 64 ≠ 255 ∧ ¬ BlockBadPair (recordAt 4 [0, 1, 1, 0, 1, 1]) 64
      ∧ BlockWeightRange (recordAt 4 [0, 1, 1, 0, 1, 1]) 64 ∧ ¬ BlockWeightRange (recordAt 4 [0, 1, 1, 0, 0, 1]) 64 := by
  have h : ∀ bs : List Byte, BlockWeightRange (recordAt 4 bs) 64 ↔ ((recordAt 4 bs).read 66).getLsbD 0 = true
      ∧ ∃ k : Fin 4, 256 < (recordAt 4 bs).read16 (68 + 2 * k) := fun bs =>
    ⟨fun ⟨h, k, hk, e⟩ => ⟨h, ⟨k, hk⟩, e⟩, fun ⟨h, k, e⟩ => ⟨h, k, k.isLt, e⟩⟩
  rw [h, h]
  unfold BlockBadCamera BlockBadPair hasSecond
  decide

/-- A block of camera 1 whose corner nodes all name camera 0. -/
theorem witness_GridSetsAreChecked_corners : BlockMissing (recordAt 4 [1]) g1 64 0 0 ∧ ¬ BlockMissing [] g1 64 0 0 := by
  refine ⟨.inl ⟨by decide, 0, 0, by decide, by decide, ?_⟩, ?_⟩
  · rintro ⟨a, rfl, h⟩
    exact absurd h (by unfold hasSecond; decide)
  · rintro (⟨-, dx, dy, h1, h2, h3⟩ | ⟨h, -⟩)
    · interval_cases dx <;> interval_cases dy <;> exact h3 ⟨_, rfl, .inl (by decide)⟩
    · exact absurd h (by unfold hasSecond; decide)
theorem witness_GridDeleteFrees_owners :
    let n : Hdr := { hd with gen := 1 }
    let m : State := { s0 with cp := { s0.cp with gen := 4294967295 } }
    s0.gs.sets[2] = .absent ∧ n.gen ≠ s0.cp.gen ∧ ({ hd with gen := 4294967295 } : Hdr).gen = m.cp.gen ∧ m.cp.gen = 4294967295
      ∧ (sGrid g1 (.checking .a 5 sizes0)).gs.sets[2] = .held g1 (.checking .a 5 sizes0) ∧ Port.a = other hd.port
      ∧ (sGrid g1 (.rejected .d 5 4 .badPair)).gs.sets[2] = .held g1 (.rejected .d 5 4 .badPair) ∧ Port.d = hd.port := by decide
theorem witness_ViewsInUseStay_layouts :
    layoutOf [sideArg, { sideArg with x := 16 }] = some [side, { side with x := 16 }] ∧ layoutOf [sideArg, sideArg] = none
      ∧ layoutOf [] = none ∧ layoutOf [{ sideArg with x := 1272 }] = none := by decide

/-- A slot whose target is GEAR with reverse code 9, enabled, with the controller in a mode. -/
def sGear (m : CanMode) : State :=
  { s0 with si := { s0.si with
      can := { s0.si.can with setup := { s0.si.can.setup with mode := m }, recv := 1 }
      slots := s0.si.slots.set 11 ⟨true, some (slot93 4 4 false 1 (.gear 9))⟩ } }

theorem witness_FramesUpdateSignals_controller :
    let n := sGear .normal
    let p := sCan fun c => { c with setup := { c.setup with mode := .normal }, err := .passive, recv := 128 }
    n.si.can.setup.mode = .normal ∧ n.si.can.err = .active ∧ n.si.can.tec.toNat < 128 ∧ n.si.can.recv.toNat < 128
      ∧ (sCan fun c => { c with err := .busOff }).si.can.err = .busOff ∧ p.si.can.setup.mode = .normal ∧ p.si.can.err = .passive
      ∧ p.si.can.tec.toNat < 128 ∧ p.si.can.recv = 128 ∧ (∀ i : Fin 12, p.si.slots[i].enabled = false)
      ∧ (slot93 0 16 true 1 .steer).target = .steer ∧ (slot93 40 8 false 1 .doors).target = .doors := by decide
theorem witness_FramesUpdateSignals_gear :
    let s := sGear .normal
    let w : State := { s with si := { s.si with
      gear := { s.si.gear with value := some .notReverse, st := .held 9 }, gearPending := some (.reverse, 1) } }
    let c := slot93 4 4 false 1 (.gear 9)
    (∀ j : Fin 12, j ≠ 11 → s.si.slots[j].enabled = false) ∧ s.si.slots[11] = { enabled := true, setup := some c }
      ∧ Gear.reverse = (if c.raw [0x93] = 9 then .reverse else .notReverse)
      ∧ 1 = (match s.si.gearPending with | none => 1 | some (w, k) => if w = Gear.reverse then k + 1 else 1)
      ∧ 2 = (match w.si.gearPending with | none => 1 | some (w, k) => if w = Gear.reverse then k + 1 else 1)
      ∧ s.si.gear.st = .never ∧ 1 < s.si.confirm ∧ w.si.gear.st.code = 2 ∧ w.si.gear.value = some .notReverse ∧ w.si.confirm ≤ 2
      ∧ Gear.notReverse = (if c.raw [0x23] = 9 then .reverse else .notReverse) ∧ s.ca.reverseView = none := by decide
theorem test_gear_makes_the_reverse_claim :
    let s := sGear .loopback
    let w : State := { s with
      vc := (sView s0 [side]).vc, ca := { s.ca with reverseView := some 6 }, si := { s.si with gearPending := some (.reverse, 1) } }
    after (exec (.canFrameReceived { ext := false, ident := 0, remote := false, data := [0x93] }) w)
      (fun t => (t.ca.stack, noticesD t)) = some ([clm 1 .gear], [(.signalState, 0, 1)]) := by decide
theorem witness_DisplayFrameContent_pixels :
    let r := outRing [oslot .free, oslot (.finished (frame 4))]
    let s : State := { outed s0 r with su := { s0.su with frame := .composed 1 } }
    s0.su.frame = .nothing ∧ s.su.frame = .composed 1 ∧ s.fsc.outRing = some r
      ∧ 69277184 = (s.fsc.areas[r.area].base + 1 * 29) * 65536 + 719 * 2560 := by decide

/-- A compose start with camera 1's ring holding a fresh READY frame. -/
def sStart : State :=
  outed (ringed { sClaim [clm 1 .portD] with tbu := { s0.tbu with now := 90000, timer := 90000 } }
    (ring (slot (.ready 4 10000 800)) (slot .free))) (outRing [oslot .free])

/-- A frame of age 80,000 µs is at the stale limit of 80 ms and usable (R51). -/
theorem witness_ComposeStartDecides_usable : UsableFrame sStart 1 0 10000 :=
  ⟨ring (slot (.ready 4 10000 800)) (slot .free), slot (.ready 4 10000 800), 4, 800, by decide, by decide, rfl, rfl, by decide,
    by decide, by decide, (fun _ h => nomatch h), by decide⟩
theorem test_compose_start_pins_the_usable_frame :
    after (exec .composeStart sStart) (fun t => (t.tbu.lastMask, t.fsc.camRing[1].map fun r => r.slots.map (·.pin)))
      = some (2, some [true, false]) := by decide
theorem witness_ComposeStartDecides_sets :
    (sGrid g1 (.valid 1 false)).gs.sets[2] = .held g1 (.valid 1 false) ∧ ({ view := some 6, mute := false } : Decision) ≠ s0.ca.decision
      ∧ (if false then ({ view := none, mute := true } : Decision) else { view := some 6, mute := false }) = ⟨some 6, false⟩ := by decide
theorem witness_ComposeCompletes_sets :
    (sGrid g1 (.valid 1 true)).gs.sets[2] = .held g1 (.valid 1 true) ∧ (∀ j y, j < 0 → (ring (slot .free) (slot .free)).slots[j]? = some y → y.pin = false)
      ∧ comp.mask.getLsbD 1 = true :=
  ⟨by decide, fun j _ h => absurd h (Nat.not_lt_zero j), by decide⟩
theorem witness_StepKeepsAreasAndViews_binds : BindInv (sView (sGrid g1 (.valid 1 false)) [{ side with binding := some 2 }]) := by
  refine ⟨by decide, fun i => ⟨fun h => absurd h ?_, fun ⟨_, h, _⟩ => nomatch h⟩⟩
  revert i
  decide

/-- `sGrid g1` with the cells of set 2 taken from the free extent. -/
def sCells : State := { sGrid g1 (.opened .d 0) with gs := { (sGrid g1 (.opened .d 0)).gs with free := [⟨5, 65531⟩] } }

theorem witness_StepKeepsAreasAndViews_cells : GridCellsInv sCells := by
  have h2 : sCells.gs.sets[(2 : Fin 32)] = .held g1 (.opened .d 0) := by decide
  have u : ∀ i : Fin 32, i ≠ 2 → sCells.gs.sets[i] = .absent := by decide
  have n : ∀ (i : Fin 32) (cell : Nat), i ≠ 2 → ¬ sCells.gs.sets[i].has cell := by
    rintro i cell hi ⟨sh, ph, h, -⟩
    rw [u i hi] at h; cases h
  have b : ∀ cell : Nat, sCells.gs.sets[(2 : Fin 32)].has cell ↔ cell < 5 := by
    intro cell
    rw [h2]
    exact ⟨fun ⟨sh, ph, h, _, hc⟩ => by cases h; exact hc, fun hc => ⟨g1, _, rfl, Nat.zero_le _, hc⟩⟩
  refine ⟨by decide, by decide, fun i g p h => ?_, fun cell hc => ?_⟩
  · by_cases hi : i = 2
    · subst hi; rw [h2] at h; cases h; decide
    · rw [u i hi] at h; cases h
  · by_cases h5 : cell < 5
    · refine .inr ⟨fun e he => ?_, 2, (b cell).2 h5, fun j hj => n j cell hj⟩
      obtain rfl : e = ⟨5, 65531⟩ := List.mem_singleton.1 he
      exact fun hh => absurd hh.1 (by simpa using h5)
    · refine .inl ⟨⟨⟨5, 65531⟩, List.mem_singleton.2 rfl, Nat.le_of_not_lt h5, hc⟩, fun i => ?_⟩
      by_cases hi : i = 2
      · subst hi; rw [b]; exact h5
      · exact n i cell hi
theorem witness_StepKeepsHolds_open : OneOpenInv (sReceiving (.streaming 9)) := by
  refine ⟨fun n r k c q st l h hk hc => ?_, fun r k c st m h => nomatch h⟩
  have u : ∀ n : Fin 4, n ≠ 1 → (sReceiving (.streaming 9)).fsc.camRing[n] = none := by decide
  by_cases hn : n = 1
  · subst hn
    obtain rfl : ring (slot .free) (slot (.filling 4 0 1)) = r := Option.some.inj h
    match k, hk with
    | 0, hk => obtain rfl : slot .free = c := Option.some.inj hk; cases hc
    | 1, _ => exact ⟨none, rfl⟩
    | k + 2, hk => cases hk
  · rw [u n hn] at h; cases h

/-- The hypotheses of the invariants: reset's queue is empty and nothing is due, so a microsecond passes. -/
theorem witness_StepKeepsInvariants : step State.reset = .next State.reset.tick := by rfl
theorem witness_StepKeepsMarkers : MarkerInv (sMark [mark 1 3, mark 2 2]) := by unfold MarkerInv; decide
theorem witness_StepKeepsClaims : ClaimInv (sClaim [clm 9 (.portA 0), clm 7 .gear, clm 1 .portD]) := by unfold ClaimInv; decide
theorem witness_StepKeepsMemoriesQueuesAndGains : MemoryInv s0 ∧ QueueInv s0 ∧ GainInv s0 := by
  unfold MemoryInv QueueInv GainInv; decide
theorem witness_StepKeepsAreasAndViews : AreaInv (sArea 0 128 .clean) ∧ ViewInv (sClaim [clm 1 .portD]) := by
  have u : ∀ i : Fin 8, i ≠ 3 → (sArea 0 128 .clean).fsc.areas[i] = .undefined := by decide
  have v : (sArea 0 128 .clean).fsc.areas[(3 : Fin 8)] = .range 0 128 .clean := by decide
  refine ⟨⟨fun a b l p h => ?_, fun a a' b l b' l' p p' hn h h' => ?_⟩, by unfold ViewInv; decide⟩
  · by_cases ha : a = 3
    · subst ha; rw [v] at h; cases h; decide
    · rw [u a ha] at h; cases h
  · by_cases ha : a = 3
    · rw [u a' fun e => hn (ha.trans e.symm)] at h'; cases h'
    · rw [u a ha] at h; cases h

/-- A state in which camera 1's frame is pinned and the scanout holds an output slot. -/
def heldState : State :=
  { outed (ringed s0 (ring { slot (.ready 4 0 800) with pin := true } (slot .free))) (outRing [oslot (.finished (frame 3))]) with
    su := { s0.su with timer := some 9, held := some 0 } }

theorem witness_StepKeepsHolds : HoldInv heldState := by
  refine ⟨fun n r h c hc => ?_, fun r h c hc => ?_, fun k h => ?_, by decide⟩
  · have u : ∀ n : Fin 4, n ≠ 1 → heldState.fsc.camRing[n] = none := by decide
    by_cases hn : n = 1
    · subst hn
      obtain rfl : ring { slot (.ready 4 0 800) with pin := true } (slot .free) = r := Option.some.inj h
      rcases List.mem_cons.1 hc with rfl | hc
      · exact fun _ => ⟨4, 0, 800, rfl⟩
      · obtain rfl : c = slot .free := List.mem_singleton.1 hc
        exact fun h => nomatch h
    · rw [u n hn] at h; cases h
  · obtain rfl : outRing [oslot (.finished (frame 3))] = r := Option.some.inj h
    obtain rfl : c = oslot (.finished (frame 3)) := List.mem_singleton.1 hc
    exact fun _ => ⟨frame 3, rfl⟩
  · obtain rfl : (0 : Nat) = k := Option.some.inj h
    exact ⟨rfl, _, _, frame 3, rfl, rfl, rfl⟩
theorem witness_GenerationCountsAcceptedCommands :
    (after (exec (.camMask hd 3) s0) id).isSome = true ∧ guardedHeader (.camMask hd 3) = some hd ∧ soundRecord hd
      ∧ guardedHeader (.camMask { hd with gen := 1 } 3) = some { hd with gen := 1 } ∧ ({ hd with gen := 1 } : Hdr).gen ≠ s0.cp.gen :=
  ⟨by decide, by decide, sound_hd, by decide, by decide⟩
theorem witness_RefusedCommandsChangeNothing :
    headerOf (.camMask hd 16) = some hd ∧ resultD (exec (.camMask hd 16) s0) = some .badArg := by decide
theorem witness_StandingState :
    (after (exec (.camMask hd 3) s0) id).isSome = true ∧ writesDram (.camMask hd 3) = false ∧ isHardReset (.camMask hd 3) = false := by decide

/-! ### Clauses widened for the second review -/

/-- A pass in flight stops where it stands (R105): with no clear and no pass DRAM is as it was, and a clear that stops leaves
what lies outside its range. -/
theorem test_reset_keeps_dram_outside_what_it_abandons :
    let s : State := { sArea 0 1 .clearing with dram := [(65535, 3), (65536, 5)] }
    State.reset.abandonedDram = State.reset.dram ∧ s.abandonedDram.read 65536 = 5 := by
  refine ⟨rfl, ?_⟩
  rcases State.stopClears_read { sArea 0 1 .clearing with dram := [(65535, 3), (65536, 5)] } (List.finRange 8)
    [(65535, 3), (65536, 5)] 65536 with h | ⟨-, a, b, k, ha, -, hk⟩
  · exact h
  · exfalso
    revert a
    rw [Fin.forall_fin_succ.trans Iff.rfl]
    refine ⟨fun h => (nomatch h), fun i => ?_⟩
    fin_cases i <;> intro h <;> simp only [sArea] at h <;> cases h
    omega
theorem test_empty_transaction_is_ignored : readTransaction .d [] = some (.ignoredTransaction .d []) := by decide
theorem test_line_beyond_the_frame_is_counted :
    let s := ringed (sCam (.streaming 9) (.receiving 1 none)) (ring (slot .free) (slot (.filling 4 0 800)))
    after (exec (.line 1 []) s) (fun t => (t.fsc.camRing[1].map fun r => r.slots.map (·.st), t.dram.length))
      = some (some [.free, .filling 4 0 801], 0) := by decide
theorem test_power_off_notice :
    after (exec (.camPowerOff hd 1) (sCam (.streaming 9) .discarding)) (fun t => (noticesD t, t.ciu[1].counts))
      = some ([(.camState, 1, 768)], CamCounts.zero) := by decide
theorem test_grid_open_of_a_whole_extent :
    after (exec (.gridOpen hd 0 1 1) { s0 with gs := { s0.gs with free := [⟨0, 5⟩, ⟨9, 9⟩] } }) (fun t => t.gs.free) = some [⟨9, 9⟩] := by
  decide
theorem test_view_erase_lowers_both_bindings :
    let b : Pane := { side with binding := some 2 }
    after (exec (.viewErase hd 6) (sView (sGrid g1 (.valid 3 false)) [b, b])) (fun t => t.gs.sets[2])
      = some (.held g1 (.valid 1 false)) := by decide
theorem test_gear_slot_refuses_a_code_its_field_cannot_hold :
    let r : SlotArg := ⟨false, 0, 0, 60, 4, true, 1, 0, some .gear, 8⟩
    resultD (exec (.slotSetup hd 0 r) s0) = some .badArg ∧ resultD (exec (.slotSetup hd 0 { r with reverse := -8 }) s0) = some .ok
      ∧ resultD (exec (.slotSetup hd 0 { r with reverse := -8, start := 61 }) s0) = some .badArg := by decide
/-- 9.9: at TEC 240 the first ACK error of a single-shot frame drops frame 7 with STATUS_TX_FAILED 7 at TEC 248. -/
theorem test_single_shot_error :
    let s := sCan fun c => { c with attempt := some ⟨⟨false, 0x5C0, .replicate 8 0, 7, true⟩, false⟩, tec := 240, err := .passive }
    after (exec (.statusTxError .ack) s) (fun t => (t.si.can.tec, t.si.can.failed, noticesD t))
      = some (248, 1, [(.statusTxFailed, 0, 7)]) := by decide
theorem test_single_shot_bus_off_order :
    let s := sCan fun c => { c with attempt := some ⟨⟨false, 0x5C0, .replicate 8 0, 7, true⟩, false⟩, tec := 248, err := .passive }
    after (exec (.statusTxError .form) s) (fun t => noticesD t) = some [(.canState, 0, 258), (.statusTxFailed, 0, 7)] := by decide
theorem test_reopen_of_another_owner :
    resultD (exec (.gridReopen hd 2) (sGrid g1 (.rejected .a 5 4 .badPair))) = some .notOwner := by decide
theorem test_rebinding_moves_the_count :
    let s := sView (sGrid g1 (.valid 1 false)) [{ side with binding := some 2 }]
    let t : State := { s with gs := { s.gs with sets := s.gs.sets.set 3 (.held g1 (.valid 0 false)) } }
    after (exec (.viewBind hd 6 0 3) t) (fun u => (u.gs.sets[2], u.gs.sets[3]))
      = some (.held g1 (.valid 0 false), .held g1 (.valid 1 false)) := by decide

theorem witness_CamPower_off :
    let s := sReceiving (.streaming 9)
    3 < 4 ∧ s.ciu[1].link ≠ .off ∧ (sCam .stalled .discarding).ciu[1].link ≠ .off
      ∧ (sCam .stalled .discarding).ciu[1].reception = .discarding ∧ s.ciu[1].reception = .receiving 1 none
      ∧ s.fsc.camRing[1] = some (ring (slot .free) (slot (.filling 4 0 1))) := by decide
theorem witness_LineWritesItsRow_other_states :
    let r := ring (slot .free) (slot (.filling 4 0 800))
    let s := ringed (sCam (.streaming 9) (.receiving 1 none)) r
    s0.ciu[1].reception = .noFrame ∧ (sCam (.streaming 9) .discarding).ciu[1].reception = .discarding ∧ s.ciu[1].link.live = true
      ∧ s.ciu[1].reception = .receiving 1 none ∧ s.fsc.camRing[1] = some r ∧ r.slots[1]? = some (slot (.filling 4 0 800))
      ∧ s.ciu[1].setup.height ≤ (800 : Count).toNat := by decide
theorem witness_GridOpenTakesCells_exact :
    let s : State := { s0 with gs := { s0.gs with free := [] ++ Extent.mk 0 5 :: [⟨9, 9⟩] } }
    31 < 32 ∧ s.gs.sets[0] = .absent ∧ s.gs.free = [] ++ Extent.mk 0 5 :: [⟨9, 9⟩] ∧ 5 = (1 + 1) * (1 + 1) + 1 * 1 := by decide
theorem witness_GridSetsAreChecked_owners :
    (sGrid g1 (.rejected .a 5 4 .badPair)).gs.sets[2] = .held g1 (.rejected (other hd.port) 5 4 .badPair)
      ∧ (sGrid g1 (.opened .a 3)).gs.sets[2] = .held g1 (.opened (other hd.port) 3)
      ∧ (sGrid g1 (.checking .a 5 sizes0)).gs.sets[2] = .held g1 (.checking (other hd.port) 5 sizes0)
      ∧ (sGrid g1 (.checking .d 5 sizes0)).gs.sets[2] = .held g1 (.checking hd.port 5 sizes0)
      ∧ (sGrid g1 (.valid 0 false)).gs.sets[2] = .held g1 (.valid 0 false) ∧ s0.gs.sets[2] = .absent := by decide
theorem witness_ViewsInUseStay_bound :
    let b : Pane := { side with binding := some 2 }
    let s := sView (sGrid g1 (.valid 3 false)) [b, b]
    s.vc.views[6] = some [b, b] ∧ s.viewInUse 6 = false
      ∧ (s.gs.sets.set 2 (.held g1 (.valid 1 false)))[2]
        = .held g1 (.valid (3 - [b, b].countP fun p : Pane => decide (p.binding = some 2)) false)
      ∧ ∀ i : Fin 32, i ≠ 2 → s.gs.sets[i] = .absent := by decide
theorem witness_BindingsAreCounted_bound :
    let b : Pane := { side with binding := some 2 }
    let s := sView (sGrid g1 (.valid 1 false)) [b]
    let t : State := { s with gs := { s.gs with sets := s.gs.sets.set 3 (.held g1 (.valid 0 false)) } }
    s.vc.views[6] = some [b] ∧ s.gs.sets[2] = .held g1 (.valid 1 false) ∧ g1.bw = b.w / 16 ∧ g1.bh = b.h / 16
      ∧ b.binding = some 2 ∧ 0 < 1 ∧ t.gs.sets[3] = .held g1 (.valid 0 false) ∧ t.gs.sets[2] = .held g1 (.valid 1 false) := by decide
theorem witness_CanControllerSettings_restart :
    (sCan fun c => { c with err := .passive }).si.can.err = .passive ∧ (sCan fun c => { c with err := .busOff }).si.can.err = .busOff
      ∧ CanMode.normal ≠ s0.si.can.setup.mode := by decide
theorem witness_SlotAndSignalSettings_targets :
    let r : SlotArg := ⟨true, 0x1FFFFFFF, 0x1FFFFFFF, 48, 16, true, -128, -32768, some .gear, -32768⟩
    s0.si.slots[0].enabled = false ∧ r.signed = true ∧ -(2 ^ (r.length - 1) : Int) = -32768 ∧ (2 ^ (r.length - 1) - 1 : Int) = 32767
      ∧ r.length ≤ 16 ∧ r.start + r.length ≤ 64 ∧ r.ident ≤ (if r.ext then 0x1FFFFFFF else 0x7FF) ∧ r.target = some .gear
      ∧ -32768 ≤ r.reverse ∧ r.reverse ≤ 32767 ∧ ({ r with mult := 0 } : SlotArg).mult = 0
      ∧ ({ r with reverse := 32768 } : SlotArg).reverse > 32767 ∧ ({ r with target := none } : SlotArg).target = none := by decide
theorem witness_SignalsAge_all :
    let s : State := { s0 with si := { s0.si with
      gear := { s0.si.gear with st := .fresh 0, hold := 0 }, speed := { s0.si.speed with st := .held 0 }
      steer := { s0.si.steer with st := .fresh 0 }, doors := { s0.si.doors with st := .fresh 0, hold := 0 } } }
    s.si.gear.st = .fresh s.tbu.now ∧ s.si.gear.hold = 0 ∧ s.si.speed.st = .held s.tbu.now ∧ s.si.steer.st = .fresh s.tbu.now
      ∧ s.si.steer.hold ≠ 0 ∧ s.si.doors.st = .fresh s.tbu.now ∧ s.si.doors.hold = 0 := by decide
theorem witness_ReceiveErrorsCount_passive :
    let p := fun n : Byte => sCan fun c => { c with setup := { c.setup with mode := .normal }, recv := n, err := .passive }
    let l := sCan fun c => { c with setup := { c.setup with mode := .loopback } }
    (p 254).si.can.setup.mode = .normal ∧ (p 254).si.can.err = .passive ∧ 128 ≤ (p 254).si.can.recv.toNat
      ∧ (p 254).si.can.recv.toNat < 255 ∧ (p 255).si.can.recv.toNat = 255 ∧ l.si.can.setup.mode = .loopback
      ∧ l.si.can.err ≠ .busOff := by decide
theorem witness_StatusAttemptEnds_passive :
    let p := fun n : Byte => sCan fun c => { c with tec := n, err := .passive }
    let a := fun n : Byte => sCan fun c => { c with tec := n }
    (p 129).si.can.tec - 1 = 128 ∧ (p 128).si.can.tec - 1 = 127 ∧ (p 247).si.can.tec.toNat < 248 ∧ 120 ≤ (p 247).si.can.tec.toNat
      ∧ (p 248).si.can.err = .passive ∧ (a 120).si.can.err = .active ∧ 120 ≤ (a 120).si.can.tec.toNat
      ∧ 248 ≤ (a 248).si.can.tec.toNat := by decide
theorem witness_ComposeCompletes_bitmap :
    ({ comp.snap with overlayArea := some 3 } : Snapshot).overlayArea = some 3
      ∧ (sArea 2 3 (.joined .overlay)).fsc.areas[3] = .range 2 3 (.joined .overlay) := by decide
theorem witness_GenerationCountsAcceptedCommands_area_write :
    wholeRecord (hp 0 1) ∧ (hp 0 1).len.toNat ≤ [(1 : Byte)].length ∧ ({ hp 0 1 with gen := 1 } : Hdr).gen ≠ s0.cp.gen := by
  refine ⟨⟨by decide, by decide⟩, by decide, by decide⟩
theorem witness_StandingState_abandons : abandons .resetPin = true ∧ abandons (.pipelineReset hd) = true ∧ abandons (.linkLock 0) = false := by
  decide

/-! ### Clauses widened for the third review -/

/-- A full stack: three PORT_A entries above three PORT_D entries, the token counter at 7, as in 8.7 step 3. -/
def sFull : List Claim := [clm 5 (.portA 0), clm 4 (.portA 0), clm 3 (.portA 0), clm 6 .portD, clm 2 .portD, { clm 1 .portD with view := 1 }]

/-- 8.7 step 4: GEAR becomes REVERSE on a full stack, and Port D's entry 1 leaves with CLAIM_EVICTED, after SIGNAL_STATE (R162). -/
theorem test_gear_evicts_on_a_full_stack :
    let s := sGear .listen
    let w : State := { s with
      ca := { s.ca with reverseView := some 4, stack := sFull, token := 7 }, si := { s.si with gearPending := some (.reverse, 1) } }
    after (exec (.canFrameReceived { ext := false, ident := 0, remote := false, data := [0x93] }) w)
      (fun t => (t.ca.stack.map (·.token), t.ca.token, noticesD t))
      = some ([5, 4, 3, 7, 6, 2], 8, [(.signalState, 0, 1), (.claimEvicted, 1, 1)]) := by decide
/-- R85: the first overrun sends OVERRUN with the target slot and the count after the addition. -/
theorem test_overrun_notice :
    let s := composing { s0 with tbu := { s0.tbu with timer := 0 } }
    after (exec .composeStart s) (fun t => (noticesD t, t.cp.faults)) = some ([(.overrun, 0, 1)], 4) := by decide
/-- R17: the first unjoined frame sends CAM_UNJOINED with the count after the addition. -/
theorem test_unjoined_notice :
    after (exec (.frameStart 1) (sCam (.streaming 9) .noFrame)) noticesD = some [(.camUnjoined, 1, 1)] := by decide
theorem test_overlay_join_makes_no_ring :
    after (exec (.areaJoin hd 3 (some .overlay)) (sArea 0 1 .clean)) (fun t => (t.fsc.areas[3], t.fsc.outRing))
      = some (.range 0 1 (.joined .overlay), none) := by decide
/-- R155, R168: in LOOPBACK the frame built at the interval goes to the slots; DOORS takes its byte 7, count 1. -/
theorem test_loopback_feeds_the_slots :
    let s : State := { s0 with si := { s0.si with
      can := { s0.si.can with setup := { s0.si.can.setup with mode := .loopback }, timer := some 0 }
      slots := s0.si.slots.set 11 ⟨true, some { slot93 56 8 false 1 .doors with mask := 0 }⟩ } }
    after (exec .statusIntervalExpiry s) (fun t => (t.si.doors.value, t.si.can.buffer, noticesD t))
      = some (some 1, none, [(.signalState, 3, 1)]) := by decide

theorem witness_ComposeStartOverrun_newest :
    let r := ring (slot (.ready 3 0 800)) (slot .free)
    let s := composing { s0 with tbu := { s0.tbu with timer := 0 } }
    s.ce.overrunNoticed = false ∧ ({ s.ce with overrunNoticed := true } : Compositor).overrunNoticed = true
      ∧ (ringed s r).fsc.camRing[1] = some r ∧ r.newestReady = some 0 ∧ r.slots[0]? = some (slot (.ready 3 0 800))
      ∧ s.fsc.camRing[1] = none ∧ ((2147483647 : Word32) - 0).toNat < 2 ^ 31 ∧ ¬ ((2147483648 : Word32) - 0).toNat < 2 ^ 31 := by decide
theorem witness_FrameStartOpensAFrame_unjoined :
    (sCam (.streaming 9) .noFrame).fsc.camRing[1] = none ∧ (sCam (.streaming 9) .noFrame).ciu[1].unjoinedNoticed = false := by decide
theorem witness_ReverseClaim_full_stack :
    let s := sClaim sFull
    let g : State := { s with
      ca := { s.ca with token := 5 }, si := { s.si with gear := { s.si.gear with value := some .reverse, st := .fresh 9 } } }
    let hi := [clm 5 (.portA 0), clm 4 (.portA 0), clm 3 (.portA 0)]
    let lo := [clm 6 .portD, clm 2 .portD]
    (∀ e ∈ g.ca.stack, e.source ≠ .gear) ∧ g.si.effGear = .reverse ∧ (∀ e ∈ hi, 2 < e.rank) ∧ (∀ e ∈ lo, e.rank ≤ 2)
      ∧ 7 = nextToken^[2] g.ca.token ∧ 2 ≤ (hi ++ lo).length ∧ (∀ j, j < 2 → ∃ e ∈ hi ++ lo, e.token = nextToken^[j] g.ca.token)
      ∧ (∀ e ∈ hi ++ lo, e.token ≠ 7) ∧ g.ca.stack = hi ++ lo ++ [{ clm 1 .portD with view := 1 }] ∧ 5 ≤ (hi ++ lo).length
      ∧ ({ clm 1 .portD with view := 1 } : Claim).source = .portD := by decide
theorem witness_StatusFrameIsBuilt_loopback :
    let l := sCan fun c => { c with setup := { c.setup with mode := .loopback }, timer := some 0 }
    l.si.can.timer = some l.tbu.now ∧ l.si.can.setup.mode = .loopback ∧ l.si.can.err ≠ .busOff := by decide
theorem witness_AreaJoinMakesTheRing_overlay :
    (sArea 4095 4096 .clean).fsc.areas[3] = .range 4095 4096 .clean ∧ (sArea 4095 4096 .clean).fsc.joined .overlay = none ∧ 4095 < 4096
      ∧ 7 < 8 ∧ (sArea 0 1 .clearing).fsc.areas[3] = .range 0 1 .clearing ∧ s0.fsc.areas[3] = .undefined
      ∧ (sArea 0 1 .defined).fsc.areas[3] = .range 0 1 .defined
      ∧ (sArea 0 1 (.joined .overlay)).fsc.areas[3] = .range 0 1 (.joined .overlay) := by decide

/-! ### Clauses widened for the fourth review -/

/-- Port D subscribed to every kind, with `n` notices waiting. -/
def sQueue (n : Nat) : State :=
  { s0 with cp := { s0.cp with portD := { s0.cp.portD with queue := List.replicate n ⟨.camState, 0, 0, 0⟩ } } }

/-- 11.8, steps 1 and 2: the 32nd notice is placed, and the next one sets the overflow flag and is lost. -/
theorem test_notice_at_a_full_queue :
    let a := ((sQueue 31).notify .frameDone 2 7).cp.portD
    let b := ((sQueue 32).notify .viewChanged 1 0).cp.portD
    a.queue.length = 32 ∧ a.overflow = false ∧ a.queue.getLast? = some ⟨.frameDone, 0, 2, 7⟩ ∧ b.queue.length = 32
      ∧ b.overflow = true := by decide
theorem test_flags_of_a_response :
    let s := sClaim [clm 9 (.portA 0)]
    { s with ca := { s.ca with decision := ⟨none, true⟩ } }.flags = 7
      ∧ { s0 with tbu := { s0.tbu with lastMask := 15 }, cp := { s0.cp with faults := 1 } }.flags = 8 := by decide
theorem test_framing :
    resultD (exec (.camMask { hd with len := 241, got := 300 } 3) s0) = some .badArg
      ∧ resultD (exec (.camMask { hd with len := 2, got := 11 } 3) s0) = some .badArg
      ∧ resultD (exec (.camMask { hd with fits := false } 3) s0) = some .badArg
      ∧ exec (.camMask { hd with got := 9 } 3) s0 = .next s0 := ⟨by decide, by decide, by decide, rfl⟩
/-- R158: two slots that accept one frame and name one target update it in slot order, and the second value stands. -/
theorem test_two_slots_of_one_frame :
    let s : State := { s0 with si := { s0.si with
      can := { s0.si.can with setup := { s0.si.can.setup with mode := .listen } }
      slots := (s0.si.slots.set 3 ⟨true, some (slot93 0 8 false 1 .doors)⟩).set 11 ⟨true, some (slot93 8 8 false 1 .doors)⟩ } }
    after (exec (.canFrameReceived { ext := false, ident := 0, remote := false, data := [5, 6] }) s)
      (fun t => (t.si.doors.value, t.si.doors.last.map (·.2.val), noticesD t)) = some (some 6, some 11, [(.signalState, 3, 1)]) := by decide

theorem witness_TransactionsOfThePorts_framing :
    let h : Hdr := { hd with len := 241, got := 300 }
    headerOf (.camMask h 3) = some h ∧ codeOf (.camMask h 3) = some 0x14 ∧ 10 ≤ h.got ∧ 240 < h.len.toNat
      ∧ ({ hd with got := 9 } : Hdr).got < 10 ∧ ({ hd with len := 1 } : Hdr).got < 10 + ({ hd with len := 1 } : Hdr).len.toNat
      ∧ typedFields (.camMask { hd with fits := false } 3) = true ∧ (hp 0 11).len.toNat < 12 := by decide
theorem witness_EventReadReturnsOldest_notices :
    wholeRecord hd ∧ ((sQueue 31).port .d).queue.length < 32 ∧ 32 ≤ ((sQueue 32).port .d).queue.length
      ∧ ((sQueue 31).port .d).mask.getLsbD NoticeKind.frameDone.code = true
      ∧ ((sQueue 31).port .a).mask.getLsbD NoticeKind.frameDone.code = false :=
  ⟨⟨sound_hd.1, sound_hd.2.1⟩, by decide, by decide, by decide, by decide⟩
theorem witness_FrameReadReturnsBytes_held :
    let r := ring (slot .free) { slot (.ready 4 0 800) with holdD := some 0 }
    let c : OutSlot := { oslot (.finished (frame 4)) with holdA := some 0 }
    (ringed s0 r).fsc.camRing[1] = some r ∧ (ringed s0 r).fsc.areas[r.area] = .range 0 128 (.joined (.camera 1))
      ∧ r.slots[1]? = some { slot (.ready 4 0 800) with holdD := some 0 } ∧ (∀ c ∈ r.slots, c.hold .a = none)
      ∧ (slot .free).hold .d = none ∧ (ringed s0 r).heldFrame .d (.camera 1) = some (32 * 65536, 2048000)
      ∧ (outed s0 (outRing [oslot .free, c])).fsc.outRing = some (outRing [oslot .free, c]) ∧ (c.hold .a).isSome = true
      ∧ (outed s0 (outRing [oslot .free, c])).heldFrame .a .output = some (1029 * 65536, 1843200) ∧ s0.fsc.camRing[1] = none
      ∧ s0.fsc.outRing = none := by decide
theorem witness_ClaimMakesAnEntry_token_carried :
    let hi := [clm 5 (.portA 0), clm 4 (.portA 0)]
    let lo := [clm 7 .gear, clm 6 .portD, clm 2 .portD]
    let s : State := { sClaim (hi ++ lo ++ [clm 1 .portD]) with ca := { (sClaim (hi ++ lo ++ [clm 1 .portD])).ca with token := 5 } }
    countRank 3 s.ca.stack < 4 ∧ s.ca.stack = hi ++ lo ++ [clm 1 .portD] ∧ 5 ≤ (hi ++ lo).length ∧ ha.port = .a
      ∧ (clm 1 .portD).source = .portD ∧ (8 : Byte) = nextToken^[3] s.ca.token ∧ 3 ≤ (hi ++ lo).length
      ∧ (∀ j, j < 3 → ∃ e ∈ hi ++ lo, e.token = nextToken^[j] s.ca.token) ∧ ∀ e ∈ hi ++ lo, e.token ≠ 8 := by decide
theorem witness_ClaimsRenewAndLeave_empty_stack : ∀ x ∈ (sClaim []).ca.stack, x.token ≠ 255 := by decide
theorem witness_FramesUpdateSignals_two_slots :
    let c := slot93 0 8 false 1 .doors
    let off : CanSlot := ⟨false, some c⟩
    let v := (s0.si.slots.set 3 ⟨true, some c⟩).set 11 ⟨true, some c⟩
    (∀ j : Fin 12, v[j].enabled = true → 3 ≤ j)
      ∧ (∀ j : Fin 12, (v.set 11 off)[j] = if j = 3 then v[j] else { v[j] with enabled := false })
      ∧ ∀ j : Fin 12, (v.set 3 off)[j] = if j = 3 then { v[j] with enabled := false } else v[j] := by decide
theorem witness_GenerationCountsAcceptedCommands_accepted :
    guardedHeader (.camMask hd 3) = some hd ∧ 10 ≤ hd.got
      ∧ after (exec (.camMask hd 3) s0) (fun t => (t.cp.gen, t.cp.portD.pending.map fun x => (x.result.accepts, x.gen)))
        = some (1, some (true, 1))
      ∧ (sGrid g1 (.valid 0 false)).gs.sets[2] = .held g1 (.valid 0 false) := by decide

end Sys2Proof.Tests
end

