-- ==== Sys2Proof/Proofs/Balance.lean ====
section
/-! The settings of the balance unit: clamping in its two forms, the path of a refused guarded command, what the store of
an operand leaves, and BALANCE_SET (R109, R110). -/

namespace Sys2Proof.Machine

/-! ### Clamping (R109 steps 2 and 3) -/

theorem clampNat_eq_max_min {lo hi : Nat} (h : lo ≤ hi) (x : Nat) : clampNat lo hi x = max lo (min x hi) := by
  unfold clampNat
  split
  · omega
  · split <;> omega

theorem clampNat_eq_self_iff {lo hi : Nat} (h : lo ≤ hi) (x : Nat) : clampNat lo hi x = x ↔ lo ≤ x ∧ x ≤ hi := by
  constructor
  · intro e
    rw [← e]
    exact clampNat_range lo hi x h
  · exact clampNat_same lo hi x

/-- The result of a command whose clamping is noticed exactly outside the range `p`. -/
theorem clampResult_eq_ite {changed : Bool} {p : Prop} [Decidable p] (h : changed = false ↔ p) :
    clampResult changed = if p then .ok else .clamped := by
  cases changed with
  | false => rw [if_pos (h.1 rfl)]; rfl
  | true => rw [if_neg fun hp => Bool.noConfusion (h.2 hp)]; rfl

/-! ### A guarded command that its own rule refuses (R178, R179) -/

theorem guarded_sound_refuse {s : State} {h : Hdr} {code : Byte} {judge : State → Verdict} {r : Result}
    (hs : soundRecord h) (hg : passesGuard s h) (e : judge s = .refuse r) :
    guarded s h code judge = .next (s.respond h.port code r .empty) := by
  obtain ⟨hgen, hmax⟩ := hg
  simp [guarded, takeCommand, hs.got_ge, framed_of_sound hs, guardGen, hgen, hmax, e, answer]

/-! ### What the store leaves -/

/-- The manual gains that an operand stores (R109 step 2). -/
theorem Balance.store_manual_eq (r : BalanceArg) :
    Balance.store.manual r
      = #v[max 128 (min r.m0 512), max 128 (min r.m1 512), max 128 (min r.m2 512), max 128 (min r.m3 512)] := by
  simp only [Balance.store.manual, clampNat_eq_max_min (show 128 ≤ 512 by decide)]

/-- What a store writes beside the gains: the mode and each clamped setting; the statistics record stays (R109 step 2). -/
theorem Balance.store_eq (b : Balance) (m : BalMode) (r : BalanceArg) :
    b.store m r
      = { b with
          mode := m, manual := Balance.store.manual r, gains := (b.store m r).gains
          k := max 1 (min r.k 16), smax := max 1 (min r.smax 64), nmin := max 256 (min r.nmin 65535) } := by
  rw [← clampNat_eq_max_min (show 1 ≤ 16 by decide), ← clampNat_eq_max_min (show 1 ≤ 64 by decide),
    ← clampNat_eq_max_min (show 256 ≤ 65535 by decide)]
  rfl

/-- Naming MANUAL makes the gains the manual gains (R110). -/
theorem Balance.store_gains_of_manual (b : Balance) (r : BalanceArg) :
    (b.store .manual r).gains = Balance.store.manual r := rfl

/-- Naming AUTO keeps the gains (R110). -/
theorem Balance.store_gains_of_auto (b : Balance) (r : BalanceArg) : (b.store .auto r).gains = b.gains := rfl

/-- The stored values are the operand's own exactly when each of them was in its range (R109 step 3). -/
theorem balanceClamped_store_eq_false_iff (b : Balance) (m : BalMode) (r : BalanceArg) :
    balanceClamped (b.store m r) r = false ↔
      (128 ≤ r.m0 ∧ r.m0 ≤ 512) ∧ (128 ≤ r.m1 ∧ r.m1 ≤ 512) ∧ (128 ≤ r.m2 ∧ r.m2 ≤ 512) ∧ (128 ≤ r.m3 ∧ r.m3 ≤ 512)
        ∧ (1 ≤ r.k ∧ r.k ≤ 16) ∧ (1 ≤ r.smax ∧ r.smax ≤ 64) ∧ 256 ≤ r.nmin ∧ r.nmin ≤ 65535 := by
  have gain := fun x => clampNat_eq_self_iff (show 128 ≤ 512 by decide) x
  have hk := clampNat_eq_self_iff (show 1 ≤ 16 by decide) r.k
  have hsmax := clampNat_eq_self_iff (show 1 ≤ 64 by decide) r.smax
  have hnmin := clampNat_eq_self_iff (show 256 ≤ 65535 by decide) r.nmin
  simp [balanceClamped, Balance.store, Balance.store.manual, gain, hk, hsmax, hnmin, and_assoc]

/-! ### BALANCE_SET -/

theorem exec_balanceSet (h : Hdr) (r : BalanceArg) (s : State) :
    exec (.balanceSet h r) s = guarded s h 0x51 (judgeBalanceSet r) := rfl

theorem judgeBalanceSet_of_none {r : BalanceArg} (hm : r.mode = none) (s : State) :
    judgeBalanceSet r s = .refuse .badArg := by
  simp only [judgeBalanceSet, hm]

theorem judgeBalanceSet_of_some {r : BalanceArg} {m : BalMode} (hm : r.mode = some m) (s : State) :
    judgeBalanceSet r s
      = .take (clampResult (balanceClamped (s.bu.store m r) r)) .empty { s with bu := s.bu.store m r } := by
  simp only [judgeBalanceSet, hm]

/-- Settles O32: a mode of neither kind is the refusal of step 1 of R109; else the two modes are the two rows of R110. -/
theorem balanceSetStores : Obligations.BalanceSetStores := by
  intro s h r manual hs hg hmanual
  rw [← Balance.store_manual_eq] at hmanual
  subst hmanual
  refine ⟨fun hm => ?_, fun m hm => ?_⟩
  · rw [exec_balanceSet, guarded_sound_refuse hs hg (judgeBalanceSet_of_none hm s)]
  · rw [exec_balanceSet, guarded_sound hs hg (judgeBalanceSet_of_some hm s),
      clampResult_eq_ite (balanceClamped_store_eq_false_iff s.bu m r)]
    cases m with
    | manual => rw [Balance.store_eq, Balance.store_gains_of_manual]
    | auto => rw [Balance.store_eq, Balance.store_gains_of_auto]

end Sys2Proof.Machine
end

