-- ==== Sys2Proof/Proofs/Overlay.lean ====
section
/-! The settings and the marker list of the overlay unit: the signed clamp, a command refused for its generation, CURVE_SET
(R123), and how a marker leaves the list: MARK_REMOVE and MARK_CLEAR (R134) and its expiry (R133). -/

namespace Sys2Proof.Machine

/-! ### The signed clamp (R123) -/

theorem clampInt_eq_max_min {lo hi : Int} (h : lo ≤ hi) (x : Int) : clampInt lo hi x = max lo (min x hi) := by
  unfold clampInt
  split
  · omega
  · split <;> omega

theorem clampInt_eq_self_iff {lo hi : Int} (h : lo ≤ hi) (x : Int) : clampInt lo hi x = x ↔ lo ≤ x ∧ x ≤ hi := by
  rw [clampInt_eq_max_min h]
  omega

/-! ### The path of a command (R178, R179) -/

/-- A guarded command of another generation is refused whatever it asks (R178). -/
theorem guarded_sound_genMismatch {s : State} {h : Hdr} {code : Byte} {judge : State → Verdict} (hs : soundRecord h)
    (hg : h.gen ≠ s.cp.gen) : guarded s h code judge = .next (s.respond h.port code .genMismatch .empty) := by
  simp [guarded, takeCommand, hs.got_ge, framed_of_sound hs, guardGen, hg, answer]

/-! ### CURVE_SET -/

/-- The table that CURVE_SET stores for an operand (R123). -/
def clampCurve (t : Vector Int 33) : Vector Int 33 := Vector.ofFn fun i : Fin 33 => max (-16384) (min t[i] 16384)

/-- The stored table is the operand itself exactly when each of its values was in range. -/
theorem clampCurve_eq_self_iff (t : Vector Int 33) :
    clampCurve t = t ↔ ∀ i : Fin 33, -16384 ≤ t[i] ∧ t[i] ≤ 16384 := by
  have entry (i : Fin 33) : (clampCurve t)[i] = max (-16384) (min t[i] 16384) := by simp [clampCurve]
  constructor
  · intro e i
    have hi := entry i
    rw [e] at hi
    omega
  · intro hr
    refine Vector.ext fun i hi => ?_
    have hin := hr ⟨i, hi⟩
    have hval := entry ⟨i, hi⟩
    simp only [Fin.getElem_fin] at hin hval
    omega

theorem exec_curveSet (h : Hdr) (t : Vector Int 33) (s : State) :
    exec (.curveSet h t) s = guarded s h 0x61 (judgeCurveSet t) := rfl

theorem judgeCurveSet_eq (t : Vector Int 33) (s : State) :
    judgeCurveSet t s
      = .take (clampResult (decide (clampCurve t ≠ t))) .empty
          { s with ou := { s.ou with setup := { s.ou.setup with curve := clampCurve t } } } := by
  simp only [judgeCurveSet, clampCurve, clampInt_eq_max_min (show (-16384 : Int) ≤ 16384 by decide)]
  rfl

/-- Settles O33: past the guard the clamped table is stored, in the setup alone; of another generation the command is
refused. -/
theorem curveSetStores : Obligations.CurveSetStores := by
  intro s h t hs
  refine ⟨fun hg => ?_, fun hg => ?_⟩
  · have unchanged : decide (clampCurve t ≠ t) = false ↔ ∀ i : Fin 33, -16384 ≤ t[i] ∧ t[i] ≤ 16384 := by
      rw [decide_eq_false_iff_not, not_not, clampCurve_eq_self_iff]
    rw [exec_curveSet, guarded_sound hs hg (judgeCurveSet_eq t s), clampResult_eq_ite unchanged]
    rfl
  · rw [exec_curveSet, guarded_sound_genMismatch hs hg]

/-! ### The marker of an id -/

theorem hasMarker_eq_true_iff (id : Byte) (l : List Marker) : hasMarker id l = true ↔ ∃ m ∈ l, m.id = id := by
  simp [hasMarker]

theorem hasMarker_eq_false_iff (id : Byte) (l : List Marker) : hasMarker id l = false ↔ ∀ m ∈ l, m.id ≠ id := by
  simp [hasMarker]

/-- Where no other marker has its id, the marker alone is dropped, and the others keep their order. -/
theorem dropMarker_append_cons {l₁ l₂ : List Marker} {m : Marker} (h : ∀ y ∈ l₁ ++ l₂, y.id ≠ m.id) :
    dropMarker m.id (l₁ ++ m :: l₂) = l₁ ++ l₂ := by
  have keep : (l₁ ++ l₂).filter (fun y => decide (y.id ≠ m.id)) = l₁ ++ l₂ :=
    List.filter_eq_self.2 fun y hy => decide_eq_true (h y hy)
  simpa [dropMarker, List.filter_append] using keep

/-- Where no marker before it has its id, the marker is the one found by it. -/
theorem find?_marker_append_cons {l₁ l₂ : List Marker} {m : Marker} (h : ∀ y ∈ l₁, y.id ≠ m.id) :
    (l₁ ++ m :: l₂).find? (fun y => decide (y.id = m.id)) = some m := by
  have before : l₁.find? (fun y => decide (y.id = m.id)) = none :=
    List.find?_eq_none.2 fun y hy => by simpa using h y hy
  simp [List.find?_append, before]

/-! ### MARK_REMOVE and MARK_CLEAR (R134) -/

theorem exec_markRemove (h : Hdr) (id : Nat) (s : State) :
    exec (.markRemove h id) s = command s h 0x64 (judgeMarkRemove id) := rfl

theorem judgeMarkRemove_of_gt {id : Nat} (hid : 255 < id) (s : State) : judgeMarkRemove id s = .refuse .badArg :=
  if_pos hid

/-- An operand that is a byte is removed or not found by whether a marker has it as its id. -/
theorem judgeMarkRemove_toNat (id : Byte) (s : State) :
    judgeMarkRemove id.toNat s
      = if hasMarker id s.ou.markers then .take .ok .empty (s.setMarkers (dropMarker id s.ou.markers))
        else .refuse .notFound := by
  have hid : ¬ 255 < id.toNat := by have := id.isLt; omega
  simp only [judgeMarkRemove, if_neg hid, BitVec.ofNat_toNat, BitVec.setWidth_eq]

theorem exec_markRemove_badArg {s : State} {h : Hdr} {id : Nat} (hs : soundRecord h) (hid : 255 < id) :
    exec (.markRemove h id) s = .next (s.respond h.port 0x64 .badArg .empty) := by
  rw [exec_markRemove, command_sound hs, judgeMarkRemove_of_gt hid, answer]

theorem exec_markRemove_notFound {s : State} {h : Hdr} {id : Byte} (hs : soundRecord h)
    (hid : ∀ m ∈ s.ou.markers, m.id ≠ id) :
    exec (.markRemove h id.toNat) s = .next (s.respond h.port 0x64 .notFound .empty) := by
  rw [exec_markRemove, command_sound hs, judgeMarkRemove_toNat, (hasMarker_eq_false_iff id _).2 hid]
  rfl

theorem exec_markRemove_ok {s : State} {h : Hdr} {id : Byte} (hs : soundRecord h) (hid : ∃ m ∈ s.ou.markers, m.id = id) :
    exec (.markRemove h id.toNat) s
      = .next ((s.setMarkers (dropMarker id s.ou.markers)).respond h.port 0x64 .ok .empty) := by
  rw [exec_markRemove, command_sound hs, judgeMarkRemove_toNat, if_pos ((hasMarker_eq_true_iff id _).2 hid), answer]

theorem exec_markClear {s : State} {h : Hdr} (hs : soundRecord h) :
    exec (.markClear h) s = .next ((s.setMarkers []).respond h.port 0x65 .ok (.removed s.ou.markers.length)) :=
  bare_whole (judge := fun s => .take .ok (.removed s.ou.markers.length) (s.setMarkers [])) hs.whole

/-! ### The expiry of a marker (R133) -/

theorem exec_markerExpiry (id : Byte) (s : State) : exec (.markerExpiry id) s = .next (s.expireMarker id) := rfl

/-- The marker found by an id leaves at its deadline, and its owner is told (R133). -/
theorem State.expireMarker_of_find {s : State} {m : Marker} {id : Byte}
    (hf : s.ou.markers.find? (fun y => decide (y.id = id)) = some m) (hd : m.deadline = s.tbu.now) :
    s.expireMarker id
      = (s.setMarkers (dropMarker id s.ou.markers)).notifyOwner m.owner .markerExpired id.toNat m.severity := by
  simp [State.expireMarker, hf, State.reached, hd]

/-- Settles O36: removal by whether the list has the id, clearing, and the expiry of the one marker of its id. -/
theorem markersLeave : Obligations.MarkersLeave := by
  intro s
  refine ⟨fun h hs => ⟨fun _ hid => exec_markRemove_badArg hs hid, fun _ hid => exec_markRemove_notFound hs hid,
    fun _ hid => exec_markRemove_ok hs hid, exec_markClear hs⟩, fun l₁ l₂ m hl hids hd => ?_⟩
  have found : s.ou.markers.find? (fun y => decide (y.id = m.id)) = some m := by
    rw [hl]
    exact find?_marker_append_cons fun y hy => hids y (List.mem_append_left l₂ hy)
  rw [exec_markerExpiry, State.expireMarker_of_find found hd, hl, dropMarker_append_cons hids]
  rfl

end Sys2Proof.Machine
end

