-- ==== Sys2Proof/Proofs/Claims.lean ====
section
/-! How entries of the claim stack are found by their token, renewed and removed: RENEW (R142), RELEASE (R143) and the
expiry of a PORT_A entry (R144). -/

namespace Sys2Proof.Machine

/-! ### Sources, tokens and ranks -/

theorem Source.isPortA_iff (x : Source) : x.isPortA = true ↔ ∃ d, x = .portA d := by
  cases x <;> simp [Source.isPortA]

theorem Source.port_eq_some_d_iff (x : Source) : x.port = some .d ↔ x = .portD := by
  cases x <;> simp [Source.port]

theorem Source.port_eq_some_a_iff (x : Source) : x.port = some .a ↔ ∃ d, x = .portA d := by
  cases x <;> simp [Source.port]

/-- PORT_A is the highest rank (R138). -/
theorem Source.rank_le_portA (x : Source) (d : Word32) : x.rank ≤ (Source.portA d).rank := by
  cases x <;> simp [Source.rank]

theorem tokenOf_eq_none {n : Nat} (hn : n = 0 ∨ 255 < n) : tokenOf n = none :=
  if_neg (by omega)

theorem tokenOf_toNat {t : Byte} (ht : t ≠ 0) : tokenOf t.toNat = some t := by
  have hpos : 1 ≤ t.toNat := Nat.one_le_iff_ne_zero.2 fun h => ht (BitVec.eq_of_toNat_eq h)
  have hmax := t.isLt
  simp [tokenOf, show 1 ≤ t.toNat ∧ t.toNat ≤ 255 by omega]

/-! ### The entry of a token -/

theorem Arbiter.find_eq_none {ca : Arbiter} {t : Byte} (h : ∀ x ∈ ca.stack, x.token ≠ t) : ca.find t = none :=
  List.find?_eq_none.2 fun x hx => by simpa using h x hx

/-- Where no entry above it carries its token, the entry is the one found by it. -/
theorem Arbiter.find_of_stack_eq {ca : Arbiter} {l₁ l₂ : List Claim} {e : Claim} (hl : ca.stack = l₁ ++ e :: l₂)
    (h : ∀ x ∈ l₁, x.token ≠ e.token) : ca.find e.token = some e := by
  have above : l₁.find? (fun x => decide (x.token = e.token)) = none :=
    List.find?_eq_none.2 fun x hx => by simpa using h x hx
  simp [Arbiter.find, hl, List.find?_append, above]

/-- Where no other entry carries its token, the entry alone is dropped, and the others keep their order. -/
theorem dropToken_append_cons {l₁ l₂ : List Claim} {e : Claim} (h : ∀ x ∈ l₁ ++ l₂, x.token ≠ e.token) :
    dropToken e.token (l₁ ++ e :: l₂) = l₁ ++ l₂ := by
  have keep : (l₁ ++ l₂).filter (fun x => decide (x.token ≠ e.token)) = l₁ ++ l₂ :=
    List.filter_eq_self.2 fun x hx => decide_eq_true (h x hx)
  simpa [dropToken, List.filter_append] using keep

/-- An entry whose rank no other passes is placed at the head of the stack (R138). -/
theorem placeClaim_eq_cons {e : Claim} {l : List Claim} (h : ∀ x ∈ l, x.rank ≤ e.rank) : placeClaim e l = e :: l := by
  cases l with
  | nil => rfl
  | cons x l => simp [placeClaim, Nat.not_lt.2 (h x List.mem_cons_self)]

theorem placeOf_cons_self (e : Claim) (l : List Claim) : placeOf e.token (e :: l) = 0 := by
  simp [placeOf, List.findIdx_cons]

/-! ### RENEW (R142) -/

theorem exec_renew {s : State} {h : Hdr} (hs : soundRecord h) (n : Nat) :
    exec (.renew h n) s = answer s h 0x71 (judgeRenew h.port n s) :=
  command_sound hs

theorem judgeRenew_of_tokenOf_none {n : Nat} (hn : tokenOf n = none) (p : Port) (s : State) :
    judgeRenew p n s = .refuse .badArg := by
  simp only [judgeRenew, hn]

theorem judgeRenew_of_find_none {s : State} {t : Byte} (ht : t ≠ 0) (hf : s.ca.find t = none) (p : Port) :
    judgeRenew p t.toNat s = .refuse .notFound := by
  simp only [judgeRenew, tokenOf_toNat ht, hf]

theorem judgeRenew_of_not_owner {s : State} {t : Byte} {e : Claim} {p : Port} (ht : t ≠ 0) (hf : s.ca.find t = some e)
    (ho : p = .d ∨ ∀ d, e.source ≠ .portA d) : judgeRenew p t.toNat s = .refuse .notOwner := by
  have refused : (!e.source.isPortA || decide (p = .d)) = true := by
    rcases ho with rfl | ho
    · simp
    · simp [Bool.eq_false_iff, Source.isPortA_iff, ho]
  simp only [judgeRenew, tokenOf_toNat ht, hf, if_pos refused]

/-- A renewed entry stands at the head of the stack, for no rank passes PORT_A. -/
theorem judgeRenew_of_portA {s : State} {e : Claim} {d : Word32} (ht : e.token ≠ 0) (hf : s.ca.find e.token = some e)
    (he : e.source = .portA d) :
    judgeRenew .a e.token.toNat s
      = .take .ok (.renewed 0 ((dropToken e.token s.ca.stack).length + 1))
          (s.setStack ({ e with source := .portA (s.afterMs s.cp.portA.claimHold) } :: dropToken e.token s.ca.stack)) := by
  have first : placeClaim { e with source := s.claimSource .a } (dropToken e.token s.ca.stack)
      = { e with source := s.claimSource .a } :: dropToken e.token s.ca.stack :=
    placeClaim_eq_cons fun x _ => x.source.rank_le_portA _
  have place := placeOf_cons_self { e with source := s.claimSource .a } (dropToken e.token s.ca.stack)
  simp only [judgeRenew, tokenOf_toNat ht, hf, he, Source.isPortA, first, place]
  rfl

/-! ### RELEASE (R143) -/

theorem exec_release {s : State} {h : Hdr} (hs : soundRecord h) (n : Nat) :
    exec (.release h n) s = answer s h 0x72 (judgeRelease h.port n s) :=
  command_sound hs

theorem judgeRelease_of_tokenOf_none {n : Nat} (hn : tokenOf n = none) (p : Port) (s : State) :
    judgeRelease p n s = .refuse .badArg := by
  simp only [judgeRelease, hn]

theorem judgeRelease_of_find_none {s : State} {t : Byte} (ht : t ≠ 0) (hf : s.ca.find t = none) (p : Port) :
    judgeRelease p t.toNat s = .refuse .notFound := by
  simp only [judgeRelease, tokenOf_toNat ht, hf]

/-- The owner of the entry decides between its removal and a refusal. -/
theorem judgeRelease_of_find_some {s : State} {t : Byte} {e : Claim} (ht : t ≠ 0) (hf : s.ca.find t = some e) (p : Port) :
    judgeRelease p t.toNat s
      = if e.source.port = some p then .take .ok .empty (s.setStack (dropToken t s.ca.stack)) else .refuse .notOwner := by
  simp only [judgeRelease, tokenOf_toNat ht, hf, ne_eq, ite_not]

/-! ### The expiry of a claim (R144) -/

theorem exec_claimExpiry (t : Byte) (s : State) : exec (.claimExpiry t) s = .next (s.expireClaim t) := rfl

/-- The PORT_A entry found by a token leaves at its deadline, and Port A is told (R144). -/
theorem State.expireClaim_of_find {s : State} {t : Byte} {e : Claim} (hf : s.ca.find t = some e)
    (hd : e.source = .portA s.tbu.now) :
    s.expireClaim t = (s.setStack (dropToken t s.ca.stack)).notifyOwner .a .claimExpired t.toNat e.view := by
  simp [State.expireClaim, hf, Claim.due, hd, State.reached]

/-! ### RENEW and RELEASE of an entry found, by its owner -/

section OneEntry

variable {s : State} {h : Hdr} {l₁ l₂ : List Claim} {e : Claim}

theorem exec_renew_notOwner (hs : soundRecord h) (ht : e.token ≠ 0) (hf : s.ca.find e.token = some e)
    (ho : h.port = .d ∨ ∀ d, e.source ≠ .portA d) :
    exec (.renew h e.token.toNat) s = .next (s.respond h.port 0x71 .notOwner .empty) := by
  rw [exec_renew hs, judgeRenew_of_not_owner ht hf ho, answer]

theorem exec_renew_ok (hs : soundRecord h) (ht : e.token ≠ 0) (hf : s.ca.find e.token = some e)
    (hdrop : dropToken e.token s.ca.stack = l₁ ++ l₂) {d : Word32} (hp : h.port = .a) (he : e.source = .portA d) :
    exec (.renew h e.token.toNat) s
      = .next ((s.setStack ({ e with source := .portA (s.afterMs s.cp.portA.claimHold) } :: (l₁ ++ l₂))).respond
          h.port 0x71 .ok (.renewed 0 (l₁ ++ e :: l₂).length)) := by
  have depth : (l₁ ++ e :: l₂).length = (l₁ ++ l₂).length + 1 := by simp; omega
  rw [exec_renew hs, depth, ← hdrop, hp, judgeRenew_of_portA ht hf he, answer, hp]

theorem exec_release_notOwner (hs : soundRecord h) (ht : e.token ≠ 0) (hf : s.ca.find e.token = some e)
    (ho : e.source.port ≠ some h.port) :
    exec (.release h e.token.toNat) s = .next (s.respond h.port 0x72 .notOwner .empty) := by
  rw [exec_release hs, judgeRelease_of_find_some ht hf, if_neg ho, answer]

theorem exec_release_ok (hs : soundRecord h) (ht : e.token ≠ 0) (hf : s.ca.find e.token = some e)
    (ho : e.source.port = some h.port) :
    exec (.release h e.token.toNat) s
      = .next ((s.setStack (dropToken e.token s.ca.stack)).respond h.port 0x72 .ok .empty) := by
  rw [exec_release hs, judgeRelease_of_find_some ht hf, if_pos ho, answer]

end OneEntry

/-- Settles O38: the token decides between BAD_ARG, NOT_FOUND and the one entry found by it, and then that entry's source
between NOT_OWNER and the effect. -/
theorem claimsRenewAndLeave : Obligations.ClaimsRenewAndLeave := by
  refine ⟨fun s h hs => ⟨fun n hn => ?badArg, fun u hu hfree => ?notFound⟩, fun s t l₁ l₂ e hl htok ht honly => ?found⟩
  case badArg =>
    rw [exec_renew hs, exec_release hs, judgeRenew_of_tokenOf_none (tokenOf_eq_none hn),
      judgeRelease_of_tokenOf_none (tokenOf_eq_none hn)]
    exact ⟨rfl, rfl⟩
  case notFound =>
    have hf := Arbiter.find_eq_none hfree
    rw [exec_renew hs, exec_release hs, judgeRenew_of_find_none hu hf, judgeRelease_of_find_none hu hf]
    exact ⟨rfl, rfl⟩
  case found =>
    subst htok
    have hf : s.ca.find e.token = some e :=
      Arbiter.find_of_stack_eq hl fun x hx => honly x (List.mem_append_left l₂ hx)
    have hdrop : dropToken e.token s.ca.stack = l₁ ++ l₂ := by rw [hl, dropToken_append_cons honly]
    refine ⟨fun h hs => ⟨exec_renew_notOwner hs ht hf, fun d hp he => exec_renew_ok hs ht hf hdrop hp he,
      fun ho => exec_release_notOwner hs ht hf ?_, fun ho => ?_⟩, fun hd => ?_⟩
    · rcases ho with ⟨hp, hne⟩ | ⟨hp, hne⟩
      · rwa [hp, ne_eq, Source.port_eq_some_d_iff]
      · rwa [hp, ne_eq, Source.port_eq_some_a_iff, not_exists]
    · have owned : e.source.port = some h.port := by
        rcases ho with ⟨hp, he⟩ | ⟨hp, he⟩
        · rwa [hp, Source.port_eq_some_d_iff]
        · rwa [hp, Source.port_eq_some_a_iff]
      rw [exec_release_ok hs ht hf owned, hdrop]
      rfl
    · rw [exec_claimExpiry, State.expireClaim_of_find hf hd, hdrop]
      rfl

end Sys2Proof.Machine
end

