-- ==== Sys2Proof/Proofs/Scanout.lean ====
section
/-! The scanout unit turned on and off: the four rows of the table of R174, and DISPLAY_SET. -/

namespace Sys2Proof.Machine

/-! ### The table of R174 -/

section Switch

variable {u : Scanout} {s : State} {p : Nat}

theorem Scanout.switch_on_of_off (hu : u.timer = none) :
    u.switch true p s = { u with period := p, timer := some (s.after p) } := by
  simp [Scanout.switch, hu]

/-- The running timer keeps its deadline: the new period applies from its next restart. -/
theorem Scanout.switch_on_of_running (hu : u.timer.isSome = true) : u.switch true p s = { u with period := p } := by
  obtain ⟨due, hdue⟩ := Option.isSome_iff_exists.1 hu
  simp [Scanout.switch, hdue]

theorem Scanout.switch_off_of_off (hu : u.timer = none) : u.switch false p s = { u with period := p } := by
  simp [Scanout.switch, hu]

theorem Scanout.switch_off_of_running (hu : u.timer.isSome = true) :
    u.switch false p s = { u with period := p, timer := none, held := none, frame := .nothing } := by
  obtain ⟨due, hdue⟩ := Option.isSome_iff_exists.1 hu
  simp [Scanout.switch, hdue]

end Switch

/-! ### DISPLAY_SET -/

theorem exec_displaySet (h : Hdr) (on : Option Bool) (p : Nat) (s : State) :
    exec (.displaySet h on p) s = guarded s h 0x90 (judgeDisplaySet on p) := rfl

theorem judgeDisplaySet_none (p : Nat) (s : State) : judgeDisplaySet none p s = .refuse .badArg := rfl

theorem judgeDisplaySet_some (on : Bool) (p : Nat) (s : State) :
    judgeDisplaySet (some on) p s
      = .take (if 16000 ≤ p ∧ p ≤ 40000 then .ok else .clamped) .empty
          (s.setSu (s.su.switch on (max 16000 (min p 40000)) s)) := by
  have range : 16000 ≤ 40000 := by decide
  have unchanged : decide (clampNat 16000 40000 p ≠ p) = false ↔ 16000 ≤ p ∧ p ≤ 40000 := by
    rw [decide_eq_false_iff_not, not_not, clampNat_eq_self_iff range]
  simp only [judgeDisplaySet]
  rw [clampResult_eq_ite unchanged, clampNat_eq_max_min range]

theorem exec_displaySet_none {s : State} {h : Hdr} (hs : soundRecord h) (hg : passesGuard s h) (p : Nat) :
    exec (.displaySet h none p) s = .next (s.respond h.port 0x90 .badArg .empty) := by
  rw [exec_displaySet, guarded_sound_refuse hs hg (judgeDisplaySet_none p s)]

/-- What the switch leaves, and the clamping, decide the whole answer of a DISPLAY_SET that names on or off. -/
theorem exec_displaySet_of_switch {s : State} {h : Hdr} {on : Bool} {p : Nat} {x : Scanout} (hs : soundRecord h)
    (hg : passesGuard s h) (hx : s.su.switch on (max 16000 (min p 40000)) s = x) :
    exec (.displaySet h (some on) p) s
      = .next ((s.setSu x).advanceGen.respond h.port 0x90 (if 16000 ≤ p ∧ p ≤ 40000 then .ok else .clamped) .empty) := by
  rw [exec_displaySet, guarded_sound hs hg (judgeDisplaySet_some on p s), hx]

/-- Settles O47: past the guard, a first operand that is neither on nor off is refused; else the state found and the operand
choose the row of the table of R174. -/
theorem displaySetSwitches : Obligations.DisplaySetSwitches := by
  intro s h p res hs hg hres
  subst hres
  refine ⟨exec_displaySet_none hs hg p, fun off => ⟨?_, ?_⟩, fun running => ⟨?_, ?_⟩⟩
  · exact exec_displaySet_of_switch hs hg (Scanout.switch_on_of_off off)
  · exact exec_displaySet_of_switch hs hg (Scanout.switch_off_of_off off)
  · exact exec_displaySet_of_switch hs hg (Scanout.switch_on_of_running running)
  · exact exec_displaySet_of_switch hs hg (Scanout.switch_off_of_running running)

end Sys2Proof.Machine
end

