-- ==== Sys2Proof/Proofs/Path.lean ====
section
/-! The path that every command takes through its port, once for all of them: which judgement a command has, and what a
judgement promises of its refusals and of the state that it takes (R177 to R179). -/

namespace Sys2Proof.Machine

open Host (Outcome)

/-! ### Commands and their judgements -/

/-- A command as its port takes it: its header, its code, whether its payload holds its fields, and its judgement. -/
structure Command where
  hdr : Hdr
  code : Byte
  fits : Bool
  judge : State → Verdict

/-- The command that an instruction is; `none` for an event, a transaction that is no command, an unknown code, and STATUS,
whose response stands before its effect (R180). -/
def commandOf : Instr → Option Command
  | .portSetup h m e t c => some ⟨h, 0x02, h.fits, judgePortSetup h.port m e t c⟩
  | .eventRead h => some ⟨h, 0x03, true, judgeEventRead h.port⟩
  | .pipelineReset h => some ⟨h, 0x04, true, fun s => .take .ok .empty s.pipelineReset⟩
  | .camSetup h n r => some ⟨h, 0x10, h.fits, guardGen h (judgeCamSetup n r)⟩
  | .camPowerOn h n => some ⟨h, 0x11, h.fits, judgePowerOn n⟩
  | .camPowerOff h n => some ⟨h, 0x11, h.fits, judgePowerOff n⟩
  | .camStatus h n c => some ⟨h, 0x12, h.fits, judgeCamStatus n c⟩
  | .camTriggerNow h n => some ⟨h, 0x13, h.fits, judgeTriggerNow n⟩
  | .camMask h m => some ⟨h, 0x14, h.fits, guardGen h (judgeCamMask m)⟩
  | .areaDefine h a f => some ⟨h, 0x20, h.fits, guardGen h (judgeAreaDefine a f)⟩
  | .areaClear h a => some ⟨h, 0x21, h.fits, guardGen h (judgeAreaClear a)⟩
  | .areaJoin h a t => some ⟨h, 0x22, h.fits, guardGen h (judgeAreaJoin a t)⟩
  | .areaUnjoin h a => some ⟨h, 0x23, h.fits, guardGen h (judgeAreaUnjoin a)⟩
  | .areaStatus h a c => some ⟨h, 0x24, h.fits, judgeAreaStatus a c⟩
  | .areaWrite h bs =>
    some ⟨h, 0x25, decide (h.len.toNat ≤ bs.length), guardGen h (judgeAreaWrite h.arg.toNat (bs.take h.len.toNat))⟩
  | .frameHold h r => some ⟨h, 0x26, h.fits, judgeFrameHold h.port r⟩
  | .frameRelease h r => some ⟨h, 0x27, h.fits, judgeFrameRelease h.port r⟩
  | .frameRead h r n => some ⟨h, 0x28, h.fits, judgeFrameRead h.port r h.arg.toNat n⟩
  | .timingSet h p a k => some ⟨h, 0x30, h.fits, guardGen h (judgeTimingSet p a k)⟩
  | .timeStatus h => some ⟨h, 0x31, true, fun s => report s s.timeReport⟩
  | .gridOpen h i w l => some ⟨h, 0x40, h.fits, judgeGridOpen h.port i w l⟩
  | .gridWrite h bs =>
    some ⟨h, 0x41, decide (h.len.toNat ≤ bs.length), judgeGridWrite h.port h.arg.toNat (bs.take h.len.toNat)⟩
  | .gridFinish h i => some ⟨h, 0x42, h.fits, judgeGridFinish h.port i⟩
  | .gridReopen h i => some ⟨h, 0x43, h.fits, judgeGridReopen h.port i⟩
  | .gridDelete h i => some ⟨h, 0x44, h.fits, judgeGridDelete h i⟩
  | .gridStatus h x => some ⟨h, 0x45, h.fits, judgeGridStatus x⟩
  | .viewDefine h v l => some ⟨h, 0x48, h.fits, guardGen h (judgeViewDefine v l)⟩
  | .viewBind h v p g => some ⟨h, 0x49, h.fits, guardGen h (judgeViewBind v p g)⟩
  | .viewUnbind h v p => some ⟨h, 0x4A, h.fits, guardGen h (judgeViewUnbind v p)⟩
  | .viewErase h v => some ⟨h, 0x4B, h.fits, guardGen h (judgeViewErase v)⟩
  | .defaultView h v => some ⟨h, 0x4C, h.fits, guardGen h (judgeDefaultView v)⟩
  | .viewStatus h x => some ⟨h, 0x4D, h.fits, judgeViewStatus x⟩
  | .composeStatus h c => some ⟨h, 0x50, h.fits, judgeComposeStatus c⟩
  | .balanceSet h r => some ⟨h, 0x51, h.fits, guardGen h (judgeBalanceSet r)⟩
  | .balanceStatus h => some ⟨h, 0x52, true, fun s => report s (.balance s.bu)⟩
  | .overlaySet h r => some ⟨h, 0x60, h.fits, guardGen h (judgeOverlaySet r)⟩
  | .curveSet h t => some ⟨h, 0x61, h.fits, guardGen h (judgeCurveSet t)⟩
  | .overlayStatus h => some ⟨h, 0x62, true, fun s => report s (.overlay s.ou.setup s.ou.markers.length)⟩
  | .markPost h bs =>
    some ⟨h, 0x63, decide (h.len.toNat ≤ bs.length) && decide (12 ≤ h.len.toNat), judgeMarkPost h.port (readMark bs)⟩
  | .markRemove h i => some ⟨h, 0x64, h.fits, judgeMarkRemove i⟩
  | .markClear h => some ⟨h, 0x65, true, fun s => .take .ok (.removed s.ou.markers.length) (s.setMarkers [])⟩
  | .markStatus h => some ⟨h, 0x66, true, fun s => report s s.markerReport⟩
  | .claim h v => some ⟨h, 0x70, h.fits, judgeClaim h.port v⟩
  | .renew h t => some ⟨h, 0x71, h.fits, judgeRenew h.port t⟩
  | .release h t => some ⟨h, 0x72, h.fits, judgeRelease h.port t⟩
  | .gearSetup h v l g => some ⟨h, 0x73, h.fits, guardGen h (judgeGearSetup v l g)⟩
  | .claimStatus h => some ⟨h, 0x74, true, fun s => report s s.claimReport⟩
  | .canSetup h r => some ⟨h, 0x80, h.fits, guardGen h (judgeCanSetup r)⟩
  | .slotSetup h i r => some ⟨h, 0x81, h.fits, guardGen h (judgeSlotSetup i r)⟩
  | .slotEnable h i on => some ⟨h, 0x82, h.fits, guardGen h (judgeSlotEnable i on)⟩
  | .signalSetup h x t d n => some ⟨h, 0x83, h.fits, guardGen h (judgeSignalSetup x t d n)⟩
  | .canRestart h => some ⟨h, 0x84, true, judgeCanRestart⟩
  | .canErrclr h => some ⟨h, 0x85, true, fun s => .take .ok .empty (s.setCan { s.si.can with cause := .clear })⟩
  | .canStatus h c => some ⟨h, 0x86, h.fits, judgeCanStatus c⟩
  | .signalStatus h c => some ⟨h, 0x87, h.fits, judgeSignalStatus c⟩
  | .displaySet h on p => some ⟨h, 0x90, h.fits, guardGen h (judgeDisplaySet on p)⟩
  | .displayStatus h c => some ⟨h, 0x91, h.fits, judgeDisplayStatus c⟩
  | _ => none

/-- A command is carried out by taking its record and judging it (R177). -/
theorem exec_of_commandOf {i : Instr} {c : Command} (hc : commandOf i = some c) (s : State) :
    exec i s = takeCommand s c.hdr c.code c.fits c.judge := by
  cases i <;> cases hc <;> rfl

theorem codeOf_of_commandOf {i : Instr} {c : Command} (hc : commandOf i = some c) : codeOf i = some c.code := by
  cases i <;> cases hc <;> rfl

/-- What has the header of a command record is a command, an unknown code, or STATUS. -/
theorem headerOf_cases {i : Instr} {h : Hdr} (hi : headerOf i = some h) :
    (∃ c, commandOf i = some c ∧ c.hdr = h) ∨ (∃ code, i = .unknownCommand h code) ∨ ∃ clear, i = .status h clear := by
  cases i <;> cases hi
  case unknownCommand code => exact .inr (.inl ⟨code, rfl⟩)
  case status clear => exact .inr (.inr ⟨clear, rfl⟩)
  all_goals exact .inl ⟨_, rfl, rfl⟩

/-! ### What a judgement promises -/

/-- A judgement refuses with a result that accepts nothing, or takes the command with a result that accepts it and leaves a
state of `P` (R178, R179). -/
def Verdict.Keeps (P : State → Prop) : Verdict → Prop
  | .refuse r => r.accepts = false
  | .take r _ u => r.accepts = true ∧ P u
  | .stop _ => True

theorem Verdict.Keeps.mono {P Q : State → Prop} {v : Verdict} (h : v.Keeps P) (hPQ : ∀ u, P u → Q u) : v.Keeps Q := by
  cases v with
  | refuse r => exact h
  | take r p u => exact ⟨h.1, hPQ u h.2⟩
  | stop f => trivial

theorem Verdict.Keeps.and {P Q : State → Prop} {v : Verdict} (h : v.Keeps P) (h' : v.Keeps Q) :
    v.Keeps fun u => P u ∧ Q u := by
  cases v with
  | refuse r => exact h
  | take r p u => exact ⟨h.1, h.2, h'.2⟩
  | stop f => trivial

theorem report_keeps {P : State → Prop} {s : State} (p : Payload) (h : P s) : (report s p).Keeps P := ⟨rfl, h⟩

theorem clampResult_accepts (b : Bool) : (clampResult b).accepts = true := by
  cases b <;> rfl

/-- The guard's own refusals accept nothing, and what it lets through advances the generation that it found (R178). -/
theorem guardGen_keeps {P Q : State → Prop} {s : State} {h : Hdr} {judge : State → Verdict} (hj : (judge s).Keeps Q)
    (hQ : ∀ u, h.gen = s.cp.gen → s.cp.gen ≠ genMax → Q u → P u.advanceGen) : (guardGen h judge s).Keeps P := by
  unfold guardGen
  split
  · rfl
  · rename_i hgen
    split
    · rfl
    · rename_i hmax
      cases hv : judge s with
      | refuse r => rw [hv] at hj; exact hj
      | take r p u => rw [hv] at hj; exact ⟨hj.1, hQ u (not_not.1 hgen) hmax hj.2⟩
      | stop f => trivial

/-- Every way a command whose judgement keeps `P` can go on: its record is ignored; it is refused, and only its response is
new; or it is accepted, and answered from a state of `P`. -/
theorem takeCommand_cases {P : State → Prop} {s t : State} {h : Hdr} {code : Byte} {fits : Bool} {judge : State → Verdict}
    (hj : (judge s).Keeps P) (e : takeCommand s h code fits judge = .next t) :
    (h.got < 10 ∧ t = s)
      ∨ (∃ r, r.accepts = false ∧ t = s.respond h.port code r .empty)
      ∨ ∃ r p u, r.accepts = true ∧ P u ∧ t = u.respond h.port code r p := by
  rcases takeCommand_next e with ⟨hg, rfl⟩ | ⟨-, -, rfl⟩ | ⟨-, -, r, hr, rfl⟩ | ⟨-, -, r, p, u, hu, rfl⟩
  · exact .inl ⟨hg, rfl⟩
  · exact .inr (.inl ⟨.badArg, rfl, rfl⟩)
  · rw [hr] at hj
    exact .inr (.inl ⟨r, hj, rfl⟩)
  · rw [hu] at hj
    exact .inr (.inr ⟨r, p, u, hj.1, hj.2, rfl⟩)

/-- STATUS that goes on: its record is ignored, it is refused, or it is answered before the clear (R180). -/
theorem exec_status_cases {s t : State} {h : Hdr} {clear : Bool} (e : exec (.status h clear) s = .next t) :
    t = s ∨ t = s.respond h.port 0x01 .badArg .empty
      ∨ t = (if clear then (s.respond h.port 0x01 .ok (s.statusReport h.port)).clearFaults
          else s.respond h.port 0x01 .ok (s.statusReport h.port)) := by
  change execStatus h clear s = .next t at e
  unfold execStatus at e
  split at e
  · exact .inl (Outcome.next.inj e).symm
  · split at e
    · exact .inr (.inr (Outcome.next.inj e).symm)
    · exact .inr (.inl (Outcome.next.inj e).symm)

/-- A record of an unknown code that goes on: it is ignored, or only its response is new (R177). -/
theorem exec_unknownCommand_cases {s t : State} {h : Hdr} {code : Byte} (e : exec (.unknownCommand h code) s = .next t) :
    t = s ∨ t = s.respond h.port code .unknownCommand .empty := by
  change execUnknownCommand h code s = .next t at e
  unfold execUnknownCommand at e
  split at e
  · exact .inl (Outcome.next.inj e).symm
  · exact .inr (Outcome.next.inj e).symm

end Sys2Proof.Machine
end

