-- ==== Sys2Proof/Proofs/Frames.lean ====
section
/-! What each operation of the model can change, in terms of the parts of the state that the invariants speak of. Each operation
has one lemma that names its parts; `exec_within` gathers them for every command and event. -/

namespace Sys2Proof.Machine

open Host (Outcome)

/-! ### Parts of the state -/

/-- What a compose in flight works on: its target slot and its snapshot. -/
def Compose.work (c : Compose) : Nat × Snapshot := (c.target, c.snap)

/-- The parts of the state that the invariants of the whole part speak of. `claims` is what R138 and R139 say of the arbiter;
`shapes` are the runs of cells of the grid sets, `binds` and `inUse` their bind counts and in-use flags; `scanout` is the
whole unit; `queues` stands for notices being lost or reordered, and `faults` for bits being cleared. -/
inductive Part where
  | reception | areas | camRing | outRing | dram | now | gridMem | free | shapes | binds | inUse | catalogue | current | balance
  | markers
  | claims | scanout | gen | faults | queues | waiting
deriving DecidableEq

/-- A notice queue only grows at its end, and not past 32 notices (R181). -/
def QueueGrows (q q' : List Notice) : Prop := q <+: q' ∧ (q.length ≤ 32 → q'.length ≤ 32)

@[simp] theorem QueueGrows.refl (q : List Notice) : QueueGrows q q := ⟨List.prefix_rfl, id⟩

theorem QueueGrows.trans {q q' q'' : List Notice} (h : QueueGrows q q') (h' : QueueGrows q' q'') : QueueGrows q q'' :=
  ⟨h.1.trans h'.1, fun hq => h'.2 (h.2 hq)⟩

/-- The part is left alone between two states: for most parts it is the same; the fault summary may gain bits and the notice
queues may grow at their ends. -/
def Part.kept (s t : State) : Part → Prop
  | .reception => ∀ n : Fin 4, t.ciu[n].reception = s.ciu[n].reception
  | .areas => t.fsc.areas = s.fsc.areas
  | .camRing => t.fsc.camRing = s.fsc.camRing
  | .outRing => t.fsc.outRing = s.fsc.outRing
  | .dram => t.dram = s.dram
  | .now => t.tbu.now = s.tbu.now
  | .gridMem => t.gs.mem = s.gs.mem
  | .free => t.gs.free = s.gs.free
  | .shapes => ∀ i : Fin 32, t.gs.sets[i].shape? = s.gs.sets[i].shape?
  | .binds => ∀ i : Fin 32, t.gs.sets[i].binds = s.gs.sets[i].binds
  | .inUse => ∀ i : Fin 32, t.gs.sets[i].inUse = s.gs.sets[i].inUse
  | .catalogue => t.vc = s.vc
  | .current => t.ce.current.map Compose.work = s.ce.current.map Compose.work
  | .balance => t.bu = s.bu
  | .markers => t.ou.markers = s.ou.markers
  | .claims => t.ca.stack = s.ca.stack ∧ t.ca.token = s.ca.token ∧ t.ca.reverseView = s.ca.reverseView
  | .scanout => t.su = s.su
  | .gen => t.cp.gen = s.cp.gen
  | .faults => s.cp.faults &&& t.cp.faults = s.cp.faults
  | .queues => QueueGrows s.cp.portD.queue t.cp.portD.queue ∧ QueueGrows s.cp.portA.queue t.cp.portA.queue
  | .waiting => t.pending = s.pending

section
variable {s t : State}

@[simp] theorem Part.kept_reception :
    Part.reception.kept s t
      ↔ ∀ n : Fin 4, t.ciu[n].reception = s.ciu[n].reception :=
  Iff.rfl
@[simp] theorem Part.kept_areas : Part.areas.kept s t ↔ t.fsc.areas = s.fsc.areas := Iff.rfl
@[simp] theorem Part.kept_camRing : Part.camRing.kept s t ↔ t.fsc.camRing = s.fsc.camRing := Iff.rfl
@[simp] theorem Part.kept_outRing : Part.outRing.kept s t ↔ t.fsc.outRing = s.fsc.outRing := Iff.rfl
@[simp] theorem Part.kept_dram : Part.dram.kept s t ↔ t.dram = s.dram := Iff.rfl
@[simp] theorem Part.kept_now : Part.now.kept s t ↔ t.tbu.now = s.tbu.now := Iff.rfl
@[simp] theorem Part.kept_gridMem : Part.gridMem.kept s t ↔ t.gs.mem = s.gs.mem := Iff.rfl
@[simp] theorem Part.kept_free : Part.free.kept s t ↔ t.gs.free = s.gs.free := Iff.rfl
@[simp] theorem Part.kept_shapes :
    Part.shapes.kept s t ↔ ∀ i : Fin 32, t.gs.sets[i].shape? = s.gs.sets[i].shape? := Iff.rfl
@[simp] theorem Part.kept_binds :
    Part.binds.kept s t ↔ ∀ i : Fin 32, t.gs.sets[i].binds = s.gs.sets[i].binds := Iff.rfl
@[simp] theorem Part.kept_inUse :
    Part.inUse.kept s t ↔ ∀ i : Fin 32, t.gs.sets[i].inUse = s.gs.sets[i].inUse := Iff.rfl
@[simp] theorem Part.kept_catalogue : Part.catalogue.kept s t ↔ t.vc = s.vc := Iff.rfl
@[simp] theorem Part.kept_current :
    Part.current.kept s t ↔ t.ce.current.map Compose.work = s.ce.current.map Compose.work := Iff.rfl
@[simp] theorem Part.kept_balance : Part.balance.kept s t ↔ t.bu = s.bu := Iff.rfl
@[simp] theorem Part.kept_markers : Part.markers.kept s t ↔ t.ou.markers = s.ou.markers := Iff.rfl
@[simp] theorem Part.kept_claims :
    Part.claims.kept s t
      ↔ t.ca.stack = s.ca.stack ∧ t.ca.token = s.ca.token ∧ t.ca.reverseView = s.ca.reverseView :=
  Iff.rfl
@[simp] theorem Part.kept_scanout : Part.scanout.kept s t ↔ t.su = s.su := Iff.rfl
@[simp] theorem Part.kept_gen : Part.gen.kept s t ↔ t.cp.gen = s.cp.gen := Iff.rfl
@[simp] theorem Part.kept_faults : Part.faults.kept s t ↔ s.cp.faults &&& t.cp.faults = s.cp.faults := Iff.rfl
@[simp] theorem Part.kept_queues :
    Part.queues.kept s t
      ↔ QueueGrows s.cp.portD.queue t.cp.portD.queue ∧ QueueGrows s.cp.portA.queue t.cp.portA.queue :=
  Iff.rfl
@[simp] theorem Part.kept_waiting : Part.waiting.kept s t ↔ t.pending = s.pending := Iff.rfl

end

theorem Part.kept_refl (s : State) (x : Part) : x.kept s s := by
  cases x with
  | reception => exact fun _ => rfl
  | shapes => exact fun _ => rfl
  | binds => exact fun _ => rfl
  | inUse => exact fun _ => rfl
  | claims => exact ⟨rfl, rfl, rfl⟩
  | faults => exact BitVec.and_self
  | queues => exact ⟨.refl _, .refl _⟩
  | _ => exact rfl

theorem BitVec.and_eq_left_trans {n : Nat} {a b c : BitVec n} (h : a &&& b = a) (h' : b &&& c = b) : a &&& c = a := by
  rw [← h, BitVec.and_assoc, h']

theorem Part.kept_trans {s t u : State} {x : Part} (h : x.kept s t) (h' : x.kept t u) : x.kept s u := by
  cases x with
  | reception => exact fun n => (h' n).trans (h n)
  | shapes => exact fun i => (h' i).trans (h i)
  | binds => exact fun i => (h' i).trans (h i)
  | inUse => exact fun i => (h' i).trans (h i)
  | claims => exact ⟨h'.1.trans h.1, h'.2.1.trans h.2.1, h'.2.2.trans h.2.2⟩
  | faults => exact BitVec.and_eq_left_trans h h'
  | queues => exact ⟨h.1.trans h'.1, h.2.trans h'.2⟩
  | _ => exact Eq.trans h' h

/-- Every part that the list does not name is left alone. -/
def Within (l : List Part) (s t : State) : Prop := ∀ x, x ∉ l → x.kept s t

section
variable {s t u : State} {l l' m : List Part}

theorem Within.refl (l : List Part) (s : State) : Within l s s := fun x _ => x.kept_refl s

theorem Within.mono (h : Within l s t) (hm : decide (l ⊆ m) = true) : Within m s t :=
  fun x hx => h x fun hl => hx (of_decide_eq_true hm hl)

theorem Within.mono_nil (h : Within [] s t) (l : List Part) : Within l s t := fun x _ => h x List.not_mem_nil

theorem Within.trans (h : Within l s t) (h' : Within l t u) : Within l s u :=
  fun x hx => Part.kept_trans (h x hx) (h' x hx)

/-- One change after another, each within its own parts. -/
theorem Within.comp (h : Within l s t) (h' : Within l' t u) : Within (l ++ l') s u :=
  fun x hx => by
    rw [List.mem_append, not_or] at hx
    exact Part.kept_trans (h x hx.1) (h' x hx.2)

theorem Within.seq (h : Within l s t) (h' : Within l' t u) (hm : decide (l ++ l' ⊆ m) = true) : Within m s u :=
  (h.comp h').mono hm

theorem Within.foldl {α : Type} {f : State → α → State} (h : ∀ s a, Within l s (f s a)) (s : State) (xs : List α) :
    Within l s (xs.foldl f s) := by
  induction xs generalizing s with
  | nil => exact .refl l s
  | cons a xs ih => exact (h s a).trans (ih _)

theorem Within.ite {c : Prop} [Decidable c] (ht : Within l s t) (hu : Within l s u) : Within l s (if c then t else u) := by
  split
  · exact ht
  · exact hu

end

/-! ### Puts of one block -/

theorem Vector.getElem_set_fin {α : Type} {n : Nat} (v : Vector α n) (i j : Fin n) (x : α) :
    (v.set i x)[j] = if j = i then x else v[j] := by
  simp [Vector.getElem_set, Fin.ext_iff, eq_comm]

section
variable (s : State)

theorem within_ciu (c : Vector Cam 4) : Within [.reception] s { s with ciu := c } := fun x hx => by
  cases x <;> simp_all

theorem within_ciu_of_reception {cams : Vector Cam 4} (h : ∀ n : Fin 4, cams[n].reception = s.ciu[n].reception) :
    Within [] s { s with ciu := cams } := fun x hx => by
  cases x <;> simp_all

theorem within_setArea (a : Fin 8) (x : Area) : Within [.areas] s (s.setArea a x) := fun y hy => by
  cases y <;> simp_all

theorem within_setCamRing (n : Fin 4) (r : Option CamRing) : Within [.camRing] s (s.setCamRing n r) := fun y hy => by
  cases y <;> simp_all

theorem within_setOutRing (r : Option OutRing) : Within [.outRing] s (s.setOutRing r) := fun y hy => by
  cases y <;> simp_all

theorem within_dram (m : Memory) : Within [.dram] s { s with dram := m } := fun y hy => by
  cases y <;> simp_all

theorem within_tbu {x : Timebase} (h : x.now = s.tbu.now) : Within [] s { s with tbu := x } := fun y hy => by
  cases y <;> simp_all

/-- What the set put has of the one before, the table has at every entry. -/
theorem sets_set_congr {α : Type} {f : Grid → α} {sets : Vector Grid 32} {i : Fin 32} {g : Grid} (h : f g = f sets[i])
    (j : Fin 32) : f (sets.set i g)[j] = f sets[j] := by
  rw [Vector.getElem_set_fin]
  split
  · rename_i hj
    rw [h, hj]
  · rfl

theorem within_free_setGrid (l : List Extent) (i : Fin 32) {g : Grid} (hb : g.binds = s.gs.sets[i].binds)
    (hu : g.inUse = s.gs.sets[i].inUse) :
    Within [.free, .shapes] s { s with gs := { s.gs with free := l, sets := s.gs.sets.set i g } } := fun y hy => by
  have binds := sets_set_congr hb
  have inUse := sets_set_congr hu
  cases y <;> simp_all

/-- A grid set put with the cells and the in-use flag of the one before. -/
theorem within_setGrid_binds (i : Fin 32) {g : Grid} (h : g.shape? = s.gs.sets[i].shape?)
    (hu : g.inUse = s.gs.sets[i].inUse) : Within [.binds] s (s.setGrid i g) := fun y hy => by
  have shapes := sets_set_congr h
  have inUse := sets_set_congr hu
  cases y <;> simp_all

/-- A grid set put with the cells and the bind count of the one before. -/
theorem within_setGrid_inUse (i : Fin 32) {g : Grid} (h : g.shape? = s.gs.sets[i].shape?)
    (hb : g.binds = s.gs.sets[i].binds) : Within [.inUse] s (s.setGrid i g) := fun y hy => by
  have shapes := sets_set_congr h
  have binds := sets_set_congr hb
  cases y <;> simp_all

/-- A grid set put with the cells, the bind count and the in-use flag of the one before. -/
theorem within_setGrid_of_alike (i : Fin 32) {g : Grid} (h : g.shape? = s.gs.sets[i].shape?)
    (hb : g.binds = s.gs.sets[i].binds) (hu : g.inUse = s.gs.sets[i].inUse) : Within [] s (s.setGrid i g) := fun y _ => by
  by_cases hy : y = .binds
  · subst hy
    exact sets_set_congr hb
  · exact within_setGrid_binds s i h hu y (by simpa using hy)

theorem within_gridMem_setGrid (m : Memory) (i : Fin 32) {g : Grid} (h : g.shape? = s.gs.sets[i].shape?)
    (hb : g.binds = s.gs.sets[i].binds) (hu : g.inUse = s.gs.sets[i].inUse) :
    Within [.gridMem] s { s with gs := { s.gs with mem := m, sets := s.gs.sets.set i g } } := by
  have mem : Within [.gridMem] s { s with gs := { s.gs with mem := m } } := fun y hy => by
    cases y <;> simp_all
  have put := within_setGrid_of_alike { s with gs := { s.gs with mem := m } } i h hb hu
  exact mem.seq put rfl

theorem within_vc (x : Catalogue) : Within [.catalogue] s { s with vc := x } := fun y hy => by
  cases y <;> simp_all

theorem within_ce (x : Compositor) : Within [.current] s { s with ce := x } := fun y hy => by
  cases y <;> simp_all

theorem within_ce_of_current {x : Compositor} (h : x.current.map Compose.work = s.ce.current.map Compose.work) :
    Within [] s { s with ce := x } :=
  fun y hy => by
  cases y <;> simp_all

theorem within_bu (x : Balance) : Within [.balance] s { s with bu := x } := fun y hy => by
  cases y <;> simp_all

theorem within_setMarkers (x : List Marker) : Within [.markers] s (s.setMarkers x) := fun y hy => by
  cases y <;> simp_all

theorem within_setOverlay (x : OverlaySetup) : Within [] s (s.setOverlay x) := fun y _ => by
  cases y <;> simp

theorem within_ca (x : Arbiter) : Within [.claims] s { s with ca := x } := fun y hy => by
  cases y <;> simp_all

theorem within_ca_of_claims {x : Arbiter} (hs : x.stack = s.ca.stack) (ht : x.token = s.ca.token)
    (hv : x.reverseView = s.ca.reverseView) : Within [] s { s with ca := x } := fun y hy => by
  cases y <;> simp_all

theorem within_setSi (x : SignalIntake) : Within [] s (s.setSi x) := fun y _ => by
  cases y <;> simp

theorem within_setSu (x : Scanout) : Within [.scanout] s (s.setSu x) := fun y hy => by
  cases y <;> simp_all

theorem within_fresh (n : Nat) : Within [] s { s with fresh := n } := fun y _ => by
  cases y <;> simp

theorem within_advanceGen : Within [.gen] s s.advanceGen := fun y hy => by
  cases y <;> simp_all

theorem within_clearFaults : Within [.faults] s s.clearFaults := fun y hy => by
  cases y <;> simp_all

theorem BitVec.and_or_self {n : Nat} (a b : BitVec n) : a &&& (a ||| b) = a := by
  ext i hi
  cases hb : a[i] <;> simp [hb]

theorem within_latch (b : FaultBit) : Within [] s (s.latch b) := fun y _ => by
  cases y <;> simp [BitVec.and_or_self]

/-- The queues of the two ports after one port's state is put. -/
theorem State.setPort_queues {p : Port} {q : PortState} (h : QueueGrows (s.port p).queue q.queue) :
    QueueGrows s.cp.portD.queue (s.setPort p q).cp.portD.queue
      ∧ QueueGrows s.cp.portA.queue (s.setPort p q).cp.portA.queue := by
  cases p with
  | d => exact ⟨h, .refl _⟩
  | a => exact ⟨.refl _, h⟩

@[simp] theorem State.setPort_gen (p : Port) (q : PortState) : (s.setPort p q).cp.gen = s.cp.gen := by cases p <;> rfl

@[simp] theorem State.setPort_faults (p : Port) (q : PortState) : (s.setPort p q).cp.faults = s.cp.faults := by
  cases p <;> rfl

/-- A port's state put, whatever its queue. -/
theorem within_setPort_queue (p : Port) (q : PortState) : Within [.queues] s (s.setPort p q) := fun y hy => by
  cases y <;> simp_all

/-- A port's state put with a queue that has only grown. -/
theorem within_setPort {p : Port} {q : PortState} (h : QueueGrows (s.port p).queue q.queue) :
    Within [] s (s.setPort p q) := fun y _ => by
  by_cases hy : y = .queues
  · subst hy
    exact s.setPort_queues h
  · exact within_setPort_queue s p q y (by simpa using hy)

theorem PortState.offer_grows (q : PortState) (n : Notice) : QueueGrows q.queue (q.offer n).queue :=
  ⟨q.offer_keeps n, q.offer_length n⟩

theorem PortState.offerSubscribed_grows (q : PortState) (n : Notice) : QueueGrows q.queue (q.offerSubscribed n).queue := by
  unfold PortState.offerSubscribed
  split
  · exact q.offer_grows n
  · exact .refl _

theorem within_notifyOwner (p : Port) (k : NoticeKind) (a b : Nat) : Within [] s (s.notifyOwner p k a b) :=
  within_setPort s ((s.port p).offer_grows _)

theorem within_notify (k : NoticeKind) (a b : Nat) : Within [] s (s.notify k a b) := fun y _ => by
  by_cases hy : y = .queues
  · subst hy
    exact ⟨PortState.offerSubscribed_grows _ _, PortState.offerSubscribed_grows _ _⟩
  · cases y <;> simp_all [State.notify]

theorem within_respond (p : Port) (code : Byte) (r : Result) (x : Payload) : Within [] s (s.respond p code r x) :=
  within_setPort s (.refl _)

end

/-! ### Camera intake (01) -/

section
variable (s : State) (n : Fin 4)

theorem within_modifyCam (f : Cam → Cam) : Within [.reception] s (s.modifyCam n f) := within_ciu s _

theorem within_modifyCam_of_reception {f : Cam → Cam} (h : (f s.ciu[n]).reception = s.ciu[n].reception) :
    Within [] s (s.modifyCam n f) := by
  refine within_ciu_of_reception s fun m => ?_
  by_cases hm : m = n
  · subst hm
    simpa using h
  · have hne : n.val ≠ m.val := fun e => hm (Fin.ext e.symm)
    simp [hne]

theorem within_count (f : CamCounts → CamCounts) : Within [] s (s.count n f) := within_modifyCam_of_reception s n rfl

theorem within_setReception (r : Reception) : Within [.reception] s (s.setReception n r) := within_modifyCam s n _

theorem within_modifyCamSlot (k : Nat) (f : CamSlot → CamSlot) : Within [.camRing] s (s.modifyCamSlot n k f) := by
  unfold State.modifyCamSlot
  split
  · exact .refl _ s
  · exact within_setCamRing s n _

theorem within_modifyTiming (f : CamTiming → CamTiming) : Within [] s (s.modifyTiming n f) := within_tbu s rfl

theorem within_enterLink (k : Link) : Within [] s (s.enterLink n k) :=
  (within_modifyCam_of_reception s n rfl).trans (within_notify _ _ _ _)

theorem within_enterSeeking : Within [] s (s.enterSeeking n) :=
  (within_modifyCam_of_reception s n rfl).trans (within_enterLink _ n _)

theorem within_enterSettling : Within [] s (s.enterSettling n) :=
  (within_modifyTiming s n _).trans (within_enterLink _ n _)

theorem within_damageFrame (k : Nat) (cause : Damage) : Within [.reception, .camRing] s (s.damageFrame n k cause) :=
  ((within_modifyCamSlot s n k _).comp (within_count _ n _)).seq (within_setReception _ n _) rfl

theorem within_closeFrame (cause : Damage) : Within [.reception, .camRing] s (s.closeFrame n cause) := by
  unfold State.closeFrame
  split
  · exact .refl _ s
  · exact (within_setReception s n _).mono rfl
  · exact within_damageFrame s n _ _

theorem within_openUnjoined : Within [.reception] s (s.openUnjoined n) := by
  have counted : Within [.reception] s _ := (within_setReception s n .discarding).comp
    (within_count _ n fun c => { c with unjoined := bump c.unjoined })
  unfold State.openUnjoined
  exact .ite counted (counted.seq ((within_modifyCam_of_reception _ n rfl).trans (within_notify _ _ _ _)) rfl)

theorem within_dropFrame : Within [.reception] s (s.dropFrame n) :=
  ((within_setReception s n _).comp (within_count _ n _)).seq (within_latch _ _) rfl

theorem within_placeFrame : Within [.reception, .camRing] s (s.placeFrame n) := by
  unfold State.placeFrame
  split
  · exact (within_openUnjoined s n).mono rfl
  · split
    · exact (within_setCamRing s n _).seq (within_dropFrame _ n) rfl
    · exact (within_setCamRing s n _).seq (within_setReception _ n _) rfl

theorem within_startFrame : Within [.reception, .camRing] s (s.startFrame n) :=
  ((within_closeFrame s n _).comp (within_modifyTiming _ n _)).seq (within_placeFrame _ n) rfl

theorem within_frameStart : Within [.reception, .camRing] s (s.frameStart n) := by
  unfold State.frameStart
  cases s.ciu[n].link with
  | off => exact .refl _ s
  | settling d => exact .refl _ s
  | faulted => exact .refl _ s
  | seeking d => exact (within_enterLink s n _).seq (within_startFrame _ n) rfl
  | stalled => exact (within_enterLink s n _).seq (within_startFrame _ n) rfl
  | streaming d => exact (within_modifyCam_of_reception s n rfl).seq (within_startFrame _ n) rfl

theorem within_unlock : Within [] s (s.modifyCam n fun c => { c with locked := false }) :=
  within_modifyCam_of_reception s n rfl

/-- A loss of lock clears the indication, and from STREAMING and STALLED also closes the frame and seeks (R10). -/
theorem State.loseLock_induct {P : State → Prop} {u : State} (hu : u = s.modifyCam n fun c => { c with locked := false })
    (kept : P u) (closed : P ((u.closeFrame n .linkLost).enterSeeking n)) : P (s.loseLock n) := by
  have key (k : Link) : P (match k with
      | .streaming _ => (u.closeFrame n .linkLost).enterSeeking n
      | .stalled => (u.closeFrame n .linkLost).enterSeeking n
      | _ => u) := by
    cases k with
    | streaming d => exact closed
    | stalled => exact closed
    | _ => exact kept
  subst hu
  exact key _

theorem within_loseLock : Within [.reception, .camRing] s (s.loseLock n) :=
  s.loseLock_induct n rfl ((within_unlock s n).mono rfl)
    ((within_unlock s n).seq ((within_closeFrame _ n _).comp (within_enterSeeking _ n)) rfl)

theorem within_endFrame (k : Nat) (pend : Option Damage) : Within [.reception, .camRing] s (s.endFrame n k pend) := by
  unfold State.endFrame
  dsimp only
  split
  · exact within_damageFrame s n _ _
  · split
    · exact within_damageFrame s n _ _
    · split
      · exact within_damageFrame s n _ _
      · exact ((within_modifyCamSlot s n k _).comp (within_count _ n _)).seq (within_setReception _ n _) rfl

theorem within_frameEnd : Within [.reception, .camRing] s (s.frameEnd n) := by
  unfold State.frameEnd
  split
  · split
    · exact (within_count s n _).mono rfl
    · exact (within_setReception s n _).mono rfl
    · exact within_endFrame s n _ _
  · exact .refl _ s

theorem within_feedFault : Within [.reception, .camRing] s (s.feedFault n) := by
  unfold State.feedFault
  split
  · exact (((within_closeFrame s n _).comp (within_count _ n _)).comp (within_latch _ _)).seq (within_enterLink _ n _) rfl
  · exact .refl _ s

theorem within_countLine (k : Nat) (ps : List Pair) (pend : Option Damage) :
    Within [.reception, .camRing] s (s.countLine n k ps pend) :=
  (within_modifyCamSlot s n k _).seq (within_setReception _ n _) rfl

theorem within_settleExpiry : Within [] s (s.settleExpiry n) := by
  unfold State.settleExpiry
  split
  · exact .ite (within_enterSeeking s n) (.refl _ s)
  · exact .refl _ s

theorem within_seekExpiry : Within [] s (s.seekExpiry n) := by
  unfold State.seekExpiry
  split
  · have noticed := within_modifyCam_of_reception (f := fun c => { c with link := .seeking none, seekNoticed := true }) s n rfl
    exact .ite (.ite noticed (noticed.trans (within_notify _ _ _ _))) (.refl _ s)
  · exact .refl _ s

theorem within_timeoutExpiry : Within [] s (s.timeoutExpiry n) := by
  unfold State.timeoutExpiry
  split
  · exact .ite (within_enterLink s n _) (.refl _ s)
  · exact .refl _ s

theorem within_sendPulse : Within [] s (s.sendPulse n) := within_modifyCam_of_reception s n rfl

theorem within_pulseDue : Within [] s (s.pulseDue n) := by
  unfold State.pulseDue
  exact .ite ((Within.ite (within_sendPulse s n) (.refl _ s)).trans (within_modifyTiming _ n _)) (.refl _ s)

theorem within_changeJoin : Within [] s (s.changeJoin n) :=
  (within_modifyCam_of_reception s n rfl).trans (within_modifyTiming _ n _)

end

/-! ### The frame store (02) -/

section
variable (s : State)

theorem within_discardRing (t : Target) : Within [.camRing, .outRing] s (s.discardRing t) := by
  cases t with
  | camera n => exact (within_setCamRing s n none).seq (within_changeJoin _ n) rfl
  | output => exact (within_setOutRing s none).mono rfl
  | overlay => exact .refl _ s

theorem within_clearReplaced (a : Fin 8) : Within [.camRing] s (s.clearReplaced a) := by
  unfold State.clearReplaced
  split
  · exact within_setCamRing s _ _
  · exact .refl _ s

theorem within_writeOverlay (a : Nat) (bs : List Byte) : Within [.dram] s (s.writeOverlay a bs) := by
  have noted : Within [] { s with dram := s.dram.writeBytes a bs } (s.writeOverlay a bs) :=
    within_ce_of_current _ (Option.map_map ..)
  exact (within_dram s _).seq noted rfl

theorem within_expireCamHold (p : Port) (n : Fin 4) : Within [.camRing] s (s.expireCamHold p n) := by
  unfold State.expireCamHold
  split
  · exact .refl _ s
  · split
    · exact .refl _ s
    · exact (within_setCamRing s n _).seq (within_notifyOwner _ _ _ _ _) rfl

theorem within_expireOutHold (p : Port) : Within [.outRing] s (s.expireOutHold p) := by
  unfold State.expireOutHold
  split
  · exact .refl _ s
  · split
    · exact .refl _ s
    · exact (within_setOutRing s _).seq (within_notifyOwner _ _ _ _ _) rfl

/-! ### Grids and views (04) -/

theorem Grid.changeBinds_shape (f : Nat → Nat) (g : Grid) : (g.changeBinds f).shape? = g.shape? := by
  unfold changeBinds
  split <;> rfl

theorem Grid.setInUse_shape (f : Bool) (g : Grid) : (g.setInUse f).shape? = g.shape? := by
  unfold setInUse
  split <;> rfl

theorem Grid.changeBinds_inUse (f : Nat → Nat) (g : Grid) : (g.changeBinds f).inUse = g.inUse := by
  unfold changeBinds
  split <;> rfl

theorem Grid.setInUse_binds (f : Bool) (g : Grid) : (g.setInUse f).binds = g.binds := by
  unfold setInUse
  split <;> rfl

theorem within_changeBinds (f : Nat → Nat) (i : Fin 32) : Within [.binds] s (s.changeBinds f i) :=
  within_setGrid_binds s i (Grid.changeBinds_shape f _) (Grid.changeBinds_inUse f _)

theorem within_unbind (b : Option (Fin 32)) : Within [.binds] s (s.unbind b) := by
  cases b with
  | none => exact .refl _ s
  | some i => exact within_changeBinds s _ i

theorem within_unbindAll (l : List Pane) : Within [.binds] s (s.unbindAll l) :=
  Within.foldl (f := fun t p => t.unbind p.binding) (fun s p => within_unbind s p.binding) s l

theorem within_setView (v : Fin 16) (x : Option (List Pane)) : Within [.catalogue] s (s.setView v x) := within_vc s _

theorem within_bind (v : Fin 16) (l : List Pane) (k : Nat) (old : Option (Fin 32)) (i : Fin 32) :
    Within [.binds, .catalogue] s (s.bind v l k old i) :=
  ((within_unbind s old).comp (within_changeBinds _ _ i)).seq (within_setView _ v _) rfl

theorem within_deleteGrid (i : Fin 32) (g : GridShape) (hb : s.gs.sets[i].binds = 0) (hu : s.gs.sets[i].inUse = false) :
    Within [.free, .shapes] s (s.deleteGrid i g) := within_free_setGrid s _ i hb.symm hu.symm

theorem within_completeCheck (i : Fin 32) : Within [] s (s.completeCheck i) := by
  unfold State.completeCheck
  split
  · rename_i hk
    split
    · exact (within_setGrid_of_alike s i (by rw [hk]; rfl) (by rw [hk]; rfl) (by rw [hk]; rfl)).trans
        (within_notifyOwner _ _ _ _ _)
    · exact (within_setGrid_of_alike s i (by rw [hk]; rfl) (by rw [hk]; rfl) (by rw [hk]; rfl)).trans
        (within_notifyOwner _ _ _ _ _)
  · exact .refl _ s

theorem within_markSets (f : Bool) (l : List Pane) : Within [.inUse] s (s.markSets f l) := by
  refine .foldl (fun s p => ?_) s l
  cases p.binding with
  | none => exact .refl _ s
  | some i => exact within_setGrid_inUse s i (Grid.setInUse_shape f _) (Grid.setInUse_binds f _)

/-! ### Compose starts and completions (03, 05) -/

theorem within_countCompose (f : ComposeCounts → ComposeCounts) : Within [] s (s.countCompose f) :=
  within_ce_of_current s rfl

theorem within_schedulePulse (n : Fin 4) : Within [] s (s.schedulePulse n) := by
  unfold State.schedulePulse
  split
  · exact .refl _ s
  · exact within_modifyTiming s n _

theorem within_markExpired (n : Fin 4) : Within [] s (s.markExpired n) := by
  unfold State.markExpired
  split
  · exact .refl _ s
  · exact .ite (within_modifyTiming s n _) (.refl _ s)

theorem within_restartPeriod : Within [] s s.restartPeriod := within_tbu s rfl

theorem within_tickTimebase : Within [] s s.tickTimebase :=
  ((within_restartPeriod s).trans (.foldl within_schedulePulse _ _)).trans (.foldl within_markExpired _ _)

theorem within_pinCam (n : Fin 4) : Within [.camRing] s (s.pinCam n) := by
  unfold State.pinCam
  split
  · exact .refl _ s
  · exact within_modifyCamSlot s n _ _

theorem within_judgeMask (m : BitVec 4) : Within [] s (s.judgeMask m) := by
  have put : Within [] s { s with tbu := { s.tbu with lastMask := m } } := within_tbu s rfl
  exact .ite put (put.trans (within_notify _ _ _ _))

theorem within_judgeSkew (k : Nat) : Within [] s (s.judgeSkew k) := by
  have put (b : Bool) : Within [] s { s with tbu := { s.tbu with skewOver := b, lastSkew := .ofNat 32 k } } :=
    within_tbu s rfl
  exact .ite ((put _).trans (within_notify _ _ _ _)) (.ite ((put _).trans (within_notify _ _ _ _)) (put _))

theorem within_matchFrames : Within [.camRing] s s.matchFrames :=
  (Within.foldl within_pinCam s _).seq ((within_judgeMask _ _).trans (within_judgeSkew _ _)) rfl

theorem within_overrun (c : Compose) : Within [] s (s.overrun c) := by
  have told : Within [] s { (s.countCompose fun k => { k with overrun := bump k.overrun }).latch .overrun with
      ce := { ((s.countCompose fun k => { k with overrun := bump k.overrun }).latch .overrun).ce with
        overrunNoticed := true } } :=
    ((within_countCompose s _).trans (within_latch _ _)).trans (within_ce_of_current _ rfl)
  exact .ite told (told.trans (within_notify _ _ _ _))

theorem within_takeDecision : Within [] s s.takeDecision := by
  have put : Within [] s { s with ca := { s.ca with decision := s.decision, speedAt := s.si.effSpeed } } :=
    within_ca_of_claims s rfl rfl rfl
  exact .ite put (put.trans (within_notify _ _ _ _))

theorem within_blocked : Within [] s s.blocked := (within_countCompose s _).trans (within_latch _ _)

theorem within_beginCompose (r : OutRing) (v : Fin 16) (k : Nat) :
    Within [.camRing, .outRing, .inUse, .current] s (s.beginCompose r v k) :=
  ((within_matchFrames s).comp
    ((within_setOutRing _ _).comp (within_markSets _ _ _))).seq (within_ce _ _) rfl

theorem within_seekTarget (v : Fin 16) : Within [.camRing, .outRing, .inUse, .current] s (s.seekTarget v) := by
  unfold State.seekTarget
  split
  · exact (within_blocked s).mono rfl
  · split
    · exact (within_blocked s).mono rfl
    · exact within_beginCompose s _ v _

theorem within_startIdle : Within [.camRing, .outRing, .inUse, .current] s s.startIdle := by
  unfold State.startIdle
  dsimp only
  split
  · exact (within_takeDecision s).seq (within_countCompose _ _) rfl
  · split
    · exact (within_takeDecision s).seq (within_countCompose _ _) rfl
    · exact (within_takeDecision s).seq (within_seekTarget _ _) rfl

theorem within_startCompose : Within [.camRing, .outRing, .inUse, .current] s s.startCompose := by
  unfold State.startCompose
  split
  · exact (within_overrun s _).mono rfl
  · exact within_startIdle s

theorem within_composeStart : Within [.camRing, .outRing, .inUse, .current] s s.composeStart :=
  .ite ((within_tickTimebase s).seq (within_startCompose _) rfl) (.refl _ s)

theorem within_dropPins (n : Fin 4) : Within [.camRing] s (s.dropPins n) := within_setCamRing s n _

theorem within_writeFrame (c : Compose) (r : OutRing) : Within [.dram] s (s.writeFrame c r) :=
  fun y hy => by
  cases y <;> simp_all [State.writeFrame]

theorem within_finishCompose (c : Compose) (r : OutRing) (z : Vector ZoneStats 4) :
    Within [.camRing, .outRing, .inUse, .balance, .current] s (s.finishCompose c r z) :=
  (((within_setOutRing s _).comp
    ((Within.foldl within_dropPins _ _).comp (within_markSets _ _ _))).comp (within_bu _ _)).seq
    ((within_notify _ _ _ _).comp (within_ce _ _)) rfl

/-! ### Claims (08) -/

theorem within_setStack (l : List Claim) : Within [.claims] s (s.setStack l) := within_ca s _

theorem within_setLinger (t : Option Word32) : Within [] s (s.setLinger t) := within_ca_of_claims s rfl rfl rfl

theorem within_makeRoom {t : State} {r : Nat} (h : s.makeRoom r = some t) : Within [.claims] s t := by
  unfold State.makeRoom at h
  split at h
  · cases h
    exact .refl _ s
  · split at h
    · cases h
      exact .refl _ s
    · split at h
      · simp only [Option.some.injEq] at h
        subst h
        split
        · exact within_setStack s _
        · exact (within_setStack s _).seq (within_notifyOwner _ _ _ _ _) rfl
      · cases h

theorem within_newClaim (x : Source) (v : Fin 16) : Within [.claims] s (s.newClaim x v) := within_ca s _

theorem within_dropGear : Within [.claims] s s.dropGear := within_ca s _

theorem within_makeGear (v : Fin 16) : Within [.claims] s (s.makeGear v) := by
  unfold State.makeGear
  split
  · exact .refl _ s
  · exact (within_makeRoom s ‹_›).trans (within_newClaim _ _ _)

theorem within_gearChange (g : EffGear) : Within [.claims] s (s.gearChange g) := by
  cases g with
  | unknown => exact .refl _ s
  | reverse =>
    have stopped : Within [.claims] s (s.setLinger none) := (within_setLinger s none).mono rfl
    unfold State.gearChange
    dsimp only
    split
    · exact stopped
    · exact .ite stopped (stopped.trans (within_makeGear _ _))
  | notReverse => exact .ite (.ite (within_dropGear s) ((within_setLinger s _).mono rfl)) (.refl _ s)

theorem within_applyReverseView (v : Option (Fin 16)) : Within [.claims] s (s.applyReverseView v) := by
  cases v with
  | none => exact within_dropGear s
  | some v => exact .ite (within_setStack s _) (.ite (within_gearChange s _) (.refl _ s))

theorem within_expireClaim (t : Byte) : Within [.claims] s (s.expireClaim t) := by
  unfold State.expireClaim
  split
  · exact .refl _ s
  · exact .ite ((within_setStack s _).seq (within_notifyOwner _ _ _ _ _) rfl) (.refl _ s)

theorem within_lingerExpiry : Within [.claims] s s.lingerExpiry := .ite (within_dropGear s) (.refl _ s)

/-! ### Signals and the CAN controller (09) -/

theorem within_tellSignal (x : Signal) (old : SigState) : Within [] s (s.tellSignal x old) :=
  .ite (.refl _ s) (within_notify s _ _ _)

theorem within_tellGear (old : EffGear) : Within [.claims] s (s.tellGear old) :=
  .ite (.refl _ s) (within_gearChange s _)

theorem within_changeSignal (x : Signal) (y : SignalIntake) : Within [.claims] s (s.changeSignal x y) :=
  ((within_setSi s y).trans (within_tellSignal _ _ _)).seq (within_tellGear _ _) rfl

theorem within_updateSignal (i : Fin 12) (c : SlotSetup) (data : List Byte) :
    Within [.claims] s (s.updateSignal i c data) := by
  unfold State.updateSignal
  cases c.target with
  | gear rev => exact within_changeSignal s _ _
  | speed => exact within_changeSignal s _ _
  | steer => exact within_changeSignal s _ _
  | doors => exact within_changeSignal s _ _

theorem within_offerSlot (f : CanFrame) (i : Fin 12) : Within [.claims] s (s.offerSlot f i) := by
  unfold State.offerSlot
  split
  · exact .refl _ s
  · exact .ite ((within_setSi s _).mono rfl) (within_updateSignal s i _ _)

theorem within_offerFrame (f : CanFrame) : Within [.claims] s (s.offerFrame f) :=
  .ite (.refl _ s) (.foldl (fun s i => within_offerSlot s f i) s _)

theorem within_signalTimeout (x : Signal) : Within [.claims] s (s.signalTimeout x) := by
  cases x <;> exact within_changeSignal s _ _

theorem within_signalHold (x : Signal) : Within [.claims] s (s.signalHold x) := by
  cases x <;> exact within_changeSignal s _ _

theorem within_setCan (c : CanCtl) : Within [] s (s.setCan c) := within_setSi s _

theorem within_tellErr (old : ErrState) : Within [] s (s.tellErr old) := .ite (.refl _ s) (within_notify s _ _ _)

theorem within_receiveFrame (f : CanFrame) : Within [.claims] s (s.receiveFrame f) := by
  have counted (c : CanCtl) : Within [] s { s.setCan c with fresh := (s.setCan c).fresh + 1 } :=
    (within_setCan s c).trans (within_fresh _ _)
  exact .ite (.refl _ s) (.ite (within_offerFrame s f) (.ite ((within_setCan s _).seq (within_offerFrame _ f) rfl)
    (.ite ((counted _).seq ((within_tellErr _ _).comp (within_offerFrame _ f)) rfl)
      ((counted _).seq ((within_offerFrame _ f).comp (within_tellErr _ _)) rfl))))

theorem within_receiveError (e : BusError) : Within [] s (s.receiveError e) :=
  .ite (.refl _ s) (.ite ((within_setCan s _).trans (within_tellErr _ _)) (within_setCan s _))

theorem within_intervalExpiry : Within [.claims] s s.intervalExpiry :=
  .ite (.ite (((within_setCan s _).trans (within_setCan _ _)).seq (within_offerFrame _ _) rfl) ((within_setCan s _).mono rfl))
    (.refl _ s)

theorem within_beginAttempt : Within [] s s.beginAttempt := by
  unfold State.beginAttempt
  dsimp only
  split
  · exact within_setCan s _
  · exact .refl _ s

theorem within_attemptSent : Within [] s s.attemptSent := by
  unfold State.attemptSent
  dsimp only
  split
  · exact .refl _ s
  · exact (within_setCan s _).trans (within_tellErr _ _)

theorem within_tellDropped (a : Attempt) : Within [] s (s.tellDropped a) := .ite (within_notify s _ _ _) (.refl _ s)

theorem within_latchBusOff : Within [] s s.latchBusOff := .ite (within_latch s _) (.refl _ s)

theorem within_attemptError (e : BusError) : Within [] s (s.attemptError e) := by
  have counted (c : CanCtl) : Within [] s (s.setCan c).latchBusOff := (within_setCan s c).trans (within_latchBusOff _)
  unfold State.attemptError
  dsimp only
  split
  · exact .refl _ s
  · exact .ite ((counted _).trans (within_tellDropped _ _))
      (.ite (((counted _).trans (within_tellErr _ _)).trans (within_tellDropped _ _))
        (.ite ((((counted _).trans (within_fresh _ _)).trans (within_tellErr _ _)).trans (within_tellDropped _ _))
          ((((counted _).trans (within_fresh _ _)).trans (within_tellDropped _ _)).trans (within_tellErr _ _))))

theorem within_attemptLost : Within [] s s.attemptLost := by
  unfold State.attemptLost
  split
  · exact .refl _ s
  · exact (within_setCan s _).trans (within_tellDropped _ _)

theorem within_recover : Within [] s s.recover := .ite ((within_setCan s _).trans (within_tellErr _ _)) (.refl _ s)

/-! ### Markers and the display (07, 10) -/

theorem within_expireMarker (id : Byte) : Within [.markers] s (s.expireMarker id) := by
  unfold State.expireMarker
  split
  · exact .refl _ s
  · exact .ite ((within_setMarkers s _).seq (within_notifyOwner _ _ _ _ _) rfl) (.refl _ s)

theorem within_displayStart : Within [.scanout] s s.displayStart := .ite (within_setSu s _) (.refl _ s)

end

end Sys2Proof.Machine
end

