-- ==== Sys2Proof/Proofs/Footprints.lean ====
section
/-! The parts of the state that each command and event can change. -/

namespace Sys2Proof.Machine

open Host (Outcome)

/-! ### What each judgement can change -/

section
variable (s : State)

theorem judgePortSetup_keeps (p : Port) (m : Word32) (e : Bool) (t c : Nat) :
    (judgePortSetup p m e t c s).Keeps (Within [] s) := by
  unfold judgePortSetup
  split
  · rfl
  · exact ⟨clampResult_accepts _, within_setPort s (.refl _)⟩

theorem judgeEventRead_keeps (p : Port) : (judgeEventRead p s).Keeps (Within [.queues] s) :=
  ⟨rfl, within_setPort_queue s p _⟩

theorem judgeCamSetup_keeps (cam : Nat) (r : SetupArg) : (judgeCamSetup cam r s).Keeps (Within [] s) := by
  unfold judgeCamSetup
  split
  · rfl
  · split
    · rfl
    · split
      · rfl
      · exact ⟨clampResult_accepts _, within_modifyCam_of_reception s _ rfl⟩

theorem judgePowerOn_keeps (cam : Nat) : (judgePowerOn cam s).Keeps (Within [] s) := by
  unfold judgePowerOn
  split
  · rfl
  · exact ⟨rfl, .ite (.refl _ s) (within_enterSettling s _)⟩

theorem judgePowerOff_keeps (cam : Nat) : (judgePowerOff cam s).Keeps (Within [.reception, .camRing] s) := by
  unfold judgePowerOff
  split
  · rfl
  · exact ⟨rfl, .ite (.refl _ s) ((within_closeFrame s _ _).seq (within_enterLink _ _ _) rfl)⟩

theorem judgeCamStatus_keeps (cam : Nat) (c : Bool) : (judgeCamStatus cam c s).Keeps (Within [] s) := by
  unfold judgeCamStatus
  split
  · rfl
  · exact ⟨rfl, .ite (within_count s _ _) (.refl _ s)⟩

theorem judgeTriggerNow_keeps (cam : Nat) : (judgeTriggerNow cam s).Keeps (Within [] s) := by
  unfold judgeTriggerNow
  split
  · rfl
  · split
    · exact ⟨rfl, within_sendPulse s _⟩
    · rfl

theorem judgeCamMask_keeps (m : Nat) : (judgeCamMask m s).Keeps (Within [] s) := by
  unfold judgeCamMask
  split
  · rfl
  · exact ⟨rfl, within_tbu s rfl⟩

theorem Area.refusesDefine_refuses {a : Area} {r : Result} (h : a.refusesDefine = some r) : r.accepts = false := by
  unfold Area.refusesDefine at h
  split at h <;> cases h <;> rfl

theorem judgeAreaDefine_keeps (a : Nat) (f : AreaForm) : (judgeAreaDefine a f s).Keeps (Within [.areas] s) := by
  unfold judgeAreaDefine
  split
  · rfl
  · split
    · rfl
    · split
      · exact Area.refusesDefine_refuses ‹_›
      · split
        · exact ⟨rfl, within_setArea s _ _⟩
        · split
          · rfl
          · exact ⟨rfl, within_setArea s _ _⟩

theorem judgeAreaClear_keeps (a : Nat) : (judgeAreaClear a s).Keeps (Within [.areas] s) := by
  unfold judgeAreaClear
  split
  · rfl
  · split
    · rfl
    · rfl
    · rfl
    · exact ⟨rfl, within_setArea s _ _⟩
    · exact ⟨rfl, within_setArea s _ _⟩

theorem State.join_keeps (a : Fin 8) (b l : Nat) (t : Target) :
    (s.join a b l t).Keeps (Within [.areas, .camRing, .outRing] s) := by
  cases t with
  | camera n =>
    unfold State.join
    dsimp only
    split
    · rfl
    · exact ⟨rfl, ((within_setArea s _ _).comp (within_setCamRing _ _ _)).seq (within_changeJoin _ _) rfl⟩
  | output =>
    unfold State.join
    dsimp only
    split
    · rfl
    · exact ⟨rfl, (within_setArea s _ _).seq (within_setOutRing _ _) rfl⟩
  | overlay =>
    unfold State.join
    dsimp only
    split
    · rfl
    · exact ⟨rfl, (within_setArea s _ _).mono rfl⟩

theorem judgeAreaJoin_keeps (a : Nat) (t : Option Target) :
    (judgeAreaJoin a t s).Keeps (Within [.areas, .camRing, .outRing] s) := by
  unfold judgeAreaJoin
  split
  · rfl
  · rfl
  · split
    · rfl
    · rfl
    · rfl
    · rfl
    · split
      · rfl
      · exact s.join_keeps _ _ _ _

theorem judgeAreaUnjoin_keeps (a : Nat) : (judgeAreaUnjoin a s).Keeps (Within [.areas, .camRing, .outRing] s) := by
  unfold judgeAreaUnjoin
  split
  · rfl
  · split
    · split
      · exact ⟨rfl, (within_setArea s _ _).seq (within_discardRing _ _) rfl⟩
      · rfl
    · rfl

theorem judgeAreaStatus_keeps (a : Nat) (c : Bool) : (judgeAreaStatus a c s).Keeps (Within [.camRing] s) := by
  unfold judgeAreaStatus
  split
  · rfl
  · exact ⟨rfl, .ite (within_clearReplaced s _) (.refl _ s)⟩

theorem judgeAreaWrite_keeps (o : Nat) (bs : List Byte) : (judgeAreaWrite o bs s).Keeps (Within [.dram] s) := by
  unfold judgeAreaWrite
  split
  · rfl
  · split
    · rfl
    · split
      · rfl
      · split
        · exact ⟨rfl, within_writeOverlay s _ _⟩
        · trivial

theorem judgeFrameHold_keeps (p : Port) (r : Option Ring) : (judgeFrameHold p r s).Keeps (Within [.camRing, .outRing] s) := by
  unfold judgeFrameHold
  split
  · rfl
  · unfold judgeHoldCam
    split
    · rfl
    · split
      · rfl
      · split
        · rfl
        · split
          · exact ⟨rfl, (within_setCamRing s _ _).mono rfl⟩
          · rfl
  · unfold judgeHoldOut
    split
    · rfl
    · split
      · rfl
      · split
        · rfl
        · split
          · exact ⟨rfl, (within_setOutRing s _).mono rfl⟩
          · rfl

theorem judgeFrameRelease_keeps (p : Port) (r : Option Ring) :
    (judgeFrameRelease p r s).Keeps (Within [.camRing, .outRing] s) := by
  unfold judgeFrameRelease
  split
  · rfl
  · split
    · rfl
    · split
      · rfl
      · exact ⟨rfl, (within_setCamRing s _ _).mono rfl⟩
  · split
    · rfl
    · split
      · rfl
      · exact ⟨rfl, (within_setOutRing s _).mono rfl⟩

theorem judgeFrameRead_keeps (p : Port) (r : Option Ring) (o n : Nat) :
    (judgeFrameRead p r o n s).Keeps (Within [] s) := by
  unfold judgeFrameRead
  split
  · rfl
  · split
    · rfl
    · split
      · rfl
      · split
        · rfl
        · split
          · exact ⟨rfl, .refl _ s⟩
          · trivial

theorem judgeTimingSet_keeps (p a k : Nat) : (judgeTimingSet p a k s).Keeps (Within [] s) :=
  ⟨clampResult_accepts _, within_tbu s rfl⟩

theorem judgeGridOpen_keeps (p : Port) (id bw bh : Nat) : (judgeGridOpen p id bw bh s).Keeps (Within [.free, .shapes] s) := by
  unfold judgeGridOpen
  split
  · rfl
  · split
    · rfl
    · split
      · rfl
      · dsimp only
        split
        · rfl
        · exact ⟨rfl, within_free_setGrid s _ _ (by simp_all [Grid.binds]) (by simp_all [Grid.inUse])⟩

theorem judgeGridWrite_keeps (p : Port) (id : Nat) (bs : List Byte) :
    (judgeGridWrite p id bs s).Keeps (Within [.gridMem] s) := by
  unfold judgeGridWrite
  split
  · rfl
  · rfl
  · split
    · rfl
    · split
      · rfl
      · split
        · rfl
        · split
          · rfl
          · split
            · split
              · rfl
              · exact ⟨rfl, within_gridMem_setGrid s _ _ (by simp [*, Grid.shape?]) (by simp [*, Grid.binds]) (by simp [*, Grid.inUse])⟩
            · rfl

theorem judgeGridFinish_keeps (p : Port) (id : Nat) : (judgeGridFinish p id s).Keeps (Within [] s) := by
  unfold judgeGridFinish
  split
  · rfl
  · split
    · rfl
    · split
      · rfl
      · split
        · rfl
        · split
          · exact ⟨rfl, within_setGrid_of_alike s _ (by simp [*, Grid.shape?]) (by simp [*, Grid.binds]) (by simp [*, Grid.inUse])⟩
          · rfl

theorem judgeGridReopen_keeps (p : Port) (id : Nat) : (judgeGridReopen p id s).Keeps (Within [] s) := by
  unfold judgeGridReopen
  split
  · rfl
  · split
    · rfl
    · split
      · rfl
      · split
        · rfl
        · split
          · exact ⟨rfl, within_setGrid_of_alike s _ (by simp [*, Grid.shape?]) (by simp [*, Grid.binds]) (by simp [*, Grid.inUse])⟩
          · rfl

theorem judgeDeleteValid_keeps {i : Fin 32} {g : GridShape} {b : Nat} {u : Bool} (hk : s.gs.sets[i] = .held g (.valid b u)) :
    (judgeDeleteValid i g b u s).Keeps (Within [.free, .shapes] s) := by
  unfold judgeDeleteValid
  split
  · rfl
  · rename_i hfree
    have hfree : b = 0 ∧ u = false := by simpa using hfree
    exact ⟨rfl, within_deleteGrid s i g (by rw [hk]; exact hfree.1) (by rw [hk]; exact hfree.2)⟩

/-- A guarded judgement changes what its own rule changes, and the generation (R178). -/
theorem guardGen_within {s : State} {l : List Part} {h : Hdr} {judge : State → Verdict}
    (hj : (judge s).Keeps (Within l s)) : (guardGen h judge s).Keeps (Within (l ++ [.gen]) s) :=
  guardGen_keeps hj fun u _ _ hu => hu.comp (within_advanceGen u)

theorem within_deleteGrid_of_not_valid {i : Fin 32} {g : GridShape} {ph : GridPhase} (hk : s.gs.sets[i] = .held g ph)
    (hv : ∀ b u, ph = .valid b u → False) : Within [.free, .shapes] s (s.deleteGrid i g) := by
  refine within_deleteGrid s i g ?_ ?_
  · rw [hk]
    cases ph with
    | valid b u => exact (hv b u rfl).elim
    | _ => rfl
  · rw [hk]
    cases ph with
    | valid b u => exact (hv b u rfl).elim
    | _ => rfl

theorem judgeGridDelete_keeps (h : Hdr) (id : Nat) : (judgeGridDelete h id s).Keeps (Within [.free, .shapes, .gen] s) := by
  unfold judgeGridDelete
  split
  · rfl
  · split
    · rfl
    · exact guardGen_within (judgeDeleteValid_keeps s ‹_›)
    · rename_i g ph hv hk
      split
      · rfl
      · exact ⟨rfl, (within_deleteGrid_of_not_valid s hk hv).mono rfl⟩

theorem judgeGridStatus_keeps (x : GridSel) : (judgeGridStatus x s).Keeps (Within [] s) := by
  unfold judgeGridStatus
  split
  · exact report_keeps _ (.refl _ s)
  · split
    · rfl
    · exact report_keeps _ (.refl _ s)

theorem judgeViewDefine_keeps (v : Nat) (l : List PaneArg) : (judgeViewDefine v l s).Keeps (Within [.binds, .catalogue] s) := by
  unfold judgeViewDefine
  split
  · rfl
  · rfl
  · split
    · rfl
    · exact ⟨rfl, (within_unbindAll s _).seq (within_setView _ _ _) rfl⟩

theorem judgeViewBind_keeps (v p g : Nat) : (judgeViewBind v p g s).Keeps (Within [.binds, .catalogue] s) := by
  unfold judgeViewBind
  split
  · rfl
  · rfl
  · split
    · rfl
    · split
      · rfl
      · split
        · rfl
        · split
          · split
            · rfl
            · exact ⟨rfl, within_bind s _ _ _ _ _⟩
          · rfl

theorem judgeViewUnbind_keeps (v p : Nat) : (judgeViewUnbind v p s).Keeps (Within [.binds, .catalogue] s) := by
  unfold judgeViewUnbind
  split
  · rfl
  · split
    · rfl
    · split
      · rfl
      · split
        · rfl
        · split
          · rfl
          · exact ⟨rfl, (within_unbind s _).seq (within_setView _ _ _) rfl⟩

theorem judgeViewErase_keeps (v : Nat) : (judgeViewErase v s).Keeps (Within [.binds, .catalogue] s) := by
  unfold judgeViewErase
  split
  · rfl
  · split
    · rfl
    · split
      · rfl
      · exact ⟨rfl, (within_unbindAll s _).seq (within_setView _ _ _) rfl⟩

theorem judgeDefaultView_keeps (v : Option Nat) : (judgeDefaultView v s).Keeps (Within [.catalogue] s) := by
  unfold judgeDefaultView
  split
  · exact ⟨rfl, within_vc s _⟩
  · split
    · rfl
    · split
      · rfl
      · exact ⟨rfl, within_vc s _⟩

theorem judgeViewStatus_keeps (x : ViewSel) : (judgeViewStatus x s).Keeps (Within [] s) := by
  unfold judgeViewStatus
  split
  · exact report_keeps _ (.refl _ s)
  · split
    · rfl
    · exact report_keeps _ (.refl _ s)

theorem judgeComposeStatus_keeps (c : Bool) : (judgeComposeStatus c s).Keeps (Within [] s) :=
  ⟨rfl, .ite (within_countCompose s _) (.refl _ s)⟩

theorem judgeBalanceSet_keeps (r : BalanceArg) : (judgeBalanceSet r s).Keeps (Within [.balance] s) := by
  unfold judgeBalanceSet
  split
  · rfl
  · exact ⟨clampResult_accepts _, within_bu s _⟩

theorem judgeOverlaySet_keeps (r : OverlayArg) : (judgeOverlaySet r s).Keeps (Within [] s) := by
  unfold judgeOverlaySet
  split
  · rfl
  · split
    · rfl
    · exact ⟨clampResult_accepts _, within_setOverlay s _⟩

theorem judgeCurveSet_keeps (t : Vector Int 33) : (judgeCurveSet t s).Keeps (Within [] s) :=
  ⟨clampResult_accepts _, within_setOverlay s _⟩

theorem within_makeMarkerRoom {t : State} {m : Marker} (h : s.makeMarkerRoom m = some t) : Within [.markers] s t := by
  unfold State.makeMarkerRoom at h
  split at h
  · cases h
    exact .refl _ s
  · split at h
    · cases h
      exact .refl _ s
    · split at h
      · cases h
        exact (within_setMarkers s _).seq (within_notifyOwner _ _ _ _ _) rfl
      · cases h

theorem judgeMarkPost_keeps (p : Port) (m : MarkArg) : (judgeMarkPost p m s).Keeps (Within [.markers] s) := by
  unfold judgeMarkPost
  split
  · rfl
  · dsimp only
    split
    · exact ⟨clampResult_accepts _, (within_setMarkers s _).trans (within_setMarkers _ _)⟩
    · split
      · rfl
      · exact ⟨clampResult_accepts _, (within_makeMarkerRoom s ‹_›).trans (within_setMarkers _ _)⟩

theorem judgeMarkRemove_keeps (i : Nat) : (judgeMarkRemove i s).Keeps (Within [.markers] s) := by
  unfold judgeMarkRemove
  split
  · rfl
  · split
    · exact ⟨rfl, within_setMarkers s _⟩
    · rfl

theorem judgeClaim_keeps (p : Port) (v : Nat) : (judgeClaim p v s).Keeps (Within [.claims] s) := by
  unfold judgeClaim
  split
  · rfl
  · dsimp only
    split
    · rfl
    · split
      · rfl
      · split
        · rfl
        · exact ⟨rfl, (within_makeRoom s ‹_›).trans (within_newClaim _ _ _)⟩

theorem judgeRenew_keeps (p : Port) (t : Nat) : (judgeRenew p t s).Keeps (Within [.claims] s) := by
  unfold judgeRenew
  split
  · rfl
  · split
    · rfl
    · split
      · rfl
      · exact ⟨rfl, within_setStack s _⟩

theorem judgeRelease_keeps (p : Port) (t : Nat) : (judgeRelease p t s).Keeps (Within [.claims] s) := by
  unfold judgeRelease
  split
  · rfl
  · split
    · rfl
    · split
      · rfl
      · exact ⟨rfl, within_setStack s _⟩

theorem State.reverseArg_refuses {v : Option Nat} {r : Result} (h : s.reverseArg v = .error r) : r.accepts = false := by
  unfold State.reverseArg at h
  split at h
  · cases h
  · split at h
    · cases h
      rfl
    · split at h <;> cases h
      rfl

theorem judgeGearSetup_keeps (v : Option Nat) (l : Nat) (g : BitVec 16) :
    (judgeGearSetup v l g s).Keeps (Within [.claims] s) := by
  unfold judgeGearSetup
  split
  · exact s.reverseArg_refuses ‹_›
  · exact ⟨clampResult_accepts _, (within_ca s _).trans (within_applyReverseView _ _)⟩

theorem judgeCanSetup_keeps (r : CanArg) : (judgeCanSetup r s).Keeps (Within [] s) := by
  unfold judgeCanSetup
  split
  · rfl
  · exact ⟨clampResult_accepts _, .ite (within_setCan s _) ((within_setCan s _).trans (within_tellErr _ _))⟩

theorem judgeSlotSetup_keeps (i : Nat) (r : SlotArg) : (judgeSlotSetup i r s).Keeps (Within [] s) := by
  unfold judgeSlotSetup
  split
  · rfl
  · split
    · rfl
    · split
      · rfl
      · exact ⟨rfl, within_setSi s _⟩

theorem judgeSlotEnable_keeps (i : Nat) (on : Bool) : (judgeSlotEnable i on s).Keeps (Within [] s) := by
  unfold judgeSlotEnable
  split
  · rfl
  · split
    · rfl
    · exact ⟨rfl, within_setSi s _⟩

theorem judgeSignalSetup_keeps (x t d n : Nat) : (judgeSignalSetup x t d n s).Keeps (Within [] s) := by
  unfold judgeSignalSetup
  dsimp only
  split
  · rfl
  all_goals exact ⟨clampResult_accepts _, within_setSi s _⟩

theorem judgeCanRestart_keeps : (judgeCanRestart s).Keeps (Within [] s) := by
  unfold judgeCanRestart
  split
  · exact ⟨rfl, within_setCan s _⟩
  · rfl

theorem judgeCanStatus_keeps (c : Bool) : (judgeCanStatus c s).Keeps (Within [] s) :=
  ⟨rfl, .ite (within_setCan s _) (.refl _ s)⟩

theorem judgeSignalStatus_keeps (c : Bool) : (judgeSignalStatus c s).Keeps (Within [] s) :=
  ⟨rfl, .ite (within_setSi s _) (.refl _ s)⟩

theorem judgeDisplaySet_keeps (on : Option Bool) (p : Nat) : (judgeDisplaySet on p s).Keeps (Within [.scanout] s) := by
  unfold judgeDisplaySet
  split
  · rfl
  · exact ⟨clampResult_accepts _, within_setSu s _⟩

theorem judgeDisplayStatus_keeps (c : Bool) : (judgeDisplayStatus c s).Keeps (Within [.scanout] s) :=
  ⟨rfl, .ite (within_setSu s _) (.refl _ s)⟩

/-! ### The resets -/

/-- What the resets can change: everything but the counter, grid memory, the free extents, the catalogue, the generation, the
fault summary and the commands that wait. -/
def pipelineParts : List Part :=
  [.reception, .areas, .camRing, .outRing, .dram, .inUse, .current, .balance, .markers, .claims, .scanout, .queues]

theorem within_remakeGear : Within [.claims] s s.remakeGear := by
  unfold State.remakeGear
  split
  · exact .refl _ s
  · exact .ite (within_makeGear s _) (.refl _ s)

theorem Grid.pipelineReset_shape (g : Grid) : g.pipelineReset.shape? = g.shape? := by
  unfold pipelineReset
  split <;> rfl

theorem Grid.pipelineReset_binds (g : Grid) : g.pipelineReset.binds = g.binds := by
  unfold pipelineReset
  split <;> rfl

theorem within_pipelineReset : Within pipelineParts s s.pipelineReset := by
  have blocks : Within pipelineParts s
      { s with
        ciu := Vector.ofFn fun n : Fin 4 => s.ciu[n].pipelineReset
        fsc := s.fsc.pipelineReset
        dram := s.abandonedDram
        tbu := s.tbu.pipelineReset
        gs := s.gs.pipelineReset
        ce := s.ce.pipelineReset
        bu := s.bu.pipelineReset
        ou := { s.ou with markers := [] }
        ca := s.ca.pipelineReset
        su := s.su.pipelineReset (s.paletteColour 14)
        cp := { s.cp with portD := s.cp.portD.pipelineReset, portA := s.cp.portA.pipelineReset }
        fresh := s.fresh + 1 } := fun y hy => by
    cases y <;> simp_all [pipelineParts, Timebase.pipelineReset, GridStore.pipelineReset, Grid.pipelineReset_shape,
      Grid.pipelineReset_binds]
  exact blocks.seq (within_remakeGear _) rfl

/-- What the hard resets can change: everything but grid memory and the commands that wait. -/
def hardParts : List Part := pipelineParts ++ [.now, .free, .shapes, .binds, .catalogue, .gen, .faults]

theorem within_hardReset : Within hardParts s s.hardReset := fun y hy => by
  cases y <;> simp_all [hardParts, pipelineParts, State.hardReset]

end

/-! ### What each command and event can change -/

/-- The parts that a command or an event can change. -/
def footprint : Instr → List Part
  | .powerOnReset => hardParts
  | .resetPin => hardParts
  | .pipelineReset _ => pipelineParts
  | .status _ true => [.faults]
  | .eventRead _ => [.queues]
  | .camPowerOff _ _ => [.reception, .camRing]
  | .camSetup _ _ _ => [.gen]
  | .camMask _ _ => [.gen]
  | .areaDefine _ _ _ => [.areas, .gen]
  | .areaClear _ _ => [.areas, .gen]
  | .areaJoin _ _ _ => [.areas, .camRing, .outRing, .gen]
  | .areaUnjoin _ _ => [.areas, .camRing, .outRing, .gen]
  | .areaStatus _ _ _ => [.camRing]
  | .areaWrite _ _ => [.dram, .gen]
  | .frameHold _ _ => [.camRing, .outRing]
  | .frameRelease _ _ => [.camRing, .outRing]
  | .timingSet _ _ _ _ => [.gen]
  | .gridOpen _ _ _ _ => [.free, .shapes]
  | .gridWrite _ _ => [.gridMem]
  | .gridDelete _ _ => [.free, .shapes, .gen]
  | .viewDefine _ _ _ => [.binds, .catalogue, .gen]
  | .viewBind _ _ _ _ => [.binds, .catalogue, .gen]
  | .viewUnbind _ _ _ => [.binds, .catalogue, .gen]
  | .viewErase _ _ => [.binds, .catalogue, .gen]
  | .defaultView _ _ => [.catalogue, .gen]
  | .balanceSet _ _ => [.balance, .gen]
  | .overlaySet _ _ => [.gen]
  | .curveSet _ _ => [.gen]
  | .markPost _ _ => [.markers]
  | .markRemove _ _ => [.markers]
  | .markClear _ => [.markers]
  | .claim _ _ => [.claims]
  | .renew _ _ => [.claims]
  | .release _ _ => [.claims]
  | .gearSetup _ _ _ _ => [.claims, .gen]
  | .canSetup _ _ => [.gen]
  | .slotSetup _ _ _ => [.gen]
  | .slotEnable _ _ _ => [.gen]
  | .signalSetup _ _ _ _ _ => [.gen]
  | .displaySet _ _ _ => [.scanout, .gen]
  | .displayStatus _ _ => [.scanout]
  | .lossOfLock _ => [.reception, .camRing]
  | .frameStart _ => [.reception, .camRing]
  | .line _ _ => [.reception, .camRing, .dram]
  | .frameEnd _ => [.reception, .camRing]
  | .feedFault _ => [.reception, .camRing]
  | .areaClearCompletion _ => [.areas, .dram]
  | .holdExpiry _ _ => [.camRing, .outRing]
  | .composeStart => [.camRing, .outRing, .inUse, .current]
  | .composeCompletion => [.camRing, .outRing, .dram, .inUse, .balance, .current]
  | .markerExpiry _ => [.markers]
  | .claimExpiry _ => [.claims]
  | .lingerTimerExpiry => [.claims]
  | .canFrameReceived _ => [.claims]
  | .signalTimeoutExpiry _ => [.claims]
  | .signalHoldExpiry _ => [.claims]
  | .statusIntervalExpiry => [.claims]
  | .displayFrameStart => [.scanout]
  | _ => []

/-- A command's judgement changes its footprint alone. -/
theorem judge_within {i : Instr} {c : Command} (hc : commandOf i = some c) (s : State) :
    (c.judge s).Keeps (Within (footprint i) s) := by
  cases i <;> cases hc
  case portSetup h m e t k => exact judgePortSetup_keeps s _ m e t k
  case eventRead h => exact judgeEventRead_keeps s _
  case pipelineReset h => exact ⟨rfl, within_pipelineReset s⟩
  case camSetup h n r => exact guardGen_within (judgeCamSetup_keeps s n r)
  case camPowerOn h n => exact judgePowerOn_keeps s n
  case camPowerOff h n => exact judgePowerOff_keeps s n
  case camStatus h n k => exact judgeCamStatus_keeps s n k
  case camTriggerNow h n => exact judgeTriggerNow_keeps s n
  case camMask h m => exact guardGen_within (judgeCamMask_keeps s m)
  case areaDefine h a f => exact guardGen_within (judgeAreaDefine_keeps s a f)
  case areaClear h a => exact guardGen_within (judgeAreaClear_keeps s a)
  case areaJoin h a t => exact guardGen_within (judgeAreaJoin_keeps s a t)
  case areaUnjoin h a => exact guardGen_within (judgeAreaUnjoin_keeps s a)
  case areaStatus h a k => exact judgeAreaStatus_keeps s a k
  case areaWrite h bs => exact guardGen_within (judgeAreaWrite_keeps s _ _)
  case frameHold h r => exact judgeFrameHold_keeps s _ r
  case frameRelease h r => exact judgeFrameRelease_keeps s _ r
  case frameRead h r n => exact judgeFrameRead_keeps s _ r _ n
  case timingSet h p a k => exact guardGen_within (judgeTimingSet_keeps s p a k)
  case timeStatus h => exact report_keeps _ (.refl _ s)
  case gridOpen h id bw bh => exact judgeGridOpen_keeps s _ id bw bh
  case gridWrite h bs => exact judgeGridWrite_keeps s _ _ _
  case gridFinish h id => exact judgeGridFinish_keeps s _ id
  case gridReopen h id => exact judgeGridReopen_keeps s _ id
  case gridDelete h id => exact judgeGridDelete_keeps s h id
  case gridStatus h x => exact judgeGridStatus_keeps s x
  case viewDefine h v l => exact guardGen_within (judgeViewDefine_keeps s v l)
  case viewBind h v p g => exact guardGen_within (judgeViewBind_keeps s v p g)
  case viewUnbind h v p => exact guardGen_within (judgeViewUnbind_keeps s v p)
  case viewErase h v => exact guardGen_within (judgeViewErase_keeps s v)
  case defaultView h v => exact guardGen_within (judgeDefaultView_keeps s v)
  case viewStatus h x => exact judgeViewStatus_keeps s x
  case composeStatus h k => exact judgeComposeStatus_keeps s k
  case balanceSet h r => exact guardGen_within (judgeBalanceSet_keeps s r)
  case balanceStatus h => exact report_keeps _ (.refl _ s)
  case overlaySet h r => exact guardGen_within (judgeOverlaySet_keeps s r)
  case curveSet h t => exact guardGen_within (judgeCurveSet_keeps s t)
  case overlayStatus h => exact report_keeps _ (.refl _ s)
  case markPost h bs => exact judgeMarkPost_keeps s _ _
  case markRemove h id => exact judgeMarkRemove_keeps s id
  case markClear h => exact ⟨rfl, within_setMarkers s _⟩
  case markStatus h => exact report_keeps _ (.refl _ s)
  case claim h v => exact judgeClaim_keeps s _ v
  case renew h t => exact judgeRenew_keeps s _ t
  case release h t => exact judgeRelease_keeps s _ t
  case gearSetup h v l g => exact guardGen_within (judgeGearSetup_keeps s v l g)
  case claimStatus h => exact report_keeps _ (.refl _ s)
  case canSetup h r => exact guardGen_within (judgeCanSetup_keeps s r)
  case slotSetup h k r => exact guardGen_within (judgeSlotSetup_keeps s k r)
  case slotEnable h k on => exact guardGen_within (judgeSlotEnable_keeps s k on)
  case signalSetup h x t d n => exact guardGen_within (judgeSignalSetup_keeps s x t d n)
  case canRestart h => exact judgeCanRestart_keeps s
  case canErrclr h => exact ⟨rfl, within_setCan s _⟩
  case canStatus h k => exact judgeCanStatus_keeps s k
  case signalStatus h k => exact judgeSignalStatus_keeps s k
  case displaySet h on p => exact guardGen_within (judgeDisplaySet_keeps s on p)
  case displayStatus h k => exact judgeDisplayStatus_keeps s k

theorem execLine_within {n : Fin 4} {ps : List Pair} {s t : State} (e : execLine n ps s = .next t) :
    Within [.reception, .camRing, .dram] s t := by
  unfold execLine at e
  split at e
  · split at e
    · cases e
      exact (within_countLine s n _ _ _).mono rfl
    · split at e
      · cases e
        exact (within_dram s _).seq (within_countLine _ n _ _ _) rfl
      · cases e
  · cases e
    exact .refl _ s

theorem execAreaClearCompletion_within {a : Fin 8} {s t : State} (e : execAreaClearCompletion a s = .next t) :
    Within [.areas, .dram] s t := by
  unfold execAreaClearCompletion at e
  split at e
  · split at e
    · cases e
      exact ((within_dram s _).comp (within_setArea _ _ _)).seq (within_notify _ _ _ _) rfl
    · cases e
  · cases e
    exact .refl _ s

theorem execHoldExpiry_within {p : Port} {r : Ring} {s t : State} (e : execHoldExpiry p r s = .next t) :
    Within [.camRing, .outRing] s t := by
  cases r with
  | camera n =>
    cases e
    exact (within_expireCamHold s p n).mono rfl
  | output =>
    cases e
    exact (within_expireOutHold s p).mono rfl

theorem execComposeCompletion_within {s t : State} (e : execComposeCompletion s = .next t) :
    Within [.camRing, .outRing, .dram, .inUse, .balance, .current] s t := by
  unfold execComposeCompletion at e
  split at e
  · split at e
    · cases e
      exact (within_writeFrame s _ _).seq (within_finishCompose _ _ _ _) rfl
    · cases e
  · cases e
    exact .refl _ s

/-- Every command and event leaves the parts outside its footprint alone. -/
theorem exec_within {i : Instr} {s t : State} (e : exec i s = .next t) : Within (footprint i) s t := by
  cases hc : commandOf i with
  | some c =>
    rw [exec_of_commandOf hc] at e
    rcases takeCommand_cases (judge_within hc s) e with ⟨-, rfl⟩ | ⟨r, -, rfl⟩ | ⟨r, p, u, -, hu, rfl⟩
    · exact .refl _ _
    · exact (within_respond s _ _ _ _).mono_nil _
    · exact hu.trans ((within_respond u _ _ _ _).mono_nil _)
  | none =>
    cases i <;> simp only [commandOf, reduceCtorEq] at hc
    case unknownCommand h code =>
      rcases exec_unknownCommand_cases e with rfl | rfl
      · exact .refl _ _
      · exact within_respond s _ _ _ _
    case status h clear =>
      rcases exec_status_cases e with rfl | rfl | rfl
      · exact .refl _ _
      · exact (within_respond s _ _ _ _).mono_nil _
      · cases clear with
        | true => exact (within_respond s _ _ _ _).comp (within_clearFaults _)
        | false => exact within_respond s _ _ _ _
    case line n ps => exact execLine_within e
    case areaClearCompletion a => exact execAreaClearCompletion_within e
    case holdExpiry p r => exact execHoldExpiry_within e
    case composeCompletion => exact execComposeCompletion_within e
    all_goals
      injection e with e
      subst e
    case powerOnReset => exact within_hardReset s
    case resetPin => exact within_hardReset s
    case responseRead p => exact within_setPort s (.refl _)
    case ignoredTransaction p bs => exact .refl _ _
    case linkLock n => exact within_modifyCam_of_reception s n rfl
    case lossOfLock n => exact within_loseLock s n
    case frameStart n => exact within_frameStart s n
    case frameEnd n => exact within_frameEnd s n
    case feedFault n => exact within_feedFault s n
    case settleTimerExpiry n => exact within_settleExpiry s n
    case seekTimerExpiry n => exact within_seekExpiry s n
    case frameTimeoutExpiry n => exact within_timeoutExpiry s n
    case composeStart => exact within_composeStart s
    case triggerPulseDue n => exact within_pulseDue s n
    case gridCheckCompletion k => exact within_completeCheck s k
    case markerExpiry id => exact within_expireMarker s id
    case claimExpiry t => exact within_expireClaim s t
    case lingerTimerExpiry => exact within_lingerExpiry s
    case canFrameReceived f => exact within_receiveFrame s f
    case receiveError e => exact within_receiveError s e
    case signalTimeoutExpiry x => exact within_signalTimeout s x
    case signalHoldExpiry x => exact within_signalHold s x
    case statusIntervalExpiry => exact within_intervalExpiry s
    case statusTxAttempt => exact within_beginAttempt s
    case statusTxSent => exact within_attemptSent s
    case statusTxError e => exact within_attemptError s e
    case arbitrationLost => exact within_attemptLost s
    case recoveryWaitCompletion => exact within_recover s
    case displayFrameStart => exact within_displayStart s

end Sys2Proof.Machine
end

