-- ==== Sys2Proof/Proofs/Guard.lean ====
section
/-! The statements about every command at once: refused commands (R177, R179), the generation (R178), and what the standing
items of the part can change by (R13, R24, R40, R44, R66, R99, R180, R181). -/

namespace Sys2Proof.Machine

open Host (Outcome)

/-! ### Refused commands (R177, R179) -/

/-- Settles O59, by the ways in which a record that its port takes can go on. -/
theorem refusedCommandsChangeNothing : Obligations.RefusedCommandsChangeNothing := by
  unfold Obligations.RefusedCommandsChangeNothing
  intro i s t h hi e
  rcases headerOf_cases hi with ⟨c, hc, rfl⟩ | ⟨code, rfl⟩ | ⟨clear, rfl⟩
  · rw [exec_of_commandOf hc] at e
    rcases takeCommand_cases (judge_within hc s) e with ⟨-, rfl⟩ | ⟨r, -, rfl⟩ | ⟨r, p, u, hr, -, rfl⟩
    · exact .inl rfl
    · exact .inr ⟨_, State.respond_pending_response .., .inr rfl⟩
    · exact .inr ⟨_, State.respond_pending_response .., .inl hr⟩
  · rcases exec_unknownCommand_cases e with rfl | rfl
    · exact .inl rfl
    · exact .inr ⟨_, State.respond_pending_response .., .inr rfl⟩
  · rcases exec_status_cases e with rfl | rfl | rfl
    · exact .inl rfl
    · exact .inr ⟨_, State.respond_pending_response .., .inr rfl⟩
    · refine .inr ⟨⟨0x01, .ok, s.flags, s.cp.gen, s.statusReport h.port⟩, ?_, .inl rfl⟩
      cases clear with
      | true => exact State.respond_pending_response ..
      | false => exact State.respond_pending_response ..

/-! ### The generation (R178) -/

/-- The guard let a command through and advanced the generation. -/
def GuardedStep (h : Hdr) (s u : State) : Prop :=
  h.gen = s.cp.gen ∧ s.cp.gen ≠ genMax ∧ u.cp.gen = s.cp.gen + 1

/-- A rule that does not touch the generation itself. -/
theorem Verdict.Keeps.gen {s : State} {l : List Part} {v : Verdict} (hv : v.Keeps (Within l s))
    (hl : decide (.gen ∉ l) = true) : v.Keeps fun u => u.cp.gen = s.cp.gen :=
  hv.mono fun _ hu => hu .gen (of_decide_eq_true hl)

theorem guardGen_guardedStep {s : State} {h : Hdr} {judge : State → Verdict}
    (hj : (judge s).Keeps fun u => u.cp.gen = s.cp.gen) : (guardGen h judge s).Keeps (GuardedStep h s) :=
  guardGen_keeps hj fun u hgen hmax hu => ⟨hgen, hmax, by rw [State.advanceGen_cp, hu]⟩

/-- Each guarded command but GRID_DELETE and AREA_WRITE needs its fields, and is judged behind the guard by a rule that does
not touch the generation. -/
theorem guardedHeader_command {i : Instr} {h : Hdr} (hi : guardedHeader i = some h) (hw : ∀ h bs, i ≠ .areaWrite h bs)
    (hd : ∀ h id, i ≠ .gridDelete h id) :
    ∃ code judge, commandOf i = some ⟨h, code, h.fits, guardGen h judge⟩
      ∧ ∀ s, (judge s).Keeps fun u => u.cp.gen = s.cp.gen := by
  cases i <;> cases hi
  case camSetup n r => exact ⟨_, _, rfl, fun s => (judgeCamSetup_keeps s n r).gen rfl⟩
  case camMask m => exact ⟨_, _, rfl, fun s => (judgeCamMask_keeps s m).gen rfl⟩
  case areaDefine a f => exact ⟨_, _, rfl, fun s => (judgeAreaDefine_keeps s a f).gen rfl⟩
  case areaClear a => exact ⟨_, _, rfl, fun s => (judgeAreaClear_keeps s a).gen rfl⟩
  case areaJoin a x => exact ⟨_, _, rfl, fun s => (judgeAreaJoin_keeps s a x).gen rfl⟩
  case areaUnjoin a => exact ⟨_, _, rfl, fun s => (judgeAreaUnjoin_keeps s a).gen rfl⟩
  case areaWrite bs => exact absurd rfl (hw _ _)
  case timingSet p a k => exact ⟨_, _, rfl, fun s => (judgeTimingSet_keeps s p a k).gen rfl⟩
  case gridDelete id => exact absurd rfl (hd _ _)
  case viewDefine v l => exact ⟨_, _, rfl, fun s => (judgeViewDefine_keeps s v l).gen rfl⟩
  case viewBind v p g => exact ⟨_, _, rfl, fun s => (judgeViewBind_keeps s v p g).gen rfl⟩
  case viewUnbind v p => exact ⟨_, _, rfl, fun s => (judgeViewUnbind_keeps s v p).gen rfl⟩
  case viewErase v => exact ⟨_, _, rfl, fun s => (judgeViewErase_keeps s v).gen rfl⟩
  case defaultView v => exact ⟨_, _, rfl, fun s => (judgeDefaultView_keeps s v).gen rfl⟩
  case balanceSet r => exact ⟨_, _, rfl, fun s => (judgeBalanceSet_keeps s r).gen rfl⟩
  case overlaySet r => exact ⟨_, _, rfl, fun s => (judgeOverlaySet_keeps s r).gen rfl⟩
  case curveSet x => exact ⟨_, _, rfl, fun s => (judgeCurveSet_keeps s x).gen rfl⟩
  case gearSetup v l g => exact ⟨_, _, rfl, fun s => (judgeGearSetup_keeps s v l g).gen rfl⟩
  case canSetup r => exact ⟨_, _, rfl, fun s => (judgeCanSetup_keeps s r).gen rfl⟩
  case slotSetup k r => exact ⟨_, _, rfl, fun s => (judgeSlotSetup_keeps s k r).gen rfl⟩
  case slotEnable k on => exact ⟨_, _, rfl, fun s => (judgeSlotEnable_keeps s k on).gen rfl⟩
  case signalSetup x m d n => exact ⟨_, _, rfl, fun s => (judgeSignalSetup_keeps s x m d n).gen rfl⟩
  case displaySet on p => exact ⟨_, _, rfl, fun s => (judgeDisplaySet_keeps s on p).gen rfl⟩

/-- GRID_DELETE of a VALID set is judged behind the guard (R71). -/
theorem judgeGridDelete_of_valid {s : State} {h : Hdr} {id : Nat} {k : Fin 32} {g : GridShape} {b : Nat} {u : Bool}
    (hid : id = k) (hk : s.gs.sets[k] = .held g (.valid b u)) :
    judgeGridDelete h id s = guardGen h (judgeDeleteValid k g b u) s := by
  subst hid
  simp [judgeGridDelete, index, hk]

/-- GRID_DELETE of any other set does not touch the generation (R71). -/
theorem judgeGridDelete_gen (s : State) (h : Hdr) (id : Nat) :
    (judgeGridDelete h id s).Keeps fun u => u.cp.gen = s.cp.gen ∨ GuardedStep h s u := by
  unfold judgeGridDelete
  split
  · rfl
  · split
    · rfl
    · exact (guardGen_guardedStep ((judgeDeleteValid_keeps s ‹_›).gen rfl)).mono fun _ hu => .inr hu
    · rename_i g ph hv hk
      split
      · rfl
      · exact ⟨rfl, .inl (within_deleteGrid_of_not_valid s hk hv .gen (by decide))⟩

/-- Whatever a guarded command does, it leaves the generation or advances it behind the guard; and outside GRID_DELETE of a
set that is not VALID, it advances it when it is accepted (R178, R71). -/
theorem guardedHeader_keeps {i : Instr} {h : Hdr} (hi : guardedHeader i = some h) (s : State) :
    ∃ c, commandOf i = some c ∧ c.hdr = h ∧ (c.judge s).Keeps (fun u => u.cp.gen = s.cp.gen ∨ GuardedStep h s u)
      ∧ ((∀ h' id, i = .gridDelete h' id → ∃ (k : Fin 32) (g : GridShape) (b : Nat) (u : Bool),
          id = k ∧ s.gs.sets[k] = .held g (.valid b u)) → (c.judge s).Keeps (GuardedStep h s)) := by
  by_cases hw : ∃ h bs, i = .areaWrite h bs
  · obtain ⟨h, bs, rfl⟩ := hw
    cases hi
    have hj := guardGen_guardedStep (h := h) ((judgeAreaWrite_keeps s h.arg.toNat (bs.take h.len.toNat)).gen rfl)
    exact ⟨_, rfl, rfl, hj.mono fun _ hu => .inr hu, fun _ => hj⟩
  by_cases hd : ∃ h id, i = .gridDelete h id
  · obtain ⟨h, id, rfl⟩ := hd
    cases hi
    refine ⟨_, rfl, rfl, judgeGridDelete_gen s h id, fun hv => ?_⟩
    obtain ⟨k, g, b, u, hid, hk⟩ := hv h id rfl
    dsimp only
    rw [judgeGridDelete_of_valid hid hk]
    exact guardGen_guardedStep ((judgeDeleteValid_keeps s hk).gen rfl)
  · push Not at hw hd
    obtain ⟨code, judge, hc, hj⟩ := guardedHeader_command hi hw hd
    have hj := guardGen_guardedStep (h := h) (hj s)
    exact ⟨_, hc, rfl, hj.mono fun _ hu => .inr hu, fun _ => hj⟩

/-- What can change the generation: the guarded commands and the hard resets (R178). -/
theorem gen_mem_footprint {i : Instr} (h : .gen ∈ footprint i) :
    isHardReset i = true ∨ ∃ x, guardedHeader i = some x := by
  cases i <;> simp [footprint, isHardReset, guardedHeader, pipelineParts] at h ⊢
  case status h c => cases c <;> simp at h

/-- The generation after a hard reset is 0. -/
theorem exec_gen_of_hardReset {i : Instr} {s t : State} (h : isHardReset i = true) (e : exec i s = .next t) :
    t.cp.gen = 0 := by
  rcases of_decide_eq_true h with rfl | rfl
  · cases e; rfl
  · cases e; rfl

/-- A record that the guard does not let through is answered by the guard's own refusal (R178). -/
theorem takeCommand_guard_refuses {s : State} {h : Hdr} {code : Byte} {fits : Bool} {judge : State → Verdict}
    (hw : wholeRecord h) (hf : fits = true) :
    (h.gen ≠ s.cp.gen → takeCommand s h code fits (guardGen h judge) = .next (s.respond h.port code .genMismatch .empty))
      ∧ (h.gen = s.cp.gen → s.cp.gen = 4294967295 →
        takeCommand s h code fits (guardGen h judge) = .next (s.respond h.port code .wrongState .empty)) := by
  obtain ⟨hlen, hgot⟩ := hw
  have hg : ¬ h.got < 10 := by omega
  constructor
  · intro hm
    simp [takeCommand, framed, hg, hlen, hgot, hf, guardGen, hm, answer]
  · intro hm hmax
    simp [takeCommand, framed, hg, hlen, hgot, hf, guardGen, hm, hmax, genMax, answer]

/-- Settles O58: who can touch the generation, the guard around each judgement, and the guard's two refusals. -/
theorem generationCountsAcceptedCommands : Obligations.GenerationCountsAcceptedCommands := by
  unfold Obligations.GenerationCountsAcceptedCommands
  refine ⟨?_, ?_, ?_, ?_⟩
  · intro i s t e
    by_cases hi : .gen ∈ footprint i
    · rcases gen_mem_footprint hi with hr | ⟨h, hh⟩
      · exact .inr (.inl ⟨hr, exec_gen_of_hardReset hr e⟩)
      · obtain ⟨c, hc, rfl, hj, -⟩ := guardedHeader_keeps hh s
        rw [exec_of_commandOf hc] at e
        rcases takeCommand_cases hj e with ⟨-, rfl⟩ | ⟨r, -, rfl⟩ | ⟨r, p, u, hr, hu | ⟨hgen, hmax, hu⟩, rfl⟩
        · exact .inl rfl
        · exact .inl (State.respond_gen ..)
        · exact .inl ((State.respond_gen ..).trans hu)
        · exact .inr (.inr ⟨c.hdr, _, hh, hgen, hmax, (State.respond_gen ..).trans hu,
            State.respond_pending_response .., hr⟩)
    · exact .inl (exec_within e .gen hi)
  · intro i s t h x hh hgot hv e hx hacc
    obtain ⟨c, hc, rfl, -, hj⟩ := guardedHeader_keeps hh s
    rw [exec_of_commandOf hc] at e
    rcases takeCommand_cases (hj hv) e with ⟨hlt, -⟩ | ⟨r, hr, rfl⟩ | ⟨r, p, u, -, ⟨-, -, hu⟩, rfl⟩
    · omega
    · rw [State.respond_pending_response, Option.some.injEq] at hx
      subst hx
      rw [hr] at hacc
      cases hacc
    · rw [State.respond_pending_response, Option.some.injEq] at hx
      subst hx
      exact ⟨(State.respond_gen ..).trans hu, hu⟩
  · intro i s h code hh hcode hs hw hd
    obtain ⟨code', judge, hc, -⟩ := guardedHeader_command hh hw hd
    obtain rfl : code' = code := by simpa [codeOf_of_commandOf hc] using hcode
    rw [exec_of_commandOf hc]
    exact takeCommand_guard_refuses hs.whole hs.2.2
  · intro s h bs hw hbs
    exact takeCommand_guard_refuses hw (decide_eq_true hbs)

/-! ### The standing items -/

/-- What a reset leaves, before its response: nothing new when its record is refused, else the state reset (R177, R184). -/
theorem exec_of_abandons {i : Instr} {s t : State} (h : abandons i = true) (e : exec i s = .next t) :
    ∃ u, (u = s ∨ u = s.hardReset ∨ u = s.pipelineReset) ∧ Within [] u t := by
  cases i <;> cases h
  case powerOnReset =>
    cases e
    exact ⟨_, .inr (.inl rfl), .refl _ _⟩
  case resetPin =>
    cases e
    exact ⟨_, .inr (.inl rfl), .refl _ _⟩
  case pipelineReset h =>
    have hj : (Verdict.take .ok .empty s.pipelineReset).Keeps fun u => u = s.pipelineReset := ⟨rfl, rfl⟩
    rcases takeCommand_cases (judge := fun s => .take .ok .empty s.pipelineReset) hj e
      with ⟨-, rfl⟩ | ⟨r, -, rfl⟩ | ⟨r, p, u, -, rfl, rfl⟩
    · exact ⟨_, .inl rfl, .refl _ _⟩
    · exact ⟨_, .inl rfl, within_respond _ _ _ _ _⟩
    · exact ⟨_, .inr (.inr rfl), within_respond _ _ _ _ _⟩

@[simp] theorem State.remakeGear_dram (s : State) : s.remakeGear.dram = s.dram := within_remakeGear s .dram (by decide)

/-- What a reset writes to DRAM is what it abandons (R24, R105). -/
theorem dram_of_abandons {i : Instr} {s t : State} (h : abandons i = true) (e : exec i s = .next t) :
    t.dram = s.dram ∨ t.dram = s.abandonedDram := by
  obtain ⟨u, hu, ht⟩ := exec_of_abandons h e
  rw [show t.dram = u.dram from ht .dram List.not_mem_nil]
  rcases hu with rfl | rfl | rfl
  · exact .inl rfl
  · exact .inr rfl
  · exact .inr (State.remakeGear_dram _)

/-- Clears over areas none of which runs stop nothing. -/
theorem State.stopClears_idle (s : State) (m : Memory) (l : List (Fin 8))
    (h : ∀ (a : Fin 8) (b k : Nat), s.fsc.areas[a] ≠ .range b k .clearing) : l.foldl s.stopClear m = m := by
  induction l with
  | nil => rfl
  | cons a l ih => rw [List.foldl_cons, s.stopClear_idle m a (h a), ih]

theorem State.abandonedDram_idle (s : State) (hc : s.ce.current = none)
    (ha : ∀ (a : Fin 8) (b l : Nat), s.fsc.areas[a] ≠ .range b l .clearing) : s.abandonedDram = s.dram := by
  rw [abandonedDram, s.stopClears_idle _ _ ha]
  simp [stopPass, hc]

/-- DRAM as a reset leaves it holds what R24 and R105 allow. -/
theorem dramAbandoned_of_dram {s t : State} (h : t.dram = s.dram ∨ t.dram = s.abandonedDram) : DramAbandoned s t := by
  rcases h with h | h
  · exact ⟨fun _ _ => h, fun x => .inl (by rw [h])⟩
  · refine ⟨fun hc ha => h.trans (s.abandonedDram_idle hc ha), fun x => ?_⟩
    rw [h]
    rcases s.stopClears_read (List.finRange 8) s.stopPass x with hx | hx
    · rcases s.stopPass_read x with hp | ⟨c, r, k, n, hc, hr, hk, hxk, hp⟩
      · exact .inl (hx.trans hp)
      · exact .inr (.inr ⟨c, r, k, n, hc, hr, hk, hxk, hx.trans hp⟩)
    · exact .inr (.inl hx)

theorem dram_mem_footprint {i : Instr} (h : .dram ∈ footprint i) : writesDram i = true ∨ abandons i = true := by
  cases i <;> simp [footprint, writesDram, abandons] at h ⊢
  case status h c => cases c <;> simp at h

theorem gridMem_mem_footprint {i : Instr} (h : .gridMem ∈ footprint i) : ∃ h bs, i = .gridWrite h bs := by
  cases i <;> simp [footprint, hardParts, pipelineParts] at h ⊢
  case status h c => cases c <;> simp at h

theorem now_mem_footprint {i : Instr} (h : .now ∈ footprint i) : isHardReset i = true := by
  cases i <;> simp [footprint, isHardReset, pipelineParts] at h ⊢
  case status h c => cases c <;> simp at h

theorem faults_mem_footprint {i : Instr} (h : .faults ∈ footprint i) :
    isHardReset i = true ∨ ∃ x, i = .status x true := by
  cases i <;> simp [footprint, isHardReset, pipelineParts] at h ⊢
  case status h c => cases c <;> simp at h ⊢

theorem queues_mem_footprint {i : Instr} (h : .queues ∈ footprint i) :
    isHardReset i = true ∨ (∃ x, i = .pipelineReset x) ∨ ∃ x, i = .eventRead x := by
  cases i <;> simp [footprint, isHardReset] at h ⊢
  case status h c => cases c <;> simp at h

theorem waiting_not_mem_footprint (i : Instr) : .waiting ∉ footprint i := by
  cases i <;> simp [footprint, hardParts, pipelineParts]
  case status h c => cases c <;> simp

/-- EVENT_READ leaves the queue of the other port (R182). -/
theorem exec_eventRead_other {s t : State} {h : Hdr} (e : exec (.eventRead h) s = .next t) :
    t.port (other h.port) = s.port (other h.port) := by
  have hj : (judgeEventRead h.port s).Keeps fun u => u.port (other h.port) = s.port (other h.port) :=
    ⟨rfl, State.setPort_other ..⟩
  rcases takeCommand_cases hj e with ⟨-, rfl⟩ | ⟨r, -, rfl⟩ | ⟨r, p, u, -, hu, rfl⟩
  · rfl
  · exact State.setPort_other ..
  · exact (State.setPort_other ..).trans hu

/-- Settles O60: each standing item by who has it in their footprint, and DRAM at a reset by what the reset abandons. -/
theorem standingState : Obligations.StandingState := by
  unfold Obligations.StandingState
  intro i s t e
  have kept (x : Part) (h : x ∉ footprint i) : x.kept s t := exec_within e x h
  refine ⟨kept .waiting (waiting_not_mem_footprint i), ?_, ?_, ?_, ?_, ?_, ?_⟩
  · intro hw ha
    refine kept .dram fun h => ?_
    rcases dram_mem_footprint h with h | h
    · simp [h] at hw
    · simp [h] at ha
  · exact fun ha => dramAbandoned_of_dram (dram_of_abandons ha e)
  · intro hg
    refine kept .gridMem fun h => ?_
    obtain ⟨x, bs, rfl⟩ := gridMem_mem_footprint h
    exact hg x bs rfl
  · intro hr
    refine kept .now fun h => ?_
    simp [now_mem_footprint h] at hr
  · intro hr hs
    refine kept .faults fun h => ?_
    rcases faults_mem_footprint h with h | ⟨x, rfl⟩
    · simp [h] at hr
    · exact hs x rfl
  · intro hr hp p hq
    by_cases h : .queues ∈ footprint i
    · rcases queues_mem_footprint h with h | ⟨x, rfl⟩ | ⟨x, rfl⟩
      · simp [h] at hr
      · exact absurd rfl (hp x)
      · obtain rfl : p = other x.port := by
          have hne := hq x rfl
          cases p <;> cases hx : x.port <;> simp_all [other]
        rw [exec_eventRead_other e]
    · obtain ⟨hd, ha⟩ := kept .queues h
      cases p with
      | d => exact hd.1
      | a => exact ha.1

end Sys2Proof.Machine
end

