-- ==== Sys2Proof/Proofs/Steps.lean ====
section
/-! How a property of a few parts of the state is carried over a step: only the commands and events whose footprint meets
those parts have to be looked at. Settles the statements on how a step goes on, and the first invariants: memories, queues
and gains. -/

namespace Sys2Proof.Machine

open Host (Outcome)

/-! ### One step -/

/-- Settles O1: with a command at the front of the queue `step` is `exec` by definition. -/
theorem stepRunsFrontCommand : Obligations.StepRunsFrontCommand := by
  intro i rest s
  rfl

/-- Settles O2: the two branches of an idle step. -/
theorem idleStep : Obligations.IdleStep := by
  intro s hp
  constructor
  · intro i hd
    simp [step, hp, hd]
  · intro hd
    simp [step, hp, hd, State.tick]

/-- A step is a passing microsecond, or some command or event carried out on a state that differs in the commands that wait
and in the free-value counter at most. -/
theorem step_cases {s t : State} (e : step s = .next t) :
    t = s.tick ∨ ∃ i u, Within [.waiting] s u ∧ exec i u = .next t := by
  unfold step at e
  split at e
  · exact .inr ⟨_, _, fun x hx => by cases x <;> simp_all [State.withPending], e⟩
  · split at e
    · exact .inl (Outcome.next.inj e).symm
    · exact .inr ⟨_, s, .refl _ s, e⟩
    · exact .inr ⟨_, _, (within_fresh s _).mono rfl, e⟩

theorem within_tick (s : State) : Within [.now] s s.tick := fun x hx => by
  cases x <;> simp_all [State.tick]

/-! ### Properties of some parts of the state -/

/-- Two states that keep the parts `d` of each other satisfy the property alike. -/
def DependsOn (d : List Part) (P : State → Prop) : Prop := ∀ ⦃s t : State⦄, (∀ x ∈ d, x.kept s t) → P s → P t

/-- The state of a pipeline reset before the reverse claim is made afresh (R184). -/
def State.pipelineBlocks (s : State) : State :=
  { s with
    ciu := Vector.ofFn fun n : Fin 4 => s.ciu[n].pipelineReset
    fsc := s.fsc.pipelineReset
    dram := s.abandonedDram
    tbu := s.tbu.pipelineReset
    gs := s.gs.pipelineReset
    ce := s.ce.pipelineReset
    bu := s.bu.pipelineReset
    ou := { s.ou with markers := [] }
    ca := s.ca.pipelineReset
    su := s.su.pipelineReset (s.paletteColour 14)
    cp := { s.cp with portD := s.cp.portD.pipelineReset, portA := s.cp.portA.pipelineReset }
    fresh := s.fresh + 1 }

theorem State.pipelineReset_eq (s : State) : s.pipelineReset = s.pipelineBlocks.remakeGear := rfl

section
variable {d l : List Part} {P : State → Prop} {s t : State}

/-- No part of `d` is one that every step may change. -/
def Lasting (d : List Part) : Bool := decide (∀ x ∈ d, x ≠ .gen ∧ x ≠ .now ∧ x ≠ .waiting)

theorem DependsOn.within (hd : DependsOn d P) (hw : Within l s t) (hl : decide (∀ x ∈ d, x ∉ l) = true) (hs : P s) : P t :=
  hd (fun x hx => hw x (of_decide_eq_true hl x hx)) hs

theorem DependsOn.lasting (hd : DependsOn d P) (hl : Lasting d = true) (hw : Within [.gen, .now, .waiting] s t) (hs : P s) :
    P t := by
  refine hd (fun x hx => hw x fun hm => ?_) hs
  obtain ⟨hg, hn, hp⟩ := of_decide_eq_true hl x hx
  simp_all

/-- A property that a command's own rule keeps is kept by the command, its response and the guard around it. -/
theorem DependsOn.command (hd : DependsOn d P) (hl : Lasting d = true) {h : Hdr} {code : Byte} {fits : Bool}
    {judge : State → Verdict} (hj : (judge s).Keeps P) (hs : P s) (e : takeCommand s h code fits judge = .next t) : P t := by
  rcases takeCommand_cases hj e with ⟨-, rfl⟩ | ⟨r, -, rfl⟩ | ⟨r, p, u, -, hu, rfl⟩
  · exact hs
  · exact hd.lasting hl ((within_respond s _ _ _ _).mono_nil _) hs
  · exact hd.lasting hl ((within_respond u _ _ _ _).mono_nil _) hu

theorem DependsOn.guarded (hd : DependsOn d P) (hl : Lasting d = true) {h : Hdr} {code : Byte} {fits : Bool}
    {judge : State → Verdict} (hj : (judge s).Keeps P) (hs : P s)
    (e : takeCommand s h code fits (guardGen h judge) = .next t) : P t :=
  hd.command hl (guardGen_keeps hj fun u _ _ hu => hd.lasting hl ((within_advanceGen u).mono rfl) hu) hs e

/-- After a hard reset every part but DRAM, grid memory and the commands that wait is as after power-on. -/
theorem within_reset_hardReset (s : State) : Within [.dram, .gridMem, .waiting] State.reset s.hardReset := fun x hx => by
  cases x <;> simp_all [State.hardReset, State.reset]

/-- The resets keep a property that holds after power-on and that a pipeline reset keeps. -/
theorem DependsOn.abandons (hd : DependsOn d P) (hl : Lasting d = true) {i : Instr} (hi : abandons i = true)
    (hh : P s.hardReset) (hp : P s.pipelineReset) (hs : P s) (e : exec i s = .next t) : P t := by
  obtain ⟨u, hu, ht⟩ := exec_of_abandons hi e
  refine hd.lasting hl (ht.mono_nil _) ?_
  rcases hu with rfl | rfl | rfl
  · exact hs
  · exact hh
  · exact hp

/-- A pipeline reset up to the reverse claim, which it makes afresh at its end (R152). -/
theorem DependsOn.pipelineReset (hd : DependsOn d P) (hl : decide (.claims ∉ d) = true) (hb : P s.pipelineBlocks) :
    P s.pipelineReset :=
  hd.within (within_remakeGear s.pipelineBlocks) (by
    refine decide_eq_true fun x hx h => of_decide_eq_true hl ?_
    rwa [← List.mem_singleton.1 h]) hb

/-- A property that the commands and events keep which touch its parts is kept by every step. -/
theorem DependsOn.step (hd : DependsOn d P) (hl : Lasting d = true)
    (he : ∀ i s t, (∃ x ∈ d, x ∈ footprint i) → exec i s = .next t → P s → P t) (hs : P s) (e : step s = .next t) : P t := by
  rcases step_cases e with rfl | ⟨i, u, hu, e⟩
  · exact hd.lasting hl ((within_tick s).mono rfl) hs
  · have hP : P u := hd.lasting hl (hu.mono rfl) hs
    by_cases hi : ∃ x ∈ d, x ∈ footprint i
    · exact he i u t hi e hP
    · exact hd (fun x hx => exec_within e x fun hf => hi ⟨x, hx, hf⟩) hP

end

theorem abandons_of_isHardReset {i : Instr} (h : isHardReset i = true) : abandons i = true := by
  rcases of_decide_eq_true h with rfl | rfl
  · rfl
  · rfl

/-! ### Notice queues (R181) -/

theorem QueueInv.dependsOn : DependsOn [.queues] QueueInv := by
  intro s t hk ⟨hd, ha⟩
  obtain ⟨kd, ka⟩ := hk .queues (List.mem_singleton.2 rfl)
  exact ⟨kd.2 hd, ka.2 ha⟩

theorem QueueInv.reset : QueueInv State.reset := ⟨Nat.zero_le _, Nat.zero_le _⟩

theorem queueInv_iff {s : State} : QueueInv s ↔ ∀ p, (s.port p).queue.length ≤ 32 :=
  ⟨fun ⟨hd, ha⟩ p => by cases p with | d => exact hd | a => exact ha, fun h => ⟨h .d, h .a⟩⟩

theorem judgeEventRead_keeps_queueInv {s : State} (p : Port) (hs : QueueInv s) : (judgeEventRead p s).Keeps QueueInv := by
  refine ⟨rfl, queueInv_iff.2 fun q => ?_⟩
  have hp := queueInv_iff.1 hs q
  by_cases hq : q = p
  · subst hq
    simp only [State.setPort_port, List.length_drop]
    omega
  · have ho : q = other p := by cases p <;> cases q <;> simp_all [other]
    subst ho
    simpa using hp

theorem queueInv_pipelineBlocks (s : State) : QueueInv s.pipelineBlocks := by
  refine queueInv_iff.2 fun p => ?_
  cases p <;> simp [State.port, State.pipelineBlocks, PortState.pipelineReset]

theorem QueueInv.step {s t : State} (hs : QueueInv s) (e : step s = .next t) : QueueInv t := by
  refine QueueInv.dependsOn.step rfl ?_ hs e
  rintro i s t ⟨x, hx, hf⟩ e hs
  obtain rfl := List.mem_singleton.1 hx
  have hpipe : QueueInv s.pipelineReset := QueueInv.dependsOn.pipelineReset rfl (queueInv_pipelineBlocks s)
  have hhard : QueueInv s.hardReset := QueueInv.dependsOn.within (within_reset_hardReset s) rfl .reset
  rcases queues_mem_footprint hf with h | ⟨x, rfl⟩ | ⟨x, rfl⟩
  · exact QueueInv.dependsOn.abandons rfl (abandons_of_isHardReset h) hhard hpipe hs e
  · exact QueueInv.dependsOn.abandons rfl rfl hhard hpipe hs e
  · exact QueueInv.dependsOn.command rfl (judgeEventRead_keeps_queueInv _ hs) hs e

/-! ### Memories -/

theorem MemoryInv.dependsOn : DependsOn [.dram, .gridMem] MemoryInv := by
  intro s t hk ⟨hd, hg⟩
  have kd : t.dram = s.dram := hk .dram (by simp)
  have kg : t.gs.mem = s.gs.mem := hk .gridMem (by simp)
  exact ⟨kd ▸ hd, kg ▸ hg⟩

theorem execLine_dram {n : Fin 4} {ps : List Pair} {s t : State} (e : execLine n ps s = .next t) :
    t.dram = s.dram ∨ ∃ a bs, t.dram = s.dram.writeBytes a bs := by
  unfold execLine at e
  split at e
  · split at e
    · cases e
      exact .inl (within_countLine s n _ _ _ .dram (by decide))
    · split at e
      · cases e
        exact .inr ⟨_, _, within_countLine _ n _ _ _ .dram (by decide)⟩
      · cases e
  · cases e
    exact .inl rfl

theorem execAreaClearCompletion_dram {a : Fin 8} {s t : State} (e : execAreaClearCompletion a s = .next t) :
    t.dram = s.dram ∨ ∃ b n, t.dram = s.dram.clear b n := by
  unfold execAreaClearCompletion at e
  split at e
  · split at e
    · cases e
      exact .inr ⟨_, _, rfl⟩
    · cases e
  · cases e
    exact .inl rfl

/-- A completion that goes on finds no compose in flight, or finishes the one that is (R103). -/
theorem execComposeCompletion_cases {s t : State} (e : execComposeCompletion s = .next t) :
    t = s ∨ ∃ c r, s.ce.current = some c ∧ s.fsc.outRing = some r
      ∧ t = (s.writeFrame c r).finishCompose c r (s.passInput c).stats := by
  unfold execComposeCompletion at e
  split at e
  · split at e
    · rename_i c r hc hr _
      exact .inr ⟨c, r, hc, hr, (Outcome.next.inj e).symm⟩
    · cases e
  · exact .inl (Outcome.next.inj e).symm

theorem judgeAreaWrite_keeps_memoryInv {s : State} (o : Nat) (bs : List Byte) (hs : MemoryInv s) :
    (judgeAreaWrite o bs s).Keeps MemoryInv := by
  unfold judgeAreaWrite
  split
  · rfl
  · split
    · rfl
    · split
      · rfl
      · split
        · exact ⟨rfl, Memory.writeBytes_wf _ _ _ hs.1, hs.2⟩
        · trivial

theorem judgeGridWrite_keeps_memoryInv {s : State} (p : Port) (id : Nat) (bs : List Byte) (hs : MemoryInv s) :
    (judgeGridWrite p id bs s).Keeps MemoryInv := by
  unfold judgeGridWrite
  split
  · rfl
  · rfl
  · split
    · rfl
    · split
      · rfl
      · split
        · rfl
        · split
          · rfl
          · split
            · split
              · rfl
              · exact ⟨rfl, hs.1, Memory.writeBytes_wf _ _ _ hs.2⟩
            · rfl

theorem State.finishCompose_dram (s : State) (c : Compose) (r : OutRing) (z : Vector ZoneStats 4) :
    (s.finishCompose c r z).dram = s.dram := within_finishCompose s c r z .dram (by decide)

/-- Every write of DRAM keeps it canonical. -/
theorem exec_keeps_dram_wf {i : Instr} {s t : State} (hf : .dram ∈ footprint i) (hs : MemoryInv s)
    (e : exec i s = .next t) : t.dram.wf = true := by
  obtain ⟨hd, hg⟩ := hs
  rcases dram_mem_footprint hf with hw | ha
  · cases i <;> cases hw
    case inl.line.refl n ps =>
      rcases execLine_dram e with h | ⟨a, bs, h⟩
      · exact h ▸ hd
      · exact h ▸ Memory.writeBytes_wf _ _ _ hd
    case inl.areaClearCompletion.refl a =>
      rcases execAreaClearCompletion_dram e with h | ⟨b, n, h⟩
      · exact h ▸ hd
      · exact h ▸ Memory.clear_wf _ _ _ hd
    case inl.areaWrite.refl h bs =>
      exact (MemoryInv.dependsOn.guarded rfl (judgeAreaWrite_keeps_memoryInv _ _ ⟨hd, hg⟩) ⟨hd, hg⟩ e).1
    case inl.composeCompletion.refl =>
      rcases execComposeCompletion_cases e with rfl | ⟨c, r, -, -, rfl⟩
      · exact hd
      · rw [State.finishCompose_dram]
        exact Memory.write_wf _ _ _ _ hd
  · rcases dram_of_abandons ha e with h | h
    · exact h ▸ hd
    · exact h ▸ s.abandonedDram_wf hd

theorem exec_keeps_gridMem_wf {i : Instr} {s t : State} (hs : MemoryInv s) (e : exec i s = .next t) :
    t.gs.mem.wf = true := by
  by_cases hf : .gridMem ∈ footprint i
  · obtain ⟨h, bs, rfl⟩ := gridMem_mem_footprint hf
    exact (MemoryInv.dependsOn.command rfl (judgeGridWrite_keeps_memoryInv _ _ _ hs) hs e).2
  · have kept : t.gs.mem = s.gs.mem := exec_within e .gridMem hf
    exact kept ▸ hs.2

theorem MemoryInv.step {s t : State} (hs : MemoryInv s) (e : step s = .next t) : MemoryInv t := by
  refine MemoryInv.dependsOn.step rfl (fun i s t _ e hs => ⟨?_, exec_keeps_gridMem_wf hs e⟩) hs e
  by_cases hf : .dram ∈ footprint i
  · exact exec_keeps_dram_wf hf hs e
  · have kept : t.dram = s.dram := exec_within e .dram hf
    exact kept ▸ hs.1

/-! ### Gains (R108, R115) -/

/-- Sixteenths of a difference, rounded toward zero, stay between 0 and the difference (R114). -/
theorem sixteenths_between {d : Int} {k : Nat} (hk : k ≤ 16) :
    (0 ≤ d → 0 ≤ (d * k).tdiv 16 ∧ (d * k).tdiv 16 ≤ d) ∧ (d ≤ 0 → d ≤ (d * k).tdiv 16 ∧ (d * k).tdiv 16 ≤ 0) := by
  have nonneg (x : Int) (hx : 0 ≤ x) : 0 ≤ (x * k).tdiv 16 ∧ (x * k).tdiv 16 ≤ x := by
    have hp : 0 ≤ x * k := Int.mul_nonneg hx (Int.natCast_nonneg k)
    have hle : x * k ≤ x * 16 := Int.mul_le_mul_of_nonneg_left (by exact_mod_cast hk) hx
    rw [Int.tdiv_eq_ediv_of_nonneg hp]
    omega
  refine ⟨nonneg d, fun hd => ?_⟩
  have h := nonneg (-d) (by omega)
  rw [Int.neg_mul, Int.neg_tdiv] at h
  omega

/-- A step of at most a whole difference never passes the desire (R114). -/
theorem gainStep_between {k smax g d : Nat} (hk : k ≤ 16) :
    min (g : Int) d ≤ g + gainStep k smax g d ∧ g + gainStep k smax g d ≤ max (g : Int) d := by
  obtain ⟨hpos, hneg⟩ := sixteenths_between (d := (d : Int) - g) hk
  unfold gainStep gainStep.step gainStep.delta clampInt
  rcases Int.lt_trichotomy ((d : Int) - g) 0 with h | h | h
  · have := hneg (by omega)
    rw [Int.sign_eq_neg_one_of_neg h]
    split_ifs <;> omega
  · have := hneg (by omega)
    rw [h]
    split_ifs <;> simp_all <;> omega
  · have := hpos (by omega)
    rw [Int.sign_eq_one_of_pos h]
    split_ifs <;> omega

theorem cameraDesire_range {a b : Option (Nat × Nat)} {d : Nat} (h : cameraDesire a b = some d) : 128 ≤ d ∧ d ≤ 512 := by
  unfold cameraDesire at h
  split at h <;> cases h
  all_goals exact clampNat_range 128 512 _ (by decide)

/-- The gains and settings of R108 and R115, as a property of the unit alone. -/
def Balance.InRange (b : Balance) : Prop :=
  (∀ c : Fin 4, 128 ≤ b.gains[c] ∧ b.gains[c] ≤ 512) ∧ (∀ c : Fin 4, 128 ≤ b.manual[c] ∧ b.manual[c] ≤ 512)
    ∧ (1 ≤ b.k ∧ b.k ≤ 16) ∧ 1 ≤ b.smax ∧ b.smax ≤ 64

theorem gainInv_iff {s : State} : GainInv s ↔ s.bu.InRange := Iff.rfl

theorem Balance.update_inRange {b : Balance} (hb : b.InRange) (q : Word32) (m : BitVec 4) (z : Vector ZoneStats 4) :
    (b.update q m z).InRange := by
  obtain ⟨hg, hm, hk, hs⟩ := hb
  refine ⟨fun c => ?_, hm, hk, hs⟩
  have hgc := hg c
  have entry : (b.update q m z).gains[c] = ((b.gains[c] : Int) + (b.camStep m z c).getD 0).toNat := by simp [update]
  rw [entry]
  cases hst : b.camStep m z c with
  | none => simpa using hgc
  | some st =>
    unfold camStep at hst
    split at hst
    · cases hst
    · obtain ⟨d, hd, rfl⟩ := Option.map_eq_some_iff.1 hst
      have hd := cameraDesire_range hd
      have hst := gainStep_between (smax := b.smax) (g := b.gains[c]) (d := d) hk.2
      simp only [Option.getD_some]
      omega

theorem Balance.store_manual_range (r : BalanceArg) (c : Fin 4) :
    128 ≤ (Balance.store.manual r)[c] ∧ (Balance.store.manual r)[c] ≤ 512 := by
  rw [Balance.store_manual_eq]
  fin_cases c <;> simp

theorem Balance.store_inRange {b : Balance} (hb : b.InRange) (m : BalMode) (r : BalanceArg) : (b.store m r).InRange := by
  obtain ⟨hg, -, -, -⟩ := hb
  refine ⟨fun c => ?_, store_manual_range r, clampNat_range 1 16 _ (by decide), clampNat_range 1 64 _ (by decide)⟩
  cases m with
  | manual => exact store_manual_range r c
  | auto => exact hg c

theorem Balance.pipelineReset_inRange {b : Balance} (hb : b.InRange) : b.pipelineReset.InRange := by
  obtain ⟨-, hm, hk, hs⟩ := hb
  refine ⟨fun c => ?_, hm, hk, hs⟩
  have hmc := hm c
  unfold pipelineReset
  cases hmode : b.mode with
  | manual => simpa [hmode] using hmc
  | auto => simp

theorem GainInv.dependsOn : DependsOn [.balance] GainInv := by
  intro s t hk hs
  have kept : t.bu = s.bu := hk .balance (List.mem_singleton.2 rfl)
  rw [gainInv_iff, kept]
  exact hs

theorem GainInv.reset : GainInv State.reset := by
  unfold GainInv
  decide

theorem judgeBalanceSet_keeps_gainInv {s : State} (r : BalanceArg) (hs : GainInv s) : (judgeBalanceSet r s).Keeps GainInv := by
  unfold judgeBalanceSet
  split
  · rfl
  · exact ⟨clampResult_accepts _, Balance.store_inRange hs _ _⟩

theorem balance_mem_footprint {i : Instr} (h : .balance ∈ footprint i) :
    abandons i = true ∨ i = .composeCompletion ∨ ∃ h r, i = .balanceSet h r := by
  cases i <;> simp [footprint, abandons] at h ⊢
  case status h c => cases c <;> simp at h

theorem State.finishCompose_bu (s : State) (c : Compose) (r : OutRing) (z : Vector ZoneStats 4) :
    (s.finishCompose c r z).bu = s.bu.update r.next c.mask z := by
  have kept : ((((List.finRange 4).foldl State.dropPins (s.setOutRing
      (some { r.modify c.target (fun x => { x with st := .finished (c.outFrame r.next) }) with next := r.next + 1 }))).markSets
        false c.snap.panes)).bu = s.bu :=
    (((within_setOutRing s _).comp (Within.foldl within_dropPins _ _)).comp (within_markSets _ _ _)) .balance (by decide)
  simp only [finishCompose, notify_bu, kept]

theorem GainInv.step {s t : State} (hs : GainInv s) (e : step s = .next t) : GainInv t := by
  refine GainInv.dependsOn.step rfl ?_ hs e
  rintro i s t ⟨x, hx, hf⟩ e hs
  obtain rfl := List.mem_singleton.1 hx
  rcases balance_mem_footprint hf with h | rfl | ⟨h, r, rfl⟩
  · exact GainInv.dependsOn.abandons rfl h (GainInv.dependsOn.within (within_reset_hardReset s) rfl .reset)
      (GainInv.dependsOn.pipelineReset rfl (Balance.pipelineReset_inRange hs)) hs e
  · rcases execComposeCompletion_cases e with rfl | ⟨c, r, -, -, rfl⟩
    · exact hs
    · rw [gainInv_iff, State.finishCompose_bu]
      exact Balance.update_inRange hs _ _ _
  · exact GainInv.dependsOn.guarded rfl (judgeBalanceSet_keeps_gainInv r hs) hs e

/-- Settles O53: the three properties by the commands and events that touch their parts. -/
theorem stepKeepsMemoriesQueuesAndGains : Obligations.StepKeepsMemoriesQueuesAndGains :=
  fun _ _ e => ⟨fun hs => hs.step e, fun hs => hs.step e, fun hs => hs.step e⟩

end Sys2Proof.Machine
end

