-- ==== Sys2Proof/Proofs/MarkerOrder.lean ====
section
/-! The marker list keeps its order, its bound and its distinct ids over every step (R131). -/

namespace Sys2Proof.Machine

open Host (Outcome)

/-! ### Placing an entry at the front of its group -/

section
variable {α : Type} (k : α → Nat) (x : α) (l : List α)

/-- Entry `x` placed before the first entry whose key is not greater than its own. -/
def placeByKey : List α := l.takeWhile (fun y => decide (k x < k y)) ++ x :: l.dropWhile fun y => decide (k x < k y)

theorem placeByKey_perm : (placeByKey k x l).Perm (x :: l) := by
  have h : (placeByKey k x l).Perm (x :: (l.takeWhile (fun y => decide (k x < k y)) ++ l.dropWhile _)) := List.perm_middle
  rwa [List.takeWhile_append_dropWhile] at h

@[simp] theorem length_placeByKey : (placeByKey k x l).length = l.length + 1 := (placeByKey_perm k x l).length_eq

@[simp] theorem mem_placeByKey {y : α} : y ∈ placeByKey k x l ↔ y = x ∨ y ∈ l := by
  rw [(placeByKey_perm k x l).mem_iff, List.mem_cons]

theorem placeByKey_sorted {l : List α} (h : l.Pairwise fun a b => k b ≤ k a) :
    (placeByKey k x l).Pairwise fun a b => k b ≤ k a := by
  induction l with
  | nil => simp [placeByKey]
  | cons y l ih =>
    obtain ⟨hy, hl⟩ := List.pairwise_cons.1 h
    by_cases hxy : k x < k y
    · have he : placeByKey k x (y :: l) = y :: placeByKey k x l := by simp [placeByKey, hxy]
      rw [he, List.pairwise_cons]
      refine ⟨fun z hz => ?_, ih hl⟩
      rcases (mem_placeByKey k x l).1 hz with rfl | hz
      · exact Nat.le_of_lt hxy
      · exact hy z hz
    · have he : placeByKey k x (y :: l) = x :: y :: l := by simp [placeByKey, hxy]
      rw [he, List.pairwise_cons]
      refine ⟨fun z hz => ?_, h⟩
      rcases List.mem_cons.1 hz with rfl | hz
      · omega
      · exact Nat.le_trans (hy z hz) (by omega)

/-- Distinct keys stay distinct when the new entry's own is not among them. -/
theorem placeByKey_distinct {β : Type} {f : α → β} {l : List α} (h : l.Pairwise fun a b => f a ≠ f b)
    (hx : ∀ y ∈ l, f y ≠ f x) : (placeByKey k x l).Pairwise fun a b => f a ≠ f b := by
  rw [(placeByKey_perm k x l).pairwise_iff Ne.symm]
  exact List.pairwise_cons.2 ⟨fun y hy => (hx y hy).symm, h⟩

end

/-! ### The marker list (R131) -/

/-- R131 of a list of markers. -/
def MarkersOrdered (l : List Marker) : Prop :=
  l.length ≤ 16 ∧ (l.Pairwise fun a b => a.id ≠ b.id) ∧ (l.Pairwise fun a b => b.severity ≤ a.severity)
    ∧ ∀ m ∈ l, 1 ≤ m.severity ∧ m.severity ≤ 3

theorem markerInv_iff {s : State} : MarkerInv s ↔ MarkersOrdered s.ou.markers := Iff.rfl

theorem MarkersOrdered.sublist {l l' : List Marker} (h : MarkersOrdered l) (hl : l'.Sublist l) : MarkersOrdered l' := by
  obtain ⟨hlen, hid, hsev, hrange⟩ := h
  exact ⟨Nat.le_trans hl.length_le hlen, hid.sublist hl, hsev.sublist hl, fun m hm => hrange m (hl.subset hm)⟩

theorem MarkersOrdered.nil : MarkersOrdered [] := ⟨by decide, .nil, .nil, fun _ h => absurd h List.not_mem_nil⟩

theorem MarkersOrdered.place {l : List Marker} {m : Marker} (h : MarkersOrdered l) (hlen : l.length < 16)
    (hid : ∀ y ∈ l, y.id ≠ m.id) (hm : 1 ≤ m.severity ∧ m.severity ≤ 3) : MarkersOrdered (placeMarker m l) := by
  obtain ⟨-, hids, hsev, hrange⟩ := h
  refine ⟨?_, placeByKey_distinct Marker.severity m hids hid, placeByKey_sorted Marker.severity m hsev, fun y hy => ?_⟩
  · have := length_placeByKey Marker.severity m l
    simp only [placeByKey] at this
    simp only [placeMarker, this]
    omega
  · rcases (mem_placeByKey Marker.severity m l).1 hy with rfl | hy
    · exact hm
    · exact hrange y hy

theorem MarkerInv.dependsOn : DependsOn [.markers] MarkerInv := by
  intro s t hk hs
  have kept : t.ou.markers = s.ou.markers := hk .markers (List.mem_singleton.2 rfl)
  rw [markerInv_iff, kept]
  exact hs

theorem MarkerInv.reset : MarkerInv State.reset := MarkersOrdered.nil

/-- A marker of an id that is present leaves a place behind when it is dropped. -/
theorem length_dropMarker_lt {id : Byte} {l : List Marker} (h : hasMarker id l = true) :
    (dropMarker id l).length < l.length := by
  obtain ⟨m, hm, hid⟩ := (hasMarker_eq_true_iff id l).1 h
  exact List.length_filter_lt_length_iff_exists.2 ⟨m, hm, by simp [hid]⟩

theorem id_ne_of_mem_dropMarker {id : Byte} {l : List Marker} {m : Marker} (h : m ∈ dropMarker id l) : m.id ≠ id := by
  simpa using (List.mem_filter.1 h).2

/-- Where room is made, the list that remains is short of 16 and part of the former one (R132). -/
theorem State.makeMarkerRoom_markers {s t : State} {m : Marker} (hs : MarkerInv s) (h : s.makeMarkerRoom m = some t) :
    t.ou.markers.Sublist s.ou.markers ∧ t.ou.markers.length < 16 := by
  have hlen := hs.1
  unfold makeMarkerRoom at h
  split at h
  · cases h
    exact ⟨.refl _, ‹_›⟩
  · split at h
    · rename_i hn
      cases h
      rw [List.getLast?_eq_none_iff] at hn
      simp [hn]
    · split at h
      · cases h
        rename_i e he _
        have hne : s.ou.markers ≠ [] := fun hn => by simp [hn] at he
        have hpos := List.length_pos_of_ne_nil hne
        simp only [notifyOwner_ou, setMarkers_ou, List.length_dropLast]
        exact ⟨List.dropLast_sublist _, by omega⟩
      · cases h

theorem judgeMarkPost_keeps_markerInv {s : State} (p : Port) (m : MarkArg) (hs : MarkerInv s) :
    (judgeMarkPost p m s).Keeps MarkerInv := by
  unfold judgeMarkPost
  split
  · rfl
  · rename_i hbad
    have hsev : 1 ≤ m.severity ∧ m.severity ≤ 3 := by
      simp only [MarkArg.bad, decide_eq_true_eq, not_or] at hbad
      omega
    dsimp only
    split
    · rename_i hx
      have hlt := length_dropMarker_lt hx
      refine ⟨clampResult_accepts _, ?_⟩
      refine MarkersOrdered.place (MarkersOrdered.sublist hs List.filter_sublist) ?_ (fun y hy => id_ne_of_mem_dropMarker hy) hsev
      exact Nat.lt_of_lt_of_le hlt hs.1
    · rename_i hx
      have hids := (hasMarker_eq_false_iff _ _).1 (Bool.not_eq_true _ ▸ hx)
      split
      · rfl
      · obtain ⟨hsub, hlen⟩ := State.makeMarkerRoom_markers hs ‹_›
        exact ⟨clampResult_accepts _,
          MarkersOrdered.place (MarkersOrdered.sublist hs hsub) hlen (fun y hy => hids y (hsub.subset hy)) hsev⟩

theorem judgeMarkRemove_keeps_markerInv {s : State} (id : Nat) (hs : MarkerInv s) : (judgeMarkRemove id s).Keeps MarkerInv := by
  unfold judgeMarkRemove
  split
  · rfl
  · split
    · exact ⟨rfl, MarkersOrdered.sublist hs List.filter_sublist⟩
    · rfl

theorem State.expireMarker_markerInv {s : State} (id : Byte) (hs : MarkerInv s) : MarkerInv (s.expireMarker id) := by
  unfold expireMarker
  split
  · exact hs
  · split
    · rw [markerInv_iff, notifyOwner_ou]
      exact MarkersOrdered.sublist hs List.filter_sublist
    · exact hs

theorem markers_mem_footprint {i : Instr} (h : .markers ∈ footprint i) :
    abandons i = true ∨ (∃ h bs, i = .markPost h bs) ∨ (∃ h id, i = .markRemove h id) ∨ (∃ h, i = .markClear h)
      ∨ ∃ id, i = .markerExpiry id := by
  cases i <;> simp [footprint, abandons] at h ⊢
  case status h c => cases c <;> simp at h

/-- Settles O54, by the commands and the expiry that touch the marker list. -/
theorem stepKeepsMarkers : Obligations.StepKeepsMarkers := by
  unfold Obligations.StepKeepsMarkers
  intro s t hs e
  refine MarkerInv.dependsOn.step rfl ?_ hs e
  rintro i s t ⟨x, hx, hf⟩ e hs
  obtain rfl := List.mem_singleton.1 hx
  rcases markers_mem_footprint hf with h | ⟨h, bs, rfl⟩ | ⟨h, id, rfl⟩ | ⟨h, rfl⟩ | ⟨id, rfl⟩
  · exact MarkerInv.dependsOn.abandons rfl h (MarkerInv.dependsOn.within (within_reset_hardReset s) rfl .reset)
      (MarkerInv.dependsOn.pipelineReset rfl MarkersOrdered.nil) hs e
  · exact MarkerInv.dependsOn.command rfl (judgeMarkPost_keeps_markerInv _ _ hs) hs e
  · exact MarkerInv.dependsOn.command rfl (judgeMarkRemove_keeps_markerInv _ hs) hs e
  · exact MarkerInv.dependsOn.command rfl (judge := fun s => .take .ok (.removed s.ou.markers.length) (s.setMarkers []))
      ⟨rfl, MarkersOrdered.nil⟩ hs e
  · cases e
    exact s.expireMarker_markerInv id hs

end Sys2Proof.Machine
end

