-- ==== Sys2Proof/Proofs/ClaimOrder.lean ====
section
/-! The claim stack keeps its order, its bound, its tokens and the limits of its sources over every step (R138, R139). -/

namespace Sys2Proof.Machine

open Host (Outcome)

/-! ### Fresh tokens (R139) -/

theorem nextToken_ne_zero (t : Byte) : nextToken t ≠ 0 := by
  unfold nextToken
  split
  · decide
  · intro h
    bv_omega

/-- The token values go round from 1 to 255 (R139). -/
theorem toNat_nextToken {t : Byte} (ht : t ≠ 0) : (nextToken t).toNat = t.toNat % 255 + 1 := by
  unfold nextToken
  split
  · rename_i h
    subst h
    decide
  · bv_omega

theorem iterate_nextToken_ne_zero {t : Byte} (ht : t ≠ 0) (k : Nat) : nextToken^[k] t ≠ 0 := by
  induction k with
  | zero => exact ht
  | succ k ih =>
    rw [Function.iterate_succ_apply']
    exact nextToken_ne_zero _

theorem toNat_iterate_nextToken {t : Byte} (ht : t ≠ 0) (k : Nat) :
    (nextToken^[k] t).toNat = (t.toNat - 1 + k) % 255 + 1 := by
  have hpos : 0 < t.toNat := Nat.pos_of_ne_zero fun h => ht (BitVec.eq_of_toNat_eq h)
  have hlt := t.isLt
  induction k with
  | zero =>
    simp only [Function.iterate_zero, id]
    omega
  | succ k ih =>
    rw [Function.iterate_succ_apply', toNat_nextToken (iterate_nextToken_ne_zero ht k), ih]
    omega

theorem iterate_nextToken_inj {t : Byte} (ht : t ≠ 0) {j k : Nat} (hj : j < 255) (hk : k < 255)
    (h : nextToken^[j] t = nextToken^[k] t) : j = k := by
  have h := congrArg BitVec.toNat h
  rw [toNat_iterate_nextToken ht, toNat_iterate_nextToken ht] at h
  omega

/-- With fuel to reach it, the free token is the first value not carried. -/
theorem freeToken_eq_iterate {stack : List Claim} {fuel k : Nat} {t : Byte} (hk : k ≤ fuel)
    (hcarried : ∀ j < k, ∃ e ∈ stack, e.token = nextToken^[j] t) (hfree : ∀ e ∈ stack, e.token ≠ nextToken^[k] t) :
    freeToken stack fuel t = nextToken^[k] t := by
  induction k generalizing fuel t with
  | zero =>
    cases fuel with
    | zero => rfl
    | succ fuel =>
      have h : (stack.any fun e => decide (e.token = t)) = false := by simpa using hfree
      simp [freeToken, h]
  | succ k ih =>
    cases fuel with
    | zero => omega
    | succ fuel =>
      have h : (stack.any fun e => decide (e.token = t)) = true := by simpa using hcarried 0 (by omega)
      have next (j : Nat) (hj : j < k) := hcarried (j + 1) (by omega)
      simp only [Function.iterate_succ_apply] at next hfree
      rw [freeToken, if_pos h, ih (by omega) next hfree, Function.iterate_succ_apply]

/-- Among one more value than a stack of at most 254 entries carries, one is free. -/
theorem exists_free_iterate {stack : List Claim} {t : Byte} (ht : t ≠ 0) (hlen : stack.length < 255) :
    ∃ k ≤ stack.length, ∀ e ∈ stack, e.token ≠ nextToken^[k] t := by
  by_contra hnone
  push Not at hnone
  let values := (List.range (stack.length + 1)).map fun k => nextToken^[k] t
  have nodup : values.Nodup := List.Nodup.map_on (fun j hj k hk h => by
    rw [List.mem_range] at hj hk
    exact iterate_nextToken_inj ht (by omega) (by omega) h) List.nodup_range
  have sub : values ⊆ stack.map Claim.token := fun x hx => by
    obtain ⟨k, hk, rfl⟩ := List.mem_map.1 hx
    obtain ⟨e, he, hek⟩ := hnone k (by rw [List.mem_range] at hk; omega)
    exact List.mem_map.2 ⟨e, he, hek⟩
  have hle := (List.subperm_of_subset nodup sub).length_le
  simp only [values, List.length_map, List.length_range] at hle
  omega

/-- The fresh token is one that no entry carries (R139). -/
theorem Arbiter.freshToken_free {ca : Arbiter} (ht : ca.token ≠ 0) (hlen : ca.stack.length < 255) :
    ca.freshToken ≠ 0 ∧ ∀ e ∈ ca.stack, e.token ≠ ca.freshToken := by
  classical
  have hex := exists_free_iterate ht hlen
  obtain ⟨hle, hfree⟩ := Nat.find_spec hex
  have heq : ca.freshToken = nextToken^[Nat.find hex] ca.token := by
    refine freeToken_eq_iterate (by omega) (fun j hj => ?_) hfree
    have hmin := Nat.find_min hex hj
    push Not at hmin
    exact hmin (by omega)
  rw [heq]
  exact ⟨iterate_nextToken_ne_zero ht _, hfree⟩

/-! ### The order of the stack (R138) -/

/-- The most entries of a rank (R138). -/
def rankLimit : Nat → Nat
  | 1 => 3
  | 2 => 1
  | _ => 4

/-- R138 and R139 of a list of entries. -/
def ClaimsOrdered (l : List Claim) : Prop :=
  l.length ≤ 6 ∧ (l.Pairwise fun a b => b.rank ≤ a.rank) ∧ (l.Pairwise fun a b => a.token ≠ b.token)
    ∧ (∀ e ∈ l, e.token ≠ 0) ∧ ∀ r, 1 ≤ r ∧ r ≤ 3 → countRank r l ≤ rankLimit r

theorem claimInv_iff {s : State} : ClaimInv s ↔ ClaimsOrdered s.ca.stack ∧ s.ca.token ≠ 0 := by
  unfold ClaimInv ClaimsOrdered
  have limits : (∀ r, 1 ≤ r ∧ r ≤ 3 → countRank r s.ca.stack ≤ rankLimit r)
      ↔ countRank 1 s.ca.stack ≤ 3 ∧ countRank 2 s.ca.stack ≤ 1 ∧ countRank 3 s.ca.stack ≤ 4 := by
    constructor
    · exact fun h => ⟨h 1 (by decide), h 2 (by decide), h 3 (by decide)⟩
    · rintro ⟨h1, h2, h3⟩ r ⟨hlo, hhi⟩
      obtain rfl | rfl | rfl : r = 1 ∨ r = 2 ∨ r = 3 := by omega
      · exact h1
      · exact h2
      · exact h3
  rw [limits]
  tauto

theorem countRank_sublist {l l' : List Claim} (h : l'.Sublist l) (r : Nat) : countRank r l' ≤ countRank r l :=
  (h.filter _).length_le

theorem countRank_cons (r : Nat) (e : Claim) (l : List Claim) :
    countRank r (e :: l) = countRank r l + if e.rank = r then 1 else 0 := by
  unfold countRank
  by_cases h : e.rank = r <;> simp [h]

theorem countRank_place (r : Nat) (e : Claim) (l : List Claim) : countRank r (placeClaim e l) = countRank r (e :: l) :=
  ((placeByKey_perm Claim.rank e l).filter _).length_eq

theorem ClaimsOrdered.nil : ClaimsOrdered [] := by
  refine ⟨by decide, .nil, .nil, fun _ h => absurd h List.not_mem_nil, fun r hr => ?_⟩
  exact Nat.zero_le _

theorem ClaimsOrdered.sublist {l l' : List Claim} (h : ClaimsOrdered l) (hl : l'.Sublist l) : ClaimsOrdered l' := by
  obtain ⟨hlen, hrank, htok, hzero, hlim⟩ := h
  exact ⟨Nat.le_trans hl.length_le hlen, hrank.sublist hl, htok.sublist hl, fun e he => hzero e (hl.subset he),
    fun r hr => Nat.le_trans (countRank_sublist hl r) (hlim r hr)⟩

theorem ClaimsOrdered.place {l : List Claim} {e : Claim} (h : ClaimsOrdered l) (hlen : l.length < 6)
    (htok : ∀ y ∈ l, y.token ≠ e.token) (hzero : e.token ≠ 0) (hlim : countRank e.rank l < rankLimit e.rank) :
    ClaimsOrdered (placeClaim e l) := by
  obtain ⟨-, hrank, htoks, hzeros, hlims⟩ := h
  refine ⟨?_, placeByKey_sorted Claim.rank e hrank, placeByKey_distinct Claim.rank e htoks htok, fun y hy => ?_, fun r hr => ?_⟩
  · have hl : (placeClaim e l).length = l.length + 1 := length_placeByKey Claim.rank e l
    omega
  · rcases (mem_placeByKey Claim.rank e l).1 hy with rfl | hy
    · exact hzero
    · exact hzeros y hy
  · rw [countRank_place, countRank_cons]
    split
    · rename_i hr
      subst hr
      omega
    · exact hlims r hr

/-- Entries that only name another view stay as they were ordered (R145). -/
theorem ClaimsOrdered.map {l : List Claim} {f : Claim → Claim} (h : ClaimsOrdered l) (hs : ∀ e, (f e).source = e.source)
    (ht : ∀ e, (f e).token = e.token) : ClaimsOrdered (l.map f) := by
  obtain ⟨hlen, hrank, htok, hzero, hlim⟩ := h
  have rank (e : Claim) : (f e).rank = e.rank := by rw [Claim.rank, hs, Claim.rank]
  refine ⟨by simpa using hlen, ?_, ?_, ?_, fun r hr => ?_⟩
  · simpa [List.pairwise_map, rank] using hrank
  · simpa [List.pairwise_map, ht] using htok
  · simpa [ht] using hzero
  · have count : countRank r (l.map f) = countRank r l := by simp [countRank, List.filter_map, Function.comp_def, rank]
    rw [count]
    exact hlim r hr

/-! ### Making, moving and dropping entries -/

theorem ClaimInv.dependsOn : DependsOn [.claims] ClaimInv := by
  intro s t hk hs
  obtain ⟨kstack, ktoken, -⟩ := hk .claims (List.mem_singleton.2 rfl)
  rw [claimInv_iff, kstack, ktoken]
  exact claimInv_iff.1 hs

theorem ClaimInv.reset : ClaimInv State.reset := claimInv_iff.2 ⟨ClaimsOrdered.nil, by decide⟩

/-- Entries taken from the stack. -/
theorem ClaimInv.sublist {s t : State} (hs : ClaimInv s) (hl : t.ca.stack.Sublist s.ca.stack)
    (ht : t.ca.token = s.ca.token) : ClaimInv t := by
  obtain ⟨ho, hz⟩ := claimInv_iff.1 hs
  exact claimInv_iff.2 ⟨ho.sublist hl, ht ▸ hz⟩

/-- Where room is made, the stack that remains is short of six and part of the former one (R141). -/
theorem State.makeRoom_stack {s t : State} {r : Nat} (hs : ClaimInv s) (h : s.makeRoom r = some t) :
    t.ca.stack.Sublist s.ca.stack ∧ t.ca.stack.length < 6 ∧ t.ca.token = s.ca.token := by
  obtain ⟨⟨hlen, -⟩, -⟩ := claimInv_iff.1 hs
  unfold makeRoom at h
  split at h
  · cases h
    exact ⟨.refl _, ‹_›, rfl⟩
  · split at h
    · rename_i hn
      cases h
      rw [List.getLast?_eq_none_iff] at hn
      simp [hn]
    · split at h
      · rename_i e he _
        have hne : s.ca.stack ≠ [] := fun hn => by simp [hn] at he
        have hpos := List.length_pos_of_ne_nil hne
        have hca : t.ca.stack = s.ca.stack.dropLast ∧ t.ca.token = s.ca.token := by
          obtain rfl := Option.some.inj h
          split
          · exact ⟨rfl, rfl⟩
          · rw [notifyOwner_ca]
            exact ⟨rfl, rfl⟩
        obtain ⟨hst, htok⟩ := hca
        rw [hst, List.length_dropLast]
        exact ⟨List.dropLast_sublist _, by omega, htok⟩
      · cases h

/-- An entry made where there is room, of a source below its limit (R139, R140). -/
theorem State.newClaim_claimInv {s : State} {src : Source} (v : Fin 16) (hs : ClaimInv s) (hlen : s.ca.stack.length < 6)
    (hlim : countRank src.rank s.ca.stack < rankLimit src.rank) : ClaimInv (s.newClaim src v) := by
  obtain ⟨ho, hz⟩ := claimInv_iff.1 hs
  obtain ⟨hfz, hfree⟩ := Arbiter.freshToken_free hz (by omega)
  exact claimInv_iff.2 ⟨ho.place hlen hfree hfz hlim, nextToken_ne_zero _⟩

/-- Room made and an entry made in it. -/
theorem State.makeRoom_newClaim {s t : State} {src : Source} (v : Fin 16) (hs : ClaimInv s)
    (h : s.makeRoom src.rank = some t) (hlim : countRank src.rank s.ca.stack < rankLimit src.rank) :
    ClaimInv (t.newClaim src v) := by
  obtain ⟨hsub, hlen, htok⟩ := makeRoom_stack hs h
  exact newClaim_claimInv v (hs.sublist hsub htok) hlen (Nat.lt_of_le_of_lt (countRank_sublist hsub _) hlim)

theorem countRank_eq_zero_of_not_hasGear {ca : Arbiter} (h : ca.hasGear = false) : countRank 2 ca.stack = 0 := by
  rw [countRank, List.length_eq_zero_iff, List.filter_eq_nil_iff]
  intro e he
  have hg : e.source.isGear = false := by simpa using List.any_eq_false.1 h e he
  unfold Claim.rank
  cases hs : e.source <;> simp_all [Source.rank, Source.isGear]

theorem State.makeGear_claimInv {s : State} (v : Fin 16) (hs : ClaimInv s) (hg : s.ca.hasGear = false) :
    ClaimInv (s.makeGear v) := by
  unfold makeGear
  split
  · exact hs
  · exact makeRoom_newClaim v hs ‹_› (by
      rw [show Source.gear.rank = 2 from rfl, countRank_eq_zero_of_not_hasGear hg]
      decide)

theorem State.dropGear_claimInv {s : State} (hs : ClaimInv s) : ClaimInv s.dropGear :=
  hs.sublist List.filter_sublist rfl

theorem State.setLinger_claimInv {s : State} (d : Option Word32) (hs : ClaimInv s) : ClaimInv (s.setLinger d) :=
  ClaimInv.dependsOn.within (within_setLinger s d) rfl hs

theorem State.gearChange_claimInv {s : State} (g : EffGear) (hs : ClaimInv s) : ClaimInv (s.gearChange g) := by
  cases g with
  | unknown => exact hs
  | reverse =>
    have stopped := s.setLinger_claimInv none hs
    unfold gearChange
    dsimp only
    split
    · exact stopped
    · split
      · exact stopped
      · exact makeGear_claimInv _ stopped (Bool.not_eq_true _ ▸ ‹_›)
  | notReverse =>
    unfold gearChange
    dsimp only
    split
    · split
      · exact dropGear_claimInv hs
      · exact s.setLinger_claimInv _ hs
    · exact hs

/-! ### Signals that change the effective GEAR value (R146, R162) -/

/-- A property that a change of the effective GEAR value keeps, and all that does not touch the claims. -/
def GearStable (P : State → Prop) : Prop :=
  (∀ s t, Within [] s t → P s → P t) ∧ ∀ s g, P s → P (s.gearChange g)

section
variable {P : State → Prop} {s : State}

theorem GearStable.changeSignal (hP : GearStable P) (x : Signal) (y : SignalIntake) (hs : P s) : P (s.changeSignal x y) := by
  obtain ⟨hkeep, hgear⟩ := hP
  have told := hkeep s _ ((within_setSi s y).trans (within_tellSignal _ x (s.si.stateOf x))) hs
  unfold State.changeSignal State.tellGear
  split
  · exact told
  · exact hgear _ _ told

theorem GearStable.offerSlot (hP : GearStable P) (f : CanFrame) (i : Fin 12) (hs : P s) : P (s.offerSlot f i) := by
  unfold State.offerSlot
  split
  · exact hs
  · split
    · exact hP.1 _ _ (within_setSi s _) hs
    · unfold State.updateSignal
      split
      all_goals exact hP.changeSignal _ _ hs

theorem GearStable.offerFrame (hP : GearStable P) (f : CanFrame) (hs : P s) : P (s.offerFrame f) := by
  unfold State.offerFrame
  split
  · exact hs
  · exact List.foldlRecOn _ _ hs fun u hu i _ => hP.offerSlot f i hu

theorem GearStable.receiveFrame (hP : GearStable P) (f : CanFrame) (hs : P s) : P (s.receiveFrame f) := by
  have hkeep := hP.1
  have acknowledged (c : CanCtl) : P (s.setCan c) := hkeep _ _ (within_setCan s c) hs
  have counted (c : CanCtl) : P { s.setCan c with fresh := (s.setCan c).fresh + 1 } :=
    hkeep _ _ (within_fresh _ _) (acknowledged c)
  unfold State.receiveFrame
  dsimp only
  split
  · exact hs
  · split
    · exact hP.offerFrame f hs
    · split
      · exact hP.offerFrame f (acknowledged _)
      · split
        · exact hP.offerFrame f (hkeep _ _ (within_tellErr _ _) (counted _))
        · exact hkeep _ _ (within_tellErr _ _) (hP.offerFrame f (counted _))

theorem GearStable.signalTimeout (hP : GearStable P) (x : Signal) (hs : P s) : P (s.signalTimeout x) := by
  cases x <;> exact hP.changeSignal _ _ hs

theorem GearStable.signalHold (hP : GearStable P) (x : Signal) (hs : P s) : P (s.signalHold x) := by
  cases x <;> exact hP.changeSignal _ _ hs

theorem GearStable.intervalExpiry (hP : GearStable P) (hs : P s) : P s.intervalExpiry := by
  have hkeep := hP.1
  have loaded (c : CanCtl) : P (s.setCan c) := hkeep _ _ (within_setCan s c) hs
  unfold State.intervalExpiry
  dsimp only
  split
  · split
    · exact hP.offerFrame _ (hkeep _ _ (within_setCan _ _) (loaded _))
    · exact loaded _
  · exact hs

/-- The four events that can change the effective GEAR value keep a property that is stable under such a change. -/
theorem GearStable.exec (hP : GearStable P) {i : Instr} {t : State}
    (hi : (∃ f, i = .canFrameReceived f) ∨ (∃ x, i = .signalTimeoutExpiry x) ∨ (∃ x, i = .signalHoldExpiry x)
      ∨ i = .statusIntervalExpiry) (hs : P s) (e : exec i s = .next t) : P t := by
  rcases hi with ⟨f, rfl⟩ | ⟨x, rfl⟩ | ⟨x, rfl⟩ | rfl
  · cases e
    exact hP.receiveFrame f hs
  · cases e
    exact hP.signalTimeout x hs
  · cases e
    exact hP.signalHold x hs
  · cases e
    exact hP.intervalExpiry hs

end

/-! ### The commands and events of the arbiter -/

theorem ClaimInv.gearStable : GearStable ClaimInv :=
  ⟨fun _ _ hw hs => ClaimInv.dependsOn.within hw rfl hs, fun s g hs => s.gearChange_claimInv g hs⟩

theorem sourceLimit_eq_rankLimit (s : State) (p : Port) : sourceLimit p = rankLimit (s.claimSource p).rank := by
  cases p <;> rfl

theorem judgeClaim_keeps_claimInv {s : State} (p : Port) (v : Nat) (hs : ClaimInv s) : (judgeClaim p v s).Keeps ClaimInv := by
  unfold judgeClaim
  split
  · rfl
  · dsimp only
    split
    · rfl
    · split
      · rfl
      · rename_i hlim
        split
        · rfl
        · exact ⟨rfl, State.makeRoom_newClaim _ hs ‹_› (by rw [← sourceLimit_eq_rankLimit]; omega)⟩

/-- The entry found by a token is one of the stack that carries it. -/
theorem Arbiter.mem_of_find {ca : Arbiter} {t : Byte} {e : Claim} (h : ca.find t = some e) : e ∈ ca.stack ∧ e.token = t :=
  ⟨List.mem_of_find?_eq_some h, by simpa using List.find?_some h⟩

/-- The entry of a token taken from the stack leaves a place of its rank behind. -/
theorem countRank_dropToken_lt {l : List Claim} {e : Claim} (h : e ∈ l) :
    countRank e.rank (dropToken e.token l) < countRank e.rank l := by
  unfold countRank dropToken
  rw [List.filter_comm]
  exact List.length_filter_lt_length_iff_exists.2 ⟨e, List.mem_filter.2 ⟨h, by simp⟩, by simp⟩

theorem judgeRenew_keeps_claimInv {s : State} (p : Port) (n : Nat) (hs : ClaimInv s) : (judgeRenew p n s).Keeps ClaimInv := by
  obtain ⟨ho, hz⟩ := claimInv_iff.1 hs
  unfold judgeRenew
  split
  · rfl
  · split
    · rfl
    · rename_i t e hf
      obtain ⟨hmem, rfl⟩ := Arbiter.mem_of_find hf
      split
      · rfl
      · rename_i howner
        have hrank : e.rank = 3 := by
          simp only [Bool.or_eq_true, Bool.not_eq_true', not_or, Bool.not_eq_false] at howner
          obtain ⟨d, hd⟩ := (Source.isPortA_iff _).1 howner.1
          simp [Claim.rank, hd, Source.rank]
        have hlt := countRank_dropToken_lt hmem
        have hsub : (dropToken e.token s.ca.stack).Sublist s.ca.stack := List.filter_sublist
        have hlen : (dropToken e.token s.ca.stack).length < s.ca.stack.length :=
          List.length_filter_lt_length_iff_exists.2 ⟨e, hmem, by simp⟩
        obtain ⟨h6, -, -, hzero, hlim⟩ := id ho
        have hl3 := hlim 3 (by decide)
        rw [hrank] at hlt
        refine ⟨rfl, claimInv_iff.2 ⟨(ho.sublist hsub).place ?_ (fun y hy => ?_) (hzero e hmem) ?_, hz⟩⟩
        · omega
        · simpa using (List.mem_filter.1 hy).2
        · exact Nat.lt_of_lt_of_le hlt hl3

theorem judgeRelease_keeps_claimInv {s : State} (p : Port) (n : Nat) (hs : ClaimInv s) :
    (judgeRelease p n s).Keeps ClaimInv := by
  unfold judgeRelease
  split
  · rfl
  · split
    · rfl
    · split
      · rfl
      · exact ⟨rfl, hs.sublist List.filter_sublist rfl⟩

theorem State.expireClaim_claimInv {s : State} (t : Byte) (hs : ClaimInv s) : ClaimInv (s.expireClaim t) := by
  unfold expireClaim
  split
  · exact hs
  · split
    · exact ClaimInv.dependsOn.within (within_notifyOwner _ _ _ _ _) rfl (hs.sublist List.filter_sublist rfl)
    · exact hs

theorem State.applyReverseView_claimInv {s : State} (v : Option (Fin 16)) (hs : ClaimInv s) :
    ClaimInv (s.applyReverseView v) := by
  obtain ⟨ho, hz⟩ := claimInv_iff.1 hs
  unfold applyReverseView
  split
  · exact dropGear_claimInv hs
  · split
    · refine claimInv_iff.2 ⟨ho.map (fun e => ?_) fun e => ?_, hz⟩
      · split <;> rfl
      · split <;> rfl
    · split
      · exact s.gearChange_claimInv _ hs
      · exact hs

theorem judgeGearSetup_keeps_claimInv {s : State} (v : Option Nat) (l : Nat) (g : BitVec 16) (hs : ClaimInv s) :
    (judgeGearSetup v l g s).Keeps ClaimInv := by
  unfold judgeGearSetup
  split
  · exact s.reverseArg_refuses ‹_›
  · exact ⟨clampResult_accepts _, State.applyReverseView_claimInv _ (hs.sublist (.refl _) rfl)⟩

theorem State.remakeGear_claimInv {s : State} (hs : ClaimInv s) (hg : s.ca.hasGear = false) : ClaimInv s.remakeGear := by
  unfold remakeGear
  split
  · exact hs
  · split
    · exact makeGear_claimInv _ hs hg
    · exact hs

theorem claims_mem_footprint {i : Instr} (h : .claims ∈ footprint i) :
    abandons i = true ∨ (∃ h v, i = .claim h v) ∨ (∃ h n, i = .renew h n) ∨ (∃ h n, i = .release h n)
      ∨ (∃ h v l g, i = .gearSetup h v l g) ∨ (∃ t, i = .claimExpiry t) ∨ i = .lingerTimerExpiry
      ∨ (∃ f, i = .canFrameReceived f) ∨ (∃ x, i = .signalTimeoutExpiry x) ∨ (∃ x, i = .signalHoldExpiry x)
      ∨ i = .statusIntervalExpiry := by
  cases i <;> simp [footprint, abandons] at h ⊢
  case status h c => cases c <;> simp at h

/-- Settles O55, by the commands and events that touch the claim stack. -/
theorem stepKeepsClaims : Obligations.StepKeepsClaims := by
  unfold Obligations.StepKeepsClaims
  intro s t hs e
  refine ClaimInv.dependsOn.step rfl ?_ hs e
  rintro i s t ⟨x, hx, hf⟩ e hs
  obtain rfl := List.mem_singleton.1 hx
  rcases claims_mem_footprint hf with
    h | ⟨h, v, rfl⟩ | ⟨h, n, rfl⟩ | ⟨h, n, rfl⟩ | ⟨h, v, l, g, rfl⟩ | ⟨t, rfl⟩ | rfl | hgear
  · refine ClaimInv.dependsOn.abandons rfl h (ClaimInv.dependsOn.within (within_reset_hardReset s) rfl .reset) ?_ hs e
    exact State.remakeGear_claimInv (s := s.pipelineBlocks) (claimInv_iff.2 ⟨ClaimsOrdered.nil, (by decide : (1 : Byte) ≠ 0)⟩) rfl
  · exact ClaimInv.dependsOn.command rfl (judgeClaim_keeps_claimInv _ _ hs) hs e
  · exact ClaimInv.dependsOn.command rfl (judgeRenew_keeps_claimInv _ _ hs) hs e
  · exact ClaimInv.dependsOn.command rfl (judgeRelease_keeps_claimInv _ _ hs) hs e
  · exact ClaimInv.dependsOn.guarded rfl (judgeGearSetup_keeps_claimInv _ _ _ hs) hs e
  · cases e
    exact State.expireClaim_claimInv _ hs
  · cases e
    unfold State.lingerExpiry
    split
    · exact State.dropGear_claimInv hs
    · exact hs
  · exact ClaimInv.gearStable.exec hgear hs e

end Sys2Proof.Machine
end

