-- ==== Sys2Proof/Proofs/AreasViews.lean ====
section
/-! The area table keeps its ranges within DRAM and apart (R21, R22), and every view in use stays DEFINED (R76), over every
step. -/

namespace Sys2Proof.Machine

open Host (Outcome)

/-! ### Areas (R21, R22) -/

/-- The units of an area that has a range. -/
def Area.span : Area → Option (Nat × Nat)
  | .undefined => none
  | .range b l _ => some (b, l)

theorem Area.span_eq_some {x : Area} {b l : Nat} : x.span = some (b, l) ↔ ∃ p, x = .range b l p := by
  cases x <;> simp [Area.span]

/-- Ranges within DRAM, no two of which share a unit. -/
def SpansApart (f : Fin 8 → Option (Nat × Nat)) : Prop :=
  (∀ a b l, f a = some (b, l) → b < l ∧ l ≤ 4096)
    ∧ ∀ a a' b l b' l', a ≠ a' → f a = some (b, l) → f a' = some (b', l') → sharesUnit b l b' l' = false

theorem areaInv_iff {s : State} : AreaInv s ↔ SpansApart fun a => s.fsc.areas[a].span := by
  simp only [AreaInv, SpansApart, Area.span_eq_some]
  constructor
  · rintro ⟨hr, ha⟩
    exact ⟨fun a b l ⟨p, hp⟩ => hr a b l p hp, fun a a' b l b' l' hne ⟨p, hp⟩ ⟨p', hp'⟩ => ha a a' b l b' l' p p' hne hp hp'⟩
  · rintro ⟨hr, ha⟩
    exact ⟨fun a b l p hp => hr a b l ⟨p, hp⟩, fun a a' b l b' l' p p' hne hp hp' => ha a a' b l b' l' hne ⟨p, hp⟩ ⟨p', hp'⟩⟩

/-- A property of the ranges alone. -/
theorem AreaInv.of_span {s t : State} (hs : AreaInv s) (h : ∀ a : Fin 8, t.fsc.areas[a].span = s.fsc.areas[a].span) :
    AreaInv t := by
  rw [areaInv_iff] at hs ⊢
  simpa only [h] using hs

theorem AreaInv.dependsOn : DependsOn [.areas] AreaInv := by
  intro s t hk hs
  have kept : t.fsc.areas = s.fsc.areas := hk .areas (List.mem_singleton.2 rfl)
  exact hs.of_span fun a => by rw [kept]

theorem AreaInv.reset : AreaInv State.reset := by
  have unset (a : Fin 8) : State.reset.fsc.areas[a].span = none := by fin_cases a <;> rfl
  refine areaInv_iff.2 ⟨fun a b l h => ?_, fun a a' b l b' l' _ h => ?_⟩
  · cases (unset a).symm.trans h
  · cases (unset a).symm.trans h

theorem State.setArea_areas (s : State) (a i : Fin 8) (x : Area) :
    (s.setArea a x).fsc.areas[i] = if i = a then x else s.fsc.areas[i] := Vector.getElem_set_fin ..

/-- An area put in another phase of its range. -/
theorem AreaInv.setPhase {s : State} {a : Fin 8} {b l : Nat} {p : AreaPhase} (hs : AreaInv s)
    (ha : s.fsc.areas[a] = .range b l p) (q : AreaPhase) : AreaInv (s.setArea a (.range b l q)) := by
  refine hs.of_span fun i => ?_
  rw [State.setArea_areas]
  split
  · rename_i h
    rw [h, ha]
    rfl
  · rfl

/-- An area that loses its range. -/
theorem AreaInv.release {s : State} (hs : AreaInv s) (a : Fin 8) : AreaInv (s.setArea a .undefined) := by
  obtain ⟨hr, ha⟩ := areaInv_iff.1 hs
  have span (i : Fin 8) {b l : Nat} (h : (s.setArea a .undefined).fsc.areas[i].span = some (b, l)) :
      s.fsc.areas[i].span = some (b, l) := by
    rw [State.setArea_areas] at h
    split at h
    · cases h
    · exact h
  exact areaInv_iff.2 ⟨fun i b l h => hr i b l (span i h), fun i j b l b' l' hne h h' => ha i j b l b' l' hne (span i h) (span j h')⟩

theorem FrameStore.overlaps_eq_false {fs : FrameStore} {a : Fin 8} {b l : Nat} (h : fs.overlaps a b l = false) {i : Fin 8}
    (hi : i ≠ a) {b' l' : Nat} (hs : fs.areas[i].span = some (b', l')) : sharesUnit b l b' l' = false := by
  obtain ⟨p, hp⟩ := Area.span_eq_some.1 hs
  have := List.any_eq_false.1 h i (List.mem_finRange i)
  simpa [hi, hp] using this

theorem sharesUnit_comm (b l b' l' : Nat) : sharesUnit b' l' b l = sharesUnit b l b' l' := by
  simp [sharesUnit, and_comm]

/-- An area given a range within DRAM that shares no unit with another one (R22). -/
theorem AreaInv.define {s : State} {a : Fin 8} {b l : Nat} (hs : AreaInv s) (hb : b < l) (hl : l ≤ 4096)
    (ho : s.fsc.overlaps a b l = false) : AreaInv (s.setArea a (.range b l .defined)) := by
  obtain ⟨hr, ha⟩ := areaInv_iff.1 hs
  have span (i : Fin 8) : (s.setArea a (.range b l .defined)).fsc.areas[i].span
      = if i = a then some (b, l) else s.fsc.areas[i].span := by
    rw [State.setArea_areas]
    split <;> rfl
  refine areaInv_iff.2 ⟨fun i b' l' h => ?_, fun i j b₁ l₁ b₂ l₂ hne h₁ h₂ => ?_⟩
  · replace h := (span i).symm.trans h
    split at h
    · cases h
      exact ⟨hb, hl⟩
    · exact hr i b' l' h
  · replace h₁ := (span i).symm.trans h₁
    replace h₂ := (span j).symm.trans h₂
    split at h₁
    · rename_i hi
      cases h₁
      rw [if_neg fun hj => hne (hi.trans hj.symm)] at h₂
      exact FrameStore.overlaps_eq_false ho (fun hj => hne (hi.trans hj.symm)) h₂
    · rename_i hi
      split at h₂
      · cases h₂
        rw [sharesUnit_comm]
        exact FrameStore.overlaps_eq_false ho hi h₁
      · exact ha i j b₁ l₁ b₂ l₂ hne h₁ h₂

theorem AreaFormBad_range {b l : Nat} (h : ¬ AreaFormBad (.range b l) = true) : b < l ∧ l ≤ 4096 := by
  simp only [AreaFormBad, decide_eq_true_eq, not_or] at h
  omega

theorem judgeAreaDefine_keeps_areaInv {s : State} (a : Nat) (f : AreaForm) (hs : AreaInv s) :
    (judgeAreaDefine a f s).Keeps AreaInv := by
  unfold judgeAreaDefine
  split
  · rfl
  · split
    · rfl
    · split
      · exact Area.refusesDefine_refuses ‹_›
      · split
        · exact ⟨rfl, hs.release _⟩
        · obtain ⟨hb, hl⟩ := AreaFormBad_range ‹_›
          split
          · rfl
          · exact ⟨rfl, hs.define hb hl (Bool.not_eq_true _ ▸ ‹_›)⟩

theorem judgeAreaClear_keeps_areaInv {s : State} (a : Nat) (hs : AreaInv s) : (judgeAreaClear a s).Keeps AreaInv := by
  unfold judgeAreaClear
  split
  · rfl
  · split
    · rfl
    · rfl
    · rfl
    · exact ⟨rfl, hs.setPhase ‹_› _⟩
    · exact ⟨rfl, hs.setPhase ‹_› _⟩

theorem State.join_keeps_areaInv {s : State} {a : Fin 8} {b l : Nat} {p : AreaPhase} (t : Target) (hs : AreaInv s)
    (ha : s.fsc.areas[a] = .range b l p) : (s.join a b l t).Keeps AreaInv := by
  have joined (t : Target) := hs.setPhase ha (.joined t)
  cases t with
  | camera n =>
    unfold State.join
    dsimp only
    split
    · rfl
    · exact ⟨rfl, AreaInv.dependsOn.within ((within_setCamRing _ _ _).comp (within_changeJoin _ _)) rfl (joined _)⟩
  | output =>
    unfold State.join
    dsimp only
    split
    · rfl
    · exact ⟨rfl, AreaInv.dependsOn.within (within_setOutRing _ _) rfl (joined _)⟩
  | overlay =>
    unfold State.join
    dsimp only
    split
    · rfl
    · exact ⟨rfl, joined _⟩

theorem judgeAreaJoin_keeps_areaInv {s : State} (a : Nat) (t : Option Target) (hs : AreaInv s) :
    (judgeAreaJoin a t s).Keeps AreaInv := by
  unfold judgeAreaJoin
  split
  · rfl
  · rfl
  · split
    · rfl
    · rfl
    · rfl
    · rfl
    · split
      · rfl
      · exact State.join_keeps_areaInv _ hs ‹_›

theorem judgeAreaUnjoin_keeps_areaInv {s : State} (a : Nat) (hs : AreaInv s) : (judgeAreaUnjoin a s).Keeps AreaInv := by
  unfold judgeAreaUnjoin
  split
  · rfl
  · split
    · split
      · exact ⟨rfl, AreaInv.dependsOn.within (within_discardRing _ _) rfl (hs.setPhase ‹_› _)⟩
      · rfl
    · rfl

theorem execAreaClearCompletion_areaInv {a : Fin 8} {s t : State} (hs : AreaInv s)
    (e : execAreaClearCompletion a s = .next t) : AreaInv t := by
  unfold execAreaClearCompletion at e
  split at e
  · rename_i b l ha
    split at e
    · cases e
      refine AreaInv.dependsOn.within (within_notify _ _ _ _) rfl (AreaInv.setPhase (p := .clearing) ?_ ha _)
      exact AreaInv.dependsOn.within (within_dram s _) rfl hs
    · cases e
  · cases e
    exact hs

theorem areas_mem_footprint {i : Instr} (h : .areas ∈ footprint i) :
    abandons i = true ∨ (∃ h a f, i = .areaDefine h a f) ∨ (∃ h a, i = .areaClear h a) ∨ (∃ h a t, i = .areaJoin h a t)
      ∨ (∃ h a, i = .areaUnjoin h a) ∨ ∃ a, i = .areaClearCompletion a := by
  cases i <;> simp [footprint, abandons] at h ⊢
  case status h c => cases c <;> simp at h

theorem Area.pipelineReset_span (x : Area) : x.pipelineReset.span = x.span := by
  unfold Area.pipelineReset
  split <;> rfl

theorem AreaInv.step {s t : State} (hs : AreaInv s) (e : step s = .next t) : AreaInv t := by
  refine AreaInv.dependsOn.step rfl ?_ hs e
  rintro i s t ⟨x, hx, hf⟩ e hs
  obtain rfl := List.mem_singleton.1 hx
  rcases areas_mem_footprint hf with h | ⟨h, a, f, rfl⟩ | ⟨h, a, rfl⟩ | ⟨h, a, x, rfl⟩ | ⟨h, a, rfl⟩ | ⟨a, rfl⟩
  · refine AreaInv.dependsOn.abandons rfl h (AreaInv.dependsOn.within (within_reset_hardReset s) rfl .reset) ?_ hs e
    refine AreaInv.dependsOn.pipelineReset rfl (hs.of_span fun a => ?_)
    have entry : s.pipelineBlocks.fsc.areas[a] = s.fsc.areas[a].pipelineReset := by
      simp [State.pipelineBlocks, FrameStore.pipelineReset]
    rw [entry, Area.pipelineReset_span]
  · exact AreaInv.dependsOn.guarded rfl (judgeAreaDefine_keeps_areaInv _ _ hs) hs e
  · exact AreaInv.dependsOn.guarded rfl (judgeAreaClear_keeps_areaInv _ hs) hs e
  · exact AreaInv.dependsOn.guarded rfl (judgeAreaJoin_keeps_areaInv _ _ hs) hs e
  · exact AreaInv.dependsOn.guarded rfl (judgeAreaUnjoin_keeps_areaInv _ hs) hs e
  · exact execAreaClearCompletion_areaInv hs e

/-! ### Views in use (R76) -/

/-- The view is DEFINED. -/
def State.defined (s : State) (v : Fin 16) : Prop := s.vc.views[v].isSome = true

theorem viewInv_iff {s : State} :
    ViewInv s ↔ (∀ e ∈ s.ca.stack, s.defined e.view) ∧ (∀ v, s.vc.dflt = some v → s.defined v)
      ∧ ∀ v, s.ca.reverseView = some v → s.defined v := by
  simp only [ViewInv, State.viewInUse, Arbiter.claims, Bool.or_eq_true, List.any_eq_true, decide_eq_true_eq]
  constructor
  · exact fun h => ⟨fun e he => h _ (.inl (.inl ⟨e, he, rfl⟩)), fun v hv => h v (.inl (.inr hv)), fun v hv => h v (.inr hv)⟩
  · rintro ⟨hc, hd, hr⟩ v ((⟨e, he, rfl⟩ | hv) | hv)
    · exact hc e he
    · exact hd v hv
    · exact hr v hv

theorem ViewInv.dependsOn : DependsOn [.claims, .catalogue] ViewInv := by
  intro s t hk hs
  obtain ⟨kstack, -, kreverse⟩ := hk .claims (by simp)
  have kcat : t.vc = s.vc := hk .catalogue (by simp)
  rw [viewInv_iff] at hs ⊢
  simpa only [State.defined, kstack, kreverse, kcat] using hs

theorem ViewInv.reset : ViewInv State.reset := by
  refine viewInv_iff.2 ⟨fun _ h => absurd h List.not_mem_nil, fun v h => ?_, fun v h => ?_⟩
  · cases h
  · cases h

/-- An arbiter whose entries name DEFINED views, and whose reverse view is DEFINED, over the same catalogue. -/
theorem ViewInv.of_views {s t : State} (hs : ViewInv s) (hv : t.vc = s.vc) (hc : ∀ e ∈ t.ca.stack, s.defined e.view)
    (hr : ∀ v, t.ca.reverseView = some v → s.defined v) : ViewInv t := by
  obtain ⟨-, hd, -⟩ := viewInv_iff.1 hs
  rw [viewInv_iff]
  simpa only [State.defined, hv] using ⟨hc, hd, hr⟩

theorem ViewInv.sublist {s t : State} (hs : ViewInv s) (hv : t.vc = s.vc) (hl : t.ca.stack.Sublist s.ca.stack)
    (hr : t.ca.reverseView = s.ca.reverseView) : ViewInv t := by
  obtain ⟨hc, -, hrev⟩ := viewInv_iff.1 hs
  exact hs.of_views hv (fun e he => hc e (hl.subset he)) fun v h => hrev v (hr ▸ h)

/-- Room is made in the stack alone. -/
theorem State.makeRoom_keeps {s t : State} {r : Nat} (h : s.makeRoom r = some t) :
    t.vc = s.vc ∧ t.ca.stack.Sublist s.ca.stack ∧ t.ca.reverseView = s.ca.reverseView := by
  refine ⟨within_makeRoom s h .catalogue (by decide), ?_⟩
  unfold makeRoom at h
  split at h
  · cases h
    exact ⟨.refl _, rfl⟩
  · split at h
    · cases h
      exact ⟨.refl _, rfl⟩
    · split at h
      · obtain rfl := Option.some.inj h
        split
        · exact ⟨List.dropLast_sublist _, rfl⟩
        · rw [notifyOwner_ca]
          exact ⟨List.dropLast_sublist _, rfl⟩
      · cases h

/-- Room made and an entry made in it for a DEFINED view. -/
theorem ViewInv.makeRoom_newClaim {s t : State} {r : Nat} {v : Fin 16} (src : Source) (hs : ViewInv s)
    (h : s.makeRoom r = some t) (hv : s.defined v) : ViewInv (t.newClaim src v) := by
  obtain ⟨hvc, hsub, hrev⟩ := State.makeRoom_keeps h
  obtain ⟨hc, -, hr⟩ := viewInv_iff.1 hs
  refine hs.of_views hvc (fun e he => ?_) fun w hw => hr w (hrev ▸ hw)
  rcases (mem_placeByKey Claim.rank _ _).1 he with rfl | he
  · exact hv
  · exact hc e (hsub.subset he)

theorem State.makeGear_viewInv {s : State} {v : Fin 16} (hs : ViewInv s) (hv : s.defined v) : ViewInv (s.makeGear v) := by
  unfold makeGear
  split
  · exact hs
  · exact hs.makeRoom_newClaim _ ‹_› hv

theorem State.gearChange_viewInv {s : State} (g : EffGear) (hs : ViewInv s) : ViewInv (s.gearChange g) := by
  have lingers (d : Option Word32) : ViewInv (s.setLinger d) := ViewInv.dependsOn.within (within_setLinger s d) rfl hs
  cases g with
  | unknown => exact hs
  | reverse =>
    unfold gearChange
    dsimp only
    split
    · exact lingers none
    · rename_i v hv
      split
      · exact lingers none
      · exact makeGear_viewInv (lingers none) ((viewInv_iff.1 (lingers none)).2.2 v hv)
  | notReverse =>
    unfold gearChange
    dsimp only
    split
    · split
      · exact hs.sublist rfl List.filter_sublist rfl
      · exact lingers _
    · exact hs

theorem ViewInv.gearStable : GearStable ViewInv :=
  ⟨fun _ _ hw hs => ViewInv.dependsOn.within hw rfl hs, fun s g hs => s.gearChange_viewInv g hs⟩

theorem judgeClaim_keeps_viewInv {s : State} (p : Port) (v : Nat) (hs : ViewInv s) : (judgeClaim p v s).Keeps ViewInv := by
  unfold judgeClaim
  split
  · rfl
  · dsimp only
    split
    · rfl
    · rename_i hv
      split
      · rfl
      · split
        · rfl
        · exact ⟨rfl, hs.makeRoom_newClaim _ ‹_› (by simpa [State.defined, Option.isSome_iff_ne_none] using hv)⟩

theorem judgeRenew_keeps_viewInv {s : State} (p : Port) (n : Nat) (hs : ViewInv s) : (judgeRenew p n s).Keeps ViewInv := by
  unfold judgeRenew
  split
  · rfl
  · split
    · rfl
    · rename_i e hf
      split
      · rfl
      · obtain ⟨hc, -, hr⟩ := viewInv_iff.1 hs
        refine ⟨rfl, hs.of_views rfl (fun x hx => ?_) hr⟩
        rcases (mem_placeByKey Claim.rank _ _).1 hx with rfl | hx
        · exact hc e (Arbiter.mem_of_find hf).1
        · exact hc x (List.mem_of_mem_filter hx)

theorem judgeRelease_keeps_viewInv {s : State} (p : Port) (n : Nat) (hs : ViewInv s) :
    (judgeRelease p n s).Keeps ViewInv := by
  unfold judgeRelease
  split
  · rfl
  · split
    · rfl
    · split
      · rfl
      · exact ⟨rfl, hs.sublist rfl List.filter_sublist rfl⟩

theorem State.expireClaim_viewInv {s : State} (t : Byte) (hs : ViewInv s) : ViewInv (s.expireClaim t) := by
  unfold expireClaim
  split
  · exact hs
  · split
    · exact ViewInv.dependsOn.within (within_notifyOwner _ _ _ _ _) rfl (hs.sublist rfl List.filter_sublist rfl)
    · exact hs

theorem State.applyReverseView_viewInv {s : State} {v : Option (Fin 16)} (hs : ViewInv s)
    (hv : ∀ w, v = some w → s.defined w) : ViewInv (s.applyReverseView v) := by
  obtain ⟨hc, -, hr⟩ := viewInv_iff.1 hs
  unfold applyReverseView
  split
  · exact hs.sublist rfl List.filter_sublist rfl
  · rename_i w
    split
    · refine hs.of_views rfl (fun e he => ?_) hr
      obtain ⟨x, hx, rfl⟩ := List.mem_map.1 he
      split
      · exact hv w rfl
      · exact hc x hx
    · split
      · exact s.gearChange_viewInv _ hs
      · exact hs

/-- The reverse view that GEAR_SETUP takes is DEFINED (R145). -/
theorem State.reverseArg_defined {s : State} {v : Option Nat} {w : Option (Fin 16)} (h : s.reverseArg v = .ok w) :
    ∀ x, w = some x → s.defined x := by
  rintro x rfl
  unfold reverseArg at h
  split at h
  · cases h
  · split at h
    · cases h
    · rename_i y _
      split at h
      · cases h
      · rename_i hy
        cases h
        simpa [defined, Option.isSome_iff_ne_none] using hy

theorem judgeGearSetup_keeps_viewInv {s : State} (v : Option Nat) (l : Nat) (g : BitVec 16) (hs : ViewInv s) :
    (judgeGearSetup v l g s).Keeps ViewInv := by
  unfold judgeGearSetup
  split
  · exact s.reverseArg_refuses ‹_›
  · rename_i w hw
    have hdef := State.reverseArg_defined hw
    exact ⟨clampResult_accepts _,
      State.applyReverseView_viewInv (hs.of_views rfl (viewInv_iff.1 hs).1 hdef) hdef⟩

theorem State.remakeGear_viewInv {s : State} (hs : ViewInv s) : ViewInv s.remakeGear := by
  unfold remakeGear
  split
  · exact hs
  · rename_i v hv
    split
    · exact makeGear_viewInv hs ((viewInv_iff.1 hs).2.2 v hv)
    · exact hs

/-! The catalogue -/

/-- A catalogue whose views in use are all still DEFINED. -/
theorem ViewInv.of_catalogue {s t : State} (hs : ViewInv s) (hc : t.ca = s.ca)
    (hd : ∀ v, t.vc.dflt = some v → t.defined v) (hv : ∀ v, s.viewInUse v = true → s.defined v → t.defined v) :
    ViewInv t := by
  intro v hu
  simp only [State.viewInUse, hc, Bool.or_eq_true, decide_eq_true_eq] at hu
  rcases hu with (hu | hu) | hu
  · have hsu : s.viewInUse v = true := by simp [State.viewInUse, hu]
    exact hv v hsu (hs v hsu)
  · exact hd v hu
  · have hsu : s.viewInUse v = true := by simp [State.viewInUse, hu]
    exact hv v hsu (hs v hsu)

theorem State.setView_views (s : State) (v w : Fin 16) (x : Option (List Pane)) :
    (s.setView v x).vc.views[w] = if w = v then x else s.vc.views[w] := Vector.getElem_set_fin ..

/-- A view put that is DEFINED, or that nothing names. -/
theorem ViewInv.setView {s t : State} {v : Fin 16} {x : Option (List Pane)} (hs : ViewInv s) (hc : t.ca = s.ca)
    (ht : t.vc = s.vc) (hx : x.isSome = true ∨ s.viewInUse v = false) : ViewInv (t.setView v x) := by
  have kept (w : Fin 16) (hu : s.viewInUse w = true) (hw : s.defined w) : (t.setView v x).defined w := by
    unfold State.defined
    rw [State.setView_views]
    split
    · rename_i h
      rcases hx with hx | hx
      · exact hx
      · rw [h, hx] at hu
        cases hu
    · rw [ht]
      exact hw
  refine hs.of_catalogue hc (fun w hw => ?_) kept
  have hd : s.vc.dflt = some w := ht ▸ hw
  exact kept w (by simp [State.viewInUse, hd]) ((viewInv_iff.1 hs).2.1 w hd)

theorem State.unbind_ca (s : State) (b : Option (Fin 32)) : (s.unbind b).ca = s.ca := by cases b <;> rfl
theorem State.unbind_vc (s : State) (b : Option (Fin 32)) : (s.unbind b).vc = s.vc := by cases b <;> rfl

theorem State.unbindAll_ca (s : State) (l : List Pane) : (s.unbindAll l).ca = s.ca :=
  List.foldlRecOn (motive := fun t : State => t.ca = s.ca) l _ rfl fun t h p _ => (unbind_ca t p.binding).trans h
theorem State.unbindAll_vc (s : State) (l : List Pane) : (s.unbindAll l).vc = s.vc :=
  List.foldlRecOn (motive := fun t : State => t.vc = s.vc) l _ rfl fun t h p _ => (unbind_vc t p.binding).trans h

theorem judgeViewDefine_keeps_viewInv {s : State} (v : Nat) (l : List PaneArg) (hs : ViewInv s) :
    (judgeViewDefine v l s).Keeps ViewInv := by
  unfold judgeViewDefine
  split
  · rfl
  · rfl
  · split
    · rfl
    · exact ⟨rfl, hs.setView (s.unbindAll_ca _) (s.unbindAll_vc _) (.inl rfl)⟩

theorem judgeViewBind_keeps_viewInv {s : State} (v p g : Nat) (hs : ViewInv s) : (judgeViewBind v p g s).Keeps ViewInv := by
  unfold judgeViewBind
  split
  · rfl
  · rfl
  · split
    · rfl
    · split
      · rfl
      · split
        · rfl
        · split
          · split
            · rfl
            · exact ⟨rfl, hs.setView (s.unbind_ca _) (s.unbind_vc _) (.inl rfl)⟩
          · rfl

theorem judgeViewUnbind_keeps_viewInv {s : State} (v p : Nat) (hs : ViewInv s) : (judgeViewUnbind v p s).Keeps ViewInv := by
  unfold judgeViewUnbind
  split
  · rfl
  · split
    · rfl
    · split
      · rfl
      · split
        · rfl
        · split
          · rfl
          · exact ⟨rfl, hs.setView (s.unbind_ca _) (s.unbind_vc _) (.inl rfl)⟩

theorem judgeViewErase_keeps_viewInv {s : State} (v : Nat) (hs : ViewInv s) : (judgeViewErase v s).Keeps ViewInv := by
  unfold judgeViewErase
  split
  · rfl
  · split
    · rfl
    · split
      · rfl
      · exact ⟨rfl, hs.setView (s.unbindAll_ca _) (s.unbindAll_vc _) (.inr (Bool.not_eq_true _ ▸ ‹_›))⟩

theorem judgeDefaultView_keeps_viewInv {s : State} (v : Option Nat) (hs : ViewInv s) :
    (judgeDefaultView v s).Keeps ViewInv := by
  unfold judgeDefaultView
  split
  · exact ⟨rfl, hs.of_catalogue rfl (fun _ h => nomatch h) fun _ _ h => h⟩
  · split
    · rfl
    · split
      · rfl
      · rename_i w _ hw
        refine ⟨rfl, hs.of_catalogue rfl (fun x hx => ?_) fun _ _ h => h⟩
        cases hx
        simpa [State.defined, State.setDefault, Option.isSome_iff_ne_none] using hw

theorem catalogue_mem_footprint {i : Instr} (h : .catalogue ∈ footprint i) :
    isHardReset i = true ∨ (∃ h v l, i = .viewDefine h v l) ∨ (∃ h v p g, i = .viewBind h v p g)
      ∨ (∃ h v p, i = .viewUnbind h v p) ∨ (∃ h v, i = .viewErase h v) ∨ ∃ h v, i = .defaultView h v := by
  cases i <;> simp [footprint, isHardReset, pipelineParts] at h ⊢
  case status h c => cases c <;> simp at h

theorem exec_keeps_viewInv_of_claims {i : Instr} {s t : State} (hf : .claims ∈ footprint i) (hs : ViewInv s)
    (e : exec i s = .next t) : ViewInv t := by
  rcases claims_mem_footprint hf with
    h | ⟨h, v, rfl⟩ | ⟨h, n, rfl⟩ | ⟨h, n, rfl⟩ | ⟨h, v, l, g, rfl⟩ | ⟨t, rfl⟩ | rfl | hgear
  · refine ViewInv.dependsOn.abandons rfl h (ViewInv.dependsOn.within (within_reset_hardReset s) rfl .reset) ?_ hs e
    exact State.remakeGear_viewInv (s := s.pipelineBlocks)
      (hs.of_views rfl (fun _ h => absurd h List.not_mem_nil) (viewInv_iff.1 hs).2.2)
  · exact ViewInv.dependsOn.command rfl (judgeClaim_keeps_viewInv _ _ hs) hs e
  · exact ViewInv.dependsOn.command rfl (judgeRenew_keeps_viewInv _ _ hs) hs e
  · exact ViewInv.dependsOn.command rfl (judgeRelease_keeps_viewInv _ _ hs) hs e
  · exact ViewInv.dependsOn.guarded rfl (judgeGearSetup_keeps_viewInv _ _ _ hs) hs e
  · cases e
    exact State.expireClaim_viewInv _ hs
  · cases e
    unfold State.lingerExpiry
    split
    · exact hs.sublist rfl List.filter_sublist rfl
    · exact hs
  · exact ViewInv.gearStable.exec hgear hs e

theorem ViewInv.step {s t : State} (hs : ViewInv s) (e : step s = .next t) : ViewInv t := by
  refine ViewInv.dependsOn.step rfl ?_ hs e
  rintro i s t ⟨x, hx, hf⟩ e hs
  obtain rfl | rfl : x = .claims ∨ x = .catalogue := by simpa using hx
  · exact exec_keeps_viewInv_of_claims hf hs e
  · rcases catalogue_mem_footprint hf with h | ⟨h, v, l, rfl⟩ | ⟨h, v, p, g, rfl⟩ | ⟨h, v, p, rfl⟩ | ⟨h, v, rfl⟩ | ⟨h, v, rfl⟩
    · refine exec_keeps_viewInv_of_claims ?_ hs e
      rcases of_decide_eq_true h with rfl | rfl <;> decide
    · exact ViewInv.dependsOn.guarded rfl (judgeViewDefine_keeps_viewInv _ _ hs) hs e
    · exact ViewInv.dependsOn.guarded rfl (judgeViewBind_keeps_viewInv _ _ _ hs) hs e
    · exact ViewInv.dependsOn.guarded rfl (judgeViewUnbind_keeps_viewInv _ _ hs) hs e
    · exact ViewInv.dependsOn.guarded rfl (judgeViewErase_keeps_viewInv _ hs) hs e
    · exact ViewInv.dependsOn.guarded rfl (judgeDefaultView_keeps_viewInv _ hs) hs e

end Sys2Proof.Machine
end

