-- ==== Sys2Proof/Proofs/GridCells.lean ====
section
/-! Grid memory stays covered once by the free extents and the sets (R60): first fit, freeing with its merges, and the
invariant over every step. -/

namespace Sys2Proof.Machine

open Host (Outcome)

/-! ### Free extents (R60) -/

/-- A list of free extents: in base order, no two adjacent, none empty. -/
def FreeList (l : List Extent) : Prop := (l.Pairwise fun a b => a.base + a.len < b.base) ∧ ∀ x ∈ l, 0 < x.len

/-- The cell is in one of the extents. -/
def Covers (l : List Extent) (cell : Nat) : Prop := ∃ x ∈ l, x.base ≤ cell ∧ cell < x.base + x.len

theorem covers_cons {e : Extent} {l : List Extent} {cell : Nat} :
    Covers (e :: l) cell ↔ (e.base ≤ cell ∧ cell < e.base + e.len) ∨ Covers l cell := by
  simp [Covers]

theorem FreeList.cons_iff {e : Extent} {l : List Extent} :
    FreeList (e :: l) ↔ 0 < e.len ∧ (∀ x ∈ l, e.base + e.len < x.base) ∧ FreeList l := by
  simp only [FreeList, List.pairwise_cons, List.forall_mem_cons]
  tauto

theorem FreeList.nil : FreeList [] := ⟨.nil, fun _ h => absurd h List.not_mem_nil⟩

/-- The extents of a list whose cells all lie beyond `n` begin beyond `n`: none is empty. -/
theorem FreeList.base_gt {l : List Extent} (h : FreeList l) {n : Nat} (hc : ∀ cell, Covers l cell → n < cell) :
    ∀ x ∈ l, n < x.base := fun x hx => hc x.base ⟨x, hx, Nat.le_refl _, Nat.lt_add_of_pos_right (h.2 x hx)⟩

/-! ### Freeing a run (R60) -/

theorem joinNext_cons (e f : Extent) (l : List Extent) :
    joinNext e (f :: l)
      = if e.base + e.len = f.base then { base := e.base, len := e.len + f.len } :: l else e :: f :: l := rfl

theorem freeCells_cons (e f : Extent) (l : List Extent) :
    freeCells e (f :: l)
      = if f.base + f.len = e.base then joinNext { base := f.base, len := f.len + e.len } l
        else if f.base < e.base then f :: freeCells e l
        else joinNext e (f :: l) := rfl

/-- A run put before extents that begin after it. -/
theorem joinNext_spec {e : Extent} {l : List Extent} (he : 0 < e.len) (hl : FreeList l)
    (hb : ∀ x ∈ l, e.base + e.len ≤ x.base) :
    FreeList (joinNext e l) ∧ ((joinNext e l).map Extent.len).sum = (l.map Extent.len).sum + e.len
      ∧ ∀ cell, Covers (joinNext e l) cell ↔ Covers l cell ∨ (e.base ≤ cell ∧ cell < e.base + e.len) := by
  cases l with
  | nil =>
    refine ⟨FreeList.cons_iff.2 ⟨he, fun x hx => absurd hx List.not_mem_nil, hl⟩, by simp [joinNext], fun cell => ?_⟩
    rw [joinNext, covers_cons, or_comm]
  | cons f l =>
    obtain ⟨hf, hfl, hl'⟩ := FreeList.cons_iff.1 hl
    have hef := hb f List.mem_cons_self
    rw [joinNext_cons]
    split
    · rename_i heq
      refine ⟨FreeList.cons_iff.2 ⟨Nat.add_pos_left he _, fun x hx => ?_, hl'⟩, ?_, fun cell => ?_⟩
      · have := hfl x hx
        show e.base + (e.len + f.len) < x.base
        omega
      · simp only [List.map_cons, List.sum_cons]
        omega
      · simp only [covers_cons]
        constructor
        · rintro (h | h)
          · by_cases hc : cell < f.base
            · exact .inr ⟨h.1, by omega⟩
            · exact .inl (.inl ⟨by omega, by omega⟩)
          · exact .inl (.inr h)
        · rintro ((h | h) | h)
          · exact .inl ⟨by omega, by omega⟩
          · exact .inr h
          · exact .inl ⟨h.1, by omega⟩
    · refine ⟨FreeList.cons_iff.2 ⟨he, fun x hx => ?_, hl⟩, ?_, fun cell => ?_⟩
      · rcases List.mem_cons.1 hx with rfl | hx
        · omega
        · have := hfl x hx
          omega
      · simp only [List.map_cons, List.sum_cons]
        omega
      · rw [covers_cons, or_comm]

/-- A freed run that meets no free extent: the list stays ordered and merged, and gains exactly the run's cells (R60). -/
theorem freeCells_spec {e : Extent} {l : List Extent} (he : 0 < e.len) (hl : FreeList l)
    (hd : ∀ x ∈ l, x.base + x.len ≤ e.base ∨ e.base + e.len ≤ x.base) :
    FreeList (freeCells e l) ∧ ((freeCells e l).map Extent.len).sum = (l.map Extent.len).sum + e.len
      ∧ ∀ cell, Covers (freeCells e l) cell ↔ Covers l cell ∨ (e.base ≤ cell ∧ cell < e.base + e.len) := by
  induction l with
  | nil => exact joinNext_spec he hl fun x hx => absurd hx List.not_mem_nil
  | cons f l ih =>
    obtain ⟨hf, hfl, hl'⟩ := FreeList.cons_iff.1 hl
    have hfe := hd f List.mem_cons_self
    rw [freeCells_cons]
    split
    · rename_i hmeet
      obtain ⟨hfree, hsum, hcov⟩ := joinNext_spec (e := { base := f.base, len := f.len + e.len }) (l := l)
        (by show 0 < f.len + e.len; omega) hl' (fun x hx => by
          have := hfl x hx
          have := hd x (List.mem_cons_of_mem _ hx)
          show f.base + (f.len + e.len) ≤ x.base
          omega)
      refine ⟨hfree, ?_, fun cell => ?_⟩
      · rw [hsum]
        simp only [List.map_cons, List.sum_cons]
        omega
      · rw [hcov, covers_cons]
        constructor
        · rintro (h | h)
          · exact .inl (.inr h)
          · by_cases hc : cell < e.base
            · exact .inl (.inl ⟨h.1, by omega⟩)
            · have hend : cell < f.base + (f.len + e.len) := h.2
              exact .inr ⟨by omega, by omega⟩
        · rintro ((h | h) | h)
          · exact .inr ⟨h.1, by show cell < f.base + (f.len + e.len); omega⟩
          · exact .inl h
          · exact .inr ⟨by show f.base ≤ cell; omega, by show cell < f.base + (f.len + e.len); omega⟩
    · rename_i hmeet
      split
      · obtain ⟨hfree, hsum, hcov⟩ := ih hl' fun x hx => hd x (List.mem_cons_of_mem _ hx)
        have hbeyond : ∀ cell, Covers (freeCells e l) cell → f.base + f.len < cell := fun cell hc => by
          rcases (hcov cell).1 hc with ⟨x, hx, hlo, -⟩ | ⟨hlo, -⟩
          · have := hfl x hx
            omega
          · omega
        refine ⟨FreeList.cons_iff.2 ⟨hf, hfree.base_gt hbeyond, hfree⟩, ?_, fun cell => ?_⟩
        · simp only [List.map_cons, List.sum_cons, hsum]
          omega
        · rw [covers_cons, covers_cons, hcov, or_assoc]
      · refine joinNext_spec he hl fun x hx => ?_
        rcases List.mem_cons.1 hx with rfl | hx
        · omega
        · have := hfl x hx
          omega

/-! ### First fit (R65) -/

theorem takeCells_cons (size : Nat) (e : Extent) (l : List Extent) :
    takeCells size (e :: l)
      = if size ≤ e.len then
          some (e.base, if e.len = size then l else { base := e.base + size, len := e.len - size } :: l)
        else (takeCells size l).map fun r => (r.1, e :: r.2) := rfl

/-- First fit takes a run of cells that were free, and leaves the others. -/
theorem takeCells_spec {size b : Nat} {l l' : List Extent} (hs : 0 < size) (hl : FreeList l)
    (h : takeCells size l = some (b, l')) :
    FreeList l' ∧ ∀ cell, (Covers l cell ↔ (b ≤ cell ∧ cell < b + size) ∨ Covers l' cell)
      ∧ (b ≤ cell ∧ cell < b + size → ¬ Covers l' cell) := by
  induction l generalizing b l' with
  | nil => cases h
  | cons e l ih =>
    obtain ⟨he, hel, hl'⟩ := FreeList.cons_iff.1 hl
    have beyond : ∀ cell, Covers l cell → e.base + e.len < cell := fun cell ⟨x, hx, hlo, _⟩ => by
      have := hel x hx
      omega
    rw [takeCells_cons] at h
    split at h
    · obtain ⟨rfl, rfl⟩ := Prod.mk.inj (Option.some.inj h)
      split
      · rename_i hlen
        subst hlen
        exact ⟨hl', fun cell => ⟨covers_cons, fun hin hc => by have := beyond cell hc; omega⟩⟩
      · refine ⟨FreeList.cons_iff.2 ⟨by show 0 < e.len - size; omega, fun x hx => ?_, hl'⟩, fun cell => ⟨?_, ?_⟩⟩
        · have := hel x hx
          show e.base + size + (e.len - size) < x.base
          omega
        · rw [covers_cons, covers_cons, ← or_assoc]
          refine or_congr_left ⟨fun hin => ?_, fun hin => ?_⟩
          · show _ ∨ e.base + size ≤ cell ∧ cell < e.base + size + (e.len - size)
            omega
          · replace hin : _ ∨ e.base + size ≤ cell ∧ cell < e.base + size + (e.len - size) := hin
            omega
        · intro hin hc
          rcases covers_cons.1 hc with hc | hc
          · replace hc : e.base + size ≤ cell ∧ cell < e.base + size + (e.len - size) := hc
            omega
          · have := beyond cell hc
            omega
    · obtain ⟨⟨b', m⟩, hm, heq⟩ := Option.map_eq_some_iff.1 h
      obtain ⟨rfl, rfl⟩ := Prod.mk.inj heq
      obtain ⟨hfree, hcov⟩ := ih hl' hm
      have hbeyond : ∀ cell, Covers m cell → e.base + e.len < cell := fun cell hc =>
        beyond cell ((hcov cell).1.2 (.inr hc))
      refine ⟨FreeList.cons_iff.2 ⟨he, hfree.base_gt hbeyond, hfree⟩, fun cell => ⟨?_, fun hin hc => ?_⟩⟩
      · rw [covers_cons, covers_cons, (hcov cell).1]
        tauto
      · rcases covers_cons.1 hc with hc | hc
        · have := beyond cell ((hcov cell).1.2 (.inl hin))
          omega
        · exact (hcov cell).2 hin hc

/-! ### Grid memory covered once (R60) -/

/-- The cell lies in a run that is there. -/
def runHas (o : Option GridShape) (cell : Nat) : Prop := ∃ g, o = some g ∧ g.base ≤ cell ∧ cell < g.base + g.size

/-- R60 of the free extents and the runs of the sets. -/
def CellsCovered (free : List Extent) (run : Fin 32 → Option GridShape) : Prop :=
  FreeList free ∧ (∀ e ∈ free, e.base + e.len ≤ 65536) ∧ (∀ i g, run i = some g → g.base + g.size ≤ 65536)
    ∧ ∀ cell : Nat, cell < 65536 → (Covers free cell ∧ ∀ i, ¬ runHas (run i) cell)
      ∨ (¬ Covers free cell ∧ ∃ i, runHas (run i) cell ∧ ∀ j, j ≠ i → ¬ runHas (run j) cell)

theorem Grid.has_iff {g : Grid} {cell : Nat} : g.has cell ↔ runHas g.shape? cell := by
  cases g <;> simp [Grid.has, runHas, Grid.shape?]

theorem Grid.shape?_eq_some {x : Grid} {g : GridShape} : x.shape? = some g ↔ ∃ p, x = .held g p := by
  cases x <;> simp [Grid.shape?]

theorem gridCellsInv_iff {s : State} : GridCellsInv s ↔ CellsCovered s.gs.free fun i => s.gs.sets[i].shape? := by
  unfold GridCellsInv CellsCovered FreeList Covers
  simp only [Grid.has_iff, Extent.has, Grid.shape?_eq_some, not_exists, not_and]
  constructor
  · rintro ⟨hp, he, hs, hc⟩
    exact ⟨⟨hp, fun e h => (he e h).1⟩, fun e h => (he e h).2, fun i g ⟨p, hg⟩ => hs i g p hg, hc⟩
  · rintro ⟨⟨hp, hl⟩, he, hs, hc⟩
    exact ⟨hp, fun e h => ⟨hl e h, he e h⟩, fun i g p hg => hs i g ⟨p, hg⟩, hc⟩

theorem GridShape.size_pos (g : GridShape) : 0 < g.size := by
  have : 0 < (g.bw + 1) * (g.bh + 1) := Nat.mul_pos (Nat.succ_pos _) (Nat.succ_pos _)
  unfold GridShape.size GridShape.nodes
  omega

/-- No cell of a free list that lies within grid memory is past its end. -/
theorem FreeList.bound {l : List Extent} (h : FreeList l) (hc : ∀ cell, Covers l cell → cell < 65536) :
    ∀ e ∈ l, e.base + e.len ≤ 65536 := fun e he => by
  have hpos := h.2 e he
  have := hc (e.base + e.len - 1) ⟨e, he, by omega, by omega⟩
  omega

theorem CellsCovered.lt {free : List Extent} {run : Fin 32 → Option GridShape} (h : CellsCovered free run) {cell : Nat}
    (hc : Covers free cell) : cell < 65536 := by
  obtain ⟨x, hx, -, hlt⟩ := hc
  exact Nat.lt_of_lt_of_le hlt (h.2.1 x hx)

theorem runHas_update_of_ne {run : Fin 32 → Option GridShape} {i j : Fin 32} {o : Option GridShape} {cell : Nat} (h : j ≠ i) :
    runHas (Function.update run i o j) cell ↔ runHas (run j) cell := by
  rw [Function.update_of_ne h]

/-- An ABSENT set takes a run of free cells (R65). -/
theorem CellsCovered.take {free free' : List Extent} {run : Fin 32 → Option GridShape} {i : Fin 32} {g : GridShape}
    (h : CellsCovered free run) (hi : run i = none) (ht : takeCells g.size free = some (g.base, free')) :
    CellsCovered free' (Function.update run i (some g)) := by
  obtain ⟨hfree, -, hrun, hcell⟩ := id h
  obtain ⟨hfree', hspec⟩ := takeCells_spec g.size_pos hfree ht
  have old_i (cell : Nat) : ¬ runHas (run i) cell := by simp [runHas, hi]
  have new_i (cell : Nat) : runHas (Function.update run i (some g) i) cell ↔ g.base ≤ cell ∧ cell < g.base + g.size := by
    simp [runHas]
  refine ⟨hfree', hfree'.bound fun cell hc => h.lt ((hspec cell).1.2 (.inr hc)), fun j x hx => ?_, fun cell hlt => ?_⟩
  · by_cases hj : j = i
    · subst hj
      obtain rfl : g = x := by simpa using hx
      have hpos := g.size_pos
      have := h.lt ((hspec (g.base + g.size - 1)).1.2 (.inl ⟨by omega, by omega⟩))
      omega
    · rw [Function.update_of_ne hj] at hx
      exact hrun j x hx
  · obtain ⟨hiff, hout⟩ := hspec cell
    rcases hcell cell hlt with ⟨hc, hn⟩ | ⟨hc, k, hk, honly⟩
    · have others (j : Fin 32) (hj : j ≠ i) : ¬ runHas (Function.update run i (some g) j) cell := by
        rw [runHas_update_of_ne hj]
        exact hn j
      by_cases hin : g.base ≤ cell ∧ cell < g.base + g.size
      · exact .inr ⟨hout hin, i, (new_i cell).2 hin, others⟩
      · refine .inl ⟨(hiff.1 hc).resolve_left hin, fun j => ?_⟩
        by_cases hj : j = i
        · subst hj
          rwa [new_i]
        · exact others j hj
    · have hki : k ≠ i := fun e => old_i cell (e ▸ hk)
      have hnin : ¬ (g.base ≤ cell ∧ cell < g.base + g.size) := fun hin => hc (hiff.2 (.inl hin))
      refine .inr ⟨fun hc' => hc (hiff.2 (.inr hc')), k, (runHas_update_of_ne hki).2 hk, fun j hj => ?_⟩
      by_cases hji : j = i
      · subst hji
        rwa [new_i]
      · rw [runHas_update_of_ne hji]
        exact honly j hj

/-- A set gives its run back (R71). -/
theorem CellsCovered.free {free : List Extent} {run : Fin 32 → Option GridShape} {i : Fin 32} {g : GridShape}
    (h : CellsCovered free run) (hi : run i = some g) :
    CellsCovered (freeCells { base := g.base, len := g.size } free) (Function.update run i none) := by
  obtain ⟨hfree, hbound, hrun, hcell⟩ := id h
  have hg := hrun i g hi
  have hpos := g.size_pos
  have old_i (cell : Nat) : runHas (run i) cell ↔ g.base ≤ cell ∧ cell < g.base + g.size := by simp [runHas, hi]
  have new_i (cell : Nat) : ¬ runHas (Function.update run i none i) cell := by simp [runHas]
  have not_free (cell : Nat) (hin : g.base ≤ cell ∧ cell < g.base + g.size) : ¬ Covers free cell := by
    rcases hcell cell (by omega) with ⟨-, hn⟩ | ⟨hc, -⟩
    · exact absurd ((old_i cell).2 hin) (hn i)
    · exact hc
  have apart : ∀ x ∈ free, x.base + x.len ≤ g.base ∨ g.base + g.size ≤ x.base := fun x hx => by
    have hx0 := hfree.2 x hx
    by_contra hmeet
    rw [not_or] at hmeet
    exact not_free (max x.base g.base) (by omega) ⟨x, hx, by omega, by omega⟩
  obtain ⟨hfree', -, hcov⟩ := freeCells_spec (e := { base := g.base, len := g.size }) hpos hfree apart
  refine ⟨hfree', hfree'.bound fun cell hc => ?_, fun j x hx => ?_, fun cell hlt => ?_⟩
  · rcases (hcov cell).1 hc with hc | hin
    · exact h.lt hc
    · exact Nat.lt_of_lt_of_le hin.2 hg
  · by_cases hj : j = i
    · subst hj
      simp at hx
    · rw [Function.update_of_ne hj] at hx
      exact hrun j x hx
  · rcases hcell cell hlt with ⟨hc, hn⟩ | ⟨hc, k, hk, honly⟩
    · refine .inl ⟨(hcov cell).2 (.inl hc), fun j => ?_⟩
      by_cases hj : j = i
      · subst hj
        exact new_i cell
      · rw [runHas_update_of_ne hj]
        exact hn j
    · by_cases hki : k = i
      · subst hki
        refine .inl ⟨(hcov cell).2 (.inr ((old_i cell).1 hk)), fun j => ?_⟩
        by_cases hj : j = k
        · subst hj
          exact new_i cell
        · rw [runHas_update_of_ne hj]
          exact honly j hj
      · have hnin : ¬ (g.base ≤ cell ∧ cell < g.base + g.size) := fun hin =>
          honly i (Ne.symm hki) ((old_i cell).2 hin)
        refine .inr ⟨fun hc' => ?_, k, (runHas_update_of_ne hki).2 hk, fun j hj => ?_⟩
        · rcases (hcov cell).1 hc' with hc' | hin
          · exact hc hc'
          · exact hnin hin
        · by_cases hji : j = i
          · subst hji
            exact new_i cell
          · rw [runHas_update_of_ne hji]
            exact honly j hj

/-! ### The invariant over a step -/

theorem GridCellsInv.dependsOn : DependsOn [.free, .shapes] GridCellsInv := by
  intro s t hk hs
  have kfree : t.gs.free = s.gs.free := hk .free (by simp)
  have kshapes : ∀ i : Fin 32, t.gs.sets[i].shape? = s.gs.sets[i].shape? := hk .shapes (by simp)
  rw [gridCellsInv_iff] at hs ⊢
  simpa only [kfree, kshapes] using hs

theorem GridCellsInv.reset : GridCellsInv State.reset := by
  have absent (i : Fin 32) : State.reset.gs.sets[i].shape? = none := by
    simp [State.reset, GridStore.reset, Grid.shape?]
  have free : State.reset.gs.free = [{ base := 0, len := 65536 }] := rfl
  rw [gridCellsInv_iff, free]
  refine ⟨FreeList.cons_iff.2 ⟨by decide, fun x hx => absurd hx List.not_mem_nil, .nil⟩, ?_, fun i g h => ?_,
    fun cell hlt => .inl ⟨covers_cons.2 (.inl ⟨Nat.zero_le _, by simpa using hlt⟩), fun i => ?_⟩⟩
  · simp
  · cases (absent i).symm.trans h
  · rintro ⟨g, h, -⟩
    cases (absent i).symm.trans h

/-- The runs of the sets after one set is put. -/
theorem shapes_set (sets : Vector Grid 32) (i : Fin 32) (g : Grid) :
    (fun j : Fin 32 => (sets.set i g)[j].shape?) = Function.update (fun j : Fin 32 => sets[j].shape?) i g.shape? := by
  funext j
  rw [Vector.getElem_set_fin, Function.update_apply]
  split <;> rfl

theorem judgeGridOpen_keeps_gridCellsInv {s : State} (p : Port) (id bw bh : Nat) (hs : GridCellsInv s) :
    (judgeGridOpen p id bw bh s).Keeps GridCellsInv := by
  unfold judgeGridOpen
  split
  · rfl
  · rename_i i _
    split
    · rfl
    · split
      · rfl
      · rename_i habs
        have hi : s.gs.sets[i].shape? = none := by rw [not_not.1 habs]; rfl
        dsimp only
        split
        · rfl
        · rename_i base free ht
          refine ⟨rfl, gridCellsInv_iff.2 ?_⟩
          rw [shapes_set]
          exact (gridCellsInv_iff.1 hs).take (g := ⟨base, bw, bh⟩) hi ht

theorem State.deleteGrid_gridCellsInv {s : State} {i : Fin 32} {g : GridShape} {p : GridPhase} (hs : GridCellsInv s)
    (hi : s.gs.sets[i] = .held g p) : GridCellsInv (s.deleteGrid i g) := by
  have hrun : s.gs.sets[i].shape? = some g := by rw [hi]; rfl
  rw [gridCellsInv_iff]
  show CellsCovered _ fun j : Fin 32 => (s.gs.sets.set i .absent)[j].shape?
  rw [shapes_set]
  exact (gridCellsInv_iff.1 hs).free hrun

theorem judgeGridDelete_keeps_gridCellsInv {s : State} (h : Hdr) (id : Nat) (hs : GridCellsInv s) :
    (judgeGridDelete h id s).Keeps GridCellsInv := by
  unfold judgeGridDelete
  split
  · rfl
  · split
    · rfl
    · rename_i hk
      refine guardGen_keeps (Q := GridCellsInv) ?_ fun u _ _ hu =>
        GridCellsInv.dependsOn.within (within_advanceGen u) rfl hu
      unfold judgeDeleteValid
      split
      · rfl
      · exact ⟨rfl, State.deleteGrid_gridCellsInv hs hk⟩
    · rename_i hk
      split
      · rfl
      · exact ⟨rfl, State.deleteGrid_gridCellsInv hs hk⟩

theorem gridCells_mem_footprint {i : Instr} (h : .free ∈ footprint i ∨ .shapes ∈ footprint i) :
    isHardReset i = true ∨ (∃ h x bw bh, i = .gridOpen h x bw bh) ∨ ∃ h x, i = .gridDelete h x := by
  cases i <;> simp [footprint, isHardReset, pipelineParts] at h ⊢
  case status h c => cases c <;> simp at h

theorem GridCellsInv.step {s t : State} (hs : GridCellsInv s) (e : step s = .next t) : GridCellsInv t := by
  refine GridCellsInv.dependsOn.step rfl ?_ hs e
  rintro i s t ⟨x, hx, hf⟩ e hs
  have hf : .free ∈ footprint i ∨ .shapes ∈ footprint i := by
    obtain rfl | rfl : x = .free ∨ x = .shapes := by simpa using hx
    · exact .inl hf
    · exact .inr hf
  rcases gridCells_mem_footprint hf with h | ⟨h, x, bw, bh, rfl⟩ | ⟨h, x, rfl⟩
  · refine GridCellsInv.dependsOn.abandons rfl (abandons_of_isHardReset h)
      (GridCellsInv.dependsOn.within (within_reset_hardReset s) rfl .reset) ?_ hs e
    exact GridCellsInv.dependsOn.within (within_pipelineReset s) rfl hs
  · exact GridCellsInv.dependsOn.command rfl (judgeGridOpen_keeps_gridCellsInv _ _ _ _ hs) hs e
  · exact GridCellsInv.dependsOn.command rfl (judgeGridDelete_keeps_gridCellsInv _ _ hs) hs e

end Sys2Proof.Machine
end

