-- ==== Sys2Proof/Proofs/Bindings.lean ====
section
/-! Bind counts equal the panes' bindings, and in-use flags what the compose in flight reads, over every step (R72). Settles the
statement on areas, views, grid memory and bindings. -/

namespace Sys2Proof.Machine

open Host (Outcome)

/-! ### Bindings of a list of panes -/

/-- How many of the panes are bound to set `i`. -/
def bindsIn (i : Fin 32) (l : List Pane) : Nat := l.countP fun p => decide (p.binding = some i)

theorem bindsIn_cons (i : Fin 32) (p : Pane) (l : List Pane) :
    bindsIn i (p :: l) = bindsIn i l + if p.binding = some i then 1 else 0 := by
  simp [bindsIn, List.countP_cons]

/-- A pane bound anew: the count falls by its old binding and rises by its new one. -/
theorem bindsIn_modify {i : Fin 32} {l : List Pane} {k : Nat} {p : Pane} (b : Option (Fin 32)) (h : l[k]? = some p) :
    bindsIn i (l.modify k fun p => { p with binding := b }) + (if p.binding = some i then 1 else 0)
      = bindsIn i l + if b = some i then 1 else 0 := by
  induction l generalizing k with
  | nil => simp at h
  | cons q l ih =>
    cases k with
    | zero =>
      obtain rfl : q = p := by simpa using h
      simp only [List.modify_zero_cons, bindsIn_cons]
      omega
    | succ k =>
      have hk := ih (by simpa using h)
      simp only [List.modify_succ_cons, bindsIn_cons]
      omega

theorem bindsIn_pos {i : Fin 32} {l : List Pane} : 0 < bindsIn i l ↔ ∃ p ∈ l, p.binding = some i := by
  simp [bindsIn, List.countP_pos_iff]

/-- The panes of a layout have no binding (R77). -/
theorem bindsIn_layoutOf {i : Fin 32} {a : List PaneArg} {l : List Pane} (h : layoutOf a = some l) : bindsIn i l = 0 := by
  have unbound {r : PaneArg} {p : Pane} (h : paneOf r = some p) : p.binding = none := by
    unfold paneOf at h
    split at h
    · cases h
    · split at h
      · cases h
      · split at h
        · cases h
        · cases h
          rfl
      · obtain ⟨t, -, rfl⟩ := Option.map_eq_some_iff.1 h
        rfl
  unfold layoutOf at h
  split at h
  · obtain ⟨p, hp, rfl⟩ := Option.map_eq_some_iff.1 h
    simp [bindsIn, unbound hp]
  · split at h
    · rename_i p q hp hq
      split at h
      · cases h
      · cases h
        simp [bindsIn, unbound hp, unbound hq]
    · cases h
  · cases h

/-! ### Bindings across the catalogue -/

theorem State.paneBinds_eq_sum (s : State) (i : Fin 32) : s.paneBinds i = ∑ v : Fin 16, bindsIn i (s.panes v) := by
  have entries : s.vc.views.toList = List.ofFn fun v : Fin 16 => s.vc.views[v] := 
    List.ext_getElem (by simp) fun v hv hv' => by simp only [Vector.getElem_toList, List.getElem_ofFn]; rfl
  rw [paneBinds, entries, List.map_ofFn, List.sum_ofFn]
  rfl

/-- The bindings of a catalogue after one view is put. -/
theorem State.paneBinds_setView (s : State) (v : Fin 16) (x : Option (List Pane)) (i : Fin 32) :
    (s.setView v x).paneBinds i + bindsIn i (s.panes v) = s.paneBinds i + bindsIn i (x.getD []) := by
  have panes (w : Fin 16) : (s.setView v x).panes w = if w = v then x.getD [] else s.panes w := by
    unfold State.panes
    rw [State.setView_views]
    split <;> rfl
  rw [paneBinds_eq_sum, paneBinds_eq_sum, ← Finset.add_sum_erase _ _ (Finset.mem_univ v),
    ← Finset.add_sum_erase (f := fun w => bindsIn i (s.panes w)) _ (Finset.mem_univ v)]
  have rest : ∑ w ∈ Finset.univ.erase v, bindsIn i ((s.setView v x).panes w) = ∑ w ∈ Finset.univ.erase v, bindsIn i (s.panes w) :=
    Finset.sum_congr rfl fun w hw => by rw [panes, if_neg (Finset.ne_of_mem_erase hw)]
  rw [rest, panes, if_pos rfl]
  omega

theorem State.bindsIn_panes_le (s : State) (v : Fin 16) (i : Fin 32) : bindsIn i (s.panes v) ≤ s.paneBinds i := by
  rw [paneBinds_eq_sum]
  exact Finset.single_le_sum (f := fun w => bindsIn i (s.panes w)) (fun _ _ => Nat.zero_le _) (Finset.mem_univ v)

theorem State.paneBinds_congr {s t : State} (h : t.vc.views = s.vc.views) (i : Fin 32) : t.paneBinds i = s.paneBinds i := by
  unfold paneBinds
  rw [h]

/-! ### Bind counts of the sets -/

theorem Grid.binds_changeBinds_sub (g : Grid) : (g.changeBinds (· - 1)).binds = g.binds - 1 := by
  cases g with
  | absent => rfl
  | held sh ph => cases ph <;> rfl

theorem State.setGrid_sets (s : State) (i j : Fin 32) (g : Grid) :
    (s.setGrid i g).gs.sets[j] = if j = i then g else s.gs.sets[j] := Vector.getElem_set_fin ..

theorem State.binds_unbind (s : State) (b : Option (Fin 32)) (i : Fin 32) :
    (s.unbind b).gs.sets[i].binds = s.gs.sets[i].binds - if b = some i then 1 else 0 := by
  cases b with
  | none => simp [State.unbind]
  | some k =>
    unfold State.unbind State.changeBinds
    rw [setGrid_sets]
    by_cases h : i = k
    · subst h
      simp [Grid.binds_changeBinds_sub]
    · simp [h, Ne.symm h]

theorem State.binds_unbindAll (s : State) (l : List Pane) (i : Fin 32) :
    (s.unbindAll l).gs.sets[i].binds = s.gs.sets[i].binds - bindsIn i l := by
  induction l generalizing s with
  | nil => rfl
  | cons p l ih =>
    have h : s.unbindAll (p :: l) = (s.unbind p.binding).unbindAll l := rfl
    rw [h, ih, binds_unbind, bindsIn_cons]
    omega

/-- Bind counts equal the panes' bindings (R72). -/
def BindsCounted (s : State) : Prop := ∀ i : Fin 32, s.gs.sets[i].binds = s.paneBinds i

theorem BindsCounted.dependsOn : DependsOn [.binds, .catalogue] BindsCounted := by
  intro s t hk hs i
  have kbinds : t.gs.sets[i].binds = s.gs.sets[i].binds := hk .binds (by simp) i
  have kcat : t.vc = s.vc := hk .catalogue (by simp)
  rw [kbinds, State.paneBinds_congr (congrArg Catalogue.views kcat)]
  exact hs i

theorem State.panes_of_views {s : State} {v : Fin 16} {l : List Pane} (h : s.vc.views[v] = some l) : s.panes v = l := by
  simp [State.panes, h]

/-- A view put in place of panes whose bindings are removed first (R77, R80). -/
theorem BindsCounted.replace {s : State} (hs : BindsCounted s) (v : Fin 16) {x : Option (List Pane)}
    (hx : ∀ i, bindsIn i (x.getD []) = 0) : BindsCounted ((s.unbindAll (s.panes v)).setView v x) := by
  intro i
  have hput := (s.unbindAll (s.panes v)).paneBinds_setView v x i
  have hviews : (s.unbindAll (s.panes v)).vc = s.vc := s.unbindAll_vc _
  have hpanes : (s.unbindAll (s.panes v)).panes v = s.panes v := by rw [State.panes, hviews, State.panes]
  have hle := s.bindsIn_panes_le v i
  rw [hpanes, State.paneBinds_congr (congrArg Catalogue.views hviews), hx i] at hput
  have hbinds : ((s.unbindAll (s.panes v)).setView v x).gs.sets[i].binds = s.gs.sets[i].binds - bindsIn i (s.panes v) :=
    s.binds_unbindAll _ i
  rw [hbinds, hs i]
  omega

/-- A pane of a view bound anew, the counts of its old and its new set changed with it (R78, R79). -/
theorem BindsCounted.rebind {s t : State} (hs : BindsCounted s) {v : Fin 16} {l : List Pane} {k : Nat} {p : Pane}
    (b : Option (Fin 32)) (hv : s.vc.views[v] = some l) (hk : l[k]? = some p) (htv : t.vc = s.vc)
    (hb : ∀ i, t.gs.sets[i].binds + (if p.binding = some i then 1 else 0) = s.gs.sets[i].binds + if b = some i then 1 else 0) :
    BindsCounted (t.setView v (some (l.modify k fun p => { p with binding := b }))) := by
  intro i
  have hput := t.paneBinds_setView v (some (l.modify k fun p => { p with binding := b })) i
  have hpanes : t.panes v = l := by rw [State.panes, htv, hv]; rfl
  rw [hpanes, State.paneBinds_congr (congrArg Catalogue.views htv), Option.getD_some] at hput
  have hmod := bindsIn_modify (i := i) b hk
  have hle := s.bindsIn_panes_le v i
  rw [State.panes_of_views hv] at hle
  have hbi := hb i
  show t.gs.sets[i].binds = _
  have hsi := hs i
  omega

/-- A pane's own binding is among those counted. -/
theorem BindsCounted.binding_le {s : State} (hs : BindsCounted s) {v : Fin 16} {l : List Pane} {k : Nat} {p : Pane}
    (hv : s.vc.views[v] = some l) (hk : l[k]? = some p) (i : Fin 32) :
    (if p.binding = some i then 1 else 0) ≤ s.gs.sets[i].binds := by
  split
  · rename_i hp
    rw [hs i]
    refine Nat.le_trans (bindsIn_pos.2 ⟨p, ?_, hp⟩) (s.bindsIn_panes_le v i)
    rw [State.panes_of_views hv]
    exact List.mem_of_getElem? hk
  · exact Nat.zero_le _

theorem judgeViewDefine_keeps_bindsCounted {s : State} (v : Nat) (l : List PaneArg) (hs : BindsCounted s) :
    (judgeViewDefine v l s).Keeps BindsCounted := by
  unfold judgeViewDefine
  split
  · rfl
  · rfl
  · split
    · rfl
    · rename_i hl _
      exact ⟨rfl, hs.replace _ fun i => bindsIn_layoutOf hl⟩

theorem judgeViewErase_keeps_bindsCounted {s : State} (v : Nat) (hs : BindsCounted s) :
    (judgeViewErase v s).Keeps BindsCounted := by
  unfold judgeViewErase
  split
  · rfl
  · split
    · rfl
    · rename_i hv
      split
      · rfl
      · rw [← State.panes_of_views hv]
        exact ⟨rfl, hs.replace _ fun i => rfl⟩

theorem judgeViewUnbind_keeps_bindsCounted {s : State} (v p : Nat) (hs : BindsCounted s) :
    (judgeViewUnbind v p s).Keeps BindsCounted := by
  unfold judgeViewUnbind
  split
  · rfl
  · split
    · rfl
    · split
      · rfl
      · rename_i hv
        split
        · rfl
        · rename_i q hk
          split
          · rfl
          · refine ⟨rfl, hs.rebind none hv hk (s.unbind_vc _) fun i => ?_⟩
            have hle := hs.binding_le hv hk i
            rw [State.binds_unbind]
            simp only [reduceCtorEq, if_false]
            omega

/-- The bind count of a VALID set after a binding that was removed and one that is made (R78). -/
theorem State.binds_bind {s : State} {old : Option (Fin 32)} {i : Fin 32} {g : GridShape} {b : Nat} {u : Bool}
    (hi : s.gs.sets[i] = .held g (.valid b u)) (j : Fin 32) (hle : (if old = some j then 1 else 0) ≤ s.gs.sets[j].binds) :
    ((s.unbind old).changeBinds (· + 1) i).gs.sets[j].binds + (if old = some j then 1 else 0)
      = s.gs.sets[j].binds + if some i = some j then 1 else 0 := by
  have hvalid : ∃ b', (s.unbind old).gs.sets[i] = .held g (.valid b' u) := by
    cases old with
    | none => exact ⟨b, hi⟩
    | some k =>
      unfold State.unbind State.changeBinds
      rw [setGrid_sets]
      split
      · rename_i hik
        rw [← hik, hi]
        exact ⟨b - 1, rfl⟩
      · exact ⟨b, hi⟩
  obtain ⟨b', hb'⟩ := hvalid
  have hold := s.binds_unbind old j
  unfold State.changeBinds
  rw [setGrid_sets]
  by_cases hj : j = i
  · subst hj
    rw [hb'] at hold ⊢
    replace hold : b' = _ := hold
    rw [if_pos rfl, if_pos rfl]
    show b' + 1 + _ = _
    omega
  · simp only [hj, if_false, Option.some.injEq, Ne.symm hj]
    omega

theorem judgeViewBind_keeps_bindsCounted {s : State} (v p g : Nat) (hs : BindsCounted s) :
    (judgeViewBind v p g s).Keeps BindsCounted := by
  unfold judgeViewBind
  split
  · rfl
  · rfl
  · split
    · rfl
    · split
      · rfl
      · rename_i hv
        split
        · rfl
        · rename_i q hk
          split
          · rename_i hi
            split
            · rfl
            · refine ⟨rfl, hs.rebind _ hv hk (s.unbind_vc _) fun j => ?_⟩
              exact State.binds_bind hi j (hs.binding_le hv hk j)
          · rfl

theorem binds_mem_footprint {i : Instr} (h : .binds ∈ footprint i ∨ .catalogue ∈ footprint i) :
    isHardReset i = true ∨ (∃ h v l, i = .viewDefine h v l) ∨ (∃ h v p g, i = .viewBind h v p g)
      ∨ (∃ h v p, i = .viewUnbind h v p) ∨ (∃ h v, i = .viewErase h v) ∨ ∃ h v, i = .defaultView h v := by
  cases i <;> simp [footprint, isHardReset, pipelineParts] at h ⊢
  case status h c => cases c <;> simp at h

theorem judgeDefaultView_keeps_bindsCounted {s : State} (v : Option Nat) (hs : BindsCounted s) :
    (judgeDefaultView v s).Keeps BindsCounted := by
  have dflt (d : Option (Fin 16)) : BindsCounted (s.setDefault d) := fun i => hs i
  unfold judgeDefaultView
  split
  · exact ⟨rfl, dflt _⟩
  · split
    · rfl
    · split
      · rfl
      · exact ⟨rfl, dflt _⟩

theorem BindsCounted.reset : BindsCounted State.reset := by
  intro i
  have unset (v : Fin 16) : bindsIn i (State.reset.panes v) = 0 := by
    simp [State.panes, State.reset, Catalogue.reset, bindsIn]
  rw [State.paneBinds_eq_sum, Finset.sum_eq_zero fun v _ => unset v]
  simp [State.reset, GridStore.reset, Grid.binds]

theorem BindsCounted.exec {i : Instr} {s t : State} (hs : BindsCounted s) (e : exec i s = .next t) : BindsCounted t := by
  by_cases hf : .binds ∈ footprint i ∨ .catalogue ∈ footprint i
  · rcases binds_mem_footprint hf with h | ⟨h, v, l, rfl⟩ | ⟨h, v, p, g, rfl⟩ | ⟨h, v, p, rfl⟩ | ⟨h, v, rfl⟩ | ⟨h, v, rfl⟩
    · exact BindsCounted.dependsOn.abandons rfl (abandons_of_isHardReset h)
        (BindsCounted.dependsOn.within (within_reset_hardReset s) rfl .reset)
        (BindsCounted.dependsOn.within (within_pipelineReset s) rfl hs) hs e
    · exact BindsCounted.dependsOn.guarded rfl (judgeViewDefine_keeps_bindsCounted _ _ hs) hs e
    · exact BindsCounted.dependsOn.guarded rfl (judgeViewBind_keeps_bindsCounted _ _ _ hs) hs e
    · exact BindsCounted.dependsOn.guarded rfl (judgeViewUnbind_keeps_bindsCounted _ _ hs) hs e
    · exact BindsCounted.dependsOn.guarded rfl (judgeViewErase_keeps_bindsCounted _ hs) hs e
    · exact BindsCounted.dependsOn.guarded rfl (judgeDefaultView_keeps_bindsCounted _ hs) hs e
  · refine BindsCounted.dependsOn (fun x hx => exec_within e x fun h => hf ?_) hs
    obtain rfl | rfl : x = .binds ∨ x = .catalogue := by simpa using hx
    · exact .inl h
    · exact .inr h

/-! ### What a compose start can be -/

/-- A compose start touches no ring, set or compose, or begins a compose from an idle engine into the ring's target (R86 to
R88). -/
theorem State.composeStart_cases (s : State) :
    Within [] s s.composeStart ∨ ∃ (u : State) (r : OutRing) (v : Fin 16) (k : Nat), Within [] s u ∧ u.ce.current = none
      ∧ u.fsc.outRing = some r ∧ r.composeTarget u.su.held = some k ∧ s.composeStart = u.beginCompose r v k := by
  have ticked := within_tickTimebase s
  unfold composeStart
  split
  · unfold startCompose
    split
    · exact .inl (ticked.trans (within_overrun _ _))
    · rename_i hidle
      have decided := ticked.trans (within_takeDecision s.tickTimebase)
      have idle : s.tickTimebase.takeDecision.ce.current = none := by
        have kept : s.tickTimebase.takeDecision.ce.current.map Compose.work = s.tickTimebase.ce.current.map Compose.work :=
          within_takeDecision s.tickTimebase .current List.not_mem_nil
        rw [hidle] at kept
        exact Option.map_eq_none_iff.1 kept
      unfold startIdle
      dsimp only
      split
      · exact .inl (decided.trans (within_countCompose _ _))
      · split
        · exact .inl (decided.trans (within_countCompose _ _))
        · rename_i v _
          unfold seekTarget
          split
          · exact .inl (decided.trans (within_blocked _))
          · rename_i r hr
            split
            · exact .inl (decided.trans (within_blocked _))
            · rename_i k hk
              exact .inr ⟨_, r, v, k, decided, idle, hr, hk, rfl⟩
  · exact .inl (.refl _ s)

/-! ### Sets in use (R72) -/

/-- A set's in-use flag is set when a pane of the compose in flight is bound to it (R72). -/
def SetsInUse (s : State) : Prop :=
  ∀ i : Fin 32, s.gs.sets[i].inUse = true ↔ ∃ c, s.ce.current = some c ∧ ∃ p ∈ c.snap.panes, p.binding = some i

/-- What a compose in flight reads, by what it works on. -/
theorem reads_iff {o : Option Compose} {i : Fin 32} :
    (∃ c, o = some c ∧ ∃ p ∈ c.snap.panes, p.binding = some i)
      ↔ ∃ w, o.map Compose.work = some w ∧ ∃ p ∈ w.2.panes, p.binding = some i := by
  cases o <;> simp [Compose.work]

theorem SetsInUse.dependsOn : DependsOn [.inUse, .current] SetsInUse := by
  intro s t hk hs i
  have kuse : t.gs.sets[i].inUse = s.gs.sets[i].inUse := hk .inUse (by simp) i
  have kcur : t.ce.current.map Compose.work = s.ce.current.map Compose.work := hk .current (by simp)
  rw [kuse, hs i, reads_iff, reads_iff, kcur]

/-- With no compose in flight no set is in use. -/
theorem SetsInUse.of_idle {s : State} (hc : s.ce.current = none) (hu : ∀ i : Fin 32, s.gs.sets[i].inUse = false) :
    SetsInUse s := fun i =>
  iff_of_false (by rw [hu i]; exact Bool.false_ne_true) fun ⟨c, h, _⟩ => by
    rw [hc] at h
    cases h

/-- The set is VALID. -/
def Grid.isValid : Grid → Bool
  | .held _ (.valid _ _) => true
  | _ => false

theorem Grid.inUse_setInUse (f : Bool) (g : Grid) : (g.setInUse f).inUse = (g.isValid && f) := by
  cases g with
  | absent => rfl
  | held sh ph => cases ph <;> rfl

theorem Grid.isValid_setInUse (f : Bool) (g : Grid) : (g.setInUse f).isValid = g.isValid := by
  cases g with
  | absent => rfl
  | held sh ph => cases ph <;> rfl

theorem Grid.isValid_of_binds {g : Grid} (h : 0 < g.binds) : g.isValid = true := by
  cases g with
  | absent => cases h
  | held sh ph =>
    cases ph with
    | valid b u => rfl
    | _ => cases h

theorem Grid.inUse_eq_false_of_not_isValid {g : Grid} (h : g.isValid = false) : g.inUse = false := by
  cases g with
  | absent => rfl
  | held sh ph =>
    cases ph with
    | valid b u => cases h
    | _ => rfl

/-- The flags that are put for the panes' sets (R88, R103): those of the VALID ones. -/
theorem State.markSets_spec (s : State) (f : Bool) (l : List Pane) (i : Fin 32) :
    (s.markSets f l).gs.sets[i].isValid = s.gs.sets[i].isValid
      ∧ (s.markSets f l).gs.sets[i].inUse
        = if (∃ p ∈ l, p.binding = some i) ∧ s.gs.sets[i].isValid = true then f else s.gs.sets[i].inUse := by
  induction l generalizing s with
  | nil => simp [markSets]
  | cons p l ih =>
    cases hb : p.binding with
    | none =>
      have hstep : s.markSets f (p :: l) = s.markSets f l := by simp [markSets, hb]
      rw [hstep]
      simpa [hb] using ih s
    | some k =>
      have hstep : s.markSets f (p :: l) = (s.setGrid k (s.gs.sets[k].setInUse f)).markSets f l := by simp [markSets, hb]
      obtain ⟨hvalid, huse⟩ := ih (s.setGrid k (s.gs.sets[k].setInUse f))
      rw [hstep, hvalid, huse, setGrid_sets]
      by_cases hik : i = k
      · subst hik
        generalize s.gs.sets[i] = g
        rw [if_pos rfl, Grid.isValid_setInUse, Grid.inUse_setInUse]
        cases hv : g.isValid with
        | true => simp [hb]
        | false => simp [Grid.inUse_eq_false_of_not_isValid hv]
      · simp [hik, hb, Ne.symm hik]

/-- A compose that begins on an idle engine (R88). -/
theorem SetsInUse.beginCompose {s : State} (hs : SetsInUse s) (hb : BindsCounted s) (hidle : s.ce.current = none)
    (r : OutRing) (v : Fin 16) (k : Nat) : SetsInUse (s.beginCompose r v k) := by
  intro i
  let u := s.matchFrames.setOutRing (some (r.modify k fun x => { x with st := .composing s.tbu.now s.usableMask }))
  have hw : Within [.camRing, .outRing] s u := (within_matchFrames s).comp (within_setOutRing _ _)
  obtain ⟨-, huse⟩ := u.markSets_spec true (s.panes v) i
  have hput : (s.beginCompose r v k).gs.sets[i].inUse = (u.markSets true (s.panes v)).gs.sets[i].inUse := rfl
  have kuse : u.gs.sets[i].inUse = s.gs.sets[i].inUse := hw .inUse (by decide) i
  have kbinds : u.gs.sets[i].binds = s.gs.sets[i].binds := hw .binds (by decide) i
  have idle : s.gs.sets[i].inUse = false := by
    have h := hs i
    rw [hidle] at h
    simpa using h
  have bound : (∃ p ∈ s.panes v, p.binding = some i) → u.gs.sets[i].isValid = true := fun h =>
    Grid.isValid_of_binds (by
      rw [kbinds, hb i]
      exact Nat.lt_of_lt_of_le (bindsIn_pos.2 h) (s.bindsIn_panes_le v i))
  have reads : (∃ c, (s.beginCompose r v k).ce.current = some c ∧ ∃ p ∈ c.snap.panes, p.binding = some i)
      ↔ ∃ p ∈ s.panes v, p.binding = some i := by
    rw [reads_iff]
    exact ⟨fun ⟨w, hw, h⟩ => by cases hw; exact h, fun h => ⟨_, rfl, h⟩⟩
  rw [reads, hput, huse, kuse, idle]
  by_cases h : ∃ p ∈ s.panes v, p.binding = some i
  · rw [if_pos ⟨h, bound h⟩]
    exact iff_of_true rfl h
  · rw [if_neg fun h' => h h'.1]
    exact iff_of_false Bool.false_ne_true h

/-- A compose that completes leaves no set in use (R103). -/
theorem SetsInUse.finishCompose {s : State} (hs : SetsInUse s) {c : Compose} (hc : s.ce.current = some c) (r : OutRing)
    (z : Vector ZoneStats 4) : SetsInUse (s.finishCompose c r z) := by
  refine SetsInUse.of_idle rfl fun i => ?_
  let u := (List.finRange 4).foldl State.dropPins (s.setOutRing
    (some { r.modify c.target (fun x => { x with st := .finished (c.outFrame r.next) }) with next := r.next + 1 }))
  have hw : Within [.outRing, .camRing] s u := (within_setOutRing s _).comp (Within.foldl within_dropPins _ _)
  obtain ⟨-, huse⟩ := u.markSets_spec false c.snap.panes i
  have hput : (s.finishCompose c r z).gs.sets[i].inUse = (u.markSets false c.snap.panes).gs.sets[i].inUse := rfl
  have kuse : u.gs.sets[i].inUse = s.gs.sets[i].inUse := hw .inUse (by decide) i
  have hsi : s.gs.sets[i].inUse = true ↔ ∃ p ∈ c.snap.panes, p.binding = some i := by
    rw [hs i, hc]
    simp
  rw [hput, huse]
  split
  · rfl
  · rename_i h
    by_cases hp : ∃ p ∈ c.snap.panes, p.binding = some i
    · exact Grid.inUse_eq_false_of_not_isValid (by simpa [hp] using h)
    · rw [kuse]
      simpa [hp] using hsi

theorem inUse_mem_footprint {i : Instr} (h : .inUse ∈ footprint i ∨ .current ∈ footprint i) :
    abandons i = true ∨ i = .composeStart ∨ i = .composeCompletion := by
  cases i <;> simp [footprint, abandons] at h ⊢
  case status h c => cases c <;> simp at h

theorem Grid.inUse_pipelineReset (g : Grid) : g.pipelineReset.inUse = false := by
  cases g with
  | absent => rfl
  | held sh ph => cases ph <;> rfl

theorem SetsInUse.reset : SetsInUse State.reset :=
  .of_idle rfl fun i => by simp [State.reset, GridStore.reset, Grid.inUse]

theorem State.pipelineBlocks_sets (s : State) (i : Fin 32) :
    s.pipelineBlocks.gs.sets[i] = s.gs.sets[i].pipelineReset := by
  simp [pipelineBlocks, GridStore.pipelineReset]

theorem SetsInUse.exec {i : Instr} {s t : State} (hs : SetsInUse s) (hb : BindsCounted s) (e : exec i s = .next t) :
    SetsInUse t := by
  by_cases hf : .inUse ∈ footprint i ∨ .current ∈ footprint i
  · rcases inUse_mem_footprint hf with h | rfl | rfl
    · refine SetsInUse.dependsOn.abandons rfl h (SetsInUse.dependsOn.within (within_reset_hardReset s) rfl .reset) ?_ hs e
      refine SetsInUse.dependsOn.pipelineReset rfl (SetsInUse.of_idle rfl fun k => ?_)
      rw [State.pipelineBlocks_sets, Grid.inUse_pipelineReset]
    · cases e
      rcases s.composeStart_cases with hw | ⟨u, r, v, k, hw, hidle, -, -, he⟩
      · exact SetsInUse.dependsOn.within hw rfl hs
      · rw [he]
        exact (SetsInUse.dependsOn.within hw rfl hs).beginCompose (BindsCounted.dependsOn.within hw rfl hb) hidle r v k
    · rcases execComposeCompletion_cases e with rfl | ⟨c, r, hc, -, rfl⟩
      · exact hs
      · exact SetsInUse.finishCompose (s := s.writeFrame c r)
          (SetsInUse.dependsOn.within (within_writeFrame s c r) rfl hs) hc r _
  · refine SetsInUse.dependsOn (fun x hx => exec_within e x fun h => hf ?_) hs
    obtain rfl | rfl : x = .inUse ∨ x = .current := by simpa using hx
    · exact .inl h
    · exact .inr h

theorem BindInv.dependsOn : DependsOn [.binds, .catalogue, .inUse, .current] BindInv := fun _ _ hk ⟨hb, hu⟩ =>
  ⟨BindsCounted.dependsOn (fun x hx => hk x (by simp at hx ⊢; tauto)) hb,
    SetsInUse.dependsOn (fun x hx => hk x (by simp at hx ⊢; tauto)) hu⟩

theorem BindInv.step {s t : State} (hs : BindInv s) (e : step s = .next t) : BindInv t :=
  BindInv.dependsOn.step rfl (fun _ _ _ _ e ⟨hb, hu⟩ => ⟨BindsCounted.exec hb e, SetsInUse.exec hu hb e⟩) hs e

/-- Settles O56: the four invariants one by one. -/
theorem stepKeepsAreasAndViews : Obligations.StepKeepsAreasAndViews :=
  fun _ _ e => ⟨fun hs => hs.step e, fun hs => hs.step e, fun hs => hs.step e, fun hs => hs.step e⟩

end Sys2Proof.Machine
end

