-- ==== Sys2Proof/Proofs/Targets.lean ====
section
/-! The choices that rings make: the newest frame, the fill target and the compose target (R30, R31, R33). -/

namespace Sys2Proof.Machine

open Host (Outcome)

/-! ### The best element of a list -/

section
variable {α : Type} {score : α → Option Nat} {l : List α}

theorem argMax_eq_none_iff : argMax score l = none ↔ ∀ x ∈ l, score x = none := by
  rcases argMax_cases score l with ⟨h, hn⟩ | ⟨k, v, x, h, hk, hx, -⟩
  · exact ⟨fun _ => hn, fun _ => h⟩
  · simp only [h, reduceCtorEq, false_iff]
    intro hn
    simp [hn x (List.mem_of_getElem? hk)] at hx

theorem argMax_eq_some {b : Nat × Nat} (h : argMax score l = some b) :
    ∃ x, l[b.1]? = some x ∧ score x = some b.2 ∧ ∀ y ∈ l, ∀ w, score y = some w → w ≤ b.2 := by
  rcases argMax_cases score l with ⟨hn, -⟩ | ⟨k, v, x, hs, hk, hx, hm⟩
  · simp [hn] at h
  · obtain rfl := Option.some.inj (hs.symm.trans h)
    exact ⟨x, hk, hx, hm⟩

/-- Among ages of 32 bits, the one with the greatest distance to 2^32 is the smallest. -/
theorem argMax_youngest {age : α → Option Nat} (hlt : ∀ x a, age x = some a → a < 2 ^ 32) {k : Nat}
    (h : (argMax (fun x => (age x).map fun a => 2 ^ 32 - a) l).map Prod.fst = some k) :
    ∃ x a, l[k]? = some x ∧ age x = some a ∧ ∀ y ∈ l, ∀ b, age y = some b → a ≤ b := by
  obtain ⟨⟨k, v⟩, hb, rfl⟩ := Option.map_eq_some_iff.1 h
  obtain ⟨x, hk, hv, hm⟩ := argMax_eq_some hb
  obtain ⟨a, ha, rfl⟩ := Option.map_eq_some_iff.1 hv
  refine ⟨x, a, hk, ha, fun y hy b hb => ?_⟩
  have hle := hm y hy _ (Option.map_eq_some_iff.2 ⟨b, hb, rfl⟩)
  have := hlt x a ha
  have := hlt y b hb
  dsimp only at hle
  omega

theorem argMax_youngest_none {age : α → Option Nat} :
    (argMax (fun x => (age x).map fun a => 2 ^ 32 - a) l).map Prod.fst = none ↔ ∀ x ∈ l, age x = none := by
  simp [argMax_eq_none_iff]

end

/-! ### Newest frames (R30) -/

theorem CamSlot.readyAge_eq_some {next : Word32} {c : CamSlot} {a : Nat} :
    c.readyAge next = some a ↔ ∃ q t l, c.st = .ready q t l ∧ (next - q).toNat = a := by
  unfold readyAge
  cases c.st <;> simp [seqAge]

theorem CamSlot.readyAge_eq_none {next : Word32} {c : CamSlot} :
    c.readyAge next = none ↔ ∀ q t l, c.st ≠ .ready q t l := by
  unfold readyAge
  cases c.st <;> simp

theorem OutSlot.doneAge_eq_some {next : Word32} {c : OutSlot} {a : Nat} :
    c.doneAge next = some a ↔ ∃ f, c.st = .finished f ∧ (next - f.seq).toNat = a := by
  unfold doneAge
  cases c.st <;> simp [seqAge]

theorem OutSlot.doneAge_eq_none {next : Word32} {c : OutSlot} : c.doneAge next = none ↔ ∀ f, c.st ≠ .finished f := by
  unfold doneAge
  cases c.st <;> simp

theorem CamRing.newestReady_eq_some {r : CamRing} {k : Nat} (h : r.newestReady = some k) :
    ∃ c q t l, r.slots[k]? = some c ∧ c.st = .ready q t l
      ∧ ∀ c' ∈ r.slots, ∀ q' t' l', c'.st = .ready q' t' l' → (r.next - q).toNat ≤ (r.next - q').toNat := by
  obtain ⟨c, a, hk, ha, hmin⟩ := argMax_youngest (fun c a ha => by
    obtain ⟨q, _, _, -, rfl⟩ := CamSlot.readyAge_eq_some.1 ha
    exact (r.next - q).isLt) h
  obtain ⟨q, t, l, hst, rfl⟩ := CamSlot.readyAge_eq_some.1 ha
  exact ⟨c, q, t, l, hk, hst, fun c' hc' q' t' l' hst' => hmin c' hc' _ (CamSlot.readyAge_eq_some.2 ⟨q', t', l', hst', rfl⟩)⟩

theorem CamRing.newestReady_eq_none {r : CamRing} :
    r.newestReady = none ↔ ∀ c ∈ r.slots, ∀ q t l, c.st ≠ .ready q t l := by
  simp only [newestReady, argMax_youngest_none, CamSlot.readyAge_eq_none]

theorem OutRing.newestDone_eq_some {r : OutRing} {k : Nat} (h : r.newestDone = some k) :
    ∃ c f, r.slots[k]? = some c ∧ c.st = .finished f
      ∧ ∀ c' ∈ r.slots, ∀ f', c'.st = .finished f' → (r.next - f.seq).toNat ≤ (r.next - f'.seq).toNat := by
  obtain ⟨c, a, hk, ha, hmin⟩ := argMax_youngest (fun c a ha => by
    obtain ⟨f, -, rfl⟩ := OutSlot.doneAge_eq_some.1 ha
    exact (r.next - f.seq).isLt) h
  obtain ⟨f, hst, rfl⟩ := OutSlot.doneAge_eq_some.1 ha
  exact ⟨c, f, hk, hst, fun c' hc' f' hst' => hmin c' hc' _ (OutSlot.doneAge_eq_some.2 ⟨f', hst', rfl⟩)⟩

theorem OutRing.newestDone_eq_none {r : OutRing} : r.newestDone = none ↔ ∀ c ∈ r.slots, ∀ f, c.st ≠ .finished f := by
  simp only [newestDone, argMax_youngest_none, OutSlot.doneAge_eq_none]

/-! ### The fill target (R31) -/

/-- The fill target is a slot that the first step finds, or, where that finds none, the oldest loose READY slot. -/
theorem CamRing.fillTarget_eq_some {r : CamRing} {k : Nat} {b : Bool} (h : r.fillTarget = some (k, b)) :
    ∃ c, r.slots[k]? = some c ∧ c.loose = true
      ∧ (b = false ∧ c.st.reusable = true
            ∧ (∀ j c', j < k → r.slots[j]? = some c' → c'.st.reusable = true → c'.loose = false)
        ∨ b = true ∧ (∀ c' ∈ r.slots, c'.st.reusable = true → c'.loose = false)
            ∧ ∃ q t l, c.st = .ready q t l ∧ ∀ c' ∈ r.slots, ∀ q' t' l', c'.st = .ready q' t' l' → c'.loose = true →
                (r.next - q').toNat ≤ (r.next - q).toNat) := by
  unfold fillTarget at h
  split at h
  · rename_i i hi
    obtain ⟨rfl, rfl⟩ := Prod.mk.inj (Option.some.inj h)
    obtain ⟨hlt, hc, hfirst⟩ := List.findIdx?_eq_some_iff_getElem.1 hi
    rw [Bool.and_eq_true] at hc
    refine ⟨r.slots[i], List.getElem?_eq_getElem hlt, hc.2, .inl ⟨rfl, hc.1, fun j c' hj hc' hre => ?_⟩⟩
    obtain ⟨hjl, rfl⟩ := List.getElem?_eq_some_iff.1 hc'
    simpa [hre] using hfirst j hj
  · rename_i hi
    obtain ⟨⟨i, v⟩, hb, he⟩ := Option.map_eq_some_iff.1 h
    obtain ⟨rfl, rfl⟩ := Prod.mk.inj he
    obtain ⟨c, hk, hv, hm⟩ := argMax_eq_some hb
    rw [Option.ite_none_right_eq_some] at hv
    obtain ⟨hl, hv⟩ := hv
    obtain ⟨q, t, l, hst, rfl⟩ := CamSlot.readyAge_eq_some.1 hv
    refine ⟨c, hk, hl, .inr ⟨rfl, fun c' hc' hre => ?_, q, t, l, hst, fun c' hc' q' t' l' hst' hl' => ?_⟩⟩
    · simpa [hre] using List.findIdx?_eq_none_iff.1 hi c' hc'
    · refine hm c' hc' _ ?_
      rw [if_pos hl', CamSlot.readyAge_eq_some]
      exact ⟨q', t', l', hst', rfl⟩

theorem CamRing.fillTarget_eq_none {r : CamRing} :
    r.fillTarget = none ↔ ∀ c ∈ r.slots, c.loose = true → ∃ q t l, c.st = .filling q t l := by
  unfold fillTarget
  split
  · rename_i i hi
    obtain ⟨hlt, hc, -⟩ := List.findIdx?_eq_some_iff_getElem.1 hi
    rw [Bool.and_eq_true] at hc
    simp only [reduceCtorEq, false_iff]
    intro hall
    obtain ⟨q, t, l, hst⟩ := hall _ (List.getElem_mem hlt) hc.2
    simp [hst, CamSlotState.reusable] at hc
  · rename_i hi
    rw [Option.map_eq_none_iff, argMax_eq_none_iff]
    refine forall₂_congr fun c hc => ?_
    have hre := List.findIdx?_eq_none_iff.1 hi c hc
    cases hl : c.loose <;> cases hst : c.st <;> simp_all [CamSlot.readyAge, CamSlotState.reusable]

/-! ### The compose target (R33) -/

theorem OutRing.targetScore_eq_some {r : OutRing} {held : Option Nat} {c : OutSlot} {k a : Nat} :
    r.targetScore held (c, k) = some a
      ↔ c.unheld = true ∧ held ≠ some k ∧ r.newestDone ≠ some k ∧ ∃ f, c.st = .finished f ∧ (r.next - f.seq).toNat = a := by
  simp [targetScore, OutSlot.doneAge_eq_some, and_assoc]

theorem OutRing.composeTarget_eq_some {r : OutRing} {held : Option Nat} {k : Nat} (h : r.composeTarget held = some k) :
    ∃ c, r.slots[k]? = some c
      ∧ (c.st = .free ∧ (∀ j c', j < k → r.slots[j]? = some c' → c'.st ≠ .free)
        ∨ (∀ c' ∈ r.slots, c'.st ≠ .free) ∧ (∃ f, c.st = .finished f) ∧ c.unheld = true ∧ held ≠ some k
          ∧ r.newestDone ≠ some k
          ∧ ∀ (j : Nat) (c' : OutSlot), r.slots[j]? = some c' → c'.unheld = true → held ≠ some j → r.newestDone ≠ some j →
              ∀ f f', c.st = .finished f → c'.st = .finished f' → (r.next - f'.seq).toNat ≤ (r.next - f.seq).toNat) := by
  unfold composeTarget at h
  split at h
  · rename_i i hi
    obtain rfl := Option.some.inj h
    obtain ⟨hlt, hc, hfirst⟩ := List.findIdx?_eq_some_iff_getElem.1 hi
    refine ⟨r.slots[i], List.getElem?_eq_getElem hlt, .inl ⟨of_decide_eq_true hc, fun j c' hj hc' => ?_⟩⟩
    obtain ⟨hjl, rfl⟩ := List.getElem?_eq_some_iff.1 hc'
    simpa using hfirst j hj
  · rename_i hi
    obtain ⟨⟨i, v⟩, hb, rfl⟩ := Option.map_eq_some_iff.1 h
    obtain ⟨⟨c, j⟩, hz, hv, hm⟩ := argMax_eq_some hb
    obtain ⟨hk, rfl⟩ : r.slots[i]? = some c ∧ i = j := by simpa [List.getElem?_zipIdx] using hz
    obtain ⟨hu, hh, hn, f, hst, rfl⟩ := targetScore_eq_some.1 hv
    refine ⟨c, hk, .inr ⟨fun c' hc' => ?_, ⟨f, hst⟩, hu, hh, hn, fun j c' hj hu' hh' hn' g f' hg hst' => ?_⟩⟩
    · simpa using List.findIdx?_eq_none_iff.1 hi c' hc'
    · obtain rfl : f = g := by simpa [hst] using hg
      exact hm (c', j) (by simpa [List.mem_zipIdx_iff_getElem?] using hj) _ (targetScore_eq_some.2 ⟨hu', hh', hn', f', hst', rfl⟩)

theorem OutRing.composeTarget_eq_none {r : OutRing} {held : Option Nat} (h : r.composeTarget held = none) :
    (∀ c ∈ r.slots, c.st ≠ .free)
      ∧ ∀ (j : Nat) (c : OutSlot) (f : OutFrame), r.slots[j]? = some c → c.st = .finished f →
          c.unheld = false ∨ held = some j ∨ r.newestDone = some j := by
  unfold composeTarget at h
  split at h
  · cases h
  · rename_i hi
    rw [Option.map_eq_none_iff, argMax_eq_none_iff] at h
    refine ⟨fun c hc => by simpa using List.findIdx?_eq_none_iff.1 hi c hc, fun j c f hj hst => ?_⟩
    have none := h (c, j) (by simpa [List.mem_zipIdx_iff_getElem?] using hj)
    by_contra hall
    push Not at hall
    obtain ⟨hu, hh, hn⟩ := hall
    have some := targetScore_eq_some.2 ⟨by simpa using hu, hh, hn, f, hst, rfl⟩
    simp [none] at some

/-- Settles O23: each choice by what its search finds. -/
theorem targetsAreNeverHeld : Obligations.TargetsAreNeverHeld := by
  refine ⟨fun r => ⟨fun k h => ?_, fun k h => ?_, CamRing.fillTarget_eq_none, fun k h => CamRing.newestReady_eq_some h,
      CamRing.newestReady_eq_none⟩,
    fun r => ⟨fun k h => OutRing.newestDone_eq_some h, OutRing.newestDone_eq_none,
      fun held h => OutRing.composeTarget_eq_none h⟩,
    fun r held k h => OutRing.composeTarget_eq_some h⟩
  · obtain ⟨c, hk, hl, ⟨-, hre, hfirst⟩ | ⟨hb, -⟩⟩ := CamRing.fillTarget_eq_some h
    · exact ⟨c, hk, hre, hl, hfirst⟩
    · cases hb
  · obtain ⟨c, hk, hl, ⟨hb, -⟩ | ⟨-, hnone, q, t, l, hst, hmax⟩⟩ := CamRing.fillTarget_eq_some h
    · cases hb
    · exact ⟨c, q, t, l, hk, hst, hl, hnone, hmax⟩

end Sys2Proof.Machine
end

