-- ==== Sys2Proof/Proofs/CamHolds.lean ====
section
/-! Pins and holds of the camera rings stand on READY slots, and a FILLING slot is that of the frame being received (R29): the
camera half of the invariant of the rings. -/

namespace Sys2Proof.Machine

open Host (Outcome)

/-! ### One slot, one ring -/

/-- The reception process has slot `k` open. -/
def Reception.opens (x : Reception) (k : Nat) : Prop := ∃ pend, x = .receiving k pend

/-- What an invariant claims of the rings: that pins and holds stand on finished frames only, or that a slot is open only for
the frame or compose that has it. -/
inductive RingClaim where
  | held | opened

/-- Slot `k` under a reception process: pinned or held only when READY, or FILLING only when open (R29). -/
def CamSlot.Sound (x : Reception) (k : Nat) (c : CamSlot) : RingClaim → Prop
  | .held => c.heldReady
  | .opened => ∀ q t l, c.st = .filling q t l → x.opens k

/-- Every slot of a ring is sound. -/
def SlotsSound (w : RingClaim) (x : Reception) (slots : List CamSlot) : Prop :=
  ∀ (k : Nat) (c : CamSlot), slots[k]? = some c → c.Sound x k w

section
variable {w : RingClaim} {x y : Reception} {k : Nat} {c d : CamSlot}

theorem CamSlot.heldReady_of_loose (h : c.loose = true) : c.heldReady := fun hn => by simp [h] at hn

theorem CamSlot.sound_of_loose (hl : c.loose = true) (hf : ∀ q t l, c.st = .filling q t l → x.opens k) : c.Sound x k w := by
  cases w with
  | held => exact heldReady_of_loose hl
  | opened => exact hf

theorem CamSlot.sound_of_ready {q t : Word32} {l : Count} (h : c.st = .ready q t l) : c.Sound x k w := by
  cases w with
  | held => exact fun _ => ⟨q, t, l, h⟩
  | opened => exact fun _ _ _ hf => by simp [h] at hf

theorem CamSlot.Sound.opening (h : c.Sound x k w) (ho : x.opens k → y.opens k) : c.Sound y k w := by
  cases w with
  | held => exact h
  | opened => exact fun q t l e => ho (h q t l e)

theorem CamSlot.loose_of_filling (h : c.heldReady) {q t : Word32} {l : Count} (hf : c.st = .filling q t l) :
    c.loose = true := by
  by_contra hl
  obtain ⟨_, _, _, hr⟩ := h (by simpa using hl)
  simp [hf] at hr

/-- A slot that gives up pins or holds and keeps its state stays sound. -/
theorem CamSlot.Sound.mono (h : c.Sound x k w) (hst : d.st = c.st) (hl : c.loose = true → d.loose = true) :
    d.Sound x k w := by
  cases w with
  | held =>
    intro hd
    rw [hst]
    exact h (Bool.eq_false_iff.2 fun hc => Bool.eq_false_iff.1 hd (hl hc))
  | opened => exact fun q t l hf => h q t l (hst ▸ hf)

theorem CamSlot.setHold_st (c : CamSlot) (p : Port) (h : Option Word32) : (c.setHold p h).st = c.st := by cases p <;> rfl

theorem CamSlot.loose_dropHold (p : Port) (h : c.loose = true) : (c.setHold p none).loose = true := by
  cases p <;> simp_all [loose, setHold, unheld]

theorem CamSlot.Sound.dropHold (h : c.Sound x k w) (p : Port) : (c.setHold p none).Sound x k w :=
  h.mono (c.setHold_st p none) (loose_dropHold p)

theorem CamSlot.Sound.dropPin (h : c.Sound x k w) : CamSlot.Sound x k { c with pin := false } w :=
  h.mono rfl fun hl => by simp_all [loose, unheld]

/-- A slot that is no longer FILLING is sound under any reception process. -/
theorem CamSlot.Sound.close (h : c.Sound x k w) (hn : ∀ q t l, d.st ≠ .filling q t l)
    (hd : d = c ∨ (∃ q t l, c.st = .filling q t l) ∧ d.loose = c.loose) : d.Sound y k w := by
  cases w with
  | opened => exact fun q t l hf => absurd hf (hn q t l)
  | held =>
    rcases hd with rfl | ⟨⟨q, t, l, hf⟩, hl⟩
    · exact h
    · exact heldReady_of_loose (hl.trans (loose_of_filling h hf))

theorem CamSlot.Sound.damage (h : c.Sound x k w) (cause : Damage) : (c.damage cause).Sound y k w := by
  refine h.close ?_ ?_ <;> unfold CamSlot.damage <;> cases hst : c.st <;> simp [hst, loose, unheld]

theorem CamSlot.Sound.finish (h : c.Sound x k w) : c.finish.Sound y k w := by
  refine h.close ?_ ?_ <;> unfold CamSlot.finish <;> cases hst : c.st <;> simp [hst, loose, unheld]

theorem CamSlot.Sound.addLine (h : c.Sound x k w) (hy : y.opens k) : c.addLine.Sound y k w := by
  cases w with
  | opened => exact fun _ _ _ _ => hy
  | held =>
    unfold CamSlot.addLine
    split
    · have hl : c.loose = true := loose_of_filling h ‹_›
      exact heldReady_of_loose hl
    · exact h

end

section
variable {w : RingClaim} {x y : Reception} {slots : List CamSlot}

theorem SlotsSound.modify (h : SlotsSound w x slots) {k : Nat} {f : CamSlot → CamSlot}
    (ho : ∀ j, j ≠ k → x.opens j → y.opens j)
    (hf : ∀ c, slots[k]? = some c → c.Sound x k w → (f c).Sound y k w) : SlotsSound w y (slots.modify k f) := by
  intro j d hd
  rw [List.getElem?_modify] at hd
  obtain ⟨c, hc, rfl⟩ := Option.map_eq_some_iff.1 hd
  by_cases hjk : k = j
  · subst hjk
    simpa using hf c hc (h k c hc)
  · rw [if_neg hjk]
    exact (h j c hc).opening (ho j (Ne.symm hjk))

theorem SlotsSound.map (h : SlotsSound w x slots) {f : CamSlot → CamSlot} (hf : ∀ k c, c.Sound x k w → (f c).Sound x k w) :
    SlotsSound w x (slots.map f) := by
  intro k d hd
  rw [List.getElem?_map] at hd
  obtain ⟨c, hc, rfl⟩ := Option.map_eq_some_iff.1 hd
  exact hf k c (h k c hc)

theorem slotsSound_of_empty (h : ∀ c ∈ slots, c = .empty) : SlotsSound w x slots := by
  intro k c hc
  rw [h c (List.mem_of_getElem? hc)]
  exact CamSlot.sound_of_loose rfl fun _ _ _ hf => by simp [CamSlot.empty] at hf

end

/-! ### The camera rings of a state -/

section
variable {w : RingClaim}

/-- Every camera ring is sound under its camera's reception process. -/
def CamSound (w : RingClaim) (s : State) : Prop :=
  ∀ (n : Fin 4) (r : CamRing), s.fsc.camRing[n] = some r → SlotsSound w s.ciu[n].reception r.slots

theorem CamSound.dependsOn : DependsOn [.camRing, .reception] (CamSound w) := by
  intro s t hk hs n r hr
  have kr : t.fsc.camRing = s.fsc.camRing := hk .camRing (by simp)
  have kx : t.ciu[n].reception = s.ciu[n].reception := hk .reception (by simp) n
  rw [kx]
  rw [kr] at hr
  exact hs n r hr

theorem CamSound.reset : CamSound w State.reset := by
  intro n r hr
  have none : State.reset.fsc.camRing[n] = none := Vector.getElem_replicate _
  rw [none] at hr
  cases hr

theorem State.setReception_reception (s : State) (n m : Fin 4) (x : Reception) :
    (s.setReception n x).ciu[m].reception = if m = n then x else s.ciu[m].reception := by
  rw [State.setReception, State.modifyCam, State.setCam, Vector.getElem_set_fin]
  split <;> rfl

theorem State.setCamRing_camRing (s : State) (n m : Fin 4) (r : Option CamRing) :
    (s.setCamRing n r).fsc.camRing[m] = if m = n then r else s.fsc.camRing[m] := Vector.getElem_set_fin _ _ _ _

section
variable {s : State} {n : Fin 4}

/-- A sound ring put at one camera. -/
theorem CamSound.setCamRing (hs : CamSound w s) {r : Option CamRing}
    (h : ∀ r', r = some r' → SlotsSound w s.ciu[n].reception r'.slots) : CamSound w (s.setCamRing n r) := by
  intro m r' hr
  rw [State.setCamRing_camRing] at hr
  split at hr
  · subst_vars
    exact h r' rfl
  · exact hs m r' hr

/-- A ring and a reception process put at one camera that are sound together. -/
theorem CamSound.setBoth (hs : CamSound w s) {r : CamRing} {x : Reception} (h : SlotsSound w x r.slots) :
    CamSound w ((s.setCamRing n (some r)).setReception n x) := by
  intro m r' hr
  have kept : ((s.setCamRing n (some r)).setReception n x).fsc.camRing = (s.setCamRing n (some r)).fsc.camRing := rfl
  rw [kept, State.setCamRing_camRing] at hr
  rw [State.setReception_reception]
  split at hr
  · obtain rfl := Option.some.inj hr
    rwa [if_pos ‹_›]
  · rw [if_neg ‹_›]
    exact hs m r' hr

/-- A reception process put at a camera that has no ring, or whose open slots stay open. -/
theorem CamSound.setReception (hs : CamSound w s) {x : Reception}
    (h : s.fsc.camRing[n] = none ∨ ∀ k, s.ciu[n].reception.opens k → x.opens k) : CamSound w (s.setReception n x) := by
  intro m r hr k c hc
  replace hr : s.fsc.camRing[m] = some r := hr
  have hsound := hs m r hr k c hc
  rw [State.setReception_reception]
  split
  · rename_i hm
    subst hm
    rcases h with h | h
    · cases h.symm.trans ‹s.fsc.camRing[m] = some r›
    · exact hsound.opening (h k)
  · exact hsound

theorem CamSound.within (hs : CamSound w s) {t : State} {l : List Part} (hw : Within l s t)
    (hl : decide (∀ x ∈ [Part.camRing, .reception], x ∉ l) = true) : CamSound w t := CamSound.dependsOn.within hw hl hs

/-- A slot changed, with the reception process as it was. -/
theorem CamSound.modifySlot (hs : CamSound w s) {k : Nat} {f : CamSlot → CamSlot}
    (hf : ∀ r c, s.fsc.camRing[n] = some r → r.slots[k]? = some c → c.Sound s.ciu[n].reception k w →
      (f c).Sound s.ciu[n].reception k w) :
    CamSound w (s.modifyCamSlot n k f) := by
  unfold State.modifyCamSlot
  split
  · exact hs
  · rename_i r hr
    refine hs.setCamRing fun r' h => ?_
    obtain rfl := Option.some.inj h
    exact (hs n r hr).modify (fun _ _ h => h) fun c hc => hf r c hr hc

theorem Reception.opens_receiving {k j : Nat} {pend : Option Damage} (h : (Reception.receiving k pend).opens j) : j = k := by
  obtain ⟨_, h⟩ := h
  cases h
  rfl

/-- The slot that the reception process has open is changed, and the process moves on. -/
theorem CamSound.modifyOpen (hs : CamSound w s) {k : Nat} {pend : Option Damage} {f : CamSlot → CamSlot} {x : Reception}
    (hx : s.ciu[n].reception = .receiving k pend) (hf : ∀ c, c.Sound (.receiving k pend) k w → (f c).Sound x k w) :
    CamSound w ((s.modifyCamSlot n k f).setReception n x) := by
  unfold State.modifyCamSlot
  split
  · exact hs.setReception (.inl ‹_›)
  · rename_i r hr
    have hsound := hs n r hr
    rw [hx] at hsound
    exact hs.setBoth (hsound.modify (fun j hj h => absurd (Reception.opens_receiving h) hj) fun c _ hc => hf c hc)

/-- Counting does not matter to the rings. -/
theorem CamSound.count {x : Reception} (hs : CamSound w (s.setReception n x)) (g : CamCounts → CamCounts) :
    CamSound w ((s.count n g).setReception n x) := by
  refine CamSound.dependsOn (fun y hy => ?_) hs
  rcases List.mem_cons.1 hy with rfl | hy
  · rfl
  · obtain rfl := List.mem_singleton.1 hy
    intro m
    have kept : (s.count n g).ciu[m].reception = s.ciu[m].reception := within_count s n g .reception (by decide) m
    simp only [State.setReception_reception, kept]

/-! ### The intake operations -/

theorem CamSound.damageFrame (hs : CamSound w s) {k : Nat} {pend : Option Damage} (hx : s.ciu[n].reception = .receiving k pend)
    (cause : Damage) : CamSound w (s.damageFrame n k cause) :=
  (hs.modifyOpen hx fun _ hc => hc.damage cause).count _

theorem CamSound.closeFrame (hs : CamSound w s) (cause : Damage) : CamSound w (s.closeFrame n cause) := by
  unfold State.closeFrame
  split
  · exact hs
  · rename_i hx
    refine hs.setReception (.inr fun k h => ?_)
    obtain ⟨_, h⟩ := h
    cases hx.symm.trans h
  · exact hs.damageFrame ‹_› _

theorem State.closeFrame_reception (s : State) (n : Fin 4) (cause : Damage) :
    (s.closeFrame n cause).ciu[n].reception = .noFrame := by
  unfold State.closeFrame
  split
  · assumption
  · rw [State.setReception_reception, if_pos rfl]
  · rw [State.damageFrame, State.setReception_reception, if_pos rfl]

theorem CamSound.endFrame (hs : CamSound w s) {k : Nat} {pend : Option Damage} (hx : s.ciu[n].reception = .receiving k pend) :
    CamSound w (s.endFrame n k pend) := by
  unfold State.endFrame
  dsimp only
  split
  · exact hs.damageFrame hx _
  · split
    · exact hs.damageFrame hx _
    · split
      · exact hs.damageFrame hx _
      · exact (hs.modifyOpen hx fun _ hc => hc.finish).count _

theorem CamSound.countLine (hs : CamSound w s) {k : Nat} {pend : Option Damage} (hx : s.ciu[n].reception = .receiving k pend)
    (ps : List Pair) : CamSound w (s.countLine n k ps pend) :=
  hs.modifyOpen hx fun _ hc => hc.addLine ⟨_, rfl⟩

/-- A place for a new frame, given to it where no frame is open (R12). -/
theorem CamSound.placeFrame (hs : CamSound w s) (hx : s.ciu[n].reception = .noFrame) : CamSound w (s.placeFrame n) := by
  have closed (k : Nat) (x : Reception) (h : s.ciu[n].reception.opens k) : x.opens k := by
    obtain ⟨_, h⟩ := h
    cases hx.symm.trans h
  have discarding (t : State) (ht : CamSound w t) (hk : t.ciu[n].reception = s.ciu[n].reception) (g : CamCounts → CamCounts) :
      CamSound w ((t.setReception n .discarding).count n g) :=
    (ht.setReception (.inr fun k h => closed k _ (hk ▸ h))).within (within_count _ n g) rfl
  unfold State.placeFrame
  split
  · unfold State.openUnjoined
    dsimp only
    split
    · exact discarding s hs rfl _
    · exact (discarding s hs rfl _).within ((within_modifyCam_of_reception _ n rfl).trans (within_notify _ _ _ _)) rfl
  · rename_i r hr
    split
    · refine CamSound.within (discarding _ (hs.setCamRing fun r' h => ?_) rfl _) (within_latch _ _) rfl
      obtain rfl := Option.some.inj h
      exact hs n r hr
    · rename_i k b hk
      obtain ⟨c, hc, hloose, -⟩ := CamRing.fillTarget_eq_some hk
      refine hs.setBoth ((hs n r hr).modify (fun j _ h => closed j _ h) fun c' hc' _ => ?_)
      obtain rfl := Option.some.inj (hc.symm.trans hc')
      exact CamSlot.sound_of_loose hloose fun _ _ _ _ => ⟨none, rfl⟩

theorem CamSound.startFrame (hs : CamSound w s) : CamSound w (s.startFrame n) := by
  refine ((hs.closeFrame .short).within (within_modifyTiming _ n _) rfl).placeFrame ?_
  exact State.closeFrame_reception s n .short

theorem CamSound.frameStart (hs : CamSound w s) : CamSound w (s.frameStart n) := by
  unfold State.frameStart
  cases s.ciu[n].link with
  | off => exact hs
  | settling d => exact hs
  | faulted => exact hs
  | seeking d => exact (hs.within (within_enterLink s n _) rfl).startFrame
  | stalled => exact (hs.within (within_enterLink s n _) rfl).startFrame
  | streaming d =>
    exact (hs.within (within_modifyCam_of_reception s n (f := fun c => { c with link := .streaming _ }) rfl) rfl).startFrame

theorem CamSound.loseLock (hs : CamSound w s) : CamSound w (s.loseLock n) := by
  have unlocked := hs.within (within_unlock s n) rfl
  refine State.loseLock_induct s n rfl unlocked ?_
  exact (unlocked.closeFrame _).within (within_enterSeeking _ n) rfl

theorem CamSound.frameEnd (hs : CamSound w s) : CamSound w (s.frameEnd n) := by
  unfold State.frameEnd
  split
  · split
    · exact hs.within (within_count s n _) rfl
    · rename_i hx
      refine hs.setReception (.inr fun k h => ?_)
      obtain ⟨_, h⟩ := h
      cases hx.symm.trans h
    · exact hs.endFrame ‹_›
  · exact hs

theorem CamSound.feedFault (hs : CamSound w s) : CamSound w (s.feedFault n) := by
  unfold State.feedFault
  split
  · exact (hs.closeFrame .power).within
      (((within_count _ n _).trans (within_latch _ _)).trans (within_enterLink _ n _)) rfl
  · exact hs

theorem CamSound.execLine {ps : List Pair} {t : State} (hs : CamSound w s) (e : execLine n ps s = .next t) : CamSound w t := by
  unfold Machine.execLine at e
  split at e
  · rename_i hx _ _ _
    split at e
    · cases e
      exact hs.countLine hx ps
    · split at e
      · cases e
        refine CamSound.countLine (hs.within (within_dram s _) rfl) ?_ ps
        exact hx
      · cases e
  · cases e
    exact hs

/-! ### Holds and pins -/

/-- A slot that a search finds READY is sound under any holds and pins. -/
theorem CamSound.modifyReady (hs : CamSound w s) {r : CamRing} {k : Nat} {c : CamSlot} {q t : Word32} {l : Count}
    (hr : s.fsc.camRing[n] = some r) (hk : r.slots[k]? = some c) (hst : c.st = .ready q t l) {f : CamSlot → CamSlot}
    (hf : (f c).st = c.st) : CamSound w (s.modifyCamSlot n k f) := by
  refine hs.modifySlot fun r' c' hr' hk' _ => ?_
  obtain rfl := Option.some.inj (hr.symm.trans hr')
  obtain rfl := Option.some.inj (hk.symm.trans hk')
  exact CamSlot.sound_of_ready (hf.trans hst)

theorem State.modifyCamSlot_some {r : CamRing} (hr : s.fsc.camRing[n] = some r) (k : Nat) (f : CamSlot → CamSlot) :
    s.modifyCamSlot n k f = s.setCamRing n (some (r.modify k f)) := by
  unfold State.modifyCamSlot
  rw [hr]

theorem State.newestFrame_eq_some {k : Nat} {q t : Word32} (h : s.newestFrame n = some (k, q, t)) :
    ∃ r c l, s.fsc.camRing[n] = some r ∧ r.newestReady = some k ∧ r.slots[k]? = some c ∧ c.st = .ready q t l := by
  unfold State.newestFrame at h
  split at h
  · cases h
  · rename_i r hr
    split at h
    · cases h
    · rename_i j hj
      split at h
      · rename_i q' t' l pin d a hk
        cases h
        exact ⟨r, _, l, hr, hj, hk, rfl⟩
      · cases h

theorem State.usable_newestFrame {k a : Nat} (h : s.usable n = some (k, a)) : ∃ q t, s.newestFrame n = some (k, q, t) := by
  unfold State.usable at h
  split at h
  · cases h
  · split at h
    · rename_i q t hn _
      cases h
      exact ⟨q, t, hn⟩
    · cases h

theorem CamSound.pinCam (hs : CamSound w s) : CamSound w (s.pinCam n) := by
  unfold State.pinCam
  split
  · exact hs
  · rename_i k a hu
    obtain ⟨q, t, hn⟩ := State.usable_newestFrame hu
    obtain ⟨r, c, l, hr, -, hk, hst⟩ := State.newestFrame_eq_some hn
    exact hs.modifyReady hr hk hst rfl

theorem CamSound.dropPins (hs : CamSound w s) : CamSound w (s.dropPins n) := by
  refine hs.setCamRing fun r' h => ?_
  obtain ⟨r, hr, rfl⟩ := Option.map_eq_some_iff.1 h
  exact (hs n r hr).map fun _ _ hc => hc.dropPin

theorem CamSound.expireCamHold (hs : CamSound w s) (p : Port) : CamSound w (s.expireCamHold p n) := by
  unfold State.expireCamHold
  split
  · exact hs
  · rename_i r hr
    split
    · exact hs
    · rename_i k hk
      refine CamSound.within (t := State.notifyOwner _ _ _ _ _) ?_ (within_notifyOwner _ _ _ _ _) rfl
      rw [← State.modifyCamSlot_some hr]
      exact hs.modifySlot fun _ _ _ _ hc => hc.dropHold p

end

theorem CamSound.foldl {f : State → Fin 4 → State} (hf : ∀ s n, CamSound w s → CamSound w (f s n)) {s : State} (hs : CamSound w s)
    (l : List (Fin 4)) : CamSound w (l.foldl f s) := by
  induction l generalizing s with
  | nil => exact hs
  | cons n l ih => exact ih (hf s n hs)

section
variable {s : State}

theorem CamSound.beginCompose (hs : CamSound w s) (r : OutRing) (v : Fin 16) (k : Nat) : CamSound w (s.beginCompose r v k) := by
  have pinned := CamSound.foldl (f := State.pinCam) (fun _ _ h => h.pinCam) hs (List.finRange 4)
  have matched : CamSound w s.matchFrames := pinned.within ((within_judgeMask _ _).trans (within_judgeSkew _ _)) rfl
  exact matched.within (((within_setOutRing _ _).comp (within_markSets _ _ _)).comp (within_ce _ _)) rfl

theorem CamSound.finishCompose (hs : CamSound w s) (c : Compose) (r : OutRing) (z : Vector ZoneStats 4) :
    CamSound w (s.finishCompose c r z) := by
  have dropped (u : State) (hu : CamSound w u) := CamSound.foldl (f := State.dropPins) (fun _ _ h => h.dropPins) hu (List.finRange 4)
  exact (dropped _ (hs.within (within_setOutRing s _) rfl)).within
    ((((within_markSets _ _ _).comp (within_bu _ _)).comp (within_notify _ _ _ _)).comp (within_ce _ _)) rfl

theorem CamSound.composeStart (hs : CamSound w s) : CamSound w s.composeStart := by
  rcases s.composeStart_cases with h | ⟨u, r, v, k, hu, -, -, -, h⟩
  · exact hs.within h rfl
  · rw [h]
    exact (hs.within hu rfl).beginCompose r v k

/-! ### Commands -/

theorem judgePowerOff_keeps_camSound (cam : Nat) (hs : CamSound w s) : (judgePowerOff cam s).Keeps (CamSound w) := by
  unfold judgePowerOff
  split
  · rfl
  · refine ⟨rfl, ?_⟩
    split
    · exact hs
    · exact (hs.closeFrame _).within (within_enterLink _ _ _) rfl

theorem CamSound.changeJoin (hs : CamSound w s) (n : Fin 4) : CamSound w (s.changeJoin n) := hs.within (within_changeJoin s n) rfl

theorem CamSound.setArea (hs : CamSound w s) (a : Fin 8) (x : Area) : CamSound w (s.setArea a x) :=
  hs.within (within_setArea s a x) rfl

theorem State.join_keeps_camSound (a : Fin 8) (b l : Nat) (t : Target) (hs : CamSound w s) :
    (s.join a b l t).Keeps (CamSound w) := by
  have kept := hs.setArea a (.range b l (.joined t))
  unfold State.join
  dsimp only
  cases t with
  | camera n =>
    dsimp only
    split
    · rfl
    · refine ⟨rfl, CamSound.changeJoin (kept.setCamRing fun r h => ?_) n⟩
      obtain rfl := Option.some.inj h
      exact slotsSound_of_empty fun c hc => List.eq_of_mem_replicate hc
  | output =>
    dsimp only
    split
    · rfl
    · exact ⟨rfl, kept.within (within_setOutRing _ _) rfl⟩
  | overlay =>
    dsimp only
    split
    · rfl
    · exact ⟨rfl, kept⟩

theorem judgeAreaJoin_keeps_camSound (a : Nat) (t : Option Target) (hs : CamSound w s) : (judgeAreaJoin a t s).Keeps (CamSound w) := by
  unfold judgeAreaJoin
  split
  · rfl
  · rfl
  · split
    · rfl
    · rfl
    · rfl
    · rfl
    · split
      · rfl
      · exact State.join_keeps_camSound _ _ _ _ hs

theorem judgeAreaUnjoin_keeps_camSound (a : Nat) (hs : CamSound w s) : (judgeAreaUnjoin a s).Keeps (CamSound w) := by
  unfold judgeAreaUnjoin
  split
  · rfl
  · split
    · rename_i t _
      split
      · refine ⟨rfl, ?_⟩
        cases t with
        | camera n => exact CamSound.changeJoin ((hs.setArea _ _).setCamRing fun r h => by cases h) n
        | output => exact (hs.setArea _ _).within (within_setOutRing _ _) rfl
        | overlay => exact hs.setArea _ _
      · rfl
    · rfl

theorem judgeAreaStatus_keeps_camSound (a : Nat) (c : Bool) (hs : CamSound w s) : (judgeAreaStatus a c s).Keeps (CamSound w) := by
  unfold judgeAreaStatus
  split
  · rfl
  · refine ⟨rfl, ?_⟩
    split
    · unfold State.clearReplaced
      split
      · refine hs.setCamRing fun r' h => ?_
        obtain ⟨r, hr, rfl⟩ := Option.map_eq_some_iff.1 h
        exact hs _ r hr
      · exact hs
    · exact hs

theorem judgeFrameHold_keeps_camSound (p : Port) (ring : Option Ring) (hs : CamSound w s) :
    (judgeFrameHold p ring s).Keeps (CamSound w) := by
  unfold judgeFrameHold
  split
  · rfl
  · rename_i n
    unfold judgeHoldCam
    split
    · rfl
    · rename_i r hr
      split
      · rfl
      · split
        · rfl
        · split
          · rename_i k _ _ q t l pin d a hk
            refine ⟨rfl, ?_⟩
            rw [← State.modifyCamSlot_some hr]
            exact hs.modifyReady hr hk rfl (CamSlot.setHold_st _ p _)
          · rfl
  · unfold judgeHoldOut
    split
    · rfl
    · split
      · rfl
      · split
        · rfl
        · split
          · exact ⟨rfl, hs.within (within_setOutRing s _) rfl⟩
          · rfl

theorem judgeFrameRelease_keeps_camSound (p : Port) (ring : Option Ring) (hs : CamSound w s) :
    (judgeFrameRelease p ring s).Keeps (CamSound w) := by
  unfold judgeFrameRelease
  split
  · rfl
  · split
    · rfl
    · rename_i r hr
      split
      · rfl
      · refine ⟨rfl, ?_⟩
        rw [← State.modifyCamSlot_some hr]
        exact hs.modifySlot fun _ _ _ _ hc => hc.dropHold p
  · split
    · rfl
    · split
      · rfl
      · exact ⟨rfl, hs.within (within_setOutRing s _) rfl⟩

theorem camSound_pipelineBlocks (s : State) : CamSound w s.pipelineBlocks := by
  intro n r' hr
  have ring : s.pipelineBlocks.fsc.camRing[n] = s.fsc.camRing[n].map CamRing.pipelineReset := by
    simp [State.pipelineBlocks, FrameStore.pipelineReset]
  rw [ring] at hr
  obtain ⟨r, -, rfl⟩ := Option.map_eq_some_iff.1 hr
  refine slotsSound_of_empty fun c hc => ?_
  obtain ⟨_, -, rfl⟩ := List.mem_map.1 hc
  rfl

end

/-! ### Every step -/

theorem camRing_mem_footprint {i : Instr} (h : .camRing ∈ footprint i ∨ .reception ∈ footprint i) :
    abandons i = true ∨ (∃ h c, i = .camPowerOff h c) ∨ (∃ h a t, i = .areaJoin h a t) ∨ (∃ h a, i = .areaUnjoin h a)
      ∨ (∃ h a c, i = .areaStatus h a c) ∨ (∃ h r, i = .frameHold h r) ∨ (∃ h r, i = .frameRelease h r)
      ∨ (∃ n, i = .lossOfLock n ∨ i = .frameStart n ∨ i = .frameEnd n ∨ i = .feedFault n) ∨ (∃ n ps, i = .line n ps)
      ∨ (∃ p r, i = .holdExpiry p r) ∨ i = .composeStart ∨ i = .composeCompletion := by
  cases i <;> simp [footprint, abandons] at h ⊢
  case status h c => cases c <;> simp at h

theorem CamSound.exec {i : Instr} {s t : State} (hs : CamSound w s) (e : exec i s = .next t) : CamSound w t := by
  by_cases hi : .camRing ∈ footprint i ∨ .reception ∈ footprint i
  · rcases camRing_mem_footprint hi with h | ⟨h, c, rfl⟩ | ⟨h, a, u, rfl⟩ | ⟨h, a, rfl⟩ | ⟨h, a, c, rfl⟩ | ⟨h, r, rfl⟩
      | ⟨h, r, rfl⟩ | ⟨n, rfl | rfl | rfl | rfl⟩ | ⟨n, ps, rfl⟩ | ⟨p, r, rfl⟩ | rfl | rfl
    · exact dependsOn.abandons rfl h (dependsOn.within (within_reset_hardReset s) rfl .reset)
        (dependsOn.pipelineReset rfl (camSound_pipelineBlocks s)) hs e
    · exact dependsOn.command rfl (judgePowerOff_keeps_camSound c hs) hs e
    · exact dependsOn.guarded rfl (judgeAreaJoin_keeps_camSound a u hs) hs e
    · exact dependsOn.guarded rfl (judgeAreaUnjoin_keeps_camSound a hs) hs e
    · exact dependsOn.command rfl (judgeAreaStatus_keeps_camSound a c hs) hs e
    · exact dependsOn.command rfl (judgeFrameHold_keeps_camSound h.port r hs) hs e
    · exact dependsOn.command rfl (judgeFrameRelease_keeps_camSound h.port r hs) hs e
    · cases e
      exact hs.loseLock
    · cases e
      exact hs.frameStart
    · cases e
      exact hs.frameEnd
    · cases e
      exact hs.feedFault
    · exact hs.execLine e
    · cases r with
      | camera n =>
        cases e
        exact hs.expireCamHold p
      | output =>
        cases e
        exact hs.within (within_expireOutHold s p) rfl
    · cases e
      exact hs.composeStart
    · rcases execComposeCompletion_cases e with rfl | ⟨c, r, -, -, rfl⟩
      · exact hs
      · exact (hs.within (within_writeFrame s c r) rfl).finishCompose c r _
  · rw [not_or] at hi
    exact dependsOn (fun x hx => exec_within e x (by
      simp only [List.mem_cons, List.not_mem_nil, or_false] at hx
      rcases hx with rfl | rfl
      · exact hi.1
      · exact hi.2)) hs

end

end Sys2Proof.Machine
end

