-- ==== Sys2Proof/Proofs/OutHolds.lean ====
section
/-! Holds of the output ring stand on DONE slots, a COMPOSING slot is the target of the compose in flight, scanout holds a slot
only while it runs, and the ring stands in an area JOINED to OUTPUT (R25, R27, R32, R170). -/

namespace Sys2Proof.Machine

open Host (Outcome)

/-! ### One slot, one ring -/

/-- Slot `k` under a compose with that target, if any: held only when DONE, or COMPOSING only as the target (R32). -/
def OutSlot.Sound (target : Option Nat) (k : Nat) (c : OutSlot) : RingClaim → Prop
  | .held => c.heldDone
  | .opened => ∀ t m, c.st = .composing t m → target = some k

/-- The ring under a compose and a scanout hold: its slots are sound, and scanout holds a DONE slot of it. -/
def RingSound (w : RingClaim) (ring : Option OutRing) (target held : Option Nat) : Prop :=
  (∀ r, ring = some r → ∀ (k : Nat) (c : OutSlot), r.slots[k]? = some c → c.Sound target k w)
    ∧ ∀ k, w = .held → held = some k → ∃ r c f, ring = some r ∧ r.slots[k]? = some c ∧ c.st = .finished f

section
variable {w : RingClaim} {target : Option Nat} {k : Nat} {c : OutSlot}

theorem OutSlot.sound_of_finished {f : OutFrame} (h : c.st = .finished f) : c.Sound target k w := by
  cases w with
  | held => exact fun _ => ⟨f, h⟩
  | opened => exact fun _ _ e => by simp [h] at e

theorem OutSlot.setHold_st (c : OutSlot) (p : Port) (h : Option Word32) : (c.setHold p h).st = c.st := by cases p <;> rfl

theorem OutSlot.unheld_dropHold (p : Port) (h : c.unheld = true) : (c.setHold p none).unheld = true := by
  cases p <;> simp_all [unheld, setHold]

theorem OutSlot.Sound.dropHold (h : c.Sound target k w) (p : Port) : (c.setHold p none).Sound target k w := by
  cases w with
  | held =>
    intro hd
    rw [setHold_st]
    exact h (Bool.eq_false_iff.2 fun hc => Bool.eq_false_iff.1 hd (unheld_dropHold p hc))
  | opened => exact fun t m e => h t m (c.setHold_st p none ▸ e)

theorem OutSlot.Sound.targeting (h : c.Sound target k w) {target' : Option Nat} (ht : target = some k → target' = some k) :
    c.Sound target' k w := by
  cases w with
  | held => exact h
  | opened => exact fun t m e => ht (h t m e)

end

section
variable {w : RingClaim} {ring : Option OutRing} {r r' : OutRing} {target target' held : Option Nat} {k : Nat}
  {f : OutSlot → OutSlot}

/-- One slot changed, and the compose that is in flight: the target may move to that slot or away from it. -/
theorem RingSound.modify (h : RingSound w ring target held) (hr : ring = some r) (hslots : r'.slots = r.slots.modify k f)
    (ht : ∀ j, j ≠ k → target = some j → target' = some j)
    (hf : ∀ c, r.slots[k]? = some c → c.Sound target k w → (f c).Sound target' k w)
    (hh : w = .held → held = some k → ∀ c g, r.slots[k]? = some c → c.st = .finished g → ∃ g', (f c).st = .finished g') :
    RingSound w (some r') target' held := by
  obtain ⟨hsound, hheld⟩ := h
  constructor
  · rintro _ ⟨⟩ j d hd
    rw [hslots, List.getElem?_modify] at hd
    obtain ⟨c, hc, rfl⟩ := Option.map_eq_some_iff.1 hd
    have hcs := hsound r hr j c hc
    by_cases hjk : k = j
    · subst hjk
      simpa using hf c hc hcs
    · rw [if_neg hjk]
      exact hcs.targeting (ht j (Ne.symm hjk))
  · intro j hw hj
    obtain ⟨r₀, c, g, hr₀, hc, hst⟩ := hheld j hw hj
    obtain rfl := Option.some.inj (hr.symm.trans hr₀)
    by_cases hjk : k = j
    · subst hjk
      obtain ⟨g', hg'⟩ := hh hw hj c g hc hst
      exact ⟨r', f c, g', rfl, by simp [hslots, hc], hg'⟩
    · exact ⟨r', c, g, rfl, by simp [hslots, hjk, hc], hst⟩

/-- A slot that keeps its state, and whose holds are on a DONE frame or only given up. -/
theorem RingSound.modifyHold (h : RingSound w ring target held) (hr : ring = some r)
    (hst : ∀ c, (f c).st = c.st) (hf : ∀ c, r.slots[k]? = some c → c.Sound target k w → (f c).Sound target k w) :
    RingSound w (some (r.modify k f)) target held :=
  h.modify hr rfl (fun _ _ e => e) hf fun _ _ c g _ e => ⟨g, (hst c).trans e⟩

theorem RingSound.unheld (h : RingSound w ring target held) : RingSound w ring target none := ⟨h.1, fun _ _ e => by cases e⟩

/-- A ring of empty slots that scanout does not hold. -/
theorem ringSound_of_empty (h : ∀ r, ring = some r → ∀ c ∈ r.slots, c = .empty) (hh : w = .held → held = none) :
    RingSound w ring target held := by
  refine ⟨fun r hr k c hc => ?_, fun _ hw e => by cases (hh hw).symm.trans e⟩
  rw [h r hr c (List.mem_of_getElem? hc)]
  cases w with
  | held => exact fun hu => by simp [OutSlot.unheld, OutSlot.empty] at hu
  | opened => exact fun _ _ e => by simp [OutSlot.empty] at e

end

/-! ### The output ring of a state -/

/-- The output ring's half of the invariant. -/
structure OutSound (w : RingClaim) (s : State) : Prop where
  ring : RingSound w s.fsc.outRing (s.ce.current.map Compose.target) s.su.held
  running : w = .held → s.su.held.isSome = true → s.su.timer.isSome = true
  joined : w = .held → s.fsc.outRing.isSome = true → ∃ a : Fin 8, s.fsc.areas[a].joinedTo .output = true

section
variable {w : RingClaim}

theorem Compose.target_of_work {x y : Option Compose} (h : x.map Compose.work = y.map Compose.work) :
    x.map Compose.target = y.map Compose.target := by
  have fst (z : Option Compose) : z.map Compose.target = (z.map Compose.work).map Prod.fst := by cases z <;> rfl
  rw [fst, fst, h]

theorem OutSound.dependsOn : DependsOn [.areas, .outRing, .current, .scanout] (OutSound w) := by
  intro s t hk ⟨hring, hrun, hjoin⟩
  have ka : t.fsc.areas = s.fsc.areas := hk .areas (by simp)
  have kr : t.fsc.outRing = s.fsc.outRing := hk .outRing (by simp)
  have kc := Compose.target_of_work (hk .current (by simp))
  have ks : t.su = s.su := hk .scanout (by simp)
  exact ⟨by rwa [kr, kc, ks], by rwa [ks], by rwa [kr, ka]⟩

theorem FrameStore.joined_isSome_iff {fs : FrameStore} {t : Target} :
    (fs.joined t).isSome = true ↔ ∃ a : Fin 8, fs.areas[a].joinedTo t = true := by
  simp [joined, List.find?_isSome]

theorem OutSound.reset : OutSound w State.reset := by
  have ring : State.reset.fsc.outRing = none := rfl
  have held : State.reset.su.held = none := rfl
  constructor
  · exact ringSound_of_empty (fun r h => by cases ring.symm.trans h) fun _ => held
  · intro _ h
    rw [held] at h
    cases h
  · intro _ h
    rw [ring] at h
    cases h

section
variable {s t : State}

theorem OutSound.within (hs : OutSound w s) {l : List Part} (hw : Within l s t)
    (hl : decide (∀ x ∈ [Part.areas, .outRing, .current, .scanout], x ∉ l) = true) : OutSound w t :=
  OutSound.dependsOn.within hw hl hs

/-- Another ring put in the place of one. -/
theorem OutSound.setOutRing (hs : OutSound w s) (hring : s.fsc.outRing.isSome = true) {r : OutRing}
    (h : RingSound w (some r) (s.ce.current.map Compose.target) s.su.held) : OutSound w (s.setOutRing (some r)) :=
  ⟨h, hs.running, fun hw _ => hs.joined hw hring⟩

/-- An area entry put that is JOINED to OUTPUT if the former one is. -/
theorem OutSound.setArea (hs : OutSound w s) {a : Fin 8} {x : Area}
    (h : s.fsc.areas[a].joinedTo .output = true → x.joinedTo .output = true) : OutSound w (s.setArea a x) := by
  refine ⟨hs.ring, hs.running, fun hw hr => ?_⟩
  obtain ⟨i, hi⟩ := hs.joined hw hr
  refine ⟨i, ?_⟩
  rw [State.setArea_areas]
  split
  · rename_i hia
    exact h (hia ▸ hi)
  · exact hi

/-- The scanout unit put with a hold that it may have. -/
theorem OutSound.setSu (hs : OutSound w s) {x : Scanout}
    (h : RingSound w s.fsc.outRing (s.ce.current.map Compose.target) x.held) (ht : w = .held → x.held.isSome = true → x.timer.isSome = true) :
    OutSound w (s.setSu x) :=
  ⟨h, ht, hs.joined⟩

/-! ### Composing (R86 to R88, R103) -/

theorem State.beginCompose_outRing (s : State) (r : OutRing) (v : Fin 16) (k : Nat) :
    (s.beginCompose r v k).fsc.outRing = some (r.modify k fun x => { x with st := .composing s.tbu.now s.usableMask }) :=
  within_markSets (s.matchFrames.setOutRing _) true (s.panes v) .outRing (by decide)

theorem OutSound.beginCompose (hs : OutSound w s) {r : OutRing} (v : Fin 16) {k : Nat} (hc : s.ce.current = none)
    (hr : s.fsc.outRing = some r) (hk : r.composeTarget s.su.held = some k) : OutSound w (s.beginCompose r v k) := by
  have hwithin := within_beginCompose s r v k
  have ka : (s.beginCompose r v k).fsc.areas = s.fsc.areas := hwithin .areas (by decide)
  have ks : (s.beginCompose r v k).su = s.su := hwithin .scanout (by decide)
  obtain ⟨c, hck, hsel⟩ := OutRing.composeTarget_eq_some hk
  refine ⟨?_, by rw [ks]; exact hs.running, fun hw _ => ?_⟩
  · have target : (s.beginCompose r v k).ce.current.map Compose.target = some k := rfl
    rw [State.beginCompose_outRing, target, ks]
    refine hs.ring.modify hr rfl (fun j _ h => by simp [hc] at h) (fun d hd hsound => ?_) fun _ hheld d g hd hst => ?_
    · obtain rfl := Option.some.inj (hck.symm.trans hd)
      cases w with
      | opened => exact fun _ _ _ => rfl
      | held =>
        intro hu
        obtain ⟨f, hf⟩ := hsound hu
        rcases hsel with ⟨hfree, -⟩ | ⟨-, -, hun, -⟩
        · simp [hf] at hfree
        · have hu : c.unheld = false := hu
          cases hun.symm.trans hu
    · obtain rfl := Option.some.inj (hck.symm.trans hd)
      rcases hsel with ⟨hfree, -⟩ | ⟨-, -, -, hne, -⟩
      · simp [hst] at hfree
      · exact absurd hheld hne
  · rw [ka]
    exact hs.joined hw (by rw [hr]; rfl)

theorem State.finishCompose_outRing (s : State) (c : Compose) (r : OutRing) (z : Vector ZoneStats 4) :
    (s.finishCompose c r z).fsc.outRing
      = some { r.modify c.target (fun x => { x with st := .finished (c.outFrame r.next) }) with next := r.next + 1 } := by
  have kept (u : State) := ((Within.foldl within_dropPins u (List.finRange 4)).comp (within_markSets _ false c.snap.panes))
    .outRing (by decide)
  exact kept (s.setOutRing _)

theorem OutSound.finishCompose (hs : OutSound w s) {c : Compose} {r : OutRing} (z : Vector ZoneStats 4)
    (hc : s.ce.current = some c) (hr : s.fsc.outRing = some r) : OutSound w (s.finishCompose c r z) := by
  have hwithin := within_finishCompose s c r z
  have ka : (s.finishCompose c r z).fsc.areas = s.fsc.areas := hwithin .areas (by decide)
  have ks : (s.finishCompose c r z).su = s.su := hwithin .scanout (by decide)
  refine ⟨?_, by rw [ks]; exact hs.running, fun hw _ => ?_⟩
  · rw [State.finishCompose_outRing, ks]
    refine hs.ring.modify hr rfl (fun j hj h => ?_) (fun d _ _ => OutSlot.sound_of_finished rfl) fun _ _ d g _ _ => ⟨_, rfl⟩
    rw [hc] at h
    exact absurd (Option.some.inj h).symm hj
  · rw [ka]
    exact hs.joined hw (by rw [hr]; rfl)

theorem OutSound.composeStart (hs : OutSound w s) : OutSound w s.composeStart := by
  rcases s.composeStart_cases with h | ⟨u, r, v, k, hu, hidle, hr, hk, h⟩
  · exact hs.within h rfl
  · rw [h]
    exact (hs.within hu rfl).beginCompose v hidle hr hk

theorem OutSound.execComposeCompletion (hs : OutSound w s) (e : execComposeCompletion s = .next t) : OutSound w t := by
  rcases execComposeCompletion_cases e with rfl | ⟨c, r, hc, hr, rfl⟩
  · exact hs
  · exact OutSound.finishCompose (hs.within (within_writeFrame s c r) rfl) _ hc hr

/-! ### Scanout (R171 to R174) -/

theorem judgeDisplaySet_keeps_outSound (on : Option Bool) (p : Nat) (hs : OutSound w s) : (judgeDisplaySet on p s).Keeps (OutSound w) := by
  unfold judgeDisplaySet
  split
  · rfl
  · refine ⟨clampResult_accepts _, ?_⟩
    unfold Scanout.switch
    split
    · refine hs.setSu hs.ring fun _ _ => ?_
      dsimp only
      split <;> rfl
    · split
      · exact hs.setSu hs.ring hs.running
      · exact hs.setSu hs.ring.unheld fun _ h => by cases h

theorem OutSound.chooseDisplay (hs : OutSound w s) :
    RingSound w s.fsc.outRing (s.ce.current.map Compose.target) s.chooseDisplay.held := by
  unfold State.chooseDisplay
  split
  · exact hs.ring.unheld
  · split
    · exact hs.ring.unheld
    · exact hs.ring.unheld
    · split
      · exact hs.ring
      · rename_i k hk _
        refine ⟨hs.ring.1, fun j _ hj => ?_⟩
        obtain rfl := Option.some.inj hj
        obtain ⟨r, hr, hn⟩ := Option.bind_eq_some_iff.1 hk
        obtain ⟨c, f, hc, hst, -⟩ := OutRing.newestDone_eq_some hn
        exact ⟨r, c, f, hr, hc, hst⟩

theorem OutSound.displayStart (hs : OutSound w s) : OutSound w s.displayStart := by
  unfold State.displayStart
  split
  · exact hs.setSu hs.chooseDisplay fun _ _ => rfl
  · exact hs

/-! ### Port holds (R35 to R37) -/

theorem OutSound.modifyHold (hs : OutSound w s) {r : OutRing} (hr : s.fsc.outRing = some r) {k : Nat} {f : OutSlot → OutSlot}
    (hst : ∀ c, (f c).st = c.st)
    (hf : ∀ c, r.slots[k]? = some c → c.Sound (s.ce.current.map Compose.target) k w →
      (f c).Sound (s.ce.current.map Compose.target) k w) : OutSound w (s.setOutRing (some (r.modify k f))) :=
  hs.setOutRing (by rw [hr]; rfl) (hs.ring.modifyHold hr hst hf)

theorem OutSound.dropHold (hs : OutSound w s) {r : OutRing} (hr : s.fsc.outRing = some r) (p : Port) (k : Nat) :
    OutSound w (s.setOutRing (some (r.modify k fun x => x.setHold p none))) :=
  hs.modifyHold hr (fun c => c.setHold_st p none) fun _ _ hc => hc.dropHold p

theorem judgeFrameHold_keeps_outSound (p : Port) (ring : Option Ring) (hs : OutSound w s) :
    (judgeFrameHold p ring s).Keeps (OutSound w) := by
  unfold judgeFrameHold
  split
  · rfl
  · unfold judgeHoldCam
    split
    · rfl
    · split
      · rfl
      · split
        · rfl
        · split
          · exact ⟨rfl, hs.within (within_setCamRing s _ _) rfl⟩
          · rfl
  · unfold judgeHoldOut
    split
    · rfl
    · rename_i r hr
      split
      · rfl
      · split
        · rfl
        · split
          · rename_i hk
            refine ⟨rfl, hs.modifyHold hr (fun c => c.setHold_st p _) fun c hc _ => ?_⟩
            obtain rfl := Option.some.inj (hk.symm.trans hc)
            exact OutSlot.sound_of_finished (OutSlot.setHold_st _ p _)
          · rfl

theorem judgeFrameRelease_keeps_outSound (p : Port) (ring : Option Ring) (hs : OutSound w s) :
    (judgeFrameRelease p ring s).Keeps (OutSound w) := by
  unfold judgeFrameRelease
  split
  · rfl
  · split
    · rfl
    · split
      · rfl
      · exact ⟨rfl, hs.within (within_setCamRing s _ _) rfl⟩
  · split
    · rfl
    · rename_i r hr
      split
      · rfl
      · exact ⟨rfl, hs.dropHold hr p _⟩

theorem OutSound.expireOutHold (hs : OutSound w s) (p : Port) : OutSound w (s.expireOutHold p) := by
  unfold State.expireOutHold
  split
  · exact hs
  · rename_i r hr
    split
    · exact hs
    · exact (hs.dropHold hr p _).within (within_notifyOwner _ _ _ _ _) rfl

/-! ### Areas (R22 to R27) -/

theorem Area.not_joined_of_refusesDefine {x : Area} (h : x.refusesDefine = none) (t : Target) : x.joinedTo t = false := by
  unfold Area.refusesDefine at h
  split at h <;> first | rfl | cases h

theorem judgeAreaDefine_keeps_outSound (a : Nat) (f : AreaForm) (hs : OutSound w s) : (judgeAreaDefine a f s).Keeps (OutSound w) := by
  unfold judgeAreaDefine
  split
  · rfl
  · split
    · rfl
    · split
      · exact Area.refusesDefine_refuses ‹_›
      · rename_i hd
        have notJoined := Area.not_joined_of_refusesDefine hd .output
        split
        · exact ⟨rfl, hs.setArea fun h => by cases notJoined.symm.trans h⟩
        · split
          · rfl
          · exact ⟨rfl, hs.setArea fun h => by cases notJoined.symm.trans h⟩

theorem OutSound.setUnjoined (hs : OutSound w s) {a : Fin 8} {b l : Nat} {ph : AreaPhase} (ha : s.fsc.areas[a] = .range b l ph)
    (hp : ∀ t, ph = .joined t → t ≠ .output) (x : Area) : OutSound w (s.setArea a x) := by
  refine hs.setArea fun h => ?_
  rw [ha] at h
  unfold Area.joinedTo at h
  cases ph with
  | joined t => exact absurd (of_decide_eq_true h) (hp t rfl)
  | _ => cases h

theorem judgeAreaClear_keeps_outSound (a : Nat) (hs : OutSound w s) : (judgeAreaClear a s).Keeps (OutSound w) := by
  unfold judgeAreaClear
  split
  · rfl
  · split
    · rfl
    · rfl
    · rfl
    · exact ⟨rfl, hs.setUnjoined ‹_› (fun _ h => by cases h) _⟩
    · exact ⟨rfl, hs.setUnjoined ‹_› (fun _ h => by cases h) _⟩

theorem OutSound.execAreaClearCompletion (hs : OutSound w s) {a : Fin 8} (e : execAreaClearCompletion a s = .next t) :
    OutSound w t := by
  unfold Machine.execAreaClearCompletion at e
  split at e
  · rename_i ha
    split at e
    · cases e
      have cleared (m : Memory) (x : Area) : OutSound w ({ s with dram := m }.setArea a x) :=
        OutSound.setUnjoined (s := { s with dram := m }) (hs.within (within_dram s m) rfl) ha (fun _ h => by cases h) x
      exact (cleared _ _).within (within_notify _ _ _ _) rfl
    · cases e
  · cases e
    exact hs

theorem State.join_keeps_outSound (a : Fin 8) (b l : Nat) (t : Target) (ha : s.fsc.areas[a] = .range b l .clean)
    (hfree : (s.fsc.joined t).isSome = false) (hs : OutSound w s) : (s.join a b l t).Keeps (OutSound w) := by
  have kept := hs.setUnjoined ha (fun _ h => by cases h) (.range b l (.joined t))
  unfold State.join
  dsimp only
  cases t with
  | camera n =>
    dsimp only
    split
    · rfl
    · exact ⟨rfl, kept.within ((within_setCamRing _ _ _).trans ((within_changeJoin _ _).mono_nil _)) rfl⟩
  | overlay =>
    dsimp only
    split
    · rfl
    · exact ⟨rfl, kept⟩
  | output =>
    dsimp only
    split
    · rfl
    · have noHold (hw : w = .held) : s.su.held = none := by
        by_contra h
        obtain ⟨k, hk⟩ := Option.ne_none_iff_exists'.1 h
        obtain ⟨r, _, _, hr, -⟩ := hs.ring.2 k hw hk
        have hjoined := FrameStore.joined_isSome_iff.2 (hs.joined hw (by rw [hr]; rfl))
        cases hfree.symm.trans hjoined
      refine ⟨rfl, ⟨ringSound_of_empty (fun r h c hc => ?_) noHold, hs.running, fun _ _ => ⟨a, ?_⟩⟩⟩
      · obtain rfl := Option.some.inj h
        exact List.eq_of_mem_replicate hc
      · have entry : (s.setArea a (.range b l (.joined .output))).fsc.areas[a] = .range b l (.joined .output) := by
          rw [State.setArea_areas, if_pos rfl]
        exact (congrArg (Area.joinedTo .output) entry).trans rfl

theorem judgeAreaJoin_keeps_outSound (a : Nat) (t : Option Target) (hs : OutSound w s) : (judgeAreaJoin a t s).Keeps (OutSound w) := by
  unfold judgeAreaJoin
  split
  · rfl
  · rfl
  · split
    · rfl
    · rfl
    · rfl
    · rfl
    · split
      · rfl
      · rename_i ha hfree
        exact State.join_keeps_outSound _ _ _ _ ha (Bool.eq_false_iff.2 hfree) hs

theorem judgeAreaUnjoin_keeps_outSound (a : Nat) (hs : OutSound w s) : (judgeAreaUnjoin a s).Keeps (OutSound w) := by
  unfold judgeAreaUnjoin
  split
  · rfl
  · split
    · rename_i t ha
      split
      · rename_i hidle
        refine ⟨rfl, ?_⟩
        cases t with
        | camera n =>
          exact (hs.setUnjoined ha (fun _ h => by cases h; simp) _).within
            ((within_setCamRing _ _ _).trans ((within_changeJoin _ _).mono_nil _)) rfl
        | overlay => exact hs.setUnjoined ha (fun _ h => by cases h; simp) _
        | output =>
          have off : s.su.timer = none := by
            simp only [State.unjoinable, Bool.and_eq_true, Option.isNone_iff_eq_none] at hidle
            exact hidle.1.1
          have noHold (hw : w = .held) : s.su.held = none := by
            by_contra h
            have := hs.running hw (Option.isSome_iff_ne_none.2 h)
            simp [off] at this
          exact ⟨ringSound_of_empty (fun r h => by cases h) noHold, hs.running, fun _ h => by cases h⟩
      · rfl
    · rfl

/-! ### Resets -/

theorem OutSound.pipelineBlocks (hs : OutSound w s) : OutSound w s.pipelineBlocks := by
  refine ⟨?_, fun _ h => (by cases h), fun hw h => ?_⟩
  · refine ringSound_of_empty (ring := s.fsc.outRing.map OutRing.pipelineReset) (fun r' h c hc => ?_) fun _ => rfl
    obtain ⟨r, -, rfl⟩ := Option.map_eq_some_iff.1 h
    obtain ⟨_, -, rfl⟩ := List.mem_map.1 hc
    rfl
  · have ring : s.pipelineBlocks.fsc.outRing = s.fsc.outRing.map OutRing.pipelineReset := rfl
    rw [ring, Option.isSome_map] at h
    obtain ⟨a, ha⟩ := hs.joined hw h
    have entry : s.pipelineBlocks.fsc.areas[a] = s.fsc.areas[a].pipelineReset := by
      simp [State.pipelineBlocks, FrameStore.pipelineReset]
    refine ⟨a, ?_⟩
    rw [entry]
    unfold Area.pipelineReset
    split
    · rename_i hx
      rw [hx] at ha
      cases ha
    · exact ha

end

/-! ### Every step -/

theorem outRing_mem_footprint {i : Instr} (h : .areas ∈ footprint i ∨ .outRing ∈ footprint i ∨ .current ∈ footprint i
      ∨ .scanout ∈ footprint i) :
    abandons i = true ∨ (∃ h a f, i = .areaDefine h a f) ∨ (∃ h a, i = .areaClear h a) ∨ (∃ h a t, i = .areaJoin h a t)
      ∨ (∃ h a, i = .areaUnjoin h a) ∨ (∃ h r, i = .frameHold h r) ∨ (∃ h r, i = .frameRelease h r)
      ∨ (∃ h o p, i = .displaySet h o p) ∨ (∃ h c, i = .displayStatus h c) ∨ (∃ a, i = .areaClearCompletion a)
      ∨ (∃ p r, i = .holdExpiry p r) ∨ i = .composeStart ∨ i = .composeCompletion ∨ i = .displayFrameStart := by
  cases i <;> simp [footprint, abandons] at h ⊢
  case status h c => cases c <;> simp at h

theorem OutSound.exec {i : Instr} {s t : State} (hs : OutSound w s) (e : exec i s = .next t) : OutSound w t := by
  by_cases hi : .areas ∈ footprint i ∨ .outRing ∈ footprint i ∨ .current ∈ footprint i ∨ .scanout ∈ footprint i
  · rcases outRing_mem_footprint hi with h | ⟨h, a, f, rfl⟩ | ⟨h, a, rfl⟩ | ⟨h, a, u, rfl⟩ | ⟨h, a, rfl⟩ | ⟨h, r, rfl⟩
      | ⟨h, r, rfl⟩ | ⟨h, o, p, rfl⟩ | ⟨h, c, rfl⟩ | ⟨a, rfl⟩ | ⟨p, r, rfl⟩ | rfl | rfl | rfl
    · exact dependsOn.abandons rfl h (dependsOn.within (within_reset_hardReset s) rfl .reset)
        (dependsOn.pipelineReset rfl hs.pipelineBlocks) hs e
    · exact dependsOn.guarded rfl (judgeAreaDefine_keeps_outSound a f hs) hs e
    · exact dependsOn.guarded rfl (judgeAreaClear_keeps_outSound a hs) hs e
    · exact dependsOn.guarded rfl (judgeAreaJoin_keeps_outSound a u hs) hs e
    · exact dependsOn.guarded rfl (judgeAreaUnjoin_keeps_outSound a hs) hs e
    · exact dependsOn.command rfl (judgeFrameHold_keeps_outSound h.port r hs) hs e
    · exact dependsOn.command rfl (judgeFrameRelease_keeps_outSound h.port r hs) hs e
    · exact dependsOn.guarded rfl (judgeDisplaySet_keeps_outSound o p hs) hs e
    · refine dependsOn.command (judge := judgeDisplayStatus c) rfl ⟨rfl, ?_⟩ hs e
      split
      · exact hs.setSu hs.ring hs.running
      · exact hs
    · exact hs.execAreaClearCompletion e
    · cases r with
      | camera n =>
        cases e
        exact hs.within (within_expireCamHold s p n) rfl
      | output =>
        cases e
        exact hs.expireOutHold p
    · cases e
      exact hs.composeStart
    · exact hs.execComposeCompletion e
    · cases e
      exact hs.displayStart
  · simp only [not_or] at hi
    obtain ⟨ha, hr, hc, hu⟩ := hi
    exact dependsOn (fun x hx => exec_within e x (by
      simp only [List.mem_cons, List.not_mem_nil, or_false] at hx
      rcases hx with rfl | rfl | rfl | rfl <;> assumption)) hs

/-! ### The two invariants of the rings -/

end

theorem holdInv_iff {s : State} : HoldInv s ↔ CamSound .held s ∧ OutSound .held s := by
  constructor
  · rintro ⟨hcam, hout, hheld, hjoin⟩
    refine ⟨fun n r hr k c hk => hcam n r hr c (List.mem_of_getElem? hk), ⟨fun r hr k c hk => hout r hr c (List.mem_of_getElem? hk),
      fun k _ hk => (hheld k hk).2⟩, fun _ h => ?_, fun _ h => FrameStore.joined_isSome_iff.1 (hjoin h)⟩
    obtain ⟨k, hk⟩ := Option.isSome_iff_exists.1 h
    exact (hheld k hk).1
  · rintro ⟨hcam, hout⟩
    refine ⟨fun n r hr c hm => ?_, fun r hr c hm => ?_, fun k hk => ⟨hout.running rfl (by rw [hk]; rfl), hout.ring.2 k rfl hk⟩,
      fun h => FrameStore.joined_isSome_iff.2 (hout.joined rfl h)⟩
    · obtain ⟨k, hk⟩ := List.mem_iff_getElem?.1 hm
      exact hcam n r hr k c hk
    · obtain ⟨k, hk⟩ := List.mem_iff_getElem?.1 hm
      exact hout.ring.1 r hr k c hk

theorem oneOpenInv_iff {s : State} : OneOpenInv s ↔ CamSound .opened s ∧ OutSound .opened s := by
  constructor
  · rintro ⟨hfill, hcomp⟩
    exact ⟨fun n r hr k c hk q t l hst => hfill n r k c q t l hr hk hst,
      ⟨fun r hr k c hk t m hst => Option.map_eq_some_iff.2 (hcomp r k c t m hr hk hst), fun _ hw => by cases hw⟩,
      fun hw => (by cases hw), fun hw => by cases hw⟩
  · rintro ⟨hcam, hout⟩
    exact ⟨fun n r k c q t l hr hk hst => hcam n r hr k c hk q t l hst,
      fun r k c t m hr hk hst => Option.map_eq_some_iff.1 (hout.ring.1 r hr k c hk t m hst)⟩

/-- Settles O57: each claim of the camera rings and of the output ring is kept for itself. -/
theorem stepKeepsHolds : Obligations.StepKeepsHolds := by
  intro s t e
  rw [holdInv_iff, holdInv_iff, oneOpenInv_iff, oneOpenInv_iff]
  have kept (w : RingClaim) : CamSound w s ∧ OutSound w s → CamSound w t ∧ OutSound w t := fun ⟨hc, ho⟩ =>
    ⟨CamSound.dependsOn.step rfl (fun _ _ _ _ e h => h.exec e) hc e, OutSound.dependsOn.step rfl (fun _ _ _ _ e h => h.exec e) ho e⟩
  exact ⟨kept .held, kept .opened⟩

theorem HoldInv.reset : HoldInv State.reset := holdInv_iff.2 ⟨.reset, .reset⟩

theorem OneOpenInv.reset : OneOpenInv State.reset := oneOpenInv_iff.2 ⟨.reset, .reset⟩

theorem MemoryInv.reset : MemoryInv State.reset := by
  unfold MemoryInv
  decide

/-- Settles O52: each invariant of the state after power-on. -/
theorem invariantsHoldAtReset : Obligations.InvariantsHoldAtReset :=
  ⟨.reset, .reset, .reset, .reset, .reset, .reset, .reset, .reset, .reset, ⟨BindsCounted.reset, SetsInUse.reset⟩, .reset⟩

end Sys2Proof.Machine
end

