-- ==== Sys2Proof/Proofs/Ports.lean ====
section
/-! The transactions of the control ports: how a record is taken or refused by its framing, the condition flags, PORT_SETUP,
EVENT_READ and the routing of notices (R177 to R183). -/

namespace Sys2Proof.Machine

open Host (Outcome)

/-! ### Framing (R177) -/

section
variable {s : State} {h : Hdr} {code : Byte} {fits : Bool} {judge : State → Verdict}

theorem takeCommand_of_short (hg : h.got < 10) : takeCommand s h code fits judge = .next s := if_pos hg

theorem takeCommand_of_unframed (hg : 10 ≤ h.got) (hf : framed h fits = false) :
    takeCommand s h code fits judge = .next (s.respond h.port code .badArg .empty) := by
  simp [takeCommand, hf, Nat.not_lt.2 hg]

end

theorem framed_eq_false_iff {h : Hdr} {fits : Bool} :
    framed h fits = false ↔ 240 < h.len.toNat ∨ h.got < 10 + h.len.toNat ∨ fits = false := by
  rw [← Bool.not_eq_true]
  simp [framed, imp_iff_not_or, or_assoc]

theorem fits_of_typedFields {i : Instr} {c : Command} (hc : commandOf i = some c) (ht : typedFields i = true) :
    c.fits = c.hdr.fits := by
  cases i <;> cases hc <;> cases ht <;> rfl

/-- A record shorter than its header is ignored, whatever it carries (R177). -/
theorem exec_of_short {i : Instr} {h : Hdr} (hi : headerOf i = some h) (hg : h.got < 10) (s : State) : exec i s = .next s := by
  rcases headerOf_cases hi with ⟨c, hc, rfl⟩ | ⟨code, rfl⟩ | ⟨clear, rfl⟩
  · rw [exec_of_commandOf hc, takeCommand_of_short hg]
  · exact if_pos (.inl hg)
  · exact if_pos hg

/-- A record whose payload is too long, did not arrive whole, or does not hold the fields of its command is refused (R177). -/
theorem exec_of_unframed {i : Instr} {h : Hdr} {code : Byte} (hi : headerOf i = some h) (hcode : codeOf i = some code)
    (hu : ∀ c, i ≠ .unknownCommand h c) (hg : 10 ≤ h.got)
    (hf : 240 < h.len.toNat ∨ h.got < 10 + h.len.toNat ∨ (typedFields i = true ∧ h.fits = false)
      ∨ (h.len.toNat < 12 ∧ ∃ bs, i = .markPost h bs)) (s : State) :
    exec i s = .next (s.respond h.port code .badArg .empty) := by
  rcases headerOf_cases hi with ⟨c, hc, rfl⟩ | ⟨code, rfl⟩ | ⟨clear, rfl⟩
  · obtain rfl := Option.some.inj ((codeOf_of_commandOf hc).symm.trans hcode)
    rw [exec_of_commandOf hc, takeCommand_of_unframed hg]
    rw [framed_eq_false_iff]
    rcases hf with hf | hf | ⟨ht, hf⟩ | ⟨hlen, bs, rfl⟩
    · exact .inl hf
    · exact .inr (.inl hf)
    · exact .inr (.inr ((fits_of_typedFields hc ht).trans hf))
    · have fits : c.fits = (decide (c.hdr.len.toNat ≤ bs.length) && decide (12 ≤ c.hdr.len.toNat)) :=
        (congrArg Command.fits (Option.some.inj hc)).symm
      rw [fits, decide_eq_false (Nat.not_le.2 hlen), Bool.and_false]
      exact .inr (.inr rfl)
  · exact absurd rfl (hu code)
  · obtain rfl := Option.some.inj hcode
    have unframed : framed h h.fits = false := by
      rw [framed_eq_false_iff]
      rcases hf with hf | hf | ⟨-, hf⟩ | ⟨-, bs, e⟩
      · exact .inl hf
      · exact .inr (.inl hf)
      · exact .inr (.inr hf)
      · cases e
    change execStatus h clear s = _
    simp [execStatus, Nat.not_lt.2 hg, unframed]

/-! ### The condition flags (R180) -/

theorem State.flags_degraded (s : State) : s.flags.getLsbD 0 = true ↔ s.tbu.lastMask ≠ 15 := by
  unfold State.flags
  split_ifs <;> simp_all

theorem State.flags_muted (s : State) : s.flags.getLsbD 1 = true ↔ s.ca.decision.mute = true := by
  unfold State.flags
  split_ifs <;> simp_all

theorem State.flags_alert (s : State) : s.flags.getLsbD 2 = true ↔ ∃ e ∈ s.ca.stack, ∃ d, e.source = .portA d := by
  have alert : s.ca.alert = true ↔ ∃ e ∈ s.ca.stack, ∃ d, e.source = .portA d := by
    simp [Arbiter.alert, Source.isPortA_iff]
  rw [← alert]
  unfold State.flags
  split_ifs <;> simp_all

theorem State.flags_fault (s : State) : s.flags.getLsbD 3 = true ↔ s.cp.faults ≠ 0 := by
  unfold State.flags
  split_ifs <;> simp_all

/-- Settles O4: the ports' own transactions by definition, the framing for every command at once, and each flag by its bit. -/
theorem transactionsOfThePorts : Obligations.TransactionsOfThePorts := by
  refine ⟨fun s p => ⟨rfl, fun _ => rfl, fun h code hg hc => ?_⟩, fun s i h hi => ⟨fun hg => exec_of_short hi hg s,
    fun code hcode hu hg hf => exec_of_unframed hi hcode hu hg hf s⟩, fun s p code res payload =>
      ⟨rfl, s.flags_degraded, s.flags_muted, s.flags_alert, s.flags_fault⟩⟩
  refine if_neg ?_
  rw [hc]
  simpa using hg

/-! ### PORT_SETUP (R183) -/

theorem kindFlags_getLsbD (b : Nat) : kindFlags.getLsbD b = true ↔ 1 ≤ b ∧ b ≤ 20 := by
  by_cases hb : b < 32
  · have all : ∀ b : Fin 32, kindFlags.getLsbD b = true ↔ 1 ≤ b.val ∧ b.val ≤ 20 := by decide
    exact all ⟨b, hb⟩
  · have outside : kindFlags.getLsbD b = false := BitVec.getLsbD_of_ge _ _ (by omega)
    simp only [outside, Bool.false_eq_true, false_iff]
    omega

/-- A mask holds the flags of kinds alone when each of its bits is one. -/
theorem and_kindFlags_eq_self_iff (mask : Word32) :
    mask &&& kindFlags = mask ↔ ∀ b, mask.getLsbD b = true → 1 ≤ b ∧ b ≤ 20 := by
  constructor
  · intro h b hb
    rw [← h, BitVec.getLsbD_and, Bool.and_eq_true] at hb
    exact (kindFlags_getLsbD b).1 hb.2
  · intro h
    refine BitVec.eq_of_getLsbD_eq fun b _ => ?_
    rw [BitVec.getLsbD_and]
    cases hm : mask.getLsbD b with
    | false => rfl
    | true => rw [(kindFlags_getLsbD b).2 (h b hm), Bool.and_self]

theorem exec_portSetup (h : Hdr) (mask : Word32) (en : Bool) (hold claim : Nat) (s : State) :
    exec (.portSetup h mask en hold claim) s = command s h 0x02 (judgePortSetup h.port mask en hold claim) := rfl

theorem judgePortSetup_badArg {mask : Word32} (hm : mask &&& kindFlags ≠ mask) (p : Port) (en : Bool) (hold claim : Nat)
    (s : State) : judgePortSetup p mask en hold claim s = .refuse .badArg := if_pos hm

theorem judgePortSetup_take {mask : Word32} (hm : mask &&& kindFlags = mask) (p : Port) (en : Bool) (hold claim : Nat)
    (s : State) : judgePortSetup p mask en hold claim s
      = .take (if 10 ≤ hold ∧ hold ≤ 5000 ∧ 100 ≤ claim ∧ claim ≤ 10000 then .ok else .clamped) .empty
          (s.setPort p { s.port p with
            mask := mask, irqEnable := en, holdTime := max 10 (min hold 5000), claimHold := max 100 (min claim 10000) }) := by
  have unchanged : decide (clampNat 10 5000 hold ≠ hold ∨ clampNat 100 10000 claim ≠ claim) = false
      ↔ 10 ≤ hold ∧ hold ≤ 5000 ∧ 100 ≤ claim ∧ claim ≤ 10000 := by
    simp only [decide_eq_false_iff_not, not_or, not_not, clampNat_eq_self_iff (show 10 ≤ 5000 by decide),
      clampNat_eq_self_iff (show 100 ≤ 10000 by decide), and_assoc]
  simp only [judgePortSetup, hm, ne_eq, not_true_eq_false, if_false]
  simp only [← ne_eq]
  rw [clampResult_eq_ite unchanged, clampNat_eq_max_min (by decide), clampNat_eq_max_min (by decide)]

/-- Settles O5: the mask decides between the refusal and the store. -/
theorem portSetupStores : Obligations.PortSetupStores := by
  refine ⟨fun s h mask en hold claim hs => ⟨fun ⟨b, hb, hout⟩ => ?_, fun hin => ?_⟩, fun q => ?_⟩
  · have bad : mask &&& kindFlags ≠ mask := fun e => by
      have := (and_kindFlags_eq_self_iff mask).1 e b hb
      omega
    rw [exec_portSetup, command_sound hs, judgePortSetup_badArg bad, answer]
  · rw [exec_portSetup, command_sound hs, judgePortSetup_take ((and_kindFlags_eq_self_iff mask).2 hin), answer]
  · simp [PortState.irq]

/-! ### EVENT_READ and notices (R181, R182) -/

theorem bytes32_eq (w : Word32) : bytes32 w = (List.range 4).map fun i => BitVec.ofNat 8 (w.toNat / 256 ^ i) := by
  simp [bytes32, BitVec.extractLsb', Nat.shiftRight_eq_div_pow, List.range_succ]

theorem exec_eventRead {s : State} {h : Hdr} (hw : wholeRecord h) :
    exec (.eventRead h) s = answer s h 0x03 (judgeEventRead h.port s) := bare_whole (judge := judgeEventRead h.port) hw

theorem PortState.eventBytes_eq (q : PortState) :
    q.eventBytes = [BitVec.ofNat 8 (min 14 q.queue.length), (if q.overflow then 1 else 0),
      BitVec.ofNat 8 (q.queue.length - 14)] ++ (q.queue.take 14).flatMap noticeBytes := by
  simp [eventBytes, eventMax]

theorem PortState.offer_of_lt {q : PortState} (h : q.queue.length < 32) (n : Notice) :
    q.offer n = { q with queue := q.queue ++ [n] } := if_pos h

theorem PortState.offer_of_ge {q : PortState} (h : 32 ≤ q.queue.length) (n : Notice) :
    q.offer n = { q with overflow := true } := if_neg (Nat.not_lt.2 h)

theorem State.notify_port (s : State) (p : Port) (k : NoticeKind) (subject value : Nat) :
    (s.notify k subject value).port p = (s.port p).offerSubscribed (s.notice k subject value) := by
  cases p <;> rfl

theorem PortState.offerSubscribed_of_set {q : PortState} {n : Notice} (h : q.mask.getLsbD n.kind.code = true) :
    q.offerSubscribed n = q.offer n := if_pos h

theorem PortState.offerSubscribed_of_clear {q : PortState} {n : Notice} (h : q.mask.getLsbD n.kind.code = false) :
    q.offerSubscribed n = q := if_neg (by simp [h])

/-- Settles O6: the bytes read, the record of a notice, the codes of the kinds, and a queue with room or without. -/
theorem eventReadReturnsOldest : Obligations.EventReadReturnsOldest := by
  refine ⟨fun s h hw => ?read, fun n => ?bytes, rfl, fun s p k subject value n hn => ?notices⟩
  case read => rw [exec_eventRead hw, judgeEventRead, answer, PortState.eventBytes_eq, eventMax]
  case bytes => rw [noticeBytes, bytes32_eq, bytes32_eq]
  case notices =>
    subst hn
    refine ⟨⟨_, _, rfl⟩, fun hm => ?_, fun hlt => ⟨fun hm => ?_, ?_⟩, fun hge => ⟨fun hm => ?_, ?_⟩⟩
    · rw [State.notify_port, PortState.offerSubscribed_of_clear hm]
    · rw [State.notify_port, PortState.offerSubscribed_of_set hm, PortState.offer_of_lt hlt, State.notice]
    · rw [State.notifyOwner, PortState.offer_of_lt hlt, State.notice]
    · rw [State.notify_port, PortState.offerSubscribed_of_set hm, PortState.offer_of_ge hge]
    · rw [State.notifyOwner, PortState.offer_of_ge hge]

end Sys2Proof.Machine
end

