-- ==== Sys2Proof/Proofs/Resets.lean ====
section
/-! What the resets leave, block by block: power-on reset and the reset pin (00, Resets), and PIPELINE_RESET (R184). -/

namespace Sys2Proof.Machine

open Host (Outcome)

/-! ### Power-on reset and the reset pin -/

theorem exec_of_hardReset {i : Instr} (hi : i = .powerOnReset ∨ i = .resetPin) (s : State) : exec i s = .next s.hardReset := by
  rcases hi with rfl | rfl <;> rfl

theorem State.hardReset_cam (s : State) (n : Fin 4) :
    s.hardReset.ciu[n] = { Cam.reset with locked := s.ciu[n].locked } := by simp [State.hardReset]

theorem State.hardReset_port (s : State) (p : Port) : s.hardReset.port p = State.reset.port p := by cases p <;> rfl

theorem State.reset_port (p : Port) : State.reset.port p = .reset := by cases p <;> rfl

theorem State.reset_palette (k : Fin 16) :
    State.reset.ou.setup.palette[k] = if k.val < 11 then { y := 0, u := 0, v := 0, alpha := 0 }
      else if k.val = 11 then { y := 235, u := 128, v := 128, alpha := 0 }
      else { y := 16, u := 128, v := 128, alpha := 0 } := by
  decide +revert

/-- Settles O3: every block's reset value, read off the state of the reset. -/
theorem hardResets : Obligations.HardResets := by
  intro s i hi
  refine ⟨s.hardReset, exec_of_hardReset hi s, dramAbandoned_of_dram (.inr rfl), rfl, rfl, fun n => ?cams, ?areas, ?rings, rfl,
    ?timebase, ?grids, ?views, rfl, ?balance, ?overlay, rfl, rfl, ?signals, rfl, ⟨rfl, rfl⟩, fun p => ?ports⟩
  case cams =>
    rw [State.hardReset_cam]
    exact ⟨rfl, rfl, rfl, rfl, rfl, rfl, rfl, rfl⟩
  case areas => exact fun _ => Vector.getElem_replicate _
  case rings => exact fun _ => Vector.getElem_replicate _
  case timebase => exact ⟨rfl, rfl, rfl, rfl, rfl, rfl, rfl, rfl, rfl, rfl, fun _ => Vector.getElem_replicate _⟩
  case grids => exact ⟨rfl, fun _ => Vector.getElem_replicate _⟩
  case views => exact ⟨rfl, fun _ => Vector.getElem_replicate _⟩
  case balance =>
    exact ⟨rfl, rfl, rfl, rfl, rfl, fun _ => ⟨Vector.getElem_replicate _, Vector.getElem_replicate _⟩⟩
  case overlay => exact ⟨rfl, rfl, rfl, rfl, fun _ => Vector.getElem_replicate _, State.reset_palette⟩
  case signals => exact ⟨rfl, rfl, rfl, rfl, rfl, rfl, fun _ => Vector.getElem_replicate _⟩
  case ports =>
    rw [State.hardReset_port, State.reset_port]
    exact ⟨rfl, rfl, rfl, rfl, rfl, rfl, rfl, rfl, rfl⟩

/-! ### PIPELINE_RESET (R184) -/

theorem exec_pipelineReset {s : State} {h : Hdr} (hw : wholeRecord h) :
    exec (.pipelineReset h) s = .next (s.pipelineReset.respond h.port 0x04 .ok .empty) :=
  bare_whole (judge := fun s => .take .ok .empty s.pipelineReset) hw

/-- A claim made on an empty stack carries the token that the counter shows (R139). -/
theorem State.makeGear_of_empty {s : State} (h : s.ca.stack = []) (v : Fin 16) :
    s.makeGear v = { s with ca := { s.ca with
      stack := [{ token := s.ca.token, source := .gear, view := v, time := s.tbu.now }], token := nextToken s.ca.token } } := by
  have room : s.makeRoom 2 = some s := by simp [makeRoom, h, Config.stackMax]
  have token : s.ca.freshToken = s.ca.token := by simp [Arbiter.freshToken, h, freeToken]
  simp [makeGear, room, newClaim, token, h, placeClaim]

/-- The reverse claim that a pipeline reset makes afresh (R152). -/
theorem State.pipelineReset_of_reverse {s : State} {v : Fin 16} (hv : s.ca.reverseView = some v)
    (hg : s.si.effGear = .reverse) :
    s.pipelineReset = { s.pipelineBlocks with ca := { s.ca with
      stack := [{ token := 1, source := .gear, view := v, time := s.tbu.now }], token := 2, lingerTimer := none
      decision := { view := none, mute := false }, speedAt := 0 } } := by
  have view : s.pipelineBlocks.ca.reverseView = some v := hv
  have gear : s.pipelineBlocks.si.effGear = .reverse := hg
  rw [State.pipelineReset_eq, State.remakeGear, view]
  simp only [gear, if_true]
  rw [makeGear_of_empty rfl]
  rfl

theorem State.pipelineReset_of_not_reverse {s : State} (h : s.ca.reverseView = none ∨ s.si.effGear ≠ .reverse) :
    s.pipelineReset = s.pipelineBlocks := by
  have view : s.pipelineBlocks.ca.reverseView = s.ca.reverseView := rfl
  have gear : s.pipelineBlocks.si.effGear = s.si.effGear := rfl
  rw [State.pipelineReset_eq, State.remakeGear, view]
  rcases h with h | h
  · rw [h]
  · split
    · rfl
    · rw [gear, if_neg h]

/-- The pipeline reset is the reset of the blocks with what it makes of the claim arbiter. -/
theorem State.pipelineReset_eq_blocks (s : State) : ∃ ca, s.pipelineReset = { s.pipelineBlocks with ca := ca } := by
  by_cases h : s.ca.reverseView = none ∨ s.si.effGear ≠ .reverse
  · exact ⟨_, pipelineReset_of_not_reverse h⟩
  · push Not at h
    obtain ⟨hv, hg⟩ := h
    obtain ⟨v, hv⟩ := Option.ne_none_iff_exists'.1 hv
    exact ⟨_, pipelineReset_of_reverse hv hg⟩

section
variable (s : State)

theorem State.pipelineBlocks_cam (n : Fin 4) : s.pipelineBlocks.ciu[n] = s.ciu[n].pipelineReset := by
  simp [pipelineBlocks]

theorem State.pipelineBlocks_area (a : Fin 8) : s.pipelineBlocks.fsc.areas[a] = s.fsc.areas[a].pipelineReset := by
  simp [pipelineBlocks, FrameStore.pipelineReset]

theorem State.pipelineBlocks_camRing (n : Fin 4) :
    s.pipelineBlocks.fsc.camRing[n] = s.fsc.camRing[n].map CamRing.pipelineReset := by
  simp [pipelineBlocks, FrameStore.pipelineReset]

theorem State.pipelineBlocks_timing (n : Fin 4) :
    s.pipelineBlocks.tbu.cams[n] = { s.tbu.cams[n] with pulse := none, expired := none } := by
  simp [pipelineBlocks, Timebase.pipelineReset]

theorem State.pipelineBlocks_gain (c : Fin 4) : s.pipelineBlocks.bu.gains[c]
    = match s.bu.mode with | .manual => s.bu.manual[c] | .auto => 256 := by
  have gains : s.pipelineBlocks.bu.gains = match s.bu.mode with | .manual => s.bu.manual | .auto => .replicate 4 256 := rfl
  rw [gains]
  cases s.bu.mode with
  | manual => rfl
  | auto => exact Vector.getElem_replicate _

end

theorem State.paletteColour_background (s : State) : s.paletteColour 14
    = Yuv.mk s.ou.setup.palette[14].y s.ou.setup.palette[14].u s.ou.setup.palette[14].v := by
  have entry : s.ou.setup.entry 14 = s.ou.setup.palette[14] := by simp [OverlaySetup.entry, Vector.getD]
  rw [paletteColour, entry]

theorem CamRing.pipelineReset_eq (r : CamRing) : r.pipelineReset = { r with
    next := 0, slots := List.replicate r.slots.length (CamSlot.mk .free false none none) } := by
  simp [pipelineReset, CamSlot.empty, List.map_const']

theorem OutRing.pipelineReset_eq (r : OutRing) : r.pipelineReset = { r with
    next := 0, slots := List.replicate r.slots.length (OutSlot.mk .free none none) } := by
  simp [pipelineReset, OutSlot.empty, List.map_const']

theorem Area.pipelineReset_range (b l : Nat) (p : AreaPhase) :
    (Area.range b l p).pipelineReset = .range b l (if p = .clearing then .defined else p) := by
  cases p <;> rfl

/-- Settles O7: each block by its own reset; the claim arbiter by whether the reverse claim is made afresh. -/
theorem pipelineResetKeepsConfiguration : Obligations.PipelineResetKeepsConfiguration := by
  intro s h hw
  obtain ⟨ca, hca⟩ := s.pipelineReset_eq_blocks
  refine ⟨_, exec_pipelineReset hw, ?response, ?other, fun p => ?ports, ?gen, ?faults, ?dram, ?si, ?vc, ?waiting, fun n => ?cams,
    fun a => ⟨fun ha => ?undefined, fun b l p ha => ?range⟩, fun n => ?camRing, ?outRing, ?timebase, fun n => ?timing, ?mem, ?free,
    fun i => ⟨fun hi => ?_, fun g p n hi => ?_, fun g p n z hi => ?_, fun g b u hi => ?_, fun g p n k c hi => ?_⟩, ?ce, ?bu,
    fun c => ?gains, ?ou, fun v hv hg => ?reverse, fun hn => ?notReverse, ?su⟩
  case response => rw [State.respond_pending_response, State.respond_flags, hca]; rfl
  case other => rw [State.respond, State.setPort_other, hca]; cases h.port <;> rfl
  case ports =>
    have kept (q : PortState) (hq : q = (s.port p).pipelineReset ∨ ∃ x, q = { (s.port p).pipelineReset with pending := x }) :
        q.queue = [] ∧ q.overflow = false ∧ q.mask = (s.port p).mask ∧ q.irqEnable = (s.port p).irqEnable ∧ q.irq = false
          ∧ q.holdTime = (s.port p).holdTime ∧ q.claimHold = (s.port p).claimHold ∧ q.delivered = (s.port p).delivered := by
      rcases hq with rfl | ⟨x, rfl⟩
      all_goals exact ⟨rfl, rfl, rfl, rfl, by simp [PortState.irq, PortState.pipelineReset], rfl, rfl, rfl⟩
    refine kept _ ?_
    rw [hca]
    by_cases hp : p = h.port
    · subst hp
      exact .inr ⟨_, by rw [State.respond, State.setPort_port]; cases h.port <;> rfl⟩
    · obtain rfl : p = other h.port := by cases p <;> cases hq : h.port <;> simp_all [other]
      exact .inl (by rw [State.respond, State.setPort_other]; cases h.port <;> rfl)
  case gen => rw [State.respond_gen, hca]; rfl
  case faults => rw [State.respond_faults, hca]; rfl
  case dram =>
    refine dramAbandoned_of_dram (.inr ?_)
    rw [State.respond_dram, hca]
    rfl
  case si => rw [State.respond_si, hca]; rfl
  case vc => rw [State.respond_vc, hca]; rfl
  case waiting => rw [State.respond_pending, hca]; rfl
  case cams =>
    rw [State.respond_ciu, hca]
    refine (s.pipelineBlocks_cam n).trans ?_
    unfold Cam.pipelineReset
    cases s.ciu[n].reception <;> rfl
  case camRing =>
    rw [State.respond_fsc, hca]
    refine (s.pipelineBlocks_camRing n).trans ?_
    rw [show CamRing.pipelineReset = _ from funext CamRing.pipelineReset_eq]
  case outRing =>
    rw [State.respond_fsc, hca]
    change s.fsc.outRing.map OutRing.pipelineReset = _
    rw [show OutRing.pipelineReset = _ from funext OutRing.pipelineReset_eq]
  case timebase => rw [State.respond_tbu, hca]; rfl
  case timing =>
    rw [State.respond_tbu, hca]
    exact s.pipelineBlocks_timing n
  case mem => rw [State.respond_gs, hca]; simp only [State.pipelineBlocks, GridStore.pipelineReset]
  case free => rw [State.respond_gs, hca]; simp only [State.pipelineBlocks, GridStore.pipelineReset]
  case ce => rw [State.respond_ce, hca]; rfl
  case bu => rw [State.respond_bu, hca]; rfl
  case gains =>
    rw [State.respond_bu, hca]
    exact s.pipelineBlocks_gain c
  case ou => rw [State.respond_ou, hca]; rfl
  case reverse => rw [State.respond_ca, State.pipelineReset_of_reverse hv hg]
  case notReverse => rw [State.respond_ca, State.pipelineReset_of_not_reverse hn]; rfl
  case su =>
    rw [State.respond_su, hca]
    change s.su.pipelineReset (s.paletteColour 14) = _
    unfold Scanout.pipelineReset Display.pipelineReset
    rw [State.paletteColour_background]
    cases s.su.frame <;> rfl
  case undefined =>
    rw [State.respond_fsc, hca]
    exact (s.pipelineBlocks_area a).trans (by rw [ha]; rfl)
  case range =>
    rw [State.respond_fsc, hca]
    exact (s.pipelineBlocks_area a).trans (by rw [ha, Area.pipelineReset_range])
  all_goals
    rw [State.respond_gs, hca]
    exact (s.pipelineBlocks_sets i).trans (by rw [hi]; rfl)

end Sys2Proof.Machine
end

