-- ==== Sys2Proof/Proofs/Reports.lean ====
section
/-! The status commands that report first and then clear what their rules name (R14, R28, R107, R169, R175, R180). -/

namespace Sys2Proof.Machine

open Host (Outcome)

/-- An index in range is taken as it stands. -/
@[simp] theorem index_val {n : Nat} (i : Fin n) : index n i.val = some i := dif_pos i.isLt

theorem index_of_ge {n i : Nat} (h : n ≤ i) : index n i = none := dif_neg (Nat.not_lt.2 h)

section
variable {s : State} {h : Hdr}

/-- A sound record whose judgement takes it is answered. -/
theorem command_sound_take {code : Byte} {judge : State → Verdict} {r : Result} {p : Payload} {u : State} (hs : soundRecord h)
    (e : judge s = .take r p u) : command s h code judge = .next (u.respond h.port code r p) := by
  rw [command_sound hs, e, answer]

/-- A sound record whose judgement refuses it is answered so. -/
theorem command_sound_refuse {code : Byte} {judge : State → Verdict} {r : Result} (hs : soundRecord h)
    (e : judge s = .refuse r) : command s h code judge = .next (s.respond h.port code r .empty) := by
  rw [command_sound hs, e, answer]

/-! ### CAM_STATUS and AREA_STATUS (R14, R28) -/

theorem judgeCamStatus_val (n : Fin 4) (clear : Bool) (s : State) :
    judgeCamStatus n clear s = .take .ok (s.camReport n) (if clear then s.count n fun _ => .zero else s) := by
  simp [judgeCamStatus]

theorem judgeAreaStatus_val (a : Fin 8) (clear : Bool) (s : State) :
    judgeAreaStatus a clear s
      = .take .ok (.area s.fsc.areas[a] (s.ringReport a)) (if clear then s.clearReplaced a else s) := by
  simp [judgeAreaStatus]

theorem State.ringReport_camera {a : Fin 8} {b l : Nat} {n : Fin 4} {r : CamRing}
    (ha : s.fsc.areas[a] = .range b l (.joined (.camera n))) (hr : s.fsc.camRing[n] = some r) :
    s.ringReport a = r.report s.ciu[n].setup.stride := by
  simp only [ringReport, ha, hr]

theorem State.clearReplaced_camera {a : Fin 8} {b l : Nat} {n : Fin 4} {r : CamRing}
    (ha : s.fsc.areas[a] = .range b l (.joined (.camera n))) (hr : s.fsc.camRing[n] = some r) :
    s.clearReplaced a = s.setCamRing n (some { r with replaced := 0 }) := by
  simp only [clearReplaced, ha, hr, Option.map_some]

theorem State.ringReport_output {a : Fin 8} {b l : Nat} {r : OutRing} (ha : s.fsc.areas[a] = .range b l (.joined .output))
    (hr : s.fsc.outRing = some r) : s.ringReport a = r.report s.su.held := by
  simp only [ringReport, ha, hr]

/-- Clearing the replaced counter has no effect on an area that is JOINED to no camera (R28). -/
theorem State.clearReplaced_of_not_camera {a : Fin 8} (h : ∀ b l n, s.fsc.areas[a] ≠ .range b l (.joined (.camera n))) :
    s.clearReplaced a = s := by
  unfold clearReplaced
  split
  · exact absurd ‹_› (h _ _ _)
  · rfl

theorem State.ringReport_of_noRing {a : Fin 8} (h : ∀ b l t, s.fsc.areas[a] = .range b l (.joined t) → t = .overlay) :
    s.ringReport a = .noRing := by
  unfold ringReport
  split
  · cases h _ _ _ ‹_›
  · cases h _ _ _ ‹_›
  · rfl

/-! ### SIGNAL_STATUS (R169) -/

theorem SignalIntake.effGear_eq (si : SignalIntake) :
    si.effGear = if si.gear.st.code = 1 ∨ si.gear.st.code = 2 then
        (match si.gear.value with
          | some .reverse => .reverse
          | some .notReverse => .notReverse
          | none => .unknown)
      else .unknown := by
  have key (x : SigState) (v : Option Gear) : (match x, v with
        | .fresh _, some .reverse => EffGear.reverse
        | .fresh _, some .notReverse => .notReverse
        | .held _, some .reverse => .reverse
        | .held _, some .notReverse => .notReverse
        | _, _ => .unknown)
      = if x.code = 1 ∨ x.code = 2 then
          (match v with | some .reverse => .reverse | some .notReverse => .notReverse | none => .unknown)
        else .unknown := by
    cases x with
    | never => rfl
    | unknown => rfl
    | _ => rcases v with _ | _ | _ <;> rfl
  exact key si.gear.st si.gear.value

theorem Sig.effective_eq {α : Type} (r : Sig α) (dflt : α) :
    r.effective dflt = if r.st.code = 1 ∨ r.st.code = 2 then r.value.getD dflt else dflt := by
  unfold effective
  cases r.st <;> rfl

theorem SignalIntake.effSpeed_eq (si : SignalIntake) :
    si.effSpeed = if si.speed.st.code = 1 ∨ si.speed.st.code = 2 then si.speed.value.getD 0 else 0 := by
  unfold effSpeed
  cases si.speed.st <;> rfl

theorem SignalIntake.effSteer_eq (si : SignalIntake) :
    si.effSteer = if si.steer.st.code = 1 ∨ si.steer.st.code = 2 then (si.steer.value.getD 0, false) else (0, true) := by
  unfold effSteer Sig.effective
  cases si.steer.st <;> rfl

theorem Reception.kind_eq (x : Reception) : x.kind = match x with
    | .noFrame => .noFrame
    | .receiving _ _ => .receiving
    | .discarding => .discarding := by
  cases x <;> rfl

theorem Display.content_eq (d : Display) : d.content = match d with
    | .nothing => .nothing
    | .composed k => .composed k
    | .again k => .again k
    | .blank _ => .blank
    | .mute _ => .mute := by
  cases d <;> rfl

/-! ### STATUS (R180) -/

theorem exec_status (hs : soundRecord h) (clear : Bool) :
    exec (.status h clear) s = .next (if clear then (s.respond h.port 0x01 .ok (s.statusReport h.port)).clearFaults
      else s.respond h.port 0x01 .ok (s.statusReport h.port)) := by
  change execStatus h clear s = _
  simp [execStatus, hs.got_ge, framed_of_sound hs]

theorem State.clearFaults_port (s : State) (p : Port) : s.clearFaults.port p = s.port p := by cases p <;> rfl

theorem State.respond_other (s : State) (p : Port) (code : Byte) (r : Result) (x : Payload) :
    (s.respond p code r x).port (other p) = s.port (other p) := State.setPort_other s p _

end

/-- Settles O9: each report with what its clear resets. -/
theorem statusCommandsClearAfterReporting : Obligations.StatusCommandsClearAfterReporting := by
  intro s h clear hs
  refine ⟨fun n => ?cam, fun a n r b l ha hr => ?areaCam, fun a r b l ha hr => ?areaOut, fun a ha => ?areaNone, ?compose, ?can,
    ?signal, ?display, ?status⟩
  case cam =>
    refine (command_sound_take hs (judgeCamStatus_val n clear s)).trans ?_
    rw [State.camReport, Reception.kind_eq]
    rfl
  case areaCam =>
    refine (command_sound_take hs (judgeAreaStatus_val a clear s)).trans ?_
    rw [State.ringReport_camera ha hr, State.clearReplaced_camera ha hr]
    rfl
  case areaOut =>
    refine (command_sound_take hs (judgeAreaStatus_val a clear s)).trans ?_
    rw [State.ringReport_output ha hr, State.clearReplaced_of_not_camera (fun _ _ _ e => by cases ha.symm.trans e), ite_self]
    rfl
  case areaNone =>
    refine (command_sound_take hs (judgeAreaStatus_val a clear s)).trans ?_
    rw [State.ringReport_of_noRing ha, State.clearReplaced_of_not_camera (fun _ _ _ e => by cases ha _ _ _ e), ite_self]
  case compose => exact command_sound_take (judge := judgeComposeStatus clear) hs rfl
  case can => exact command_sound_take (judge := judgeCanStatus clear) hs rfl
  case signal =>
    refine (command_sound_take (judge := judgeSignalStatus clear) hs rfl).trans ?_
    simp only [SignalIntake.report, Sig.report, SignalIntake.effGear_eq, SignalIntake.effSpeed_eq, SignalIntake.effSteer_eq,
      SignalIntake.effDoors, Sig.effective_eq]
    rfl
  case display =>
    refine (command_sound_take (judge := judgeDisplayStatus clear) hs rfl).trans ?_
    rw [State.displayReport, Display.content_eq]
    rfl
  case status =>
    refine ⟨_, exec_status hs clear, ?_⟩
    have kept : { (s.respond h.port 0x01 .ok (s.statusReport h.port)).port h.port with pending := (s.port h.port).pending }
        = s.port h.port := by rw [State.respond, State.setPort_port]
    cases clear with
    | false =>
      exact ⟨State.respond_pending_response s _ _ _ _, State.respond_faults s _ _ _ _, by cases h.port <;> rfl,
        s.respond_other _ _ _ _, State.respond_gen s _ _ _ _, kept⟩
    | true =>
      simp only [if_true, State.clearFaults_port]
      exact ⟨State.respond_pending_response s _ _ _ _, rfl, by cases h.port <;> rfl, s.respond_other _ _ _ _,
        State.respond_gen s _ _ _ _, kept⟩

end Sys2Proof.Machine
end

