-- ==== Sys2Proof/Proofs/Intake.lean ====
section
/-! Camera links and frame intake: how the operations of an intake unit compose into one put of its record, what the closing
of an open frame is, CAM_SETUP, CAM_POWER and the moves of the link state (R1 to R12, R16). -/

namespace Sys2Proof.Machine

open Host (Outcome)

/-! ### One put of an intake unit -/

section
variable (s : State) (n : Fin 4)

theorem State.modifyCam_cam (f : Cam → Cam) (m : Fin 4) :
    (s.modifyCam n f).ciu[m] = if m = n then f s.ciu[n] else s.ciu[m] := Vector.getElem_set_fin _ _ _ _

theorem State.modifyCam_self (f : Cam → Cam) : (s.modifyCam n f).ciu[n] = f s.ciu[n] := by
  rw [modifyCam_cam, if_pos rfl]

/-- Two changes of one intake unit are one. -/
theorem State.modifyCam_modifyCam (f g : Cam → Cam) :
    (s.modifyCam n f).modifyCam n g = s.modifyCam n fun c => g (f c) := by
  simp only [modifyCam, setCam]
  rw [show (s.ciu.set n (f s.ciu[n]))[n] = f s.ciu[n] from s.modifyCam_self n f]
  simp

theorem State.modifyCam_of_eq {f : Cam → Cam} (h : f s.ciu[n] = s.ciu[n]) : s.modifyCam n f = s := by
  simp only [modifyCam, setCam, h]
  simp

theorem State.enterLink_eq (l : Link) : s.enterLink n l
    = (s.modifyCam n fun c => { c with link := l }).notify .camState n (l.code + 256 * s.ciu[n].link.code) := rfl

theorem State.count_eq (f : CamCounts → CamCounts) : s.count n f = s.modifyCam n fun c => { c with counts := f c.counts } := rfl

theorem State.setReception_eq (x : Reception) : s.setReception n x = s.modifyCam n fun c => { c with reception := x } := rfl

end

/-! ### Closing an open frame (R16) -/

theorem List.modify_congr {α : Type} {l : List α} {k : Nat} {x : α} {f g : α → α} (hk : l[k]? = some x) (h : f x = g x) :
    l.modify k f = l.modify k g := by
  refine List.ext_getElem? fun j => ?_
  simp only [List.getElem?_modify]
  by_cases hj : k = j
  · subst hj
    simp [hk, h]
  · simp [hj]

theorem CamSlot.damage_of_filling {c : CamSlot} {q t : Word32} {l : Count} (h : c.st = .filling q t l) (cause : Damage) :
    c.damage cause = { c with st := .damaged q t l cause } := by
  simp only [damage, h]

theorem CamSlot.finish_of_filling {c : CamSlot} {q t : Word32} {l : Count} (h : c.st = .filling q t l) :
    c.finish = { c with st := .ready q t l } := by
  simp only [finish, h]

theorem CamSlot.addLine_of_filling {c : CamSlot} {q t : Word32} {l : Count} (h : c.st = .filling q t l) :
    c.addLine = { c with st := .filling q t (bump l) } := by
  simp only [addLine, h]

/-- Camera `n`'s ring with slot `k` in another state. -/
def CamRing.putState (r : CamRing) (k : Nat) (x : CamSlotState) : CamRing :=
  { r with slots := r.slots.modify k fun c => { c with st := x } }

section
variable {s : State} {n : Fin 4} {k : Nat} {pend : Option Damage} {r : CamRing} {c : CamSlot} {q st : Word32} {l : Count}

/-- A change of the open slot's state. -/
theorem State.modifyCamSlot_putState (hr : s.fsc.camRing[n] = some r) (hk : r.slots[k]? = some c) {f : CamSlot → CamSlot}
    {x : CamSlotState} (hf : f c = { c with st := x }) : s.modifyCamSlot n k f = s.setCamRing n (some (r.putState k x)) := by
  rw [State.modifyCamSlot_some hr, CamRing.modify, List.modify_congr (g := fun c => { c with st := x }) hk hf]
  rfl

/-- The frame being received becomes DAMAGED and is counted (R16). -/
theorem State.damageFrame_eq (hr : s.fsc.camRing[n] = some r) (hk : r.slots[k]? = some c) (hst : c.st = .filling q st l)
    (cause : Damage) : s.damageFrame n k cause
      = (s.setCamRing n (some (r.putState k (.damaged q st l cause)))).modifyCam n fun c =>
          { c with counts := { c.counts with damaged := bump c.counts.damaged }, reception := .noFrame } := by
  rw [damageFrame, modifyCamSlot_putState hr hk (CamSlot.damage_of_filling hst cause), count_eq, setReception_eq,
    modifyCam_modifyCam]

theorem State.closeFrame_of_noFrame (h : s.ciu[n].reception = .noFrame) (cause : Damage) : s.closeFrame n cause = s := by
  simp only [closeFrame, h]

/-- Where no frame is being received, closing leaves NO_FRAME and counts nothing (R16). -/
theorem State.closeFrame_of_idle (h : s.ciu[n].reception = .noFrame ∨ s.ciu[n].reception = .discarding) (cause : Damage) :
    s.closeFrame n cause = s.modifyCam n fun c => { c with reception := .noFrame } := by
  rcases h with h | h
  · rw [closeFrame_of_noFrame h, modifyCam_of_eq]
    rw [← h]
  · simp only [closeFrame, h, setReception_eq]

theorem State.closeFrame_of_receiving (hx : s.ciu[n].reception = .receiving k pend) (hr : s.fsc.camRing[n] = some r)
    (hk : r.slots[k]? = some c) (hst : c.st = .filling q st l) (cause : Damage) : s.closeFrame n cause
      = (s.setCamRing n (some (r.putState k (.damaged q st l (pend.getD cause))))).modifyCam n fun c =>
          { c with counts := { c.counts with damaged := bump c.counts.damaged }, reception := .noFrame } := by
  simp only [closeFrame, hx]
  exact damageFrame_eq hr hk hst _

end

/-! ### CAM_SETUP (R1, R2, R47) -/

/-- The tuning values of a setup record are taken as they are (R2). -/
def tuningInRange (r : SetupArg) (period : Nat) : Prop :=
  10 ≤ r.settle ∧ r.settle ≤ 250 ∧ 100 ≤ r.seek ∧ r.seek ≤ 5000 ∧ 20 ≤ r.timeout ∧ r.timeout ≤ 1000 ∧ r.phase < period

theorem judgeSetup_none {r : SetupArg} (h : r.width < 640 ∨ 1920 < r.width ∨ r.width % 32 ≠ 0 ∨ r.height < 480 ∨ 1280 < r.height
      ∨ r.height % 16 ≠ 0 ∨ r.trig = none ∨ ∃ b, r.door = some b ∧ 7 < b) (period : Nat) : judgeSetup r period = none := by
  unfold judgeSetup
  split
  · rfl
  · rename_i hin
    obtain htrig | ⟨b, hb, hgt⟩ : r.trig = none ∨ ∃ b, r.door = some b ∧ 7 < b := by tauto
    · rw [htrig]
      split <;> simp_all
    · have door : judgeSetup.door r = none := by simp [judgeSetup.door, hb, index_of_ge (show 8 ≤ b by omega)]
      rw [door]

theorem judgeSetup_some {r : SetupArg} {d : Option (Fin 8)} {m : TrigMode} {period : Nat} (hm : r.trig = some m)
    (hd : r.door = d.map Fin.val) (hw : 640 ≤ r.width) (hw' : r.width ≤ 1920) (hw32 : r.width % 32 = 0) (hh : 480 ≤ r.height)
    (hh' : r.height ≤ 1280) (hh16 : r.height % 16 = 0) (hp : 1 ≤ period) :
    ∃ clamped, (clamped = false ↔ tuningInRange r period) ∧ judgeSetup r period
      = some ({ width := r.width, height := r.height, settle := max 10 (min r.settle 250), seek := max 100 (min r.seek 5000),
                timeout := max 20 (min r.timeout 1000), door := d, trig := m, phase := min r.phase (period - 1) }, clamped) := by
  have door : judgeSetup.door r = some d := by
    unfold judgeSetup.door
    rw [hd]
    cases d <;> simp
  have structural : ¬ (r.width < 640 ∨ 1920 < r.width ∨ r.width % 32 ≠ 0 ∨ r.height < 480 ∨ 1280 < r.height ∨ r.height % 16 ≠ 0) := by
    omega
  have settle := clampNat_eq_max_min (show 10 ≤ 250 by decide) r.settle
  have seek := clampNat_eq_max_min (show 100 ≤ 5000 by decide) r.seek
  have timeout := clampNat_eq_max_min (show 20 ≤ 1000 by decide) r.timeout
  have phase : clampNat 0 (period - 1) r.phase = min r.phase (period - 1) := by
    rw [clampNat_eq_max_min (Nat.zero_le _), Nat.zero_max]
  refine ⟨decide (max 10 (min r.settle 250) ≠ r.settle ∨ max 100 (min r.seek 5000) ≠ r.seek
    ∨ max 20 (min r.timeout 1000) ≠ r.timeout ∨ min r.phase (period - 1) ≠ r.phase), ?_, ?_⟩
  · rw [decide_eq_false_iff_not]
    unfold tuningInRange
    omega
  · rw [judgeSetup, if_neg structural, door, hm]
    simp only [judgeSetup.settle, judgeSetup.seek, judgeSetup.timeout, judgeSetup.phase, settle, seek, timeout, phase]

section
variable {s : State} {n : Fin 4} {r : SetupArg}

theorem judgeCamSetup_badIndex {cam : Nat} (h : 3 < cam) (r : SetupArg) (s : State) : judgeCamSetup cam r s = .refuse .badArg := by
  simp [judgeCamSetup, index_of_ge h]

theorem judgeCamSetup_wrongState (h : s.ciu[n].link ≠ .off ∨ (s.fsc.joined (.camera n)).isSome = true) (r : SetupArg) :
    judgeCamSetup n r s = .refuse .wrongState := by
  simp only [judgeCamSetup, index_val]
  exact if_pos h

theorem judgeCamSetup_of_off (hl : s.ciu[n].link = .off) (hj : s.fsc.joined (.camera n) = none) (r : SetupArg) :
    judgeCamSetup n r s = match judgeSetup r s.tbu.period with
      | none => .refuse .badArg
      | some (c, clamped) => .take (clampResult clamped) .empty (s.modifyCam n fun u => { u with setup := c }) := by
  have ready : ¬ (s.ciu[n].link ≠ .off ∨ (s.fsc.joined (.camera n)).isSome = true) := by
    rw [hl, hj]
    simp
  simp only [judgeCamSetup, index_val]
  exact if_neg ready

end

/-- Settles O10: the index, the state of the camera and the structural fields each refuse; else the record is clamped. -/
theorem camSetupStores : Obligations.CamSetupStores := by
  intro s h n r hs hg
  refine ⟨fun cam hcam => guarded_sound_refuse hs hg (judgeCamSetup_badIndex hcam r s),
    fun hw => guarded_sound_refuse hs hg (judgeCamSetup_wrongState hw r), fun hl hj => ⟨fun hbad => ?_, fun d m hm hd hw hw' hw32
      hh hh' hh16 hp => ?_⟩⟩
  · refine guarded_sound_refuse (judge := judgeCamSetup n r) hs hg ?_
    rw [judgeCamSetup_of_off hl hj, judgeSetup_none hbad]
  · obtain ⟨clamped, hin, hjudge⟩ := judgeSetup_some hm hd hw hw' hw32 hh hh' hh16 hp
    have take := judgeCamSetup_of_off hl hj r
    rw [hjudge] at take
    refine (guarded_sound (judge := judgeCamSetup n r) hs hg take).trans ?_
    rw [clampResult_eq_ite (p := _ ∧ _) hin]
    rfl

/-! ### CAM_POWER (R3, R4) -/

section
variable {s : State} {n : Fin 4}

theorem judgePowerOn_val (n : Fin 4) (s : State) :
    judgePowerOn n s = .take .ok .empty (if s.ciu[n].link.feed then s else s.enterSettling n) := by
  simp [judgePowerOn]

theorem judgePowerOff_val (n : Fin 4) (s : State) :
    judgePowerOff n s
      = .take .ok .empty (if s.ciu[n].link = .off then s else (s.closeFrame n .power).enterLink n .off) := by
  simp [judgePowerOff]

theorem State.modifyCamSlot_cases (s : State) (n : Fin 4) (k : Nat) (f : CamSlot → CamSlot) :
    s.modifyCamSlot n k f = s ∨ ∃ r, s.modifyCamSlot n k f = s.setCamRing n r := by
  unfold modifyCamSlot
  split
  · exact .inl rfl
  · exact .inr ⟨_, rfl⟩

/-- Closing a frame is one put of the unit, which keeps its link, and of its ring at most. -/
theorem State.closeFrame_cases (s : State) (n : Fin 4) (cause : Damage) :
    ∃ (u : State) (f : Cam → Cam), (u = s ∨ ∃ r, u = s.setCamRing n r) ∧ s.closeFrame n cause = u.modifyCam n f
      ∧ (∀ c, (f c).link = c.link) ∧ (f s.ciu[n]).reception = .noFrame := by
  cases hx : s.ciu[n].reception with
  | noFrame =>
    exact ⟨s, fun c => { c with reception := .noFrame }, .inl rfl, closeFrame_of_idle (.inl hx) cause, fun _ => rfl, rfl⟩
  | discarding =>
    exact ⟨s, fun c => { c with reception := .noFrame }, .inl rfl, closeFrame_of_idle (.inr hx) cause, fun _ => rfl, rfl⟩
  | receiving k pend =>
    refine ⟨s.modifyCamSlot n k (CamSlot.damage (pend.getD cause)),
      fun c => { c with counts := { c.counts with damaged := bump c.counts.damaged }, reception := .noFrame },
      s.modifyCamSlot_cases n k _, ?_, fun _ => rfl, rfl⟩
    simp only [closeFrame, hx, damageFrame, count_eq, setReception_eq, modifyCam_modifyCam]

/-- What entering a link state after closing the frame leaves alone, whatever frame was open (R16). -/
theorem State.closeFrame_enterLink (s : State) (n : Fin 4) (cause : Damage) (l : Link) (t : State)
    (ht : t = (s.closeFrame n cause).enterLink n l) :
    t.ciu[n].link = l ∧ t.ciu[n].reception = .noFrame ∧ t.dram = s.dram ∧ t.cp.gen = s.cp.gen ∧ t.cp.faults = s.cp.faults
      ∧ ∀ m : Fin 4, m ≠ n → t.ciu[m] = s.ciu[m] ∧ t.fsc.camRing[m] = s.fsc.camRing[m] := by
  obtain ⟨u, f, hu, hclose, -, hf⟩ := s.closeFrame_cases n cause
  have kept : u.ciu = s.ciu ∧ u.dram = s.dram ∧ u.cp = s.cp ∧ ∀ m, m ≠ n → u.fsc.camRing[m] = s.fsc.camRing[m] := by
    rcases hu with rfl | ⟨r, rfl⟩
    · exact ⟨rfl, rfl, rfl, fun _ _ => rfl⟩
    · exact ⟨rfl, rfl, rfl, fun m hm => by rw [setCamRing_camRing, if_neg hm]⟩
  obtain ⟨hciu, hdram, hcp, hring⟩ := kept
  have hput : t = (u.modifyCam n fun c => { f c with link := l }).notify .camState n
      (l.code + 256 * (u.modifyCam n f).ciu[n].link.code) := by
    rw [ht, hclose, enterLink_eq, modifyCam_modifyCam]
  subst hput
  have hgen : u.cp.gen = s.cp.gen := congrArg Ports.gen hcp
  have hfaults : u.cp.faults = s.cp.faults := congrArg Ports.faults hcp
  refine ⟨?_, ?_, hdram, hgen, hfaults, fun m hm => ⟨?_, hring m hm⟩⟩
  · rw [notify_ciu, modifyCam_self]
  · rw [notify_ciu, modifyCam_self, hciu]
    exact hf
  · rw [notify_ciu, modifyCam_cam, if_neg hm, hciu]

/-- The unit and the ring after a link state is entered with no frame received. -/
theorem State.closeFrame_enterLink_of_idle (h : s.ciu[n].reception = .noFrame ∨ s.ciu[n].reception = .discarding)
    (cause : Damage) (l : Link) : (s.closeFrame n cause).enterLink n l
      = (s.modifyCam n fun c => { c with link := l, reception := .noFrame }).notify .camState n
          (l.code + 256 * s.ciu[n].link.code) := by
  rw [closeFrame_of_idle h, enterLink_eq, modifyCam_modifyCam, modifyCam_self]

/-- The unit and the ring after a link state is entered with a frame received. -/
theorem State.closeFrame_enterLink_of_receiving {k : Nat} {pend : Option Damage} {r : CamRing} {c : CamSlot} {q st : Word32}
    {x : Count} (hx : s.ciu[n].reception = .receiving k pend) (hr : s.fsc.camRing[n] = some r)
    (hk : r.slots[k]? = some c) (hst : c.st = .filling q st x) (cause : Damage) (l : Link) :
    (s.closeFrame n cause).enterLink n l
      = ((s.setCamRing n (some (r.putState k (.damaged q st x (pend.getD cause))))).modifyCam n fun c =>
          { c with link := l, counts := { c.counts with damaged := bump c.counts.damaged }, reception := .noFrame }).notify
            .camState n (l.code + 256 * s.ciu[n].link.code) := by
  rw [closeFrame_of_receiving hx hr hk hst, enterLink_eq, modifyCam_modifyCam, modifyCam_self]
  rfl

end

theorem State.respond_cam (s : State) (p : Port) (code : Byte) (r : Result) (x : Payload) (m : Fin 4) :
    (s.respond p code r x).ciu[m] = s.ciu[m] := by cases p <;> rfl

/-- Settles O11: by the link state that the command finds, and the frame open then. -/
theorem camPower : Obligations.CamPower := by
  intro s h n hs
  have badIndex {cam : Nat} (hcam : 3 < cam) : index 4 cam = none := index_of_ge hcam
  refine ⟨fun cam hcam => ⟨?_, ?_⟩, fun hfeed => ?_, fun hfeed => ?_, fun hoff => ?_, fun hon => ?_⟩
  · exact command_sound_refuse (judge := judgePowerOn cam) hs (by simp only [judgePowerOn, badIndex hcam])
  · exact command_sound_refuse (judge := judgePowerOff cam) hs (by simp only [judgePowerOff, badIndex hcam])
  · refine (command_sound_take (judge := judgePowerOn n) hs (judgePowerOn_val n s)).trans ?_
    rw [if_pos hfeed]
  · refine (command_sound_take (judge := judgePowerOn n) hs (judgePowerOn_val n s)).trans ?_
    rw [if_neg (Bool.eq_false_iff.1 hfeed)]
    rfl
  · refine (command_sound_take (judge := judgePowerOff n) hs (judgePowerOff_val n s)).trans ?_
    rw [if_pos hoff]
  · refine ⟨_, (command_sound_take (judge := judgePowerOff n) hs (judgePowerOff_val n s)), ?_⟩
    rw [if_neg hon]
    obtain ⟨hlink, hrec, hdram, hgen, hfaults, hother⟩ := s.closeFrame_enterLink n .power .off _ rfl
    simp only [State.respond_cam, State.respond_fsc, State.respond_dram, State.respond_gen, State.respond_faults]
    refine ⟨hlink, hrec, hdram, hgen, hfaults, hother, fun hidle => ?_, fun k r c q st l pend hx hr hk hst => ?_⟩
    · rw [State.closeFrame_enterLink_of_idle hidle]
      simp only [Link.code, Nat.zero_add]
      rfl
    · rw [State.closeFrame_enterLink_of_receiving hx hr hk hst]
      have ring : (s.setCamRing n (some (r.putState k (.damaged q st l (pend.getD .power))))).fsc.camRing[n]
          = some (r.putState k (.damaged q st l (pend.getD .power))) := by rw [State.setCamRing_camRing, if_pos rfl]
      refine ⟨?_, ⟨_, ring, rfl, ?_, fun j hj => ?_⟩, ?_⟩
      · rw [State.notify_ciu, State.modifyCam_self]
        rfl
      · simp [CamRing.putState, hk]
      · simp [CamRing.putState, Ne.symm hj]
      · simp only [Link.code, Nat.zero_add]
        rfl

/-! ### Moves of the link state (R5 to R11) -/

section
variable {s : State} {n : Fin 4}

theorem State.enterSeeking_eq (s : State) (n : Fin 4) : s.enterSeeking n
    = (s.modifyCam n fun c => { c with seekNoticed := false, link := .seeking (some (s.afterMs s.ciu[n].setup.seek)) }).notify
        .camState n (2 + 256 * s.ciu[n].link.code) := by
  rw [enterSeeking, enterLink_eq, modifyCam_modifyCam, modifyCam_self]
  rfl

theorem State.latch_modifyCam (b : FaultBit) (f : Cam → Cam) : (s.latch b).modifyCam n f = (s.modifyCam n f).latch b := rfl

theorem State.modifyCam_setCamRing (f : Cam → Cam) (r : Option CamRing) :
    (s.modifyCam n f).setCamRing n r = (s.setCamRing n r).modifyCam n f := rfl

theorem State.loseLock_of_live (h : (∃ d, s.ciu[n].link = .streaming d) ∨ s.ciu[n].link = .stalled) :
    s.loseLock n = ((s.modifyCam n fun c => { c with locked := false }).closeFrame n .linkLost).enterSeeking n := by
  have key (k : Link) (u v : State) : (∃ d, k = .streaming d) ∨ k = .stalled →
      (match k with | .streaming _ => u | .stalled => u | _ => v) = u := by
    intro hk
    rcases hk with ⟨d, rfl⟩ | rfl <;> rfl
  refine key (s.modifyCam n _).ciu[n].link _ _ ?_
  rw [modifyCam_self]
  exact h

theorem State.loseLock_of_other (h : ∀ d, s.ciu[n].link ≠ .streaming d) (h' : s.ciu[n].link ≠ .stalled) :
    s.loseLock n = s.modifyCam n fun c => { c with locked := false } := by
  have key (k : Link) (u v : State) : (∀ d, k ≠ .streaming d) → k ≠ .stalled →
      (match k with | .streaming _ => u | .stalled => u | _ => v) = v := by
    intro hk hk'
    cases k with
    | streaming d => exact absurd rfl (hk d)
    | stalled => exact absurd rfl hk'
    | _ => rfl
  refine key (s.modifyCam n _).ciu[n].link _ _ ?_ ?_ <;> rw [modifyCam_self] <;> assumption

theorem State.feedFault_of_on (h : s.ciu[n].link.feed = true) : s.feedFault n
    = (((s.closeFrame n .power).count n fun c => { c with faults := bump c.faults }).latch .feedFault).enterLink n .faulted :=
  if_pos h

end

/-- Settles O12: each event by the link state that it finds, and the frame open then. -/
theorem linkStateMoves : Obligations.LinkStateMoves := by
  intro s n
  refine ⟨rfl, fun hs hst => congrArg Outcome.next (State.loseLock_of_other hs hst), fun d hlive => ⟨fun hidle => ?lostIdle,
    fun k pend r c q st l hx hr hk hst => ?lostReceiving⟩, fun hl => ?settle, fun hl hseek => ?seek, fun hl => ?timeout,
    fun hfeed => congrArg Outcome.next (if_neg (Bool.eq_false_iff.1 hfeed)), fun hfeed => ⟨fun hidle => ?faultIdle,
    fun k pend r c q st l hx hr hk hst => ?faultReceiving⟩⟩
  case lostIdle =>
    refine congrArg Outcome.next ?_
    have idle : (s.modifyCam n fun c => { c with locked := false }).ciu[n].reception = .noFrame
        ∨ (s.modifyCam n fun c => { c with locked := false }).ciu[n].reception = .discarding := by
      rw [State.modifyCam_self]
      exact hidle
    rw [State.loseLock_of_live (hlive.imp_left fun h => ⟨d, h⟩), State.closeFrame_of_idle idle, State.modifyCam_modifyCam,
      State.enterSeeking_eq, State.modifyCam_modifyCam, State.modifyCam_self]
    rfl
  case lostReceiving =>
    refine congrArg Outcome.next ?_
    have receiving : (s.modifyCam n fun c => { c with locked := false }).ciu[n].reception = .receiving k pend := by
      rw [State.modifyCam_self]
      exact hx
    rw [State.loseLock_of_live (hlive.imp_left fun h => ⟨d, h⟩), State.closeFrame_of_receiving receiving hr hk hst,
      State.modifyCam_setCamRing, State.modifyCam_modifyCam, State.enterSeeking_eq, State.modifyCam_modifyCam, State.modifyCam_self]
    rfl
  case settle =>
    refine congrArg Outcome.next ?_
    have due : s.reached (some s.tbu.now) = true := decide_eq_true rfl
    simp only [State.settleExpiry, hl, due, if_true]
    rw [State.enterSeeking_eq, hl]
    rfl
  case seek =>
    refine congrArg Outcome.next ?_
    have due : s.reached (some s.tbu.now) = true := decide_eq_true rfl
    simp only [State.seekExpiry, hl, due, hseek, if_true]
    rfl
  case timeout =>
    refine congrArg Outcome.next ?_
    have due : s.reached (some s.tbu.now) = true := decide_eq_true rfl
    simp only [State.timeoutExpiry, hl, due, if_true]
    rw [State.enterLink_eq, hl]
    rfl
  case faultIdle =>
    refine ⟨_, congrArg Outcome.next (State.feedFault_of_on hfeed), ?_⟩
    rw [State.closeFrame_of_idle hidle, State.count_eq, State.modifyCam_modifyCam, State.enterLink_eq, State.latch_modifyCam,
      State.modifyCam_modifyCam]
    refine ⟨?_, ?_⟩
    · rw [show ((s.modifyCam n _).latch .feedFault).ciu[n] = _ from State.modifyCam_self _ _ _]
      rfl
    · rw [State.notify_ciu, State.latch_ciu, State.modifyCam_self]
      rfl
  case faultReceiving =>
    refine congrArg Outcome.next ?_
    rw [State.feedFault_of_on hfeed, State.closeFrame_of_receiving hx hr hk hst, State.count_eq, State.modifyCam_modifyCam,
      State.enterLink_eq, State.latch_modifyCam, State.modifyCam_modifyCam]
    rw [show (((s.setCamRing n _).modifyCam n _).latch .feedFault).ciu[n] = _ from State.modifyCam_self _ _ _]
    rfl

end Sys2Proof.Machine
end

