-- ==== Sys2Proof/Proofs/Reception.lean ====
section
/-! The frames of a camera: what a frame start, a line and a frame end do in each state of the reception process (R12 to R18). -/

namespace Sys2Proof.Machine

open Host (Outcome)

section
variable {s : State} {n : Fin 4} {k : Nat} {pend : Option Damage} {r : CamRing} {c : CamSlot} {q st : Word32} {l : Count}

/-! ### Frame ends (R15) -/

theorem State.openLines_of_receiving (hx : s.ciu[n].reception = .receiving k pend) (hr : s.fsc.camRing[n] = some r)
    (hk : r.slots[k]? = some c) (hst : c.st = .filling q st l) : s.openLines n = some l := by
  obtain ⟨cst, pin, d, a⟩ := c
  dsimp only at hst
  subst hst
  simp only [openLines, hx, hr, hk]

theorem State.finishFrame_eq (hr : s.fsc.camRing[n] = some r) (hk : r.slots[k]? = some c) (hst : c.st = .filling q st l) :
    ((s.modifyCamSlot n k CamSlot.finish).count n fun c => { c with good := bump c.good }).setReception n .noFrame
      = (s.setCamRing n (some (r.putState k (.ready q st l)))).modifyCam n fun c =>
          { c with counts := { c.counts with good := bump c.counts.good }, reception := .noFrame } := by
  rw [modifyCamSlot_putState hr hk (CamSlot.finish_of_filling hst), count_eq, setReception_eq, modifyCam_modifyCam]

/-- A frame whose lines all came, with no cause pending, is finished (R15). -/
theorem State.endFrame_of_whole (hx : s.ciu[n].reception = .receiving k none) (hr : s.fsc.camRing[n] = some r)
    (hk : r.slots[k]? = some c) (hst : c.st = .filling q st l) (hl : l.toNat = s.ciu[n].setup.height) :
    s.endFrame n k none = (s.setCamRing n (some (r.putState k (.ready q st l)))).modifyCam n fun c =>
      { c with counts := { c.counts with good := bump c.counts.good }, reception := .noFrame } := by
  simp only [endFrame, openLines_of_receiving hx hr hk hst, Option.getD_some, hl, Nat.lt_irrefl, if_false]
  exact finishFrame_eq hr hk hst

/-- Any other frame is damaged with its pending cause, or by its lines (R15, R16). -/
theorem State.endFrame_of_damaged (hx : s.ciu[n].reception = .receiving k pend) (hr : s.fsc.camRing[n] = some r)
    (hk : r.slots[k]? = some c) (hst : c.st = .filling q st l) (hd : pend ≠ none ∨ l.toNat ≠ s.ciu[n].setup.height) :
    s.endFrame n k pend
      = s.damageFrame n k (pend.getD (if l.toNat < s.ciu[n].setup.height then .short else .long)) := by
  cases pend with
  | some cause => rfl
  | none =>
    have hne : l.toNat ≠ s.ciu[n].setup.height := hd.resolve_left fun h => h rfl
    simp only [endFrame, openLines_of_receiving hx hr hk hst, Option.getD_some, Option.getD_none]
    by_cases hlt : l.toNat < s.ciu[n].setup.height
    · rw [if_pos hlt, if_pos hlt]
    · rw [if_neg hlt, if_neg hlt, if_pos (Nat.lt_of_le_of_ne (Nat.not_lt.1 hlt) (Ne.symm hne))]

/-- What is left alone when a ring and its camera's unit are put. -/
theorem State.setCamRing_modifyCam_others (s : State) (n : Fin 4) (r : Option CamRing) (f : Cam → Cam) (m : Fin 4) (hm : m ≠ n) :
    ((s.setCamRing n r).modifyCam n f).ciu[m] = s.ciu[m]
      ∧ ((s.setCamRing n r).modifyCam n f).fsc.camRing[m] = s.fsc.camRing[m] := by
  constructor
  · rw [modifyCam_cam, if_neg hm]
    rfl
  · exact (s.setCamRing_camRing n m r).trans (if_neg hm)

theorem State.setCamRing_modifyCam_self (s : State) (n : Fin 4) (r : Option CamRing) (f : Cam → Cam) :
    ((s.setCamRing n r).modifyCam n f).ciu[n] = f s.ciu[n]
      ∧ ((s.setCamRing n r).modifyCam n f).fsc.camRing[n] = r := by
  constructor
  · rw [modifyCam_self]
    rfl
  · exact (s.setCamRing_camRing n n r).trans (if_pos rfl)

end

/-- Settles O15: by the reception state, and in RECEIVING by the line count and the pending cause. -/
theorem frameEndClosesTheFrame : Obligations.FrameEndClosesTheFrame := by
  intro s n hlive
  refine ⟨fun hx => ?_, fun hx => ?_, fun k pend r c q st l hx hr hk hst => ?_⟩
  · have stray : s.frameEnd n = s.count n fun c => { c with stray := bump c.stray } := by
      simp only [State.frameEnd, hlive, if_true, hx]
    exact congrArg Outcome.next stray
  · have given : s.frameEnd n = s.setReception n .noFrame := by simp only [State.frameEnd, hlive, if_true, hx]
    exact congrArg Outcome.next given
  · have whole : s.frameEnd n = s.endFrame n k pend := by simp only [State.frameEnd, hlive, if_true, hx]
    by_cases hd : pend ≠ none ∨ l.toNat ≠ s.ciu[n].setup.height
    · have t := (whole.trans (State.endFrame_of_damaged hx hr hk hst hd)).trans (State.damageFrame_eq hr hk hst _)
      refine ⟨_, congrArg Outcome.next t, rfl, rfl, rfl, rfl, ?_⟩
      simp only [State.setCamRing_modifyCam_self]
      refine ⟨trivial, trivial, trivial, State.setCamRing_modifyCam_others s n _ _, fun hp hl => ?_, fun _ => ⟨trivial, rfl⟩⟩
      rcases hd with h | h
      · exact absurd hp h
      · exact absurd hl h
    · rw [not_or, not_not, not_not] at hd
      obtain ⟨rfl, hl⟩ := hd
      refine ⟨_, congrArg Outcome.next (whole.trans (State.endFrame_of_whole hx hr hk hst hl)), rfl, rfl, rfl, rfl, ?_⟩
      simp only [State.setCamRing_modifyCam_self]
      refine ⟨trivial, trivial, trivial, State.setCamRing_modifyCam_others s n _ _, fun _ _ => ⟨trivial, rfl⟩, fun h => ?_⟩
      rcases h with h | h
      · exact absurd rfl h
      · exact absurd hl h

/-! ### Lines (R13, R41) -/

theorem lineCause_eq (width : Nat) (ps : List Pair) (pend : Option Damage) :
    lineCause width ps pend = if 2 * ps.length = width then pend else some (pend.getD .lineLength) := by
  unfold lineCause
  cases pend <;> rfl

theorem pairBytes_cons (p : Pair) (ps : List Pair) : pairBytes (p :: ps) = p.y0 :: p.u :: p.y1 :: p.v :: pairBytes ps := rfl

theorem pairBytes_length (ps : List Pair) : (pairBytes ps).length = 4 * ps.length := by
  induction ps with
  | nil => rfl
  | cons p ps ih =>
    rw [pairBytes_cons]
    simp only [List.length_cons, ih]
    omega

/-- Pair `j` of a line stands at its four bytes (R41). -/
theorem pairBytes_getD {ps : List Pair} {j : Nat} {p : Pair} (h : ps[j]? = some p) :
    (pairBytes ps).getD (4 * j) 0 = p.y0 ∧ (pairBytes ps).getD (4 * j + 1) 0 = p.u ∧ (pairBytes ps).getD (4 * j + 2) 0 = p.y1
      ∧ (pairBytes ps).getD (4 * j + 3) 0 = p.v := by
  induction ps generalizing j with
  | nil => cases h
  | cons x ps ih =>
    rw [pairBytes_cons]
    cases j with
    | zero =>
      obtain rfl := Option.some.inj h
      exact ⟨rfl, rfl, rfl, rfl⟩
    | succ j => exact ih h

section
variable {s : State} {n : Fin 4} {k : Nat} {pend : Option Damage} {r : CamRing} {c : CamSlot} {q st : Word32} {l : Count}

/-- A counted line moves the slot's line count and judges the line's length (R13). -/
theorem State.countLine_eq (hr : s.fsc.camRing[n] = some r) (hk : r.slots[k]? = some c) (hst : c.st = .filling q st l)
    (ps : List Pair) (pend : Option Damage) : s.countLine n k ps pend
      = (s.setCamRing n (some (r.putState k (.filling q st (bump l))))).modifyCam n fun x => { x with
          reception := .receiving k
            (if 2 * ps.length = s.ciu[n].setup.width then pend else some (pend.getD .lineLength)) } := by
  rw [countLine, modifyCamSlot_putState hr hk (CamSlot.addLine_of_filling hst), lineCause_eq, setReception_eq]

/-- A line in RECEIVING past the last row is counted alone (R13). -/
theorem execLine_past (hlive : s.ciu[n].link.live = true) (hx : s.ciu[n].reception = .receiving k pend)
    (hr : s.fsc.camRing[n] = some r) (hk : r.slots[k]? = some c) (hst : c.st = .filling q st l) {ps : List Pair}
    (hplace : s.linePlace n r k l ps = none) : execLine n ps s = .next (s.countLine n k ps pend) := by
  simp only [execLine, hx, hr, State.openLines_of_receiving hx hr hk hst, hlive, hplace]

/-- A line in RECEIVING with a row is written to it and counted (R13). -/
theorem execLine_row (hlive : s.ciu[n].link.live = true) (hx : s.ciu[n].reception = .receiving k pend)
    (hr : s.fsc.camRing[n] = some r) (hk : r.slots[k]? = some c) (hst : c.st = .filling q st l) {ps : List Pair} {a : Nat}
    {bs : List Byte} (hplace : s.linePlace n r k l ps = some (a, bs)) (hfits : inDram a bs.length = true) :
    execLine n ps s = .next ({ s with dram := s.dram.writeBytes a bs }.countLine n k ps pend) := by
  simp only [execLine, hx, hr, State.openLines_of_receiving hx hr hk hst, hlive, hplace, hfits, if_true]

theorem execLine_of_idle (hx : s.ciu[n].reception = .noFrame ∨ s.ciu[n].reception = .discarding) (ps : List Pair) :
    execLine n ps s = .next s := by
  rcases hx with hx | hx <;> simp only [execLine, hx]

end

/-- Settles O14: by the reception state, and in RECEIVING by whether the line's index is below the height. -/
theorem lineWritesItsRow : Obligations.LineWritesItsRow := by
  refine ⟨fun s n ps => ⟨fun hx => execLine_of_idle hx ps, fun k pend r c q st l hlive hx hr hk hst hpast => ?_⟩,
    fun s n ps k pend r c q st l row hlive hx hr hk hst hlt hrow hin => ?_⟩
  · have place : s.linePlace n r k l ps = none := if_neg (Nat.not_lt.2 hpast)
    refine (execLine_past hlive hx hr hk hst place).trans ?_
    exact congrArg Outcome.next (State.countLine_eq hr hk hst ps pend)
  · have place : s.linePlace n r k l ps = some (row, pairBytes (ps.take (s.ciu[n].setup.width / 2))) := by
      rw [State.linePlace, if_pos hlt, hrow]
    have length : (pairBytes (ps.take (s.ciu[n].setup.width / 2))).length = 4 * min ps.length (s.ciu[n].setup.width / 2) := by
      rw [pairBytes_length, List.length_take, Nat.min_comm]
    have fits : inDram row (pairBytes (ps.take (s.ciu[n].setup.width / 2))).length = true := by
      rw [length]
      exact decide_eq_true hin
    generalize hbs : pairBytes (ps.take (s.ciu[n].setup.width / 2)) = bs at place length fits
    let u : State := { s with dram := s.dram.writeBytes row bs }
    have line : exec (.line n ps) s = .next (u.countLine n k ps pend) := execLine_row hlive hx hr hk hst place fits
    have read (a : Nat) : (s.dram.writeBytes row bs).read a
        = if row ≤ a ∧ a < row + bs.length then bs.getD (a - row) 0 else s.dram.read a := Memory.read_writeBytes _ _ _ _
    refine ⟨_, line.trans (congrArg Outcome.next (State.countLine_eq (s := u) hr hk hst ps pend)), fun a ha => ?_,
      fun j p hj hp => ?_, ?_⟩
    · refine (read a).trans (if_neg fun ⟨hle, hlt⟩ => ?_)
      rcases ha (a - row) with h | h <;> omega
    · have hget := pairBytes_getD (ps := ps.take (s.ciu[n].setup.width / 2)) (j := j) (p := p) (by
        rw [List.getElem?_take_of_lt hj, hp])
      rw [hbs] at hget
      have hjl : j < ps.length := (List.getElem?_eq_some_iff.1 hp).1
      have byte (i : Nat) (hi : i < 4) : (s.dram.writeBytes row bs).read (row + 4 * j + i) = bs.getD (4 * j + i) 0 := by
        rw [read, if_pos (by omega)]
        congr 1
        omega
      obtain ⟨h0, h1, h2, h3⟩ := hget
      exact ⟨(byte 0 (by decide)).trans h0, (byte 1 (by decide)).trans h1, (byte 2 (by decide)).trans h2,
        (byte 3 (by decide)).trans h3⟩
    · have self := State.setCamRing_modifyCam_self u n (some (r.putState k (.filling q st (bump l))))
      refine ⟨(self _).2, (self _).1, rfl, rfl, rfl, rfl, rfl, rfl, rfl, rfl, ?_⟩
      exact State.setCamRing_modifyCam_others u n _ _

/-! ### Frame starts (R12) -/

section
variable {s : State} {n : Fin 4}

/-- The link's state with its frame timeout started (R9). -/
def State.streamingLink (s : State) (n : Fin 4) : Link := .streaming (s.afterMs s.ciu[n].setup.timeout)

theorem State.frameStart_of_streaming {d : Word32} (h : s.ciu[n].link = .streaming d) :
    s.frameStart n = (s.modifyCam n fun c => { c with link := s.streamingLink n }).startFrame n := by
  simp only [frameStart, h, streamingLink]

theorem State.frameStart_of_waiting (h : (∃ d, s.ciu[n].link = .seeking d) ∨ s.ciu[n].link = .stalled) :
    s.frameStart n = (s.enterLink n (s.streamingLink n)).startFrame n := by
  rcases h with ⟨d, h⟩ | h <;> simp only [frameStart, h, streamingLink]

theorem State.frameStart_of_dead (h : s.ciu[n].link = .off ∨ s.ciu[n].link = .faulted ∨ ∃ d, s.ciu[n].link = .settling d) :
    s.frameStart n = s := by
  rcases h with h | h | ⟨d, h⟩ <;> simp only [frameStart, h]

/-- A frame start goes by what closing the open frame leaves (R12). -/
theorem State.startFrame_congr {u : State} (hc : s.closeFrame n .short = u.closeFrame n .short) (hn : s.tbu.now = u.tbu.now) :
    s.startFrame n = u.startFrame n := by
  rw [startFrame, startFrame, hc, hn]

/-- A link that waits is streaming first: the frame start that follows finds the same (R8, R9). -/
theorem State.frameStart_of_entered (h : (∃ d, s.ciu[n].link = .seeking d) ∨ s.ciu[n].link = .stalled) :
    s.frameStart n = (s.enterLink n (s.streamingLink n)).frameStart n := by
  have unit : (s.enterLink n (s.streamingLink n)).ciu[n] = { s.ciu[n] with link := s.streamingLink n } := by
    rw [enterLink_eq, notify_ciu, modifyCam_self]
  have link : (s.enterLink n (s.streamingLink n)).streamingLink n = s.streamingLink n := by
    rw [streamingLink, unit]
    rfl
  rw [frameStart_of_waiting h, frameStart_of_streaming (congrArg Cam.link unit), link, modifyCam_of_eq]
  rw [unit]

/-- In STREAMING an open frame is closed first: the frame start finds the unit and the ring as closing leaves them (R12). -/
theorem State.frameStart_of_closed {u : State} {d : Word32} (hl : s.ciu[n].link = .streaming d)
    (hu : u.ciu[n].link = s.ciu[n].link) (hset : u.ciu[n].setup = s.ciu[n].setup) (hnow : u.tbu.now = s.tbu.now)
    (hc : (s.modifyCam n fun c => { c with link := s.streamingLink n }).closeFrame n .short
      = (u.modifyCam n fun c => { c with link := s.streamingLink n }).closeFrame n .short) :
    s.frameStart n = u.frameStart n := by
  have link : u.streamingLink n = s.streamingLink n := by rw [streamingLink, streamingLink, hset, afterMs, after, hnow]; rfl
  rw [frameStart_of_streaming hl, frameStart_of_streaming (hu.trans hl), link]
  exact startFrame_congr hc hnow.symm

/-! ### A place for the frame (R12 step 3, R17, R18, R31) -/

theorem State.placeFrame_of_target {r : CamRing} {k : Nat} {b : Bool} (hr : s.fsc.camRing[n] = some r)
    (hk : r.fillTarget = some (k, b)) : s.placeFrame n
      = (s.setCamRing n (some { r.putState k (.filling r.next s.tbu.now 0) with
          next := r.next + 1, replaced := if b then bump r.replaced else r.replaced })).modifyCam n fun c =>
            { c with reception := .receiving k none } := by
  simp only [placeFrame, hr, hk]
  rfl

theorem State.placeFrame_of_full {r : CamRing} (hr : s.fsc.camRing[n] = some r) (hk : r.fillTarget = none) : s.placeFrame n
    = ((s.setCamRing n (some { r with next := r.next + 1 })).modifyCam n fun c =>
        { c with counts := { c.counts with dropped := bump c.counts.dropped }, reception := .discarding }).latch .drop := by
  simp only [placeFrame, hr, hk, dropFrame, count_eq, setReception_eq, modifyCam_modifyCam]

/-- An unjoined frame after the first is counted (R17). -/
theorem State.placeFrame_of_unjoined (hr : s.fsc.camRing[n] = none) (hu : s.ciu[n].unjoinedNoticed = true) : s.placeFrame n
    = s.modifyCam n fun c =>
        { c with counts := { c.counts with unjoined := bump c.counts.unjoined }, reception := .discarding } := by
  simp only [placeFrame, hr, openUnjoined, count_eq, setReception_eq, modifyCam_modifyCam]
  rw [show (s.modifyCam n _).ciu[n] = _ from modifyCam_self s n _]
  exact if_pos hu

/-- The first unjoined frame is counted and told (R17). -/
theorem State.placeFrame_of_first_unjoined (hr : s.fsc.camRing[n] = none) (hu : s.ciu[n].unjoinedNoticed = false) :
    s.placeFrame n
      = (s.modifyCam n fun c => { c with
          counts := { c.counts with unjoined := bump c.counts.unjoined }, reception := .discarding
          unjoinedNoticed := true }).notify .camUnjoined n (bump s.ciu[n].counts.unjoined).toNat := by
  simp only [placeFrame, hr, openUnjoined, count_eq, setReception_eq, modifyCam_modifyCam]
  rw [show (s.modifyCam n _).ciu[n] = _ from modifyCam_self s n _]
  exact if_neg (Bool.eq_false_iff.1 hu)

theorem State.latch_cam (s : State) (b : FaultBit) (m : Fin 4) : (s.latch b).ciu[m] = s.ciu[m] := rfl

/-- Whatever place a frame gets, the rings and units of the others stay, the camera's link does, and of the ports only queues
and fault bits move. -/
theorem State.placeFrame_kept (s : State) (n : Fin 4) :
    ∃ u, s.placeFrame n = u ∧ u.tbu = s.tbu ∧ u.dram = s.dram ∧ u.si = s.si ∧ u.ou = s.ou ∧ u.ca = s.ca ∧ u.ce = s.ce
      ∧ u.su = s.su ∧ u.bu = s.bu ∧ u.cp.gen = s.cp.gen ∧ u.ciu[n].link = s.ciu[n].link
      ∧ ∀ m : Fin 4, m ≠ n → u.ciu[m] = s.ciu[m] ∧ u.fsc.camRing[m] = s.fsc.camRing[m] := by
  refine ⟨_, rfl, ?_⟩
  cases hr : s.fsc.camRing[n] with
  | none =>
    cases hu : s.ciu[n].unjoinedNoticed with
    | true =>
      rw [placeFrame_of_unjoined hr hu]
      refine ⟨rfl, rfl, rfl, rfl, rfl, rfl, rfl, rfl, rfl, ?_, fun m hm => ⟨?_, rfl⟩⟩
      · rw [modifyCam_self]
      · rw [modifyCam_cam, if_neg hm]
    | false =>
      rw [placeFrame_of_first_unjoined hr hu]
      refine ⟨rfl, rfl, rfl, rfl, rfl, rfl, rfl, rfl, rfl, ?_, fun m hm => ⟨?_, rfl⟩⟩
      · rw [notify_ciu, modifyCam_self]
      · rw [notify_ciu, modifyCam_cam, if_neg hm]
  | some r =>
    cases hk : r.fillTarget with
    | none =>
      rw [placeFrame_of_full hr hk]
      refine ⟨rfl, rfl, rfl, rfl, rfl, rfl, rfl, rfl, rfl, ?_, fun m hm => ?_⟩
      · rw [latch_cam, (setCamRing_modifyCam_self s n _ _).1]
      · exact setCamRing_modifyCam_others s n (some { r with next := r.next + 1 })
          (fun c => { c with counts := { c.counts with dropped := bump c.counts.dropped }, reception := .discarding }) m hm
    | some b =>
      rw [placeFrame_of_target hr hk]
      refine ⟨rfl, rfl, rfl, rfl, rfl, rfl, rfl, rfl, rfl, ?_, setCamRing_modifyCam_others s n _ _⟩
      rw [(setCamRing_modifyCam_self s n _ _).1]

end

/-- Settles O13: an open frame is closed first; then by the ring's fill target, and by the link state. -/
theorem frameStartOpensAFrame : Obligations.FrameStartOpensAFrame := by
  refine ⟨fun s n d hl hx => ?opens, fun s n => ⟨fun h => congrArg Outcome.next (State.frameStart_of_dead h),
    fun h => congrArg Outcome.next (State.frameStart_of_entered h), fun d hl => ⟨fun hx => congrArg Outcome.next ?discarding,
    fun k pend r c q st l hx hr hk hst => congrArg Outcome.next ?receiving⟩⟩⟩
  case discarding =>
    have unit : (s.modifyCam n fun c => { c with reception := .noFrame }).ciu[n] = { s.ciu[n] with reception := .noFrame } :=
      State.modifyCam_self _ _ _
    refine State.frameStart_of_closed (u := s.modifyCam n fun c => { c with reception := .noFrame }) hl (by rw [unit])
      (by rw [unit]) rfl ?_
    rw [State.closeFrame_of_idle (.inr (by rw [State.modifyCam_self]; exact hx)), State.modifyCam_modifyCam,
      State.closeFrame_of_noFrame (by rw [State.modifyCam_self, unit]), State.modifyCam_modifyCam]
  case receiving =>
    let u := (s.setCamRing n (some (r.putState k (.damaged q st l (pend.getD .short))))).modifyCam n fun c =>
      { c with counts := { c.counts with damaged := bump c.counts.damaged }, reception := .noFrame }
    have unit : u.ciu[n] = { s.ciu[n] with
        counts := { s.ciu[n].counts with damaged := bump s.ciu[n].counts.damaged }, reception := .noFrame } :=
      (State.setCamRing_modifyCam_self s n _ _).1
    refine State.frameStart_of_closed (u := u) hl (by rw [unit]) (by rw [unit]) rfl ?_
    have receiving : (s.modifyCam n fun c => { c with link := s.streamingLink n }).ciu[n].reception = .receiving k pend := by
      rw [State.modifyCam_self]
      exact hx
    rw [State.closeFrame_of_receiving receiving hr hk hst, State.modifyCam_setCamRing, State.modifyCam_modifyCam,
      State.closeFrame_of_noFrame (by rw [State.modifyCam_self, unit]), State.modifyCam_modifyCam]
  case opens =>
    let u := (s.modifyCam n fun c => { c with link := s.streamingLink n }).modifyTiming n fun t => t.capture s.tbu.now
    have unit : u.ciu[n] = { s.ciu[n] with link := s.streamingLink n } :=
      State.modifyCam_self s n fun c => { c with link := s.streamingLink n }
    have timing (m : Fin 4) : u.tbu.cams[m] = if m = n then s.tbu.cams[n].capture s.tbu.now else s.tbu.cams[m] :=
      Vector.getElem_set_fin _ _ _ _
    have started : s.frameStart n = u.placeFrame n := by
      rw [State.frameStart_of_streaming hl, State.startFrame,
        State.closeFrame_of_noFrame (by rw [State.modifyCam_self]; exact hx)]
      rfl
    obtain ⟨t, ht, htbu, hdram, hsi, hou, hca, hce, hsu, hbu, hgen, hlink, hother⟩ := u.placeFrame_kept n
    refine ⟨t, congrArg Outcome.next (started.trans ht), ?_, ?_, fun c hc => ?_, fun hc => ?_, hdram, hsi, hou, hca, hce, hsu,
      hbu, hgen, fun m hm => ⟨?_, (hother m hm).2, ?_⟩, fun r k b hr hk => ?_, fun r hr hk => ?_, fun hr => ?_⟩
    · rw [hlink, unit]
      rfl
    · rw [htbu, timing, if_pos rfl]
      rfl
    · rw [htbu, timing, if_pos rfl]
      simp only [CamTiming.capture, hc]
      rfl
    · rw [htbu, timing, if_pos rfl]
      simp only [CamTiming.capture, hc]
      rfl
    · rw [(hother m hm).1]
      exact (s.modifyCam_cam n (fun c => { c with link := s.streamingLink n }) m).trans (if_neg hm)
    · rw [htbu, timing, if_neg hm]
    · obtain rfl := (u.placeFrame_of_target hr hk).symm.trans ht
      rw [(State.setCamRing_modifyCam_self u n _ _).1, (State.setCamRing_modifyCam_self u n _ _).2, unit]
      exact ⟨rfl, rfl, rfl, rfl⟩
    · obtain rfl := (u.placeFrame_of_full hr hk).symm.trans ht
      rw [State.latch_cam, (State.setCamRing_modifyCam_self u n _ _).1, unit]
      exact ⟨rfl, rfl, rfl, (State.setCamRing_modifyCam_self u n (some { r with next := r.next + 1 })
        (fun c => { c with counts := { c.counts with dropped := bump c.counts.dropped }, reception := .discarding })).2⟩
    · have noticed : u.ciu[n].unjoinedNoticed = s.ciu[n].unjoinedNoticed := by rw [unit]
      cases hu : s.ciu[n].unjoinedNoticed with
      | true =>
        obtain rfl := (u.placeFrame_of_unjoined hr (noticed.trans hu)).symm.trans ht
        rw [State.modifyCam_self, unit]
        exact ⟨rfl, hu, rfl, rfl, fun _ => rfl, fun h => by cases h⟩
      | false =>
        obtain rfl := (u.placeFrame_of_first_unjoined hr (noticed.trans hu)).symm.trans ht
        rw [State.notify_ciu, State.modifyCam_self, unit]
        exact ⟨rfl, rfl, rfl, rfl, fun h => (by cases h), fun _ => rfl⟩

end Sys2Proof.Machine
end

