-- ==== Sys2Proof/Proofs/Areas.lean ====
section
/-! The area table's commands (R22 to R27), the end of a clear (R24) and AREA_WRITE (R40). -/

namespace Sys2Proof.Machine

open Host (Outcome)

section
variable {s : State} {a : Fin 8} {b l : Nat}

/-! ### AREA_DEFINE (R22) -/

theorem FrameStore.overlaps_eq_true_iff {fs : FrameStore} : fs.overlaps a b l = true ↔
    ∃ (i : Fin 8) (b' l' : Nat) (p : AreaPhase), i ≠ a ∧ fs.areas[i] = .range b' l' p ∧ b < l' ∧ b' < l := by
  simp only [overlaps, List.any_eq_true, List.mem_finRange, true_and, Bool.and_eq_true, decide_eq_true_eq]
  constructor
  · rintro ⟨i, hi, hx⟩
    cases hr : fs.areas[i] with
    | undefined => simp [hr] at hx
    | range b' l' p => exact ⟨i, b', l', p, hi, hr, by simpa [hr, sharesUnit] using hx⟩
  · rintro ⟨i, b', l', p, hi, hr, hx⟩
    exact ⟨i, hi, by simpa [hr, sharesUnit] using hx⟩

theorem AreaFormBad_range_eq_false (hb : b ≤ 4095) (h1 : 1 ≤ l) (h2 : l ≤ 4096) (hl : b < l) :
    AreaFormBad (.range b l) = false :=
  decide_eq_false (by omega)

/-- The entry's state is judged after the form's bounds (R22 steps 1 to 3). -/
theorem judgeAreaDefine_of_refused {form : AreaForm} {r : Result} (hf : AreaFormBad form = false)
    (hr : s.fsc.areas[a].refusesDefine = some r) : judgeAreaDefine a form s = .refuse r := by
  simp only [judgeAreaDefine, index_val, hf, hr, Bool.false_eq_true, if_false]

theorem judgeAreaDefine_release (hr : s.fsc.areas[a].refusesDefine = none) :
    judgeAreaDefine a .release s = .take .ok .empty (s.setArea a .undefined) := by
  simp only [judgeAreaDefine, index_val, AreaFormBad, hr, Bool.false_eq_true, if_false]

theorem judgeAreaDefine_range (hf : AreaFormBad (.range b l) = false) (hr : s.fsc.areas[a].refusesDefine = none) :
    judgeAreaDefine a (.range b l) s
      = if s.fsc.overlaps a b l then .refuse .overlap else .take .ok .empty (s.setArea a (.range b l .defined)) := by
  simp only [judgeAreaDefine, index_val, hf, hr, Bool.false_eq_true, if_false]

theorem Area.refusesDefine_of_open {x : Area} (h : x = .undefined ∨ ∃ b' l', x = .range b' l' .defined) :
    x.refusesDefine = none := by
  obtain rfl | ⟨b', l', rfl⟩ := h <;> rfl

theorem Area.refusesDefine_of_taken {x : Area} {b' l' : Nat} {t : Target}
    (h : x = .range b' l' (.joined t) ∨ x = .range b' l' .clean) : x.refusesDefine = some .wrongState := by
  obtain rfl | rfl := h <;> rfl

end

/-- Settles O16: the form's bounds, then the entry's state, then the overlap with the other entries. -/
theorem areaDefineJudges : Obligations.AreaDefineJudges := by
  intro s h a b l hs hg
  have refused (form : AreaForm) (r : Result) (e : judgeAreaDefine a form s = .refuse r) :
      exec (.areaDefine h a form) s = .next (s.respond h.port 0x20 r .empty) :=
    guarded_sound_refuse (judge := judgeAreaDefine a form) hs hg e
  refine ⟨fun hbad => refused _ _ ?_, fun hb h1 h2 hl => ?range, fun ha =>
    guarded_sound (judge := judgeAreaDefine a .release) hs hg (judgeAreaDefine_release (Area.refusesDefine_of_open ha)),
    fun n form hn => guarded_sound_refuse (judge := judgeAreaDefine n form) hs hg ?_,
    fun b' l' ha => refused _ _ (judgeAreaDefine_of_refused rfl (congrArg Area.refusesDefine ha)),
    fun b' l' t ha => refused _ _ (judgeAreaDefine_of_refused rfl (Area.refusesDefine_of_taken ha))⟩
  · simp [judgeAreaDefine, show AreaFormBad (.range b l) = true from decide_eq_true hbad]
  case range =>
    have good := AreaFormBad_range_eq_false hb h1 h2 hl
    refine ⟨fun b' l' ha => refused _ _ (judgeAreaDefine_of_refused good (congrArg Area.refusesDefine ha)),
      fun b' l' t ha => refused _ _ (judgeAreaDefine_of_refused good (Area.refusesDefine_of_taken ha)),
      fun ha => ⟨fun hover => refused _ _ ?_,
        fun hapart => guarded_sound (judge := judgeAreaDefine a (.range b l)) hs hg ?_⟩⟩
    · exact (judgeAreaDefine_range good (Area.refusesDefine_of_open ha)).trans
        (if_pos (FrameStore.overlaps_eq_true_iff.2 hover))
    · refine (judgeAreaDefine_range good (Area.refusesDefine_of_open ha)).trans (if_neg fun hover => ?_)
      obtain ⟨i, b', l', p, hi, hr, h3, h4⟩ := FrameStore.overlaps_eq_true_iff.1 hover
      have := hapart i b' l' p hi hr
      omega
  · simp [judgeAreaDefine, index_of_ge hn]

/-! ### AREA_CLEAR and its completion (R23, R24) -/

/-- The completion zeroes the area's bytes, makes it CLEAN and tells its size (R24). -/
theorem execAreaClearCompletion_of_clearing {s : State} {a : Fin 8} {b l : Nat}
    (ha : s.fsc.areas[a] = .range b l .clearing) (hb : b ≤ l) (hl : l ≤ 4096) :
    execAreaClearCompletion a s
      = .next (({ s with dram := s.dram.clear (b * 65536) ((l - b) * 65536) }.setArea a (.range b l .clean)).notify
          .areaCleared a (l - b)) := by
  have fits : inDram (b * Config.unitBytes) ((l - b) * Config.unitBytes) = true :=
    decide_eq_true (show b * 65536 + (l - b) * 65536 ≤ 4096 * 65536 by omega)
  simp only [execAreaClearCompletion, ha, fits]
  rfl

/-- Settles O17: the clear's bytes are those of the range alone. -/
theorem areaClearWritesZero : Obligations.AreaClearWritesZero := by
  refine fun s a b l => ⟨fun h hs hg ha => guarded_sound (judge := judgeAreaClear a) hs hg ?_, fun ha hb hl =>
    ⟨_, execAreaClearCompletion_of_clearing ha hb.le hl, fun x h1 h2 => ?_, fun x hx => ?_, rfl⟩⟩
  · obtain ha | ha := ha <;> simp [judgeAreaClear, ha] <;> rfl
  · exact (Memory.read_clear _ _ _ _).trans (if_pos (by omega))
  · exact (Memory.read_clear _ _ _ _).trans (if_neg (by omega))

/-! ### AREA_JOIN and AREA_UNJOIN (R25, R27) -/

section
variable {s : State} {a : Fin 8} {b l : Nat}

theorem judgeAreaJoin_clean {t : Target} (ha : s.fsc.areas[a] = .range b l .clean) :
    judgeAreaJoin a (some t) s = if (s.fsc.joined t).isSome then .refuse .inUse else s.join a b l t := by
  simp [judgeAreaJoin, ha]

theorem judgeAreaJoin_free {t : Target} (ha : s.fsc.areas[a] = .range b l .clean) (ht : s.fsc.joined t = none) :
    judgeAreaJoin a (some t) s = s.join a b l t := by
  rw [judgeAreaJoin_clean ha, ht]
  rfl

theorem State.join_camera_small {n : Fin 4} (h : (l - b) / s.ciu[n].setup.stride < 2) :
    s.join a b l (.camera n) = .refuse .areaTooSmall :=
  if_pos (show min 4 ((l - b) / s.ciu[n].setup.stride) < 2 by omega)

theorem State.join_camera_large {n : Fin 4} (h : 2 ≤ (l - b) / s.ciu[n].setup.stride) :
    s.join a b l (.camera n) = .take .ok .empty (((s.setArea a (.range b l (.joined (.camera n)))).setCamRing n
      (some (CamRing.mk a 0 0 (List.replicate (min 4 ((l - b) / s.ciu[n].setup.stride)) .empty)))).changeJoin n) :=
  if_neg (show ¬ min 4 ((l - b) / s.ciu[n].setup.stride) < 2 by omega)

theorem State.join_output_small (h : (l - b) / 29 < 3) : s.join a b l .output = .refuse .areaTooSmall :=
  if_pos (show min 4 ((l - b) / 29) < 3 by omega)

theorem State.join_output_large (h : 3 ≤ (l - b) / 29) :
    s.join a b l .output = .take .ok .empty ((s.setArea a (.range b l (.joined .output))).setOutRing
      (some { area := a, next := 0, slots := List.replicate (min 4 ((l - b) / 29)) .empty })) :=
  if_neg (show ¬ min 4 ((l - b) / 29) < 3 by omega)

theorem State.join_overlay (h : b < l) :
    s.join a b l .overlay = .take .ok .empty (s.setArea a (.range b l (.joined .overlay))) :=
  if_neg (show ¬ l - b < 1 by omega)

/-- The commands of R25 judge their operands before the area's state. -/
theorem judgeAreaJoin_of_other {t : Target} (h : s.fsc.areas[a] = .undefined ∨ (∃ b l, s.fsc.areas[a] = .range b l .defined)
    ∨ ∃ b l x, s.fsc.areas[a] = .range b l (.joined x)) : judgeAreaJoin a (some t) s = .refuse .wrongState := by
  obtain h | ⟨b, l, h⟩ | ⟨b, l, x, h⟩ := h <;> simp [judgeAreaJoin, h]

end

/-- Settles O18: by the target, with the slots that its stride leaves room for. -/
theorem areaJoinMakesTheRing : Obligations.AreaJoinMakesTheRing := by
  intro s h hs hg
  have refused (k : Nat) (t : Option Target) (r : Result) (e : judgeAreaJoin k t s = .refuse r) :
      exec (.areaJoin h k t) s = .next (s.respond h.port 0x22 r .empty) :=
    guarded_sound_refuse (judge := judgeAreaJoin k t) hs hg e
  refine ⟨fun t => ⟨fun k hk => refused _ _ _ ?_, fun a => ⟨refused _ _ _ ?_, fun ⟨b, l, ha⟩ => refused _ _ _ ?_,
    fun ha => refused _ _ _ (judgeAreaJoin_of_other ha)⟩⟩, fun a b l ha => ⟨fun n hn => ⟨fun hk => refused _ _ _ ?_, fun hk => ?camera⟩,
    fun hn => ⟨fun hk => refused _ _ _ ?_, fun hk => ?output⟩, fun hn hl => ?overlay, fun t ht => refused _ _ _ ?_⟩⟩
  · simp [judgeAreaJoin, index_of_ge hk]
  · simp [judgeAreaJoin]
  · simp [judgeAreaJoin, ha]
  · exact (judgeAreaJoin_free ha hn).trans (State.join_camera_small hk)
  case camera =>
    exact guarded_sound (judge := judgeAreaJoin a (some (.camera n))) hs hg
      ((judgeAreaJoin_free ha hn).trans (State.join_camera_large hk))
  · exact (judgeAreaJoin_free ha hn).trans (State.join_output_small hk)
  case output =>
    exact guarded_sound (judge := judgeAreaJoin a (some .output)) hs hg
      ((judgeAreaJoin_free ha hn).trans (State.join_output_large hk))
  case overlay =>
    exact guarded_sound (judge := judgeAreaJoin a (some .overlay)) hs hg
      ((judgeAreaJoin_free ha hn).trans (State.join_overlay hl))
  · exact (judgeAreaJoin_clean ha).trans (if_pos ht)

theorem judgeAreaUnjoin_joined {s : State} {a : Fin 8} {b l : Nat} {t : Target}
    (ha : s.fsc.areas[a] = .range b l (.joined t)) :
    judgeAreaUnjoin a s
      = if s.unjoinable t then .take .ok .empty ((s.setArea a (.range b l .defined)).discardRing t)
        else .refuse .inUse := by
  simp [judgeAreaUnjoin, ha]

theorem CamSlot.loose_iff {c : CamSlot} : c.loose = true ↔ c.pin = false ∧ c.holdD = none ∧ c.holdA = none := by
  simp [loose, unheld]

theorem OutSlot.unheld_iff {c : OutSlot} : c.unheld = true ↔ c.holdD = none ∧ c.holdA = none := by
  simp [unheld]

section
variable {s : State}

theorem State.unjoinable_camera {n : Fin 4} {r : CamRing} (hr : s.fsc.camRing[n] = some r) :
    s.unjoinable (.camera n) = true ↔
      s.ciu[n].link = .off ∧ ∀ c ∈ r.slots, c.pin = false ∧ c.holdD = none ∧ c.holdA = none := by
  simp only [unjoinable, hr, Bool.and_eq_true, decide_eq_true_eq, List.all_eq_true, CamSlot.loose_iff]

theorem State.unjoinable_output_idle (h : s.unjoinable .output = true) : s.su.timer = none ∧ s.ce.current = none := by
  simp only [unjoinable, Bool.and_eq_true, Option.isNone_iff_eq_none] at h
  exact h.1

theorem State.unjoinable_output {r : OutRing} (hr : s.fsc.outRing = some r) :
    s.unjoinable .output = true ↔
      (s.su.timer = none ∧ s.ce.current = none) ∧ ∀ c ∈ r.slots, c.holdD = none ∧ c.holdA = none := by
  simp only [unjoinable, hr, Bool.and_eq_true, Option.isNone_iff_eq_none, List.all_eq_true, OutSlot.unheld_iff]

end

/-- Settles O19: `unjoinable` is read off for each target. -/
theorem areaUnjoinNeedsAnIdleUser : Obligations.AreaUnjoinNeedsAnIdleUser := by
  intro s h a b l hs hg
  have refused (t : Target) (ha : s.fsc.areas[a] = .range b l (.joined t)) (hu : ¬ s.unjoinable t = true) :
      exec (.areaUnjoin h a) s = .next (s.respond h.port 0x23 .inUse .empty) :=
    guarded_sound_refuse (judge := judgeAreaUnjoin a) hs hg ((judgeAreaUnjoin_joined ha).trans (if_neg hu))
  have taken (t : Target) (ha : s.fsc.areas[a] = .range b l (.joined t)) (hu : s.unjoinable t = true) :
      exec (.areaUnjoin h a) s
        = .next (((s.setArea a (.range b l .defined)).discardRing t).advanceGen.respond h.port 0x23 .ok .empty) :=
    guarded_sound (judge := judgeAreaUnjoin a) hs hg ((judgeAreaUnjoin_joined ha).trans (if_pos hu))
  refine ⟨fun n r ha hr => ⟨fun hbusy => refused _ ha fun hu => ?_, fun hoff hloose =>
      taken _ ha ((State.unjoinable_camera hr).2 ⟨hoff, hloose⟩)⟩,
    fun ha => ⟨fun hc => refused _ ha fun hu => ?_, fun hc => taken _ ha ?_⟩, fun ha hbusy => refused _ ha fun hu => ?_,
    fun r ha hr => ⟨fun ⟨c, hc, hheld⟩ => refused _ ha fun hu => ?_, fun ht hc hfree =>
      taken _ ha ((State.unjoinable_output hr).2 ⟨⟨ht, hc⟩, hfree⟩)⟩⟩
  · obtain ⟨hoff, hloose⟩ := (State.unjoinable_camera hr).1 hu
    obtain h | ⟨c, hc, hx⟩ := hbusy
    · exact h hoff
    · simp [hloose c hc] at hx
  · simp [State.unjoinable] at hu
    simp [hu] at hc
  · simp [State.unjoinable, hc]
  · obtain ⟨ht, hc⟩ := State.unjoinable_output_idle hu
    simp [ht, hc] at hbusy
  · have := ((State.unjoinable_output hr).1 hu).2 c hc
    simp [this] at hheld

/-! ### AREA_WRITE (R40) -/

theorem State.writeOverlay_ce (s : State) (x : Nat) (bs : List Byte) : (s.writeOverlay x bs).ce
    = { s.ce with current := s.ce.current.map fun c => c.noteWrite s.dram x bs.length } := rfl

theorem judgeAreaWrite_of_fits {s : State} {a : Fin 8} {b l off : Nat} {bs : List Byte} (h1 : 1 ≤ bs.length)
    (h2 : bs.length ≤ 240) (hj : s.fsc.joined .overlay = some a) (ha : s.fsc.areas[a] = .range b l (.joined .overlay))
    (hb : b < l) (hl : l ≤ 4096) (hfit : off + bs.length ≤ (l - b) * 65536) :
    judgeAreaWrite off bs s = .take .ok .empty (s.writeOverlay (b * 65536 + off) bs) := by
  have size : s.fsc.areas[a].size * Config.unitBytes = (l - b) * 65536 := by rw [ha]; rfl
  have base : s.fsc.areaByte a = b * 65536 := by simp only [FrameStore.areaByte, ha]; rfl
  have inside : inDram (b * 65536 + off) bs.length = true :=
    decide_eq_true (show b * 65536 + off + bs.length ≤ 4096 * 65536 by omega)
  simp only [judgeAreaWrite, hj, size, base, inside]
  rw [if_neg (by omega), if_neg (by omega)]
  rfl

/-- Settles O20: the bytes lie within the area, so the write is in DRAM. -/
theorem areaWriteStores : Obligations.AreaWriteStores := by
  intro s h bs a b l first hlen hgot h1 h2 hg hj ha hb hl hfit hfirst
  have whole : framed h (decide (h.len.toNat ≤ bs.length)) = true := by
    simp only [framed, hlen, hgot, Bool.and_eq_true, decide_eq_true_eq]
    omega
  have judged : guardGen h (judgeAreaWrite h.arg.toNat (bs.take h.len.toNat)) s
      = .take .ok .empty (s.writeOverlay first bs).advanceGen := by
    rw [hlen, List.take_length, hfirst, guardGen, if_neg (not_not.2 hg.1), if_neg hg.2,
      judgeAreaWrite_of_fits h1 h2 hj ha hb hl hfit]
  have done : exec (.areaWrite h bs) s = .next ((s.writeOverlay first bs).advanceGen.respond h.port 0x25 .ok .empty) := by
    show takeCommand _ _ _ _ _ = _
    rw [takeCommand, if_neg (by omega), if_pos whole, judged, answer]
  refine ⟨_, done, fun i hi => ?_, fun x hx => ?_, ?_, fun hc => ?_, fun c hc => ?_⟩
  · rw [State.respond_dram]
    refine (Memory.read_writeBytes s.dram first bs _).trans ?_
    rw [if_pos (by omega), Nat.add_sub_cancel_left]
  · rw [State.respond_dram]
    exact (Memory.read_writeBytes s.dram first bs _).trans (if_neg (by omega))
  · cases h.port <;> rfl
  · rw [State.respond_ce, State.advanceGen_ce, State.writeOverlay_ce, hc, Option.map_none, ← hc]
  · rw [State.respond_ce, State.advanceGen_ce, State.writeOverlay_ce, hc]
    rfl

end Sys2Proof.Machine
end

