-- ==== Sys2Proof/Proofs/Holds.lean ====
section
/-! Port holds of the rings: FRAME_HOLD, FRAME_RELEASE, their expiry and FRAME_READ (R35 to R38). -/

namespace Sys2Proof.Machine

open Host (Outcome)

/-! ### The slot that a port holds -/

/-- The first element that passes a test, said by its place. -/
theorem findIdx?_eq_some_of_first {α : Type} {l : List α} {p : α → Bool} {k : Nat} {c : α} (hk : l[k]? = some c)
    (hc : p c = true) (hfirst : ∀ j x, j < k → l[j]? = some x → p x = false) : l.findIdx? p = some k := by
  obtain ⟨hlt, rfl⟩ := List.getElem?_eq_some_iff.1 hk
  refine List.findIdx?_eq_some_iff_getElem.2 ⟨hlt, hc, fun j hj => ?_⟩
  rw [hfirst j _ hj (List.getElem?_eq_getElem (hj.trans hlt))]
  exact Bool.false_ne_true

section
variable {p : Port} {k : Nat}

theorem CamRing.heldBy_eq_some {r : CamRing} {c : CamSlot} (hk : r.slots[k]? = some c) (hc : (c.hold p).isSome = true)
    (hfirst : ∀ j x, j < k → r.slots[j]? = some x → x.hold p = none) : r.heldBy p = some k :=
  findIdx?_eq_some_of_first hk hc fun j x hj hx => by simp [hfirst j x hj hx]

theorem CamRing.heldBy_eq_none {r : CamRing} (h : ∀ c ∈ r.slots, c.hold p = none) : r.heldBy p = none :=
  List.findIdx?_eq_none_iff.2 fun c hc => by simp [h c hc]

theorem OutRing.heldBy_eq_some {r : OutRing} {c : OutSlot} (hk : r.slots[k]? = some c) (hc : (c.hold p).isSome = true)
    (hfirst : ∀ j x, j < k → r.slots[j]? = some x → x.hold p = none) : r.heldBy p = some k :=
  findIdx?_eq_some_of_first hk hc fun j x hj hx => by simp [hfirst j x hj hx]

theorem OutRing.heldBy_eq_none {r : OutRing} (h : ∀ c ∈ r.slots, c.hold p = none) : r.heldBy p = none :=
  List.findIdx?_eq_none_iff.2 fun c hc => by simp [h c hc]

theorem State.reached_iff {s : State} {due : Option Word32} : s.reached due = true ↔ due = some s.tbu.now :=
  decide_eq_true_iff

theorem State.reached_eq_false {s : State} {due : Option Word32} (h : due ≠ some s.tbu.now) : s.reached due = false :=
  decide_eq_false h

/-! ### FRAME_HOLD and FRAME_RELEASE of a camera ring (R35, R37) -/

section
variable {s : State} {n : Fin 4} {r : CamRing} {c : CamSlot}

theorem judgeHoldCam_held (hr : s.fsc.camRing[n] = some r) (hk : r.heldBy p = some k) :
    judgeHoldCam p n s = .refuse .wrongState := by
  simp only [judgeHoldCam, hr, hk, Option.isSome_some, if_true]

theorem judgeHoldCam_newest {q t : Word32} {l : Count} (hr : s.fsc.camRing[n] = some r) (hh : r.heldBy p = none)
    (hn : r.newestReady = some k) (hk : r.slots[k]? = some c) (hc : c.st = .ready q t l) :
    judgeHoldCam p n s
      = .take .ok (.held (.camera n) k s.ciu[n].setup.frameBytes
          (.camera q t s.ciu[n].setup.width s.ciu[n].setup.height))
        (s.setCamRing n (some (r.modify k fun x => x.setHold p (some (s.afterMs (s.port p).holdTime))))) := by
  obtain ⟨st, pin, d, a⟩ := c
  obtain rfl : st = .ready q t l := hc
  simp only [judgeHoldCam, hr, hh, hn, hk]
  rfl

theorem judgeFrameRelease_camera (hr : s.fsc.camRing[n] = some r) (hk : r.heldBy p = some k) :
    judgeFrameRelease p (some (.camera n)) s
      = .take .ok .empty (s.setCamRing n (some (r.modify k fun x => x.setHold p none))) := by
  simp only [judgeFrameRelease, hr, hk]

theorem judgeFrameRelease_camera_unheld (hr : s.fsc.camRing[n] = some r) (hk : r.heldBy p = none) :
    judgeFrameRelease p (some (.camera n)) s = .refuse .notFound := by
  simp only [judgeFrameRelease, hr, hk]

/-- The lowest of the port's holds that are due leaves, and its port is told (R36). -/
theorem State.expireCamHold_first (hr : s.fsc.camRing[n] = some r) (hk : r.slots[k]? = some c)
    (hc : c.hold p = some s.tbu.now) (hfirst : ∀ j x, j < k → r.slots[j]? = some x → x.hold p ≠ some s.tbu.now) :
    s.expireCamHold p n
      = (s.setCamRing n (some (r.modify k fun x => x.setHold p none))).notifyOwner p .holdExpired n c.st.seq.toNat := by
  have first : (r.slots.findIdx? fun x => s.reached (x.hold p)) = some k :=
    findIdx?_eq_some_of_first hk (State.reached_iff.2 hc) fun j x hj hx => State.reached_eq_false (hfirst j x hj hx)
  simp only [expireCamHold, hr, first, hk]

end

/-! ### FRAME_HOLD and FRAME_RELEASE of the output ring (R35, R37) -/

section
variable {s : State} {r : OutRing} {c : OutSlot}

theorem judgeHoldOut_unjoined (hr : s.fsc.outRing = none) : judgeHoldOut p s = .refuse .notFound := by
  simp only [judgeHoldOut, hr]

theorem judgeHoldOut_held (hr : s.fsc.outRing = some r) (hk : r.heldBy p = some k) :
    judgeHoldOut p s = .refuse .wrongState := by
  simp only [judgeHoldOut, hr, hk, Option.isSome_some, if_true]

theorem judgeHoldOut_empty (hr : s.fsc.outRing = some r) (hh : r.heldBy p = none) (hn : r.newestDone = none) :
    judgeHoldOut p s = .refuse .notFound := by
  simp only [judgeHoldOut, hr, hh, hn]
  rfl

theorem judgeHoldOut_newest {f : OutFrame} (hr : s.fsc.outRing = some r) (hh : r.heldBy p = none)
    (hn : r.newestDone = some k) (hk : r.slots[k]? = some c) (hc : c.st = .finished f) :
    judgeHoldOut p s
      = .take .ok (.held .output k Config.outBytes (.output f))
        (s.setOutRing (some (r.modify k fun x => x.setHold p (some (s.afterMs (s.port p).holdTime))))) := by
  obtain ⟨st, d, a⟩ := c
  obtain rfl : st = .finished f := hc
  simp only [judgeHoldOut, hr, hh, hn, hk]
  rfl

theorem judgeFrameRelease_output (hr : s.fsc.outRing = some r) (hk : r.heldBy p = some k) :
    judgeFrameRelease p (some .output) s
      = .take .ok .empty (s.setOutRing (some (r.modify k fun x => x.setHold p none))) := by
  simp only [judgeFrameRelease, hr, hk]

theorem judgeFrameRelease_output_unheld (hr : s.fsc.outRing = some r) (hk : r.heldBy p = none) :
    judgeFrameRelease p (some .output) s = .refuse .notFound := by
  simp only [judgeFrameRelease, hr, hk]

/-- The lowest of the port's holds that are due leaves, and its port is told (R36). -/
theorem State.expireOutHold_first (hr : s.fsc.outRing = some r) (hk : r.slots[k]? = some c)
    (hc : c.hold p = some s.tbu.now) (hfirst : ∀ j x, j < k → r.slots[j]? = some x → x.hold p ≠ some s.tbu.now) :
    s.expireOutHold p
      = (s.setOutRing (some (r.modify k fun x => x.setHold p none))).notifyOwner p .holdExpired 4 c.st.seq.toNat := by
  have first : (r.slots.findIdx? fun x => s.reached (x.hold p)) = some k :=
    findIdx?_eq_some_of_first hk (State.reached_iff.2 hc) fun j x hj hx => State.reached_eq_false (hfirst j x hj hx)
  simp only [expireOutHold, hr, first, hk]

end

end

/-- Settles O21: by the ring, and there by whether the port holds a slot of it. -/
theorem holdsOfACameraRing : Obligations.HoldsOfACameraRing := by
  refine ⟨fun s h n r k c hr hk => ⟨fun q st l hs hfree hn hc => ?_, fun hs hc hfirst => ⟨?_, ?_⟩, fun hs hfree => ?_,
      fun p hc hfirst => ?_⟩, fun s h => ⟨fun hs hr => ?_, fun r hr => ⟨fun hs hfree => ⟨?_, fun hn => ?_⟩,
    fun k c hk => ⟨fun f hs hfree hn hc => ?_, fun hs hc hfirst => ⟨?_, ?_⟩, fun p f hf hc hfirst => ?_⟩⟩⟩⟩
  · exact command_sound_take (judge := judgeFrameHold h.port (some (.camera n))) hs
      (judgeHoldCam_newest hr (CamRing.heldBy_eq_none hfree) hn hk hc)
  · exact command_sound_refuse (judge := judgeFrameHold h.port (some (.camera n))) hs
      (judgeHoldCam_held hr (CamRing.heldBy_eq_some hk hc hfirst))
  · exact command_sound_take (judge := judgeFrameRelease h.port (some (.camera n))) hs
      (judgeFrameRelease_camera hr (CamRing.heldBy_eq_some hk hc hfirst))
  · exact command_sound_refuse (judge := judgeFrameRelease h.port (some (.camera n))) hs
      (judgeFrameRelease_camera_unheld hr (CamRing.heldBy_eq_none hfree))
  · exact congrArg Outcome.next (State.expireCamHold_first hr hk hc hfirst)
  · exact command_sound_refuse (judge := judgeFrameHold h.port (some .output)) hs (judgeHoldOut_unjoined hr)
  · exact command_sound_refuse (judge := judgeFrameRelease h.port (some .output)) hs
      (judgeFrameRelease_output_unheld hr (OutRing.heldBy_eq_none hfree))
  · exact command_sound_refuse (judge := judgeFrameHold h.port (some .output)) hs
      (judgeHoldOut_empty hr (OutRing.heldBy_eq_none hfree) hn)
  · exact command_sound_take (judge := judgeFrameHold h.port (some .output)) hs
      (judgeHoldOut_newest hr (OutRing.heldBy_eq_none hfree) hn hk hc)
  · exact command_sound_refuse (judge := judgeFrameHold h.port (some .output)) hs
      (judgeHoldOut_held hr (OutRing.heldBy_eq_some hk hc hfirst))
  · exact command_sound_take (judge := judgeFrameRelease h.port (some .output)) hs
      (judgeFrameRelease_output hr (OutRing.heldBy_eq_some hk hc hfirst))
  · refine congrArg Outcome.next ((State.expireOutHold_first hr hk hc hfirst).trans ?_)
    rw [hf]
    rfl

/-! ### FRAME_READ (R38) -/

section
variable {s : State} {p : Port}

theorem State.heldFrame_camera {n : Fin 4} {r : CamRing} (hr : s.fsc.camRing[n] = some r) :
    s.heldFrame p (.camera n) = (r.heldBy p).map fun k => (s.camSlotByte n r k, s.ciu[n].setup.frameBytes) := by
  simp only [heldFrame, hr]

theorem State.heldFrame_output {r : OutRing} (hr : s.fsc.outRing = some r) :
    s.heldFrame p .output = (r.heldBy p).map fun k => (s.outSlotByte r k, Config.outBytes) := by
  simp only [heldFrame, hr]

/-- The first byte of slot `k` of a ring: `k` strides from its area's first unit (R26). -/
theorem FrameStore.slotByte_of_range {fs : FrameStore} {a : Fin 8} {b l : Nat} {ph : AreaPhase}
    (ha : fs.areas[a] = .range b l ph) (stride k : Nat) : fs.slotByte a stride k = (b + k * stride) * 65536 := by
  simp only [slotByte, ha]
  rfl

theorem judgeFrameRead_malformed {ring : Option Ring} {off len : Nat} (h : ring = none ∨ len < 1 ∨ 240 < len) :
    judgeFrameRead p ring off len s = .refuse .badArg := by
  cases ring with
  | none => rfl
  | some ring => exact if_pos (h.resolve_left (Option.some_ne_none ring))

theorem judgeFrameRead_eq {ring : Ring} {off len : Nat} (h1 : 1 ≤ len) (h2 : len ≤ 240) :
    judgeFrameRead p (some ring) off len s = match s.heldFrame p ring with
      | none => .refuse .notFound
      | some (a, size) =>
        if size < off + len then .refuse .badArg
        else if inDram (a + off) len then .take .ok (.bytes (s.dram.readBytes (a + off) len)) s
        else .stop .dramAddress :=
  if_neg (by omega)

end

/-- Settles O22: where the held frame lies, then the judgement over its size. -/
theorem frameReadReturnsBytes : Obligations.FrameReadReturnsBytes := by
  refine ⟨fun s p => ⟨fun n hr => ?_, fun n r hr => ⟨fun hfree => ?_, fun k c b l w v ph ha hw hv hk hc hfirst => ?_⟩,
      fun hr => ?_, fun r hr => ⟨fun hfree => ?_, fun k c b l ph ha hk hc hfirst => ?_⟩⟩,
    fun s h ring len hs hbad => command_sound_refuse (judge := judgeFrameRead h.port ring h.arg.toNat len) hs
      (judgeFrameRead_malformed hbad),
    fun s h ring len a size hs h1 h2 => ⟨fun hnone => ?_, fun hsome hsize => ?_, fun hsome hsize hin => ?_⟩⟩
  · simp only [State.heldFrame, hr]
  · rw [State.heldFrame_camera hr, CamRing.heldBy_eq_none hfree, Option.map_none]
  · rw [State.heldFrame_camera hr, CamRing.heldBy_eq_some hk hc hfirst, Option.map_some, State.camSlotByte,
      FrameStore.slotByte_of_range ha, hw, hv]
    rfl
  · simp only [State.heldFrame, hr]
  · rw [State.heldFrame_output hr, OutRing.heldBy_eq_none hfree, Option.map_none]
  · rw [State.heldFrame_output hr, OutRing.heldBy_eq_some hk hc hfirst, Option.map_some, State.outSlotByte,
      FrameStore.slotByte_of_range ha]
    rfl
  · refine command_sound_refuse (judge := judgeFrameRead h.port (some ring) h.arg.toNat len) hs ?_
    rw [judgeFrameRead_eq h1 h2, hnone]
  · refine command_sound_refuse (judge := judgeFrameRead h.port (some ring) h.arg.toNat len) hs ?_
    rw [judgeFrameRead_eq h1 h2, hsome]
    exact if_pos hsize
  · refine command_sound_take (judge := judgeFrameRead h.port (some ring) h.arg.toNat len) hs ?_
    rw [judgeFrameRead_eq h1 h2, hsome]
    have inside : inDram (a + h.arg.toNat) len = true :=
      decide_eq_true (show a + h.arg.toNat + len ≤ 4096 * 65536 by omega)
    exact (if_neg (Nat.not_lt.2 hsize)).trans (if_pos inside)

end Sys2Proof.Machine
end

