-- ==== Sys2Proof/Proofs/Triggers.lean ====
section
/-! TIMING_SET and CAM_MASK (R46, R53), and the trigger pulses of the cameras (R48, R49). -/

namespace Sys2Proof.Machine

open Host (Outcome)

theorem judgeTimingSet_eq (p st sk : Nat) (s : State) : judgeTimingSet p st sk s
    = .take (if 20000 ≤ p ∧ p ≤ 100000 ∧ 10 ≤ st ∧ st ≤ 500 ∧ sk ≤ 100 then .ok else .clamped) .empty
      { s with tbu := { s.tbu with
          period := max 20000 (min p 100000), stale := max 10 (min st 500), skewLimit := min sk 100 } } := by
  have hp := clampNat_eq_max_min (show 20000 ≤ 100000 by decide) p
  have hst := clampNat_eq_max_min (show 10 ≤ 500 by decide) st
  have hsk : clampNat 0 100 sk = min sk 100 := (clampNat_eq_max_min (Nat.zero_le _) sk).trans (Nat.zero_max _)
  rw [← clampResult_eq_ite (changed := decide (max 20000 (min p 100000) ≠ p ∨ max 10 (min st 500) ≠ st ∨ min sk 100 ≠ sk))
    (by rw [decide_eq_false_iff_not]; omega), ← hp, ← hst, ← hsk]
  rfl

theorem judgeCamMask_val (m : BitVec 4) (s : State) :
    judgeCamMask m.toNat s = .take .ok .empty { s with tbu := { s.tbu with mask := m } } := by
  rw [judgeCamMask, if_neg (by omega), BitVec.ofNat_toNat, BitVec.setWidth_eq]

/-- Settles O24: the three clamps, and the mask's range. -/
theorem timingAndMask : Obligations.TimingAndMask := fun s _ hs hg =>
  ⟨fun p st sk => guarded_sound (judge := judgeTimingSet p st sk) hs hg (judgeTimingSet_eq p st sk s),
    fun m => guarded_sound (judge := judgeCamMask m.toNat) hs hg (judgeCamMask_val m s),
    fun m hm => guarded_sound_refuse (judge := judgeCamMask m) hs hg (if_pos hm)⟩

/-! ### Pulses -/

theorem judgeTriggerNow_val (n : Fin 4) (s : State) : judgeTriggerNow n s
    = if s.ciu[n].link.live then .take .ok .empty (s.sendPulse n) else .refuse .wrongState := by
  simp [judgeTriggerNow]

theorem Link.live_iff {x : Link} : x.live = true ↔ (∃ d, x = .seeking d) ∨ (∃ d, x = .streaming d) ∨ x = .stalled := by
  cases x <;> simp [live]

theorem Link.live_eq_false_iff {x : Link} : x.live = false ↔ x = .off ∨ x = .faulted ∨ ∃ d, x = .settling d := by
  cases x <;> simp [live]

/-- A pulse that falls due is gone, and counted in the states in which it is sent (R48). -/
theorem State.pulseDue_of_due {s : State} {n : Fin 4} (h : s.tbu.cams[n].pulse = some s.tbu.now) : s.pulseDue n
    = { s with
        ciu := s.ciu.set n { s.ciu[n] with pulses := s.ciu[n].pulses + if s.ciu[n].link.live then 1 else 0 }
        tbu := { s.tbu with cams := s.tbu.cams.set n { s.tbu.cams[n] with pulse := none } } } := by
  rw [pulseDue, if_pos (State.reached_iff.2 h)]
  cases s.ciu[n].link.live with
  | true => rfl
  | false =>
    have same : s.ciu.set n { s.ciu[n] with pulses := s.ciu[n].pulses + 0 } = s.ciu := Vector.set_getElem_self _
    exact congrArg (fun v => { s with
      ciu := v, tbu := { s.tbu with cams := s.tbu.cams.set n { s.tbu.cams[n] with pulse := none } } }) same.symm

/-- Settles O25: both are decided by the link's being live. -/
theorem triggerPulses : Obligations.TriggerPulses := by
  refine fun s n => ⟨fun h hs => ⟨fun cam hcam => command_sound_refuse (judge := judgeTriggerNow cam) hs ?_,
    fun hl => command_sound_refuse (judge := judgeTriggerNow n) hs ?_,
    fun hl => command_sound_take (judge := judgeTriggerNow n) hs ?_⟩, fun h => congrArg Outcome.next (State.pulseDue_of_due h)⟩
  · rw [judgeTriggerNow, index_of_ge hcam]
  · rw [judgeTriggerNow_val, Link.live_eq_false_iff.2 hl]
    rfl
  · rw [judgeTriggerNow_val, Link.live_iff.2 hl]
    rfl

end Sys2Proof.Machine
end

