-- ==== Sys2Proof/Proofs/GridRecords.lean ====
section
/-! The check of a grid set's records (R68): each cause of the table, said of the record's bytes. -/

namespace Sys2Proof.Machine

section
variable {m : Memory} {g : GridShape} {sizes : Vector (Nat × Nat) 4} {a : Nat}

/-! ### Node records -/

theorem readNode_of_second (h : hasSecond m a) : readNode m a =
    { a := { cam := (m.read a).toNat, u := m.read16 (a + 4), v := m.read16 (a + 6) }
      b := some { cam := (m.read (a + 1)).toNat, u := m.read16 (a + 8), v := m.read16 (a + 10) } } := by
  unfold hasSecond at h
  rw [readNode, if_pos h]

theorem readNode_of_single (h : ¬ hasSecond m a) : readNode m a =
    { a := { cam := (m.read a).toNat, u := m.read16 (a + 4), v := m.read16 (a + 6) }, b := none } := by
  unfold hasSecond at h
  rw [readNode, if_neg h]

theorem outsideFrame_iff {c u v : Nat} :
    outsideFrame sizes c u v ↔ entryRange sizes { cam := c, u := u, v := v } = true := by
  unfold entryRange outsideFrame
  symm
  split
  · rename_i h
    rw [decide_eq_true_iff]
    exact ⟨fun hr => ⟨⟨c, h⟩, rfl, hr⟩, fun ⟨n, hn, hr⟩ => by obtain rfl : n = ⟨c, h⟩ := Fin.ext hn; exact hr⟩
  · rename_i h
    exact ⟨fun hr => absurd hr Bool.false_ne_true, fun ⟨n, hn, _⟩ => absurd (hn ▸ n.isLt) h⟩

theorem checkNode_single (x : NodeEntry) : checkNode sizes { a := x, b := none }
    = if 3 < x.cam then some .badCamera else if entryRange sizes x then some .coordRange else none := rfl

theorem checkNode_pair (x y : NodeEntry) : checkNode sizes { a := x, b := some y }
    = if 3 < x.cam then some .badCamera
      else if 3 < y.cam ∨ y.cam = x.cam then some .badCamera
      else if entryRange sizes x || entryRange sizes y then some .coordRange else none := rfl

/-- The node records' part of the table (R68). -/
theorem checkNode_judges : (NodeBadCamera m a → checkNode sizes (readNode m a) = some .badCamera)
    ∧ (¬ NodeBadCamera m a → NodeCoordRange m sizes a → checkNode sizes (readNode m a) = some .coordRange)
    ∧ (¬ NodeBadCamera m a → ¬ NodeCoordRange m sizes a → checkNode sizes (readNode m a) = none) := by
  by_cases h : hasSecond m a
  · simp only [readNode_of_second h, checkNode_pair, NodeBadCamera, NodeCoordRange, h, true_and, Bool.or_eq_true, outsideFrame_iff,
      BitVec.toNat_inj]
    split_ifs with h1 h2 h3 <;> tauto
  · simp only [readNode_of_single h, checkNode_single, NodeBadCamera, NodeCoordRange, h, false_and, or_false, outsideFrame_iff]
    split_ifs with h1 h2 <;> tauto

/-! ### Block records -/

theorem readBlock_of_second (h : hasSecond m a) : readBlock m a =
    { p := (m.read a).toNat, s := some (m.read (a + 1)).toNat, w00 := m.read16 (a + 4), w10 := m.read16 (a + 6)
      w01 := m.read16 (a + 8), w11 := m.read16 (a + 10) } := by
  unfold hasSecond at h
  rw [readBlock, if_pos h]

theorem readBlock_of_single (h : ¬ hasSecond m a) : readBlock m a =
    { p := (m.read a).toNat, s := none, w00 := m.read16 (a + 4), w10 := m.read16 (a + 6)
      w01 := m.read16 (a + 8), w11 := m.read16 (a + 10) } := by
  unfold hasSecond at h
  rw [readBlock, if_neg h]

theorem toNat_eq_camNone {b : Byte} : b.toNat = camNone ↔ b = 255 :=
  ⟨fun h => BitVec.eq_of_toNat_eq h, fun h => by rw [h]; rfl⟩

theorem readBlock_badCamera : (readBlock m a).badCamera = true ↔ BlockBadCamera m a := by
  by_cases h : hasSecond m a
  · simp only [readBlock_of_second h, BlockRec.badCamera, BlockBadCamera, h, true_and, Bool.or_eq_true, decide_eq_true_eq,
      ne_eq, toNat_eq_camNone]
  · simp only [readBlock_of_single h, BlockRec.badCamera, BlockBadCamera, h, false_and, or_false, Bool.or_false,
      decide_eq_true_eq, ne_eq, toNat_eq_camNone]

theorem readBlock_badPair : (readBlock m a).badPair = true ↔ BlockBadPair m a := by
  by_cases h : hasSecond m a
  · simp only [readBlock_of_second h, BlockRec.badPair, BlockBadPair, adjacent, h, true_and, Bool.or_eq_true,
      decide_eq_true_eq, toNat_eq_camNone, BitVec.toNat_inj, Bool.not_eq_true', decide_eq_false_iff_not, not_or, or_assoc,
      ne_eq]
  · simp only [readBlock_of_single h, BlockRec.badPair, BlockBadPair, h, false_and, Bool.false_eq_true]

/-- An entry of a node names the camera (R63). -/
theorem node_entry_isSome {c nx ny : Nat} : ((m.node g nx ny).entry c).isSome = true ↔ nodeNames m g c nx ny := by
  have place : nodeNames m g c nx ny ↔ (m.read (g.recordByte (g.nodeRecord nx ny))).toNat = c
      ∨ hasSecond m (g.recordByte (g.nodeRecord nx ny)) ∧ (m.read (g.recordByte (g.nodeRecord nx ny) + 1)).toNat = c :=
    ⟨fun ⟨_, hx, h⟩ => by subst hx; exact h, fun h => ⟨_, rfl, h⟩⟩
  rw [place, Memory.node]
  by_cases h : hasSecond m (g.recordByte (g.nodeRecord nx ny))
  · rw [readNode_of_second h, NodeRec.entry]
    split_ifs with hc <;> simp_all [Option.isSome_filter]
  · rw [readNode_of_single h, NodeRec.entry]
    split_ifs with hc <;> simp_all

theorem namedAtAll_eq_false {bx byy c : Nat} : namedAtAll (m.corners g bx byy) c = false ↔ cornerMisses m g bx byy c := by
  have all : namedAtAll (m.corners g bx byy) c = true ↔ nodeNames m g c bx byy ∧ nodeNames m g c (bx + 1) byy
      ∧ nodeNames m g c bx (byy + 1) ∧ nodeNames m g c (bx + 1) (byy + 1) := by
    simp only [namedAtAll, Memory.corners, List.all_cons, List.all_nil, Bool.and_true, Bool.and_eq_true, node_entry_isSome]
  rw [← Bool.not_eq_true, all]
  constructor
  · intro h
    by_contra hnone
    have names (dx dy : Nat) (hx : dx ≤ 1) (hy : dy ≤ 1) : nodeNames m g c (bx + dx) (byy + dy) :=
      by_contra fun hmiss => hnone ⟨dx, dy, hx, hy, hmiss⟩
    exact h ⟨names 0 0 (by omega) (by omega), names 1 0 (by omega) (by omega), names 0 1 (by omega) (by omega),
      names 1 1 (by omega) (by omega)⟩
  · rintro ⟨dx, dy, hx, hy, hmiss⟩ ⟨h00, h10, h01, h11⟩
    interval_cases dx <;> interval_cases dy
    · exact hmiss h00
    · exact hmiss h01
    · exact hmiss h10
    · exact hmiss h11

theorem readBlock_missing {bx byy : Nat} :
    (readBlock m a).missing (m.corners g bx byy) = true ↔ BlockMissing m g a bx byy := by
  by_cases h : hasSecond m a
  · simp only [readBlock_of_second h, BlockRec.missing, BlockMissing, h, true_and, Bool.or_eq_true, Bool.and_eq_true,
      decide_eq_true_eq, ne_eq, toNat_eq_camNone, Bool.not_eq_true', namedAtAll_eq_false]
  · simp only [readBlock_of_single h, BlockRec.missing, BlockMissing, h, false_and, or_false, Bool.or_false, Bool.and_eq_true,
      decide_eq_true_eq, ne_eq, toNat_eq_camNone, Bool.not_eq_true', namedAtAll_eq_false]

theorem readBlock_badWeight : (readBlock m a).badWeight = true ↔ BlockWeightRange m a := by
  by_cases h : hasSecond m a
  · simp only [readBlock_of_second h, BlockRec.badWeight, BlockWeightRange, h, true_and, Option.isSome_some, Bool.true_and,
      decide_eq_true_eq]
    constructor
    · rintro (hw | hw | hw | hw)
      · exact ⟨0, by omega, hw⟩
      · exact ⟨1, by omega, hw⟩
      · exact ⟨2, by omega, hw⟩
      · exact ⟨3, by omega, hw⟩
    · rintro ⟨k, hk, hw⟩
      interval_cases k
      · exact .inl hw
      · exact .inr (.inl hw)
      · exact .inr (.inr (.inl hw))
      · exact .inr (.inr (.inr hw))
  · simp only [readBlock_of_single h, BlockRec.badWeight, BlockWeightRange, h, false_and, Option.isSome_none, Bool.false_and,
      Bool.false_eq_true]

/-! ### The record of an index -/

theorem checkRecord_node {k : Nat} (hk : k < (g.bw + 1) * (g.bh + 1)) :
    checkRecord m g sizes k = checkNode sizes (readNode m ((g.base + k) * 16)) := if_pos hk

theorem checkRecord_block {k : Nat} (hk : (g.bw + 1) * (g.bh + 1) ≤ k) :
    checkRecord m g sizes k = checkBlock (readBlock m ((g.base + k) * 16))
      (m.corners g ((k - (g.bw + 1) * (g.bh + 1)) % g.bw) ((k - (g.bw + 1) * (g.bh + 1)) / g.bw)) :=
  if_neg (Nat.not_lt.2 hk)

/-- Every record is judged by the table of R68. -/
theorem recordIsJudged (m : Memory) (g : GridShape) (sizes : Vector (Nat × Nat) 4) (k nodes a : Nat) :
    RecordIsJudged m g sizes k nodes a := by
  rintro rfl rfl
  refine ⟨fun hk => ?_, fun bx byy hk hx hy => ?_⟩
  · rw [checkRecord_node hk]
    exact checkNode_judges
  · rw [checkRecord_block hk, ← hx, ← hy]
    simp only [checkBlock, ← readBlock_badCamera, ← readBlock_badPair, ← readBlock_missing, ← readBlock_badWeight]
    refine ⟨fun h1 => if_pos h1, fun h1 h2 => ?_, fun h1 h2 h3 => ?_, fun h1 h2 h3 h4 => ?_, fun h1 h2 h3 h4 => ?_⟩
    · rw [if_neg h1, if_pos h2]
    · rw [if_neg h1, if_neg h2, if_pos h3]
    · rw [if_neg h1, if_neg h2, if_neg h3, if_pos h4]
    · rw [if_neg h1, if_neg h2, if_neg h3, if_neg h4]

end

end Sys2Proof.Machine
end

