-- ==== Sys2Proof/Proofs/GridSets.lean ====
section
/-! The grid sets' commands and the completion of a check (R61, R65 to R71). -/

namespace Sys2Proof.Machine

open Host (Outcome)

section
variable {s : State} {i : Fin 32} {g : GridShape}

/-! ### GRID_OPEN (R65) -/

/-- First fit passes over the extents that are too short. -/
theorem takeCells_append {size : Nat} {l₁ : List Extent} (h : ∀ x ∈ l₁, x.len < size) (l : List Extent) :
    takeCells size (l₁ ++ l) = (takeCells size l).map fun r => (r.1, l₁ ++ r.2) := by
  induction l₁ with
  | nil => simp
  | cons x l₁ ih =>
    obtain ⟨hx, hl₁⟩ := List.forall_mem_cons.1 h
    rw [List.cons_append, takeCells_cons, if_neg (Nat.not_le.2 hx), ih hl₁, Option.map_map]
    rfl

theorem takeCells_eq_none {size : Nat} {l : List Extent} (h : ∀ x ∈ l, x.len < size) : takeCells size l = none := by
  have := takeCells_append h []
  rwa [List.append_nil] at this

theorem takeCells_first_longer {size : Nat} {l₁ l₂ : List Extent} {e : Extent} (h : ∀ x ∈ l₁, x.len < size)
    (he : size < e.len) :
    takeCells size (l₁ ++ e :: l₂) = some (e.base, l₁ ++ Extent.mk (e.base + size) (e.len - size) :: l₂) := by
  rw [takeCells_append h, takeCells_cons, if_pos he.le, if_neg he.ne']
  rfl

theorem takeCells_first_exact {size : Nat} {l₁ l₂ : List Extent} {e : Extent} (h : ∀ x ∈ l₁, x.len < size)
    (he : e.len = size) : takeCells size (l₁ ++ e :: l₂) = some (e.base, l₁ ++ l₂) := by
  rw [takeCells_append h, takeCells_cons, if_pos he.ge, if_pos he]
  rfl

theorem judgeGridOpen_malformed {p : Port} {id bw bh : Nat} (h : 31 < id ∨ bw < 1 ∨ 80 < bw ∨ bh < 1 ∨ 45 < bh) :
    judgeGridOpen p id bw bh s = .refuse .badArg := by
  unfold judgeGridOpen
  by_cases hid : 31 < id
  · rw [index_of_ge hid]
  · rw [index, dif_pos (by omega)]
    exact if_pos (h.resolve_left hid)

section
variable {p : Port} {bw bh : Nat} (h1 : 1 ≤ bw) (h2 : bw ≤ 80) (h3 : 1 ≤ bh) (h4 : bh ≤ 45)
include h1 h2 h3 h4

theorem judgeGridOpen_present (hi : s.gs.sets[i] ≠ .absent) : judgeGridOpen p i bw bh s = .refuse .wrongState := by
  simp only [judgeGridOpen, index_val]
  rw [if_neg (by omega), if_pos hi]

theorem judgeGridOpen_noSpace (hi : s.gs.sets[i] = .absent)
    (ht : takeCells ((bw + 1) * (bh + 1) + bw * bh) s.gs.free = none) :
    judgeGridOpen p i bw bh s = .refuse .noSpace := by
  simp only [judgeGridOpen, index_val, ht]
  rw [if_neg (by omega), if_neg (not_not.2 hi)]

theorem judgeGridOpen_fits (hi : s.gs.sets[i] = .absent) {base : Nat} {free : List Extent}
    (ht : takeCells ((bw + 1) * (bh + 1) + bw * bh) s.gs.free = some (base, free)) :
    judgeGridOpen p i bw bh s = .take .ok (.gridOpened base ((bw + 1) * (bh + 1) + bw * bh))
      { s with gs := { s.gs with
          free := free, sets := s.gs.sets.set i (.held { base := base, bw := bw, bh := bh } (.opened p 0)) } } := by
  simp only [judgeGridOpen, index_val, ht]
  rw [if_neg (by omega), if_neg (not_not.2 hi)]

end

end

/-- Settles O26: first fit is said by what stands before the extent taken. -/
theorem gridOpenTakesCells : Obligations.GridOpenTakesCells := by
  refine ⟨fun s h id bw bh hs hbad => command_sound_refuse (judge := judgeGridOpen h.port id bw bh) hs
    (judgeGridOpen_malformed hbad), fun s h i bw bh hs h1 h2 h3 h4 =>
    ⟨fun hi => command_sound_refuse (judge := judgeGridOpen h.port i bw bh) hs (judgeGridOpen_present h1 h2 h3 h4 hi),
      fun hi => ⟨fun hshort => command_sound_refuse (judge := judgeGridOpen h.port i bw bh) hs
          (judgeGridOpen_noSpace h1 h2 h3 h4 hi (takeCells_eq_none hshort)),
        fun l₁ l₂ e hfree hfirst => ⟨fun he => ?_, fun he => ?_⟩⟩⟩⟩
  · exact command_sound_take (judge := judgeGridOpen h.port i bw bh) hs
      (judgeGridOpen_fits h1 h2 h3 h4 hi (hfree ▸ takeCells_first_longer hfirst he))
  · exact command_sound_take (judge := judgeGridOpen h.port i bw bh) hs
      (judgeGridOpen_fits h1 h2 h3 h4 hi (hfree ▸ takeCells_first_exact hfirst he))

/-! ### GRID_WRITE (R66) -/

theorem judgeGridWrite_opened {s : State} {i : Fin 32} {g : GridShape} {p : Port} {count m : Nat} {bs : List Byte}
    (hlen : bs.length = 16 * m) (h1 : 1 ≤ m) (h15 : m ≤ 15) (hi : s.gs.sets[i] = .held g (.opened p count)) :
    judgeGridWrite p i bs s
      = if g.size < count + m then .refuse .overflow
        else .take .ok (.gridWritten (count + m)) { s with gs := { s.gs with
          mem := s.gs.mem.writeBytes ((g.base + count) * 16) bs
          sets := s.gs.sets.set i (.held g (.opened p (count + m))) } } := by
  have records : recordCount bs.length = some m := by
    rw [recordCount, hlen, Nat.mul_mod_right, if_pos rfl, Nat.mul_div_cancel_left _ (by omega)]
  simp only [judgeGridWrite, index_val, records, hi, GridPhase.owner]
  rw [if_neg (by omega), if_neg (Option.some_ne_none p), if_neg (not_not.2 rfl)]
  rfl

/-- Settles O27: the records are whole cells after the ones written. -/
theorem gridWriteAppends : Obligations.GridWriteAppends := by
  intro s h i g count m bs harg hlen hgot hm h1 h15 hi
  have whole : framed h (decide (h.len.toNat ≤ bs.length)) = true := by
    simp only [framed, hlen, hgot, Bool.and_eq_true, decide_eq_true_eq]
    omega
  have judged : exec (.gridWrite h bs) s = answer s h 0x41 (judgeGridWrite h.port i bs s) := by
    show takeCommand _ _ _ _ _ = _
    rw [takeCommand, if_neg (by omega), if_pos whole, hlen, List.take_length, harg]
  rw [judgeGridWrite_opened hm h1 h15 hi] at judged
  refine ⟨fun hover => ?_, fun hfit => ?_⟩
  · rwa [if_pos hover] at judged
  · rw [if_neg (Nat.not_lt.2 hfit)] at judged
    refine ⟨_, judged, fun j hj => ?_, fun x hx => ?_, ?_⟩
    · rw [State.respond_gs]
      refine (Memory.read_writeBytes s.gs.mem _ bs _).trans ?_
      rw [if_pos (by omega), Nat.add_sub_cancel_left]
    · rw [State.respond_gs]
      exact (Memory.read_writeBytes s.gs.mem _ bs _).trans (if_neg (by omega))
    · cases h.port <;> rfl

/-! ### GRID_FINISH and GRID_REOPEN (R67, R70) -/

section
variable {s : State} {i : Fin 32} {g : GridShape} {p : Port}

/-- Both refuse another port's set, whatever its phase. -/
theorem judgeGridFinish_reopen_of_other {ph : GridPhase} (hi : s.gs.sets[i] = .held g ph) (ho : ph.owner = some (other p)) :
    judgeGridFinish p i s = .refuse .notOwner ∧ judgeGridReopen p i s = .refuse .notOwner := by
  have apart : some (other p) ≠ some p := by cases p <;> decide
  simp only [judgeGridFinish, judgeGridReopen, index_val, hi, ho]
  rw [if_neg (Option.some_ne_none _), if_neg (Option.some_ne_none _), if_pos apart, if_pos apart]
  exact ⟨rfl, rfl⟩

theorem judgeGridFinish_opened {count : Nat} (hi : s.gs.sets[i] = .held g (.opened p count)) :
    judgeGridFinish p i s = .take .accepted .empty (s.setGrid i (.held g (.checking p count s.camSizes))) := by
  simp only [judgeGridFinish, index_val, hi]
  exact (if_neg (Option.some_ne_none p)).trans (if_neg (not_not.2 rfl))

theorem judgeGridReopen_rejected {count k : Nat} {c : GridCause} (hi : s.gs.sets[i] = .held g (.rejected p count k c)) :
    judgeGridReopen p i s = .take .ok .empty (s.setGrid i (.held g (.opened p 0))) := by
  simp only [judgeGridReopen, index_val, hi]
  exact (if_neg (Option.some_ne_none p)).trans (if_neg (not_not.2 rfl))

/-- Neither takes an ABSENT or VALID set, nor the port's own while it is CHECKING. -/
theorem judgeGridFinish_reopen_of_settled {count : Nat} (hi : s.gs.sets[i] = .absent
      ∨ (∃ b u, s.gs.sets[i] = .held g (.valid b u)) ∨ ∃ z, s.gs.sets[i] = .held g (.checking p count z)) :
    judgeGridFinish p i s = .refuse .wrongState ∧ judgeGridReopen p i s = .refuse .wrongState := by
  obtain hi | ⟨b, u, hi⟩ | ⟨z, hi⟩ := hi
  · simp only [judgeGridFinish, judgeGridReopen, index_val, hi, and_self]
  · simp only [judgeGridFinish, judgeGridReopen, index_val, hi, GridPhase.owner, if_true, and_self]
  · simp only [judgeGridFinish, judgeGridReopen, index_val, hi, GridPhase.owner, ite_self, ne_eq, not_true_eq_false, if_false,
      and_self]

theorem judgeGridReopen_opened {count : Nat} (hi : s.gs.sets[i] = .held g (.opened p count)) :
    judgeGridReopen p i s = .refuse .wrongState := by
  simp only [judgeGridReopen, index_val, hi, GridPhase.owner, ne_eq, not_true_eq_false, if_false, ite_self]

theorem judgeGridFinish_rejected {count k : Nat} {c : GridCause} (hi : s.gs.sets[i] = .held g (.rejected p count k c)) :
    judgeGridFinish p i s = .refuse .wrongState := by
  simp only [judgeGridFinish, index_val, hi, GridPhase.owner, ne_eq, not_true_eq_false, if_false, ite_self]

/-! ### The completion of a check (R69) -/

/-- The search passes over records that do not fail. -/
theorem checkFrom_eq {m : Memory} {sizes : Vector (Nat × Nat) 4} {left k : Nat}
    (h : ∀ j, j < left → checkRecord m g sizes (k + j) = none) : checkFrom m g sizes left k = none := by
  induction left generalizing k with
  | zero => rfl
  | succ left ih =>
    rw [checkFrom, show checkRecord m g sizes k = none from h 0 (by omega)]
    exact ih fun j hj => by rw [Nat.add_assoc, Nat.add_comm 1]; exact h (j + 1) (by omega)

theorem checkFrom_first {m : Memory} {sizes : Vector (Nat × Nat) 4} {c : GridCause} {left k j : Nat} (hj : j < left)
    (hc : checkRecord m g sizes (k + j) = some c) (hfirst : ∀ x, x < j → checkRecord m g sizes (k + x) = none) :
    checkFrom m g sizes left k = some (k + j, c) := by
  induction left generalizing k j with
  | zero => omega
  | succ left ih =>
    rw [checkFrom]
    cases j with
    | zero => rw [show checkRecord m g sizes k = some c from hc]; rfl
    | succ j =>
      rw [show checkRecord m g sizes k = none from hfirst 0 (by omega)]
      have step (x : Nat) : k + (x + 1) = k + 1 + x := by omega
      rw [step j]
      exact ih (by omega) (step j ▸ hc) fun x hx => step x ▸ hfirst (x + 1) (by omega)

theorem State.completeCheck_of_fail {count k : Nat} {sizes : Vector (Nat × Nat) 4} {c : GridCause}
    (hi : s.gs.sets[i] = .held g (.checking p count sizes)) (hc : checkSet s.gs.mem g sizes count = some (k, c)) :
    s.completeCheck i
      = (s.setGrid i (.held g (.rejected p count k c))).notifyOwner p .gridRejected i (c.code * 65536 + k) := by
  simp only [completeCheck, hi, hc]

theorem State.completeCheck_of_pass {count : Nat} {sizes : Vector (Nat × Nat) 4}
    (hi : s.gs.sets[i] = .held g (.checking p count sizes)) (hc : checkSet s.gs.mem g sizes count = none) :
    s.completeCheck i = (s.setGrid i (.held g (.valid 0 false))).notifyOwner p .gridValid i g.size := by
  simp only [completeCheck, hi, hc]

end

/-- Settles O28: the commands by owner and phase, the records by `recordIsJudged`, the completion by the first failure. -/
theorem gridSetsAreChecked : Obligations.GridSetsAreChecked := by
  refine ⟨fun s h i g count hs => ⟨fun hi => ?_, fun k c hi => ?_, fun hi => ?_, fun hi => ?_, fun hi => ?_, fun k c hi => ?_⟩,
    recordIsJudged, fun s i g p count sizes hi => ⟨fun hshort => ?_, fun hfull hpass => ?_, fun k c hfull hk hc hfirst => ?_⟩⟩
  · exact command_sound_take (judge := judgeGridFinish h.port i) hs (judgeGridFinish_opened hi)
  · exact command_sound_take (judge := judgeGridReopen h.port i) hs (judgeGridReopen_rejected hi)
  · have refused : judgeGridFinish h.port i s = .refuse .notOwner ∧ judgeGridReopen h.port i s = .refuse .notOwner := by
      obtain hi | ⟨z, hi⟩ | ⟨k, c, hi⟩ := hi
      · exact judgeGridFinish_reopen_of_other hi rfl
      · exact judgeGridFinish_reopen_of_other hi rfl
      · exact judgeGridFinish_reopen_of_other hi rfl
    exact ⟨command_sound_refuse (judge := judgeGridFinish h.port i) hs refused.1,
      command_sound_refuse (judge := judgeGridReopen h.port i) hs refused.2⟩
  · obtain ⟨finish, reopen⟩ := judgeGridFinish_reopen_of_settled hi
    exact ⟨command_sound_refuse (judge := judgeGridFinish h.port i) hs finish,
      command_sound_refuse (judge := judgeGridReopen h.port i) hs reopen⟩
  · exact command_sound_refuse (judge := judgeGridReopen h.port i) hs (judgeGridReopen_opened hi)
  · exact command_sound_refuse (judge := judgeGridFinish h.port i) hs (judgeGridFinish_rejected hi)
  · exact congrArg Outcome.next (State.completeCheck_of_fail hi (if_pos hshort))
  · refine congrArg Outcome.next (State.completeCheck_of_pass hi ((if_neg (not_not.2 hfull)).trans (checkFrom_eq fun j hj => ?_)))
    rw [Nat.zero_add]
    exact hpass j hj
  · refine congrArg Outcome.next (State.completeCheck_of_fail hi ((if_neg (not_not.2 hfull)).trans ?_))
    have first := checkFrom_first (m := s.gs.mem) (g := g) (sizes := sizes) (k := 0) hk (by rwa [Nat.zero_add])
      (fun x hx => by rw [Nat.zero_add]; exact hfirst x hx)
    rwa [Nat.zero_add] at first

/-! ### GRID_DELETE (R71) -/

section
variable {s : State} {h : Hdr} {i : Fin 32} {g : GridShape}

theorem judgeGridDelete_valid {b : Nat} {u : Bool} (hi : s.gs.sets[i] = .held g (.valid b u)) :
    judgeGridDelete h i s = guardGen h (judgeDeleteValid i g b u) s := by
  simp only [judgeGridDelete, index_val, hi]

theorem judgeGridDelete_owned {ph : GridPhase} {p : Port} (hi : s.gs.sets[i] = .held g ph) (ho : ph.owner = some p) :
    judgeGridDelete h i s = if p ≠ h.port then .refuse .notOwner else .take .ok .empty (s.deleteGrid i g) := by
  cases ph with
  | valid => cases ho
  | _ =>
    obtain rfl := Option.some.inj ho
    simp only [judgeGridDelete, index_val, hi, GridPhase.owner, ne_eq, Option.some.injEq]

end

/-- Settles O29: the guard stands before a VALID set alone; the free list by `freeCells_spec`. -/
theorem gridDeleteFrees : Obligations.GridDeleteFrees := by
  refine ⟨fun s h i hs => ⟨fun hi => ?_, fun g => ⟨fun b u hi => ⟨fun hgen => ?_, fun hgen hmax => ?_, fun ⟨hgen, hmax⟩ hbusy => ?_⟩,
    fun hi ⟨hgen, hmax⟩ => ?_, fun p count hi => ?_⟩⟩, fun l e ho hpos he hd => ?_⟩
  · refine command_sound_refuse (judge := judgeGridDelete h i) hs ?_
    simp only [judgeGridDelete, index_val, hi]
  · refine command_sound_refuse (judge := judgeGridDelete h i) hs ((judgeGridDelete_valid hi).trans ?_)
    rw [guardGen, if_pos hgen]
  · refine command_sound_refuse (judge := judgeGridDelete h i) hs ((judgeGridDelete_valid hi).trans ?_)
    rw [guardGen, if_neg (not_not.2 hgen)]
    exact if_pos hmax
  · refine command_sound_refuse (judge := judgeGridDelete h i) hs ((judgeGridDelete_valid hi).trans ?_)
    rw [guardGen, if_neg (not_not.2 hgen), if_neg hmax, judgeDeleteValid, if_pos hbusy]
  · refine command_sound_take (judge := judgeGridDelete h i) hs ((judgeGridDelete_valid hi).trans ?_)
    rw [guardGen, if_neg (not_not.2 hgen), if_neg hmax, judgeDeleteValid, if_neg (by simp)]
    rfl
  · have judged : judgeGridDelete h i s = if p ≠ h.port then .refuse .notOwner else .take .ok .empty (s.deleteGrid i g) := by
      obtain hi | ⟨z, hi⟩ | ⟨k, c, hi⟩ := hi
      · exact judgeGridDelete_owned hi rfl
      · exact judgeGridDelete_owned hi rfl
      · exact judgeGridDelete_owned hi rfl
    refine ⟨fun hp => command_sound_take (judge := judgeGridDelete h i) hs (judged.trans (if_neg (not_not.2 hp))),
      fun hp => command_sound_refuse (judge := judgeGridDelete h i) hs (judged.trans (if_pos ?_))⟩
    rw [hp]
    cases h.port <;> decide
  · obtain ⟨⟨hpair, hlen⟩, hsum, hcov⟩ := freeCells_spec he ⟨ho, hpos⟩ hd
    exact ⟨hpair, hlen, hsum, hcov⟩

end Sys2Proof.Machine
end

