-- ==== Sys2Proof/Proofs/Views.lean ====
section
/-! The view catalogue's commands: layouts (R75, R77), views in use (R76, R80, R81) and bindings (R72, R78, R79). -/

namespace Sys2Proof.Machine

open Host (Outcome)

/-! ### Layouts (R75, R77) -/

theorem axisBad_eq_false {pos len limit : Int} :
    axisBad pos len limit = false ↔ 0 ≤ pos ∧ pos % 16 = 0 ∧ 16 ≤ len ∧ len % 16 = 0 ∧ pos + len ≤ limit := by
  rw [axisBad, decide_eq_false_iff_not]
  omega

theorem paneCoordBad_eq_false {v : Int} : paneCoordBad v = false ↔ paneCoord v := by
  rw [paneCoordBad, decide_eq_false_iff_not, paneCoord]
  omega

theorem topPane_eq_some {r : PaneArg} {t : TopPane} : topPane r = some t ↔ paneCoord r.x0 ∧ paneCoord r.y0 ∧ 8 ≤ r.sigma
    ∧ r.sigma ≤ 128 ∧ (r.silhouette = true → paneCoord r.sx ∧ paneCoord r.sy)
    ∧ t = { sil := if r.silhouette then some (r.sx, r.sy) else none, guides := r.guides, markers := r.markers
            x0 := r.x0, y0 := r.y0, sigma := r.sigma.toNat } := by
  have bad : (paneCoordBad r.x0 || paneCoordBad r.y0 || decide (r.sigma < 8 ∨ 128 < r.sigma)
      || (r.silhouette && (paneCoordBad r.sx || paneCoordBad r.sy))) = false ↔ paneCoord r.x0 ∧ paneCoord r.y0 ∧ 8 ≤ r.sigma
      ∧ r.sigma ≤ 128 ∧ (r.silhouette = true → paneCoord r.sx ∧ paneCoord r.sy) := by
    simp only [Bool.or_eq_false_iff, Bool.and_eq_false_imp, paneCoordBad_eq_false, decide_eq_false_iff_not, not_or, not_lt,
      and_assoc]
  unfold topPane
  split
  · rename_i h
    simp only [reduceCtorEq, false_iff]
    rintro ⟨h1, h2, h3, h4, h5, -⟩
    rw [bad.2 ⟨h1, h2, h3, h4, h5⟩] at h
    exact Bool.false_ne_true h
  · rename_i h
    obtain ⟨h1, h2, h3, h4, h5⟩ := bad.1 (Bool.eq_false_of_not_eq_true h)
    rw [Option.some.injEq, eq_comm]
    exact ⟨fun ht => ⟨h1, h2, h3, h4, h5, ht⟩, fun ⟨_, _, _, _, _, ht⟩ => ht⟩

theorem storedPane_iff {r : PaneArg} {p : Pane} : StoredPane r p ↔
    (axisBad r.x r.w 1280 = false ∧ axisBad r.y r.h 720 = false)
      ∧ ∃ t, p = { x := r.x.toNat, y := r.y.toNat, w := r.w.toNat, h := r.h.toNat, top := t, binding := none }
        ∧ (r.tag = some .side ∧ t = none ∧ (r.silhouette = false ∧ r.guides = false ∧ r.markers = false)
          ∨ r.tag = some .top ∧ ∃ u, topPane r = some u ∧ t = some u) := by
  obtain ⟨x, y, w, h, top, binding⟩ := p
  simp only [StoredPane, axisBad_eq_false, Pane.mk.injEq]
  constructor
  · rintro ⟨a1, a2, a3, a4, a5, b1, b2, b3, b4, b5, rfl, rfl, rfl, rfl, rfl, ht⟩
    refine ⟨⟨⟨a1, a2, a3, a4, a5⟩, b1, b2, b3, b4, b5⟩, top, ⟨rfl, rfl, rfl, rfl, rfl, rfl⟩, ?_⟩
    split at ht
    · exact ht.elim
    · obtain ⟨h1, h2, h3, h4⟩ := ht
      exact .inl ⟨‹_›, h4, h1, h2, h3⟩
    · obtain ⟨h1, h2, h3, h4, h5, h6⟩ := ht
      exact .inr ⟨‹_›, _, topPane_eq_some.2 ⟨h1, h2, h3, h4, h5, rfl⟩, h6⟩
  · rintro ⟨⟨⟨a1, a2, a3, a4, a5⟩, b1, b2, b3, b4, b5⟩, t, ⟨rfl, rfl, rfl, rfl, rfl, rfl⟩, ht⟩
    refine ⟨a1, a2, a3, a4, a5, b1, b2, b3, b4, b5, rfl, rfl, rfl, rfl, rfl, ?_⟩
    obtain ⟨htag, rfl, h1, h2, h3⟩ | ⟨htag, u, hu, rfl⟩ := ht
    · rw [htag]
      exact ⟨h1, h2, h3, rfl⟩
    · rw [htag]
      obtain ⟨h1, h2, h3, h4, h5, rfl⟩ := topPane_eq_some.1 hu
      exact ⟨h1, h2, h3, h4, h5, rfl⟩

/-- The record of an operand is its stored pane (R77). -/
theorem paneOf_eq_some {r : PaneArg} {p : Pane} : paneOf r = some p ↔ StoredPane r p := by
  rw [storedPane_iff]
  unfold paneOf
  split
  · rename_i h
    simp only [reduceCtorEq, false_iff]
    rintro ⟨⟨hx, hy⟩, -⟩
    simp [hx, hy] at h
  · rename_i h
    simp only [Bool.or_eq_true, not_or, Bool.not_eq_true] at h
    cases htag : r.tag with
    | none => simp
    | some tag =>
      cases tag with
      | side =>
        by_cases hflags : r.silhouette = false ∧ r.guides = false ∧ r.markers = false
        · obtain ⟨h1, h2, h3⟩ := hflags
          simp [h, h1, h2, h3, eq_comm]
        · have : (r.silhouette || r.guides || r.markers) = true := by
            by_contra hne
            simp only [Bool.not_eq_true, Bool.or_eq_false_iff, and_assoc] at hne
            exact hflags hne
          simp [this, hflags]
      | top =>
        rw [Option.map_eq_some_iff]
        constructor
        · rintro ⟨u, hu, rfl⟩
          exact ⟨h, some u, rfl, .inr ⟨rfl, u, hu, rfl⟩⟩
        · rintro ⟨-, t, rfl, ⟨hside, -⟩ | ⟨-, u, hu, rfl⟩⟩
          · cases hside
          · exact ⟨u, hu, rfl⟩

theorem StoredPane.pos {r : PaneArg} {p : Pane} (h : StoredPane r p) : 0 < p.w ∧ 0 < p.h := by
  obtain ⟨⟨hx, hy⟩, t, rfl, -⟩ := storedPane_iff.1 h
  have := axisBad_eq_false.1 hx
  have := axisBad_eq_false.1 hy
  exact ⟨show 0 < r.w.toNat by omega, show 0 < r.h.toNat by omega⟩

/-- Panes that are not empty share a pixel when their ranges overlap. -/
theorem sharePixel_eq_false {p q : Pane} (hp : 0 < p.w ∧ 0 < p.h) (hq : 0 < q.w ∧ 0 < q.h) :
    sharePixel p q = false ↔ ∀ x y, ¬ (p.on x y ∧ q.on x y) := by
  rw [sharePixel, decide_eq_false_iff_not]
  constructor
  · rintro h x y ⟨⟨h1, h2, h3, h4⟩, h5, h6, h7, h8⟩
    exact h ⟨by omega, by omega, by omega, by omega⟩
  · rintro h ⟨h1, h2, h3, h4⟩
    exact h (max p.x q.x) (max p.y q.y) ⟨⟨by omega, by omega, by omega, by omega⟩, by omega, by omega, by omega, by omega⟩

theorem layoutOf_single {a : PaneArg} {l : List Pane} : layoutOf [a] = some l ↔ ∃ p, StoredPane a p ∧ l = [p] := by
  simp only [layoutOf, Option.map_eq_some_iff, paneOf_eq_some, eq_comm (a := l)]

theorem layoutOf_pair {a b : PaneArg} {l : List Pane} : layoutOf [a, b] = some l ↔
    ∃ p q, StoredPane a p ∧ StoredPane b q ∧ (∀ x y, ¬ (p.on x y ∧ q.on x y)) ∧ l = [p, q] := by
  simp only [layoutOf]
  cases ha : paneOf a with
  | none => simp [← paneOf_eq_some, ha]
  | some p =>
    cases hb : paneOf b with
    | none => simp [← paneOf_eq_some, hb]
    | some q =>
      have apart := sharePixel_eq_false (paneOf_eq_some.1 ha).pos (paneOf_eq_some.1 hb).pos
      simp only [← paneOf_eq_some, ha, hb, Option.some.injEq]
      split
      · rename_i h
        rw [h] at apart
        simp only [reduceCtorEq, false_iff]
        rintro ⟨_, _, rfl, rfl, hxy, -⟩
        exact Bool.false_ne_true (apart.2 hxy).symm
      · rename_i h
        have hxy := apart.1 (Bool.eq_false_of_not_eq_true h)
        rw [Option.some.injEq]
        exact ⟨fun hl => ⟨p, q, rfl, rfl, hxy, hl.symm⟩, fun ⟨_, _, hp, hq, _, hl⟩ => by rw [hl, ← hp, ← hq]⟩

/-- A layout is one or two stored panes with no pixel in common (R77). -/
theorem layoutOf_eq_some {panes : List PaneArg} {l : List Pane} : layoutOf panes = some l ↔
    (panes.length = 1 ∨ panes.length = 2) ∧ List.Forall₂ StoredPane panes l
      ∧ l.Pairwise fun p q => ∀ x y, ¬ (p.on x y ∧ q.on x y) := by
  match panes with
  | [] => simp [layoutOf]
  | [a] =>
    rw [layoutOf_single]
    constructor
    · rintro ⟨p, hp, rfl⟩
      exact ⟨.inl rfl, .cons hp .nil, List.pairwise_singleton _ _⟩
    · rintro ⟨-, _ | ⟨hp, _ | _⟩, -⟩
      exact ⟨_, hp, rfl⟩
  | [a, b] =>
    rw [layoutOf_pair]
    constructor
    · rintro ⟨p, q, hp, hq, hxy, rfl⟩
      exact ⟨.inr rfl, .cons hp (.cons hq .nil), List.pairwise_pair.2 hxy⟩
    · rintro ⟨-, _ | ⟨hp, _ | ⟨hq, _ | _⟩⟩, hxy⟩
      exact ⟨_, _, hp, hq, List.pairwise_pair.1 hxy, rfl⟩
  | a :: b :: c :: t => simp [layoutOf]

/-! ### Views in use, VIEW_DEFINE, VIEW_ERASE and DEFAULT_VIEW (R76, R77, R80, R81) -/

section
variable {s : State} {v : Fin 16}

theorem State.viewInUse_iff :
    s.viewInUse v = true ↔ (∃ e ∈ s.ca.stack, e.view = v) ∨ s.vc.dflt = some v ∨ s.ca.reverseView = some v := by
  simp only [viewInUse, Arbiter.claims, Bool.or_eq_true, List.any_eq_true, decide_eq_true_eq, or_assoc]

/-- Removing bindings moves the bind counts alone. -/
theorem State.unbindAll_eq (s : State) (l : List Pane) :
    s.unbindAll l = { s with gs := { s.gs with sets := (s.unbindAll l).gs.sets } } := by
  induction l generalizing s with
  | nil => rfl
  | cons p l ih =>
    have head : s.unbind p.binding = { s with gs := { s.gs with sets := (s.unbind p.binding).gs.sets } } := by
      cases p.binding <;> rfl
    show (s.unbind p.binding).unbindAll l = { s with gs := { s.gs with sets := ((s.unbind p.binding).unbindAll l).gs.sets } }
    rw [ih, head]

theorem Grid.changeBinds_changeBinds (f f' : Nat → Nat) (g : Grid) :
    (g.changeBinds f).changeBinds f' = g.changeBinds fun n => f' (f n) := by
  cases g with
  | absent => rfl
  | held sh ph => cases ph <;> rfl

theorem Grid.changeBinds_id (g : Grid) : (g.changeBinds fun n => n) = g := by
  cases g with
  | absent => rfl
  | held sh ph => cases ph <;> rfl

theorem Grid.changeBinds_of_not_valid {f : Nat → Nat} {g : Grid} (h : ∀ sh b u, g ≠ .held sh (.valid b u)) :
    g.changeBinds f = g := by
  cases g with
  | absent => rfl
  | held sh ph =>
    cases ph with
    | valid b u => exact absurd rfl (h sh b u)
    | _ => rfl

theorem State.unbind_sets (s : State) (b : Option (Fin 32)) (i : Fin 32) :
    (s.unbind b).gs.sets[i] = s.gs.sets[i].changeBinds (· - if b = some i then 1 else 0) := by
  cases b with
  | none => simp only [unbind, reduceCtorEq, if_false, Nat.sub_zero, Grid.changeBinds_id]
  | some k =>
    rw [unbind, changeBinds, setGrid_sets]
    by_cases h : i = k
    · subst h
      simp
    · simp [h, Ne.symm h, Grid.changeBinds_id]

/-- Each set loses as many bindings as the panes have of it (R72). -/
theorem State.unbindAll_sets (s : State) (l : List Pane) (i : Fin 32) :
    (s.unbindAll l).gs.sets[i] = s.gs.sets[i].changeBinds (· - bindsIn i l) := by
  induction l generalizing s with
  | nil => exact (Grid.changeBinds_id _).symm
  | cons p l ih =>
    show ((s.unbind p.binding).unbindAll l).gs.sets[i] = _
    rw [ih, unbind_sets, Grid.changeBinds_changeBinds, bindsIn_cons]
    simp only [Nat.sub_sub, Nat.add_comm]

theorem State.unbindAll_of_unbound {l : List Pane} (h : ∀ p ∈ l, p.binding = none) : s.unbindAll l = s := by
  induction l with
  | nil => rfl
  | cons p l ih =>
    obtain ⟨hp, hl⟩ := List.forall_mem_cons.1 h
    show (s.unbind p.binding).unbindAll l = s
    rw [hp]
    exact ih hl

/-- The sets after the bindings of `l` are removed, said entry by entry. -/
theorem State.unbindAll_of_entries {l : List Pane} {gone : Vector Grid 32} (h : ∀ i : Fin 32,
      (∀ g b u, s.gs.sets[i] = .held g (.valid b u) →
          gone[i] = .held g (.valid (b - l.countP (fun p : Pane => decide (p.binding = some i))) u))
        ∧ ((∀ g b u, s.gs.sets[i] ≠ .held g (.valid b u)) → gone[i] = s.gs.sets[i])) :
    s.unbindAll l = { s with gs := { s.gs with sets := gone } } := by
  have same : (s.unbindAll l).gs.sets = gone := by
    refine Vector.ext fun k hk => ?_
    obtain ⟨hvalid, hother⟩ := h ⟨k, hk⟩
    refine (s.unbindAll_sets l ⟨k, hk⟩).trans ?_
    by_cases hv : ∃ g b u, s.gs.sets[(⟨k, hk⟩ : Fin 32)] = .held g (.valid b u)
    · obtain ⟨g, b, u, hv⟩ := hv
      rw [hv]
      exact (hvalid g b u hv).symm
    · have hn (g : GridShape) (b : Nat) (u : Bool) : s.gs.sets[(⟨k, hk⟩ : Fin 32)] ≠ .held g (.valid b u) :=
        fun e => hv ⟨g, b, u, e⟩
      exact (Grid.changeBinds_of_not_valid hn).trans (hother hn).symm
  rw [unbindAll_eq, same]

theorem judgeViewDefine_layout {panes : List PaneArg} {l : List Pane} (hl : layoutOf panes = some l) :
    judgeViewDefine v panes s = if s.viewInUse v then .refuse .inUse
      else .take .ok .empty ((s.unbindAll (s.panes v)).setView v (some l)) := by
  simp only [judgeViewDefine, index_val, hl]

theorem judgeViewDefine_free {panes : List PaneArg} {l : List Pane} (hl : layoutOf panes = some l) (hu : s.viewInUse v = false) :
    judgeViewDefine v panes s = .take .ok .empty ((s.unbindAll (s.panes v)).setView v (some l)) := by
  rw [judgeViewDefine_layout hl, hu]
  rfl

theorem judgeViewErase_defined {l : List Pane} (hv : s.vc.views[v] = some l) :
    judgeViewErase v s = if s.viewInUse v then .refuse .inUse else .take .ok .empty ((s.unbindAll l).setView v none) := by
  simp only [judgeViewErase, index_val, hv]

theorem judgeViewErase_free {l : List Pane} (hv : s.vc.views[v] = some l) (hu : s.viewInUse v = false) :
    judgeViewErase v s = .take .ok .empty ((s.unbindAll l).setView v none) := by
  rw [judgeViewErase_defined hv, hu]
  rfl

theorem State.panes_unbound (h : ∀ old, s.vc.views[v] = some old → ∀ p ∈ old, p.binding = none) :
    ∀ p ∈ s.panes v, p.binding = none := by
  cases hv : s.vc.views[v] with
  | none => simp [panes, hv]
  | some old => rw [panes_of_views hv]; exact h old hv

end

/-- Settles O30: the layout by its panes, the commands by the view's use and its former panes' bindings. -/
theorem viewsInUseStay : Obligations.ViewsInUseStay := by
  refine ⟨fun panes l => layoutOf_eq_some, fun s v => State.viewInUse_iff, fun s h v hs hg => ⟨fun panes hl => ?_,
    fun panes l hl hu => ?_, fun panes l hl hu hold => ?_, fun old gone hv hu hgone => ⟨fun panes l hl => ?_, ?_⟩, fun hv => ?_,
    fun l hv hu => ?_, fun l hv hu hold => ?_, guarded_sound (judge := judgeDefaultView none) hs hg rfl, fun hv => ?_,
    fun l hv => ?_⟩⟩
  · refine guarded_sound_refuse (judge := judgeViewDefine v panes) hs hg ?_
    simp only [judgeViewDefine, index_val, hl]
  · exact guarded_sound_refuse (judge := judgeViewDefine v panes) hs hg ((judgeViewDefine_layout hl).trans (if_pos hu))
  · have taken := guarded_sound (judge := judgeViewDefine v panes) (code := 0x48) hs hg (judgeViewDefine_free hl hu)
    rw [State.unbindAll_of_unbound (State.panes_unbound hold)] at taken
    exact taken
  · have taken := guarded_sound (judge := judgeViewDefine v panes) (code := 0x48) hs hg (judgeViewDefine_free hl hu)
    rw [State.panes_of_views hv, State.unbindAll_of_entries hgone] at taken
    exact taken
  · have taken := guarded_sound (judge := judgeViewErase v) (code := 0x4B) hs hg (judgeViewErase_free hv hu)
    rw [State.unbindAll_of_entries hgone] at taken
    exact taken
  · refine guarded_sound_refuse (judge := judgeViewErase v) hs hg ?_
    simp only [judgeViewErase, index_val, hv]
  · exact guarded_sound_refuse (judge := judgeViewErase v) hs hg ((judgeViewErase_defined hv).trans (if_pos hu))
  · have taken := guarded_sound (judge := judgeViewErase v) (code := 0x4B) hs hg (judgeViewErase_free hv hu)
    rw [State.unbindAll_of_unbound hold] at taken
    exact taken
  · refine guarded_sound_refuse (judge := judgeDefaultView (some v.val)) hs hg ?_
    simp [judgeDefaultView, hv]
  · refine guarded_sound (judge := judgeDefaultView (some v.val)) (u := s.setDefault (some v)) hs hg ?_
    simp [judgeDefaultView, hv]

/-! ### VIEW_BIND and VIEW_UNBIND (R72, R78, R79) -/

section
variable {s : State} {v : Fin 16} {i : Fin 32} {l : List Pane} {k : Nat} {p : Pane} {g : GridShape} {binds : Nat} {inUse : Bool}
variable (hv : s.vc.views[v] = some l) (hk : k ≤ 1) (hp : l[k]? = some p) (hi : s.gs.sets[i] = .held g (.valid binds inUse))

include hv hk hp in
theorem judgeViewUnbind_pane : judgeViewUnbind v k s
    = if p.binding = none then .refuse .notFound
      else .take .ok .empty ((s.unbind p.binding).setView v (some (l.modify k fun p => { p with binding := none }))) := by
  simp only [judgeViewUnbind, index_val, hv, hp]
  exact if_neg (by omega)

include hv hk hp hi

theorem judgeViewBind_pane : judgeViewBind v k i s
    = if g.bw ≠ p.w / 16 ∨ g.bh ≠ p.h / 16 then .refuse .sizeMismatch else .take .ok .empty (s.bind v l k p.binding i) := by
  simp only [judgeViewBind, index_val, hv, hp, hi]
  exact if_neg (by omega)

theorem judgeViewBind_fits (hw : g.bw = p.w / 16) (hh : g.bh = p.h / 16) :
    judgeViewBind v k i s = .take .ok .empty (s.bind v l k p.binding i) := by
  rw [judgeViewBind_pane hv hk hp hi]
  exact if_neg fun hne => hne.elim (fun h => h hw) fun h => h hh

end

section
variable {s : State} {v : Fin 16} {i : Fin 32} {l : List Pane} {k : Nat} {p : Pane} {g : GridShape} {binds : Nat} {inUse : Bool}

theorem State.setGrid_setGrid (s : State) (i : Fin 32) (x y : Grid) : (s.setGrid i x).setGrid i y = s.setGrid i y := by
  simp only [setGrid, Vector.set_set]

theorem State.setGrid_of_eq {x : Grid} (h : s.gs.sets[i] = x) : s.setGrid i x = s := by
  have same : s.gs.sets.set i s.gs.sets[i] = s.gs.sets := Vector.set_getElem_self _
  rw [← h, setGrid, same]

theorem State.setView_of_eq {x : Option (List Pane)} (h : s.vc.views[v] = x) : s.setView v x = s := by
  have same : s.vc.views.set v s.vc.views[v] = s.vc.views := Vector.set_getElem_self _
  rw [← h, setView, same]

theorem State.changeBinds_valid {f : Nat → Nat} (hi : s.gs.sets[i] = .held g (.valid binds inUse)) :
    s.changeBinds f i = s.setGrid i (.held g (.valid (f binds) inUse)) := by
  rw [changeBinds, hi]
  rfl

theorem State.bind_unbound (hi : s.gs.sets[i] = .held g (.valid binds inUse)) : s.bind v l k none i
    = (s.setGrid i (.held g (.valid (binds + 1) inUse))).setView v (some (l.modify k fun q => { q with binding := some i })) := by
  rw [bind, unbind, changeBinds_valid hi]

theorem State.bind_other {j : Fin 32} {g' : GridShape} {binds' : Nat} {inUse' : Bool} (hj : j ≠ i)
    (hi : s.gs.sets[i] = .held g (.valid binds inUse)) (hj' : s.gs.sets[j] = .held g' (.valid binds' inUse')) :
    s.bind v l k (some j) i
      = ((s.setGrid j (.held g' (.valid (binds' - 1) inUse'))).setGrid i (.held g (.valid (binds + 1) inUse))).setView v
          (some (l.modify k fun q => { q with binding := some i })) := by
  have still : (s.setGrid j (.held g' (.valid (binds' - 1) inUse'))).gs.sets[i] = .held g (.valid binds inUse) := by
    rw [setGrid_sets, if_neg hj.symm, hi]
  rw [bind, unbind, changeBinds_valid hj', changeBinds_valid still]

/-- A pane that is bound to the set it names again stays as it is (R78). -/
theorem State.bind_same (hv : s.vc.views[v] = some l) (hp : l[k]? = some p) (hb : p.binding = some i)
    (hi : s.gs.sets[i] = .held g (.valid binds inUse)) (hpos : 0 < binds) : s.bind v l k (some i) i = s := by
  have lower : (s.setGrid i (.held g (.valid (binds - 1) inUse))).gs.sets[i] = .held g (.valid (binds - 1) inUse) := by
    rw [setGrid_sets, if_pos rfl]
  have panes : (l.modify k fun q => { q with binding := some i }) = l := by
    rw [List.modify_congr (g := id) hp (by rw [← hb]; rfl), List.modify_id]
  rw [bind, unbind, changeBinds_valid hi, changeBinds_valid lower, setGrid_setGrid, Nat.sub_add_cancel hpos,
    setGrid_of_eq hi, panes, setView_of_eq hv]

end

/-- Settles O31: VIEW_BIND by what the pane was bound to before. -/
theorem bindingsAreCounted : Obligations.BindingsAreCounted := by
  intro s h v i l k p g binds inUse hs hg hv hk hp hi
  have taken (hw : g.bw = p.w / 16) (hh : g.bh = p.h / 16) :
      exec (.viewBind h v k i) s = .next ((s.bind v l k p.binding i).advanceGen.respond h.port 0x49 .ok .empty) :=
    guarded_sound (judge := judgeViewBind v k i) hs hg (judgeViewBind_fits hv hk hp hi hw hh)
  refine ⟨fun hsize => ?_, fun hw hh hb => ?_, fun j g' binds' inUse' less hw hh hb hj hj' hless => ?_, fun hw hh hb hpos => ?_,
    fun hb => ?_, fun hb => ?_⟩
  · exact guarded_sound_refuse (judge := judgeViewBind v k i) hs hg ((judgeViewBind_pane hv hk hp hi).trans (if_pos hsize))
  · rw [taken hw hh, hb, State.bind_unbound hi]
    rfl
  · rw [taken hw hh, hb, State.bind_other hj hi hj', hless]
    rfl
  · rw [taken hw hh, hb, State.bind_same hv hp hb hi hpos]
  · exact guarded_sound_refuse (judge := judgeViewUnbind v k) hs hg ((judgeViewUnbind_pane hv hk hp).trans (if_pos hb))
  · have bound : ¬ p.binding = none := by simp [hb]
    refine (guarded_sound (judge := judgeViewUnbind v k) hs hg ((judgeViewUnbind_pane hv hk hp).trans (if_neg bound))).trans ?_
    rw [hb, State.unbind, State.changeBinds_valid hi]
    rfl

end Sys2Proof.Machine
end

