-- ==== Sys2Proof/Proofs/Overlays.lean ====
section
/-! OVERLAY_SET (R122), and MARK_POST's place in the marker list (R131, R132). -/

namespace Sys2Proof.Machine

open Host (Outcome)

/-! ### OVERLAY_SET (R122) -/

theorem guideOf_eq (r : OverlayArg) (c : GuideCond) : guideOf r c
    = { halfTrack := max 300 (min r.halfTrack 1500), start := min r.start 3000
        stop := max (min r.start 3000 + 500) (min r.stop 8000), thick := max 2 (min r.thick 8)
        near := min r.near 8000, mid := max (min r.near 8000) (min r.mid 8000)
        marks := r.marks.map fun m => min m 8000, cond := c } := by
  have fromZero {hi : Nat} (x : Nat) : clampNat 0 hi x = min x hi :=
    (clampNat_eq_max_min (Nat.zero_le hi) x).trans (Nat.zero_max _)
  have marks : r.marks.map (clampNat 0 8000) = r.marks.map fun m => min m 8000 := List.map_congr_left fun m _ => fromZero m
  unfold guideOf guideOf.start guideOf.near
  rw [marks, fromZero, fromZero, clampNat_eq_max_min (by omega), clampNat_eq_max_min (by omega),
    clampNat_eq_max_min (by omega), clampNat_eq_max_min (by omega)]

theorem paletteOf_eq (r : OverlayArg) :
    paletteOf r = Vector.ofFn fun i : Fin 16 => { r.palette[i] with alpha := min r.palette[i].alpha 16 } := by
  refine congrArg Vector.ofFn (funext fun i => ?_)
  rw [clampAlpha, clampNat_eq_max_min (by omega), Nat.zero_max]

theorem overlayClamped_eq_false (r : OverlayArg) (c : GuideCond) : overlayClamped r (guideOf r c) = false ↔
    (∀ i : Fin 16, r.palette[i].alpha ≤ 16) ∧ 300 ≤ r.halfTrack ∧ r.halfTrack ≤ 1500 ∧ r.start ≤ 3000
      ∧ r.start + 500 ≤ r.stop ∧ r.stop ≤ 8000 ∧ 2 ≤ r.thick ∧ r.thick ≤ 8 ∧ r.near ≤ r.mid ∧ r.mid ≤ 8000
      ∧ ∀ m ∈ r.marks, m ≤ 8000 := by
  have marks : (r.marks.map fun m => min m 8000) = r.marks ↔ ∀ m ∈ r.marks, m ≤ 8000 := by
    conv_lhs => rhs; rw [← List.map_id r.marks]
    rw [List.map_inj_left]
    simp only [id_eq, min_eq_left_iff]
  have values : ¬ (max 300 (min r.halfTrack 1500) ≠ r.halfTrack ∨ min r.start 3000 ≠ r.start
      ∨ max (min r.start 3000 + 500) (min r.stop 8000) ≠ r.stop ∨ max 2 (min r.thick 8) ≠ r.thick ∨ min r.near 8000 ≠ r.near
      ∨ max (min r.near 8000) (min r.mid 8000) ≠ r.mid ∨ (r.marks.map fun m => min m 8000) ≠ r.marks) ↔
      300 ≤ r.halfTrack ∧ r.halfTrack ≤ 1500 ∧ r.start ≤ 3000 ∧ r.start + 500 ≤ r.stop ∧ r.stop ≤ 8000 ∧ 2 ≤ r.thick
        ∧ r.thick ≤ 8 ∧ r.near ≤ r.mid ∧ r.mid ≤ 8000 ∧ ∀ m ∈ r.marks, m ≤ 8000 := by
    rw [← marks]
    generalize (r.marks.map fun m => min m 8000) = l
    by_cases hl : l = r.marks
    · simp only [hl, ne_eq, not_true_eq_false, or_false, and_true]
      omega
    · simp [hl]
  rw [guideOf_eq, ← values, overlayClamped, Bool.or_eq_false_iff, decide_eq_false_iff_not]
  simp only [List.any_eq_false, List.mem_finRange, decide_eq_true_eq, Nat.not_lt, true_implies]

theorem silhouetteBad_eq_true {limit x : Nat} : silhouetteBad limit x = true ↔ x < 16 ∨ limit < x ∨ x % 16 ≠ 0 :=
  decide_eq_true_iff

theorem judgeOverlaySet_malformed {r : OverlayArg} {s : State} (h : r.silW < 16 ∨ 256 < r.silW ∨ r.silW % 16 ≠ 0 ∨ r.silH < 16
    ∨ 512 < r.silH ∨ r.silH % 16 ≠ 0 ∨ 4 < r.marks.length ∨ r.cond = none) : judgeOverlaySet r s = .refuse .badArg := by
  unfold judgeOverlaySet
  split
  · rfl
  · rename_i hok
    simp only [Bool.or_eq_true, silhouetteBad_eq_true, decide_eq_true_eq, not_or] at hok
    have : r.cond = none := by tauto
    rw [this]

theorem judgeOverlaySet_sound {r : OverlayArg} {s : State} {c : GuideCond} (hc : r.cond = some c) (h1 : 16 ≤ r.silW)
    (h2 : r.silW ≤ 256) (h3 : r.silW % 16 = 0) (h4 : 16 ≤ r.silH) (h5 : r.silH ≤ 512) (h6 : r.silH % 16 = 0)
    (h7 : r.marks.length ≤ 4) : judgeOverlaySet r s
      = .take (clampResult (overlayClamped r (guideOf r c))) .empty
        (s.setOverlay { s.ou.setup with palette := paletteOf r, silW := r.silW, silH := r.silH, guide := guideOf r c }) := by
  have good : ¬ (silhouetteBad 256 r.silW || silhouetteBad 512 r.silH || decide (4 < r.marks.length)) = true := by
    simp only [Bool.or_eq_true, silhouetteBad_eq_true, decide_eq_true_eq]
    omega
  simp only [judgeOverlaySet, hc]
  exact if_neg good

theorem clampResult_cases (b : Bool) : clampResult b = .ok ∧ b = false ∨ clampResult b = .clamped ∧ b = true := by
  cases b
  · exact .inl ⟨rfl, rfl⟩
  · exact .inr ⟨rfl, rfl⟩

/-- Settles O34: the stored setup is the operand's with each value clamped. -/
theorem overlaySetStores : Obligations.OverlaySetStores := by
  refine fun s h r hs hg => ⟨fun hbad => guarded_sound_refuse (judge := judgeOverlaySet r) hs hg (judgeOverlaySet_malformed hbad),
    fun c hc h1 h2 h3 h4 h5 h6 h7 => ⟨clampResult (overlayClamped r (guideOf r c)), ?_, ?_, ?_⟩⟩
  · obtain ⟨h, -⟩ | ⟨h, -⟩ := clampResult_cases (overlayClamped r (guideOf r c))
    · exact .inl h
    · exact .inr h
  · rw [← overlayClamped_eq_false r c]
    obtain ⟨h, hb⟩ | ⟨h, hb⟩ := clampResult_cases (overlayClamped r (guideOf r c))
    · exact iff_of_true h hb
    · exact iff_of_false (by rw [h]; decide) (by rw [hb]; decide)
  · refine (guarded_sound (judge := judgeOverlaySet r) hs hg (judgeOverlaySet_sound hc h1 h2 h3 h4 h5 h6 h7)).trans ?_
    rw [paletteOf_eq, guideOf_eq]
    rfl

/-! ### MARK_POST (R132) -/

theorem placeByKey_append {α : Type} {k : α → Nat} {x : α} {hi lo : List α} (hhi : ∀ y ∈ hi, k x < k y)
    (hlo : ∀ y ∈ lo, k y ≤ k x) : placeByKey k x (hi ++ lo) = hi ++ x :: lo := by
  have above : ∀ y ∈ hi, decide (k x < k y) = true := fun y hy => decide_eq_true (hhi y hy)
  rw [placeByKey, List.takeWhile_append_of_pos above, List.dropWhile_append_of_pos above]
  cases lo with
  | nil => simp
  | cons y lo =>
    have below : decide (k x < k y) = false := decide_eq_false (Nat.not_lt.2 (hlo y List.mem_cons_self))
    rw [List.takeWhile_cons_of_neg (by simp [below]), List.dropWhile_cons_of_neg (by simp [below]), List.append_nil]

theorem findIdx_append_cons {α : Type} {p : α → Bool} {x : α} {hi lo : List α} (hx : p x = true)
    (hhi : ∀ y ∈ hi, p y = false) : (hi ++ x :: lo).findIdx p = hi.length := by
  induction hi with
  | nil => simp [List.findIdx_cons, hx]
  | cons y hi ih =>
    obtain ⟨hy, hhi⟩ := List.forall_mem_cons.1 hhi
    rw [List.cons_append, List.findIdx_cons, hy, ih hhi]
    rfl

section
variable {s : State} {x : Marker} {hi lo : List Marker} {r : Result}

/-- A marker goes to the front of the group of its severity, and the answer tells its place (R131, R132). -/
theorem State.postMarker_eq (hm : s.ou.markers = hi ++ lo) (hhi : ∀ y ∈ hi, x.severity < y.severity)
    (hlo : ∀ y ∈ lo, y.severity ≤ x.severity) (hid : ∀ y ∈ hi, y.id ≠ x.id) :
    s.postMarker x r = .take r (.placed hi.length (hi ++ x :: lo).length) (s.setMarkers (hi ++ x :: lo)) := by
  have placed : placeMarker x s.ou.markers = hi ++ x :: lo := hm ▸ placeByKey_append (k := Marker.severity) hhi hlo
  have place : markerPlace x.id (hi ++ x :: lo) = hi.length :=
    findIdx_append_cons (decide_eq_true rfl) fun y hy => decide_eq_false (hid y hy)
  rw [postMarker, placed, place]

theorem State.setMarkers_notifyOwner (s : State) (l : List Marker) (p : Port) (k : NoticeKind) (subject value : Nat) :
    (s.notifyOwner p k subject value).setMarkers l = (s.setMarkers l).notifyOwner p k subject value := by
  cases p <;> rfl

theorem State.makeMarkerRoom_below (h : s.ou.markers.length < 16) : s.makeMarkerRoom x = some s := if_pos h

theorem State.makeMarkerRoom_full {front : List Marker} {e : Marker} (hm : s.ou.markers = front ++ [e])
    (hfull : 15 ≤ front.length) : s.makeMarkerRoom x = if e.severity < x.severity then
      some ((s.setMarkers front).notifyOwner e.owner .markerEvicted e.id.toNat x.id.toNat) else none := by
  have full : ¬ s.ou.markers.length < Config.markerMax := by
    rw [hm, List.length_append]
    exact Nat.not_lt.2 (Nat.succ_le_succ hfull)
  rw [makeMarkerRoom, if_neg full, hm, List.getLast?_concat, List.dropLast_concat]

end

section
variable {m : MarkArg} {p : Port} {s : State}

theorem MarkArg.bad_eq_false : m.bad = false ↔ (1 ≤ m.severity ∧ m.severity ≤ 3) ∧ -20000 ≤ m.x ∧ m.x ≤ 20000 ∧ -20000 ≤ m.y
    ∧ m.y ≤ 20000 ∧ 100 ≤ m.width ∧ m.width ≤ 10000 ∧ 100 ≤ m.length ∧ m.length ≤ 10000 := by
  rw [bad, decide_eq_false_iff_not]
  omega

theorem judgeMarkPost_bad (h : m.bad = true) : judgeMarkPost p m s = .refuse .badArg := if_pos h

theorem judgeMarkPost_replaces (h : m.bad = false) (hid : hasMarker (s.makeMarker p m).id s.ou.markers = true) :
    judgeMarkPost p m s = (s.setMarkers (dropMarker (s.makeMarker p m).id s.ou.markers)).postMarker (s.makeMarker p m)
      (clampResult (decide ((s.makeMarker p m).timeout ≠ m.timeout))) := by
  rw [judgeMarkPost, h]
  exact if_pos hid

theorem judgeMarkPost_room {t : State} (h : m.bad = false) (hid : hasMarker (s.makeMarker p m).id s.ou.markers = false)
    (ht : s.makeMarkerRoom (s.makeMarker p m) = some t) : judgeMarkPost p m s
      = t.postMarker (s.makeMarker p m) (clampResult (decide ((s.makeMarker p m).timeout ≠ m.timeout))) := by
  simp only [judgeMarkPost, h, hid, ht, Bool.false_eq_true, if_false]

theorem judgeMarkPost_full (h : m.bad = false) (hid : hasMarker (s.makeMarker p m).id s.ou.markers = false)
    (ht : s.makeMarkerRoom (s.makeMarker p m) = none) : judgeMarkPost p m s = .refuse .full := by
  simp only [judgeMarkPost, h, hid, ht, Bool.false_eq_true, if_false]

/-- The marker that a post makes, its timeout clamped (R132). -/
theorem State.makeMarker_eq (s : State) (p : Port) (m : MarkArg) : s.makeMarker p m
    = { id := BitVec.ofNat 8 m.id, owner := p, severity := m.severity, shape := m.shape, x := m.x, y := m.y
        width := m.width, length := m.length, timeout := max 50 (min m.timeout 5000)
        deadline := s.tbu.now + BitVec.ofNat 32 (max 50 (min m.timeout 5000) * 1000) } := by
  unfold makeMarker makeMarker.timeout
  rw [clampNat_eq_max_min (by omega)]
  rfl

end

theorem exec_markPost {s : State} {h : Hdr} {payload : List Byte} (hlen : h.len.toNat = payload.length)
    (hgot : h.got = 10 + payload.length) (h12 : 12 ≤ payload.length) (h240 : payload.length ≤ 240) :
    exec (.markPost h payload) s = answer s h 0x63 (judgeMarkPost h.port (readMark payload) s) := by
  have whole : framed h (decide (h.len.toNat ≤ payload.length) && decide (12 ≤ h.len.toNat)) = true := by
    simp only [framed, hlen, hgot, Bool.and_eq_true, decide_eq_true_eq]
    omega
  show takeCommand _ _ _ _ _ = _
  rw [takeCommand, if_neg (by omega), if_pos whole]

/-- Settles O35: in place of its own id, with room, or in place of the last entry. -/
theorem markPostPlaces : Obligations.MarkPostPlaces := by
  intro s h payload m x res hlen hgot h12 h240 hm hx hres
  have sev : m.severity ≤ 3 := by
    rw [hm]
    exact Nat.le_of_lt_succ (Nat.mod_lt _ (by omega))
  have made : s.makeMarker h.port m = x := by
    rw [hx, State.makeMarker_eq, hm]
    simp only [readMark, BitVec.ofNat_toNat, BitVec.setWidth_eq]
  have result : clampResult (decide (x.timeout ≠ m.timeout)) = res := by
    rw [hres]
    refine clampResult_eq_ite ?_
    rw [decide_eq_false_iff_not, show x.timeout = max 50 (min m.timeout 5000) by rw [hx]]
    omega
  have severity : x.severity = m.severity := by rw [hx]
  rw [exec_markPost hlen hgot h12 h240, ← hm]
  refine ⟨fun hbad => ?_, fun h1 h2 h3 h4 h5 h6 h7 h8 h9 => ?_⟩
  · rw [judgeMarkPost_bad, answer]
    by_contra hgood
    have := MarkArg.bad_eq_false.1 (Bool.eq_false_of_not_eq_true hgood)
    omega
  have good : m.bad = false := MarkArg.bad_eq_false.2 ⟨⟨by omega, sev⟩, h2, h3, h4, h5, h6, h7, h8, h9⟩
  refine ⟨fun hi lo hroom hsplit hhi hlo => ?_, fun front e hfront hfull hfresh =>
    ⟨fun hsev => ?_, fun hi lo hsev hsplit hhi hlo => ?_⟩⟩
  · have apart : ∀ y ∈ hi, y.id ≠ x.id := fun y hy => by
      have : y ∈ s.ou.markers.filter fun y => decide (y.id ≠ x.id) := hsplit ▸ List.mem_append_left lo hy
      simpa using (List.mem_filter.1 this).2
    cases hid : hasMarker x.id s.ou.markers with
    | true =>
      rw [judgeMarkPost_replaces good (by rw [made]; exact hid), made, result,
        State.postMarker_eq (s := s.setMarkers (dropMarker x.id s.ou.markers)) hsplit
          (fun y hy => severity ▸ hhi y hy) (fun y hy => severity ▸ hlo y hy) apart]
      rfl
    | false =>
      have absent := (hasMarker_eq_false_iff _ _).1 hid
      have below : s.ou.markers.length < 16 := hroom.resolve_left fun ⟨y, hy, hyx⟩ => absent y hy hyx
      have whole : s.ou.markers = hi ++ lo := by
        rw [← hsplit, List.filter_eq_self.2 fun y hy => decide_eq_true (absent y hy)]
      rw [judgeMarkPost_room good (by rw [made]; exact hid) (State.makeMarkerRoom_below below), made, result,
        State.postMarker_eq whole (fun y hy => severity ▸ hhi y hy) (fun y hy => severity ▸ hlo y hy) apart]
      rfl
  · have absent : hasMarker (s.makeMarker h.port m).id s.ou.markers = false := by
      rw [made]
      exact (hasMarker_eq_false_iff _ _).2 hfresh
    rw [judgeMarkPost_full good absent ?_, answer]
    rw [made, State.makeMarkerRoom_full hfront hfull, if_neg (by omega)]
  · have absent : hasMarker (s.makeMarker h.port m).id s.ou.markers = false := by
      rw [made]
      exact (hasMarker_eq_false_iff _ _).2 hfresh
    have room : s.makeMarkerRoom (s.makeMarker h.port m)
        = some ((s.setMarkers front).notifyOwner e.owner .markerEvicted e.id.toNat x.id.toNat) := by
      rw [made, State.makeMarkerRoom_full hfront hfull, if_pos (by omega)]
    have markers : ((s.setMarkers front).notifyOwner e.owner .markerEvicted e.id.toNat x.id.toNat).ou.markers = hi ++ lo := by
      rw [State.notifyOwner_ou]
      exact hsplit
    have apart : ∀ y ∈ hi, y.id ≠ x.id := fun y hy => hfresh y (by simp [hfront, hsplit, hy])
    rw [judgeMarkPost_room good absent room, made, result,
      State.postMarker_eq markers (fun y hy => severity ▸ hhi y hy) (fun y hy => severity ▸ hlo y hy) apart, answer,
      State.setMarkers_notifyOwner]
    rfl

end Sys2Proof.Machine
end

