-- ==== Sys2Proof/Proofs/ClaimCmds.lean ====
section
/-! CLAIM (R138 to R141) and the reverse claim of GEAR_SETUP (R145 to R147). -/

namespace Sys2Proof.Machine

open Host (Outcome)

/-! ### A new entry of the stack (R139 to R141) -/

/-- `t` is the first token value from the stack's own on that no entry of `l` carries, `k` values on (R139). -/
def FirstFree (ca : Arbiter) (l : List Claim) (k : Nat) (t : Byte) : Prop :=
  t = nextToken^[k] ca.token ∧ k ≤ l.length ∧ (∀ j, j < k → ∃ e ∈ l, e.token = nextToken^[j] ca.token) ∧ ∀ e ∈ l, e.token ≠ t

theorem FirstFree.freshToken {ca : Arbiter} {k : Nat} {t : Byte} (h : FirstFree ca ca.stack k t) : ca.freshToken = t := by
  obtain ⟨ht, hk, hcarried, hfree⟩ := h
  rw [ht]
  exact freeToken_eq_iterate (by omega) hcarried fun e he => ht ▸ hfree e he

section
variable {s : State} {src : Source} {v : Fin 16} {hi lo : List Claim} {k : Nat} {t : Byte}

/-- The entry stands between those of a higher rank and the others (R138, R140). -/
theorem State.newClaim_eq (hl : s.ca.stack = hi ++ lo) (hhi : ∀ e ∈ hi, src.rank < e.rank) (hlo : ∀ e ∈ lo, e.rank ≤ src.rank)
    (ht : FirstFree s.ca (hi ++ lo) k t) : s.newClaim src v
      = { s with ca := { s.ca with stack := hi ++ Claim.mk t src v s.tbu.now :: lo, token := nextToken t } } := by
  have fresh : s.ca.freshToken = t := FirstFree.freshToken (hl ▸ ht)
  have placed : placeClaim (Claim.mk t src v s.tbu.now) s.ca.stack = hi ++ Claim.mk t src v s.tbu.now :: lo :=
    hl ▸ placeByKey_append (k := Claim.rank) hhi hlo
  rw [newClaim, fresh, placed]

theorem State.makeRoom_below {r : Nat} (h : s.ca.stack.length < 6) : s.makeRoom r = some s := if_pos h

section
variable {front : List Claim} {e : Claim} {r : Nat} (hl : s.ca.stack = front ++ [e]) (hfull : 5 ≤ front.length)
include hl hfull

theorem State.not_below_of_full : ¬ s.ca.stack.length < Config.stackMax := by
  rw [hl, List.length_append]
  exact Nat.not_lt.2 (Nat.succ_le_succ hfull)

theorem State.makeRoom_refuses (hr : r ≤ e.rank) : s.makeRoom r = none := by
  rw [makeRoom, if_neg (not_below_of_full hl hfull), hl, List.getLast?_concat]
  exact if_neg (Nat.not_lt.2 hr)

/-- The entry at the end leaves when its rank is lower; an entry of Port D is told to Port D (R141). -/
theorem State.makeRoom_evicts (he : e.source = .portD) (hr : 2 ≤ r) :
    s.makeRoom r = some ((s.setStack front).notifyOwner .d .claimEvicted e.token.toNat e.view) := by
  have lower : e.rank < r := by
    rw [Claim.rank, he]
    exact hr
  rw [makeRoom, if_neg (not_below_of_full hl hfull), hl, List.getLast?_concat, List.dropLast_concat]
  simp only [he, Source.port]
  exact if_pos lower

end

/-! ### CLAIM (R140) -/

theorem judgeClaim_view (p : Port) (v : Fin 16) (s : State) : judgeClaim p v s
    = if s.vc.views[v].isNone then .refuse .notFound
      else if sourceLimit p ≤ countRank (s.claimSource p).rank s.ca.stack then .refuse .full
      else match s.makeRoom (s.claimSource p).rank with
        | none => .refuse .full
        | some t => .take .ok (.claimed t.ca.freshToken (placeOf t.ca.freshToken (t.newClaim (s.claimSource p) v).ca.stack)
            (t.newClaim (s.claimSource p) v).ca.stack.length) (t.newClaim (s.claimSource p) v) := by
  simp only [judgeClaim, index_val] <;> rfl

section
variable {p : Port} (hv : s.vc.views[v].isSome = true)
  (hlimit : countRank (s.claimSource p).rank s.ca.stack < sourceLimit p)
include hv hlimit

theorem judgeClaim_no_room (hroom : s.makeRoom (s.claimSource p).rank = none) : judgeClaim p v s = .refuse .full := by
  rw [judgeClaim_view, Option.isNone_eq_false_iff.2 hv, hroom]
  exact (if_neg Bool.false_ne_true).trans (if_neg (Nat.not_le.2 hlimit))

theorem judgeClaim_room {u : State} (hroom : s.makeRoom (s.claimSource p).rank = some u) (hl : u.ca.stack = hi ++ lo)
    (hhi : ∀ e ∈ hi, (s.claimSource p).rank < e.rank) (hlo : ∀ e ∈ lo, e.rank ≤ (s.claimSource p).rank)
    (ht : FirstFree u.ca (hi ++ lo) k t) : judgeClaim p v s = .take .ok (.claimed t hi.length ((hi ++ lo).length + 1))
      { u with ca := { u.ca with
          stack := hi ++ Claim.mk t (s.claimSource p) v u.tbu.now :: lo, token := nextToken t } } := by
  have fresh : u.ca.freshToken = t := FirstFree.freshToken (hl ▸ ht)
  have place : placeOf t (hi ++ Claim.mk t (s.claimSource p) v u.tbu.now :: lo) = hi.length :=
    findIdx_append_cons (decide_eq_true rfl) fun e he => decide_eq_false (ht.2.2.2 e (List.mem_append_left lo he))
  have size : (hi ++ Claim.mk t (s.claimSource p) v u.tbu.now :: lo).length = (hi ++ lo).length + 1 := by simp [Nat.add_assoc]
  rw [judgeClaim_view, Option.isNone_eq_false_iff.2 hv, hroom]
  refine ((if_neg Bool.false_ne_true).trans (if_neg (Nat.not_le.2 hlimit))).trans ?_
  simp only [fresh, State.newClaim_eq hl hhi hlo ht, place, size]

end

end

/-- Settles O37: the entry's place and token by `newClaim_eq`, the room by `makeRoom`. -/
theorem claimMakesAnEntry : Obligations.ClaimMakesAnEntry := by
  intro s h v src limit hs hsrc
  obtain ⟨rfl, rfl⟩ : src = s.claimSource h.port ∧ limit = sourceLimit h.port := by
    cases hp : h.port <;> rw [hp] at hsrc <;> exact Prod.mk.inj hsrc
  refine ⟨fun n hn => ?_, fun hv => ?_, fun hv => ⟨fun hlimit => ?_, fun hlimit k t hi lo ht hk hcarried hfree hhi hlo u hu =>
    ⟨fun hbelow hl => ?_, fun e hl hfull hport he => ?_⟩, fun front e hlimit hl hfull he => ?_⟩⟩
  · refine command_sound_refuse (judge := judgeClaim h.port n) hs ?_
    rw [judgeClaim, index_of_ge hn]
  · refine command_sound_refuse (judge := judgeClaim h.port v) hs ?_
    rw [judgeClaim_view, hv]
    rfl
  · refine command_sound_refuse (judge := judgeClaim h.port v) hs ?_
    rw [judgeClaim_view, Option.isNone_eq_false_iff.2 hv]
    exact (if_neg Bool.false_ne_true).trans (if_pos hlimit)
  · rw [hu]
    exact command_sound_take (judge := judgeClaim h.port v) hs
      (judgeClaim_room hv hlimit (State.makeRoom_below hbelow) hl hhi hlo ⟨ht, hk, hcarried, hfree⟩)
  · have rank : 2 ≤ (s.claimSource h.port).rank := by
      rw [hport]
      show 2 ≤ 3
      omega
    rw [hu]
    exact command_sound_take (judge := judgeClaim h.port v) hs
      (judgeClaim_room hv hlimit (State.makeRoom_evicts hl hfull he rank) (hi := hi) (lo := lo) rfl hhi hlo
        ⟨ht, hk, hcarried, hfree⟩)
  · exact command_sound_refuse (judge := judgeClaim h.port v) hs
      (judgeClaim_no_room hv hlimit (State.makeRoom_refuses hl hfull he))

/-! ### The reverse claim (R145 to R147) -/

theorem Source.isGear_iff {x : Source} : x.isGear = true ↔ x = .gear := by
  cases x <;> simp [isGear]

theorem Source.isGear_eq (x : Source) : x.isGear = decide (x = .gear) := by
  cases x <;> rfl

section
variable {s : State} {v : Fin 16} {hi lo : List Claim} {k : Nat} {t : Byte}

theorem Arbiter.hasGear_iff {ca : Arbiter} : ca.hasGear = true ↔ ∃ e ∈ ca.stack, e.source = .gear := by
  simp only [hasGear, List.any_eq_true, Source.isGear_iff]

theorem Arbiter.hasGear_eq_false {ca : Arbiter} (h : ∀ e ∈ ca.stack, e.source ≠ .gear) : ca.hasGear = false :=
  Bool.eq_false_of_not_eq_true fun hg => by
    obtain ⟨e, he, hgear⟩ := hasGear_iff.1 hg
    exact h e he hgear

theorem State.dropGear_eq (s : State) : s.dropGear = { s with ca := { s.ca with
    lingerTimer := none, stack := s.ca.stack.filter fun e : Claim => decide (e.source ≠ Source.gear) } } := by
  simp only [dropGear, Source.isGear_eq, decide_not]

theorem State.applyReverseView_moves (hg : s.ca.hasGear = true) : s.applyReverseView (some v)
    = s.setStack (s.ca.stack.map fun e : Claim => if e.source = Source.gear then { e with view := v } else e) := by
  simp only [applyReverseView, Source.isGear_eq, decide_eq_true_eq]
  exact if_pos hg

theorem State.applyReverseView_idle (hg : s.ca.hasGear = false) (he : s.si.effGear ≠ .reverse) :
    s.applyReverseView (some v) = s := by
  rw [applyReverseView, hg]
  exact (if_neg Bool.false_ne_true).trans (if_neg he)

/-- While GEAR is REVERSE and no claim stands one is made (R145, R146). -/
theorem State.applyReverseView_makes (hg : s.ca.hasGear = false) (he : s.si.effGear = .reverse)
    (hv : s.ca.reverseView = some v) : s.applyReverseView (some v) = (s.setLinger none).makeGear v := by
  have quiet : (s.setLinger none).ca.hasGear = false := hg
  have view : (s.setLinger none).ca.reverseView = some v := hv
  rw [applyReverseView, hg, if_neg Bool.false_ne_true, if_pos he]
  simp only [gearChange, view, quiet]
  rfl

theorem State.makeGear_eq {u : State} (hroom : s.makeRoom 2 = some u) (hl : u.ca.stack = hi ++ lo)
    (hhi : ∀ e ∈ hi, 2 < e.rank) (hlo : ∀ e ∈ lo, e.rank ≤ 2) (ht : FirstFree u.ca (hi ++ lo) k t) : s.makeGear v
      = { u with ca := { u.ca with stack := hi ++ Claim.mk t .gear v u.tbu.now :: lo, token := nextToken t } } := by
  rw [makeGear, hroom]
  exact newClaim_eq hl hhi hlo ht

end

/-- The state in which GEAR_SETUP has stored its settings and not yet moved the claim (R145). -/
def State.setGear (s : State) (v : Option (Fin 16)) (l : Nat) (g : BitVec 16) : State :=
  { s with ca := { s.ca with reverseView := v, linger := min l 10000, gate := g } }

theorem judgeGearSetup_take {s : State} {a : Option Nat} {v : Option (Fin 16)} (ha : s.reverseArg a = .ok v) (l : Nat)
    (g : BitVec 16) : judgeGearSetup a l g s
      = .take (if l ≤ 10000 then .ok else .clamped) .empty ((s.setGear v l g).applyReverseView v) := by
  have clamped : clampNat 0 10000 l = min l 10000 := (clampNat_eq_max_min (Nat.zero_le _) l).trans (Nat.zero_max _)
  rw [← clampResult_eq_ite (changed := decide (min l 10000 ≠ l)) (by rw [decide_eq_false_iff_not]; omega), judgeGearSetup, ha,
    clamped]
  rfl

theorem judgeGearSetup_refuse {s : State} {a : Option Nat} {r : Result} (ha : s.reverseArg a = .error r) (l : Nat)
    (g : BitVec 16) : judgeGearSetup a l g s = .refuse r := by
  rw [judgeGearSetup, ha]

/-- Settles O39: by what the stack holds of GEAR, and its effective value. -/
theorem reverseClaim : Obligations.ReverseClaim := by
  refine fun s l g v => ⟨fun h res hs hg hres => ?_, fun hdue => ?linger⟩
  case linger => exact congrArg Outcome.next ((if_pos (State.reached_iff.2 hdue)).trans s.dropGear_eq)
  have refused (a : Option Nat) (r : Result) (e : s.reverseArg a = .error r) :
      exec (.gearSetup h a l g) s = .next (s.respond h.port 0x73 r .empty) :=
    guarded_sound_refuse (judge := judgeGearSetup a l g) hs hg (judgeGearSetup_refuse e l g)
  have taken (a : Option Nat) (w : Option (Fin 16)) (e : s.reverseArg a = .ok w) : exec (.gearSetup h a l g) s
      = .next (((s.setGear w l g).applyReverseView w).advanceGen.respond h.port 0x73 res .empty) :=
    hres ▸ guarded_sound (judge := judgeGearSetup a l g) hs hg (judgeGearSetup_take e l g)
  have named (hv : s.vc.views[v].isSome = true) : s.reverseArg (some v) = .ok (some v) := by
    simp only [State.reverseArg, index_val, Option.isNone_eq_false_iff.2 hv]
    rfl
  have absent (hgear : ∀ e ∈ s.ca.stack, e.source ≠ .gear) : (s.setGear (some v) l g).ca.hasGear = false :=
    Arbiter.hasGear_eq_false hgear
  refine ⟨fun n hn => refused _ _ ?_, fun hv => refused _ _ ?_, ?_, fun hv hgear => ?_, fun hv hgear => ⟨fun he => ?_,
    fun hi lo k t u he hhi hlo ht hk hcarried hfree hu => ⟨fun hbelow hl => ?_, fun e hl hfull hd => ?_⟩⟩⟩
  · rw [State.reverseArg, index_of_ge hn]
  · simp only [State.reverseArg, index_val, hv]
    rfl
  · rw [taken none none rfl, State.applyReverseView, State.dropGear_eq]
    rfl
  · rw [taken _ _ (named hv), State.applyReverseView_moves (s := s.setGear (some v) l g) (Arbiter.hasGear_iff.2 hgear)]
    rfl
  · rw [taken _ _ (named hv), State.applyReverseView_idle (absent hgear) he]
    rfl
  · rw [taken _ _ (named hv), State.applyReverseView_makes (absent hgear) he rfl,
      State.makeGear_eq (State.makeRoom_below (s := (s.setGear (some v) l g).setLinger none) hbelow)
        hl hhi hlo ⟨ht, hk, hcarried, hfree⟩, hu]
    rfl
  · rw [taken _ _ (named hv), State.applyReverseView_makes (absent hgear) he rfl,
      State.makeGear_eq (State.makeRoom_evicts (s := (s.setGear (some v) l g).setLinger none) hl hfull hd (by omega))
        (hi := hi) (lo := lo) rfl hhi hlo ⟨ht, hk, hcarried, hfree⟩, hu]
    rfl

end Sys2Proof.Machine
end

