-- ==== Sys2Proof/Proofs/CanSettings.lean ====
section
/-! The CAN controller's settings and its error counters (R154, R155, R164 to R166, R168). -/

namespace Sys2Proof.Machine

open Host (Outcome)

section
variable {s : State} {old : ErrState}

/-! ### The change of the error state that is told (R164) -/

theorem State.tellErr_same (h : s.si.can.err = old) : s.tellErr old = s := if_pos h

theorem State.tellErr_changed (h : s.si.can.err ≠ old) :
    s.tellErr old = s.notify .canState 0 (s.si.can.err.code + 256 * old.code) := if_neg h

/-- A controller that leaves the error state is put without a word. -/
theorem State.setCan_tellErr_same {c : CanCtl} (h : c.err = s.si.can.err) : (s.setCan c).tellErr s.si.can.err = s.setCan c :=
  tellErr_same h

/-- A controller that moves the error state is told of with both codes. -/
theorem State.setCan_tellErr_changed {c : CanCtl} {new : ErrState} (hc : c.err = new) (ho : s.si.can.err = old)
    (hne : new ≠ old) : (s.setCan c).tellErr s.si.can.err = (s.setCan c).notify .canState 0 (new.code + 256 * old.code) := by
  subst hc ho
  exact tellErr_changed hne

theorem CanCtl.hears_eq_false {c : CanCtl} : c.hears = false ↔ c.setup.mode = .off ∨ c.err = .busOff := by
  rw [hears, decide_eq_false_iff_not]
  tauto

theorem CanCtl.hears_of_mode {c : CanCtl} (hm : c.setup.mode ≠ .off) (he : c.err ≠ .busOff) : c.hears = true :=
  decide_eq_true ⟨hm, he⟩

theorem CanCtl.countsErrors_of_normal {c : CanCtl} (hm : c.setup.mode = .normal) (he : c.err ≠ .busOff) :
    c.countsErrors = true := decide_eq_true ⟨hm, he⟩

theorem CanCtl.countsErrors_of_other {c : CanCtl} (hm : c.setup.mode ≠ .normal) : c.countsErrors = false :=
  decide_eq_false fun h => hm h.1

theorem errOf_active {tec recv : Byte} (ht : tec.toNat < 128) (hr : recv.toNat < 128) : errOf tec recv = .active :=
  if_neg (by omega)

theorem errOf_passive {tec recv : Byte} (h : 128 ≤ tec.toNat ∨ 128 ≤ recv.toNat) : errOf tec recv = .passive := if_pos h

/-- New counters that leave the error state (R164). -/
theorem CanCtl.setCounts_same {c : CanCtl} {tec recv : Byte} (h : errOf tec recv = c.err) :
    c.setCounts tec recv = { c with tec := tec, recv := recv } := by
  rw [setCounts, h]

end

/-! ### CAN_SETUP (R154) -/

theorem canSetupOf_malformed {r : CanArg} (h : r.mode = none ∨ r.rate = none ∨ (r.ext = false ∧ 0x7FF < r.ident)
    ∨ 0x1FFFFFFF < r.ident) : canSetupOf r = none := by
  unfold canSetupOf
  split
  · rename_i m b hm hb
    have wide : (r.ext = false ∧ 0x7FF < r.ident) ∨ 0x1FFFFFFF < r.ident := by
      simpa [hm, hb] using h
    refine if_pos ?_
    rw [identMax]
    split
    · rename_i hext
      simpa [hext] using wide
    · rename_i hext
      omega
  · rfl

theorem canSetupOf_eq {r : CanArg} {m : CanMode} {b : CanRate} (hm : r.mode = some m) (hb : r.rate = some b)
    (hi : r.ident ≤ (if r.ext then 0x1FFFFFFF else 0x7FF)) : canSetupOf r
      = some ({ mode := m, rate := b, autoRecover := r.autoRecover, ext := r.ext, ident := BitVec.ofNat 29 r.ident
                interval := max 50 (min r.interval 1000), singleShot := r.singleShot },
              decide (max 50 (min r.interval 1000) ≠ r.interval)) := by
  simp only [canSetupOf, hm, hb, clampNat_eq_max_min (show 50 ≤ 1000 by omega)]
  exact if_neg (Nat.not_lt.2 hi)

/-- The restart of the controller is told when it was not ERROR_ACTIVE (R154). -/
theorem judgeCanSetup_eq {r : CanArg} {s : State} {p : CanSetup} {x : Bool} (h : canSetupOf r = some (p, x)) :
    judgeCanSetup r s = .take (clampResult x) .empty
      (if p.mode = s.si.can.setup.mode ∧ p.rate = s.si.can.setup.rate then s.setCan { s.si.can with setup := p }
       else (s.setCan (s.si.can.restart p s)).tellErr s.si.can.err) := by
  rw [judgeCanSetup, h]

theorem execCanSetup_eq {s : State} {h : Hdr} {r : CanArg} {m : CanMode} {b : CanRate} {p : CanSetup} {res : Result}
    (hs : soundRecord h) (hg : passesGuard s h) (hm : r.mode = some m) (hb : r.rate = some b)
    (hi : r.ident ≤ (if r.ext then 0x1FFFFFFF else 0x7FF))
    (hp : p = { mode := m, rate := b, autoRecover := r.autoRecover, ext := r.ext, ident := BitVec.ofNat 29 r.ident
                interval := max 50 (min r.interval 1000), singleShot := r.singleShot })
    (hres : res = if 50 ≤ r.interval ∧ r.interval ≤ 1000 then .ok else .clamped) :
    exec (.canSetup h r) s = .next ((if p.mode = s.si.can.setup.mode ∧ p.rate = s.si.can.setup.rate then
        s.setCan { s.si.can with setup := p }
      else (s.setCan (s.si.can.restart p s)).tellErr s.si.can.err).advanceGen.respond h.port 0x80 res .empty) := by
  have stored := canSetupOf_eq hm hb hi
  rw [← hp] at stored
  rw [hres, ← clampResult_eq_ite (changed := decide (max 50 (min r.interval 1000) ≠ r.interval))
    (by rw [decide_eq_false_iff_not]; omega)]
  exact guarded_sound (judge := judgeCanSetup r) hs hg (judgeCanSetup_eq stored)

/-- Settles O40: CAN_SETUP by whether the mode or the rate changes. -/
theorem canControllerSettings : Obligations.CanControllerSettings := by
  refine fun s => ⟨fun h r hs hg => ⟨fun hbad => ?_, fun m b p res hm hb hi hp hres => ?setup⟩, fun h hs => ⟨fun hm he => ?_,
    fun hne => ?_, ?_⟩, fun he => ⟨fun hr => ?_, fun hr => ?_⟩⟩
  case setup =>
    have done := execCanSetup_eq hs hg hm hb hi hp hres
    have changes (hne : m ≠ s.si.can.setup.mode ∨ b ≠ s.si.can.setup.rate) :
        ¬ (p.mode = s.si.can.setup.mode ∧ p.rate = s.si.can.setup.rate) := by
      rw [hp]
      exact fun hmb => hne.elim (fun hn => hn hmb.1) fun hn => hn hmb.2
    refine ⟨fun hm' hb' => ?_, fun hne ha => ?_, fun old hne hold => ?_⟩
    · rw [done, if_pos (by rw [hp]; exact ⟨hm', hb'⟩)]
      rfl
    · rw [done, if_neg (changes hne), State.setCan_tellErr_same ha.symm, hp]
      have restarted : ErrState.active = s.si.can.err := ha.symm
      rw [CanCtl.restart, restarted]
      cases m <;> rfl
    · rw [done, if_neg (changes hne)]
      obtain ⟨ho, rfl⟩ | ⟨ho, rfl⟩ := hold
      · rw [State.setCan_tellErr_changed (new := .active) rfl ho (by decide), hp]
        cases m <;> rfl
      · rw [State.setCan_tellErr_changed (new := .active) rfl ho (by decide), hp]
        cases m <;> rfl
  · refine guarded_sound_refuse (judge := judgeCanSetup r) hs hg ?_
    rw [judgeCanSetup, canSetupOf_malformed hbad]
  · refine (bare_whole (judge := judgeCanRestart) ⟨hs.1, hs.2.1⟩).trans ?_
    rw [judgeCanRestart, if_pos ⟨hm, he⟩]
    rfl
  · refine (bare_whole (judge := judgeCanRestart) ⟨hs.1, hs.2.1⟩).trans ?_
    rw [judgeCanRestart, if_neg fun hme => hne.elim (fun hn => hn hme.1) fun hn => hn hme.2]
    rfl
  · exact bare_whole (judge := fun s => .take .ok .empty (s.setCan { s.si.can with cause := .clear })) ⟨hs.1, hs.2.1⟩
  · exact congrArg Outcome.next (if_neg (by simp [hr]))
  · exact congrArg Outcome.next ((if_pos ⟨hr, he⟩).trans (State.setCan_tellErr_changed (new := .active) rfl he (by decide)))

/-! ### RECEIVE_ERROR (R155, R164, R166) -/

section
variable {s : State} {e : BusError}

theorem State.receiveError_deaf (h : s.si.can.hears = false) : s.receiveError e = s := by
  rw [receiveError, h]
  rfl

theorem State.receiveError_frozen (h : s.si.can.hears = true) (hc : s.si.can.countsErrors = false) :
    s.receiveError e = s.setCan (s.si.can.note e .receiver) := by
  simp only [receiveError, h, hc, Bool.not_true, Bool.false_eq_true, if_false]

theorem State.receiveError_counted (hm : s.si.can.setup.mode = .normal) (he : s.si.can.err ≠ .busOff) : s.receiveError e
    = (s.setCan ((s.si.can.note e .receiver).setCounts s.si.can.tec (countUp s.si.can.recv))).tellErr s.si.can.err := by
  simp only [receiveError, CanCtl.hears_of_mode (hm ▸ CanMode.noConfusion) he, CanCtl.countsErrors_of_normal hm he, Bool.not_true,
    Bool.false_eq_true, if_false, if_true]

/-- An error that leaves the error state is only counted. -/
theorem State.receiveError_quiet (hm : s.si.can.setup.mode = .normal) (he : s.si.can.err ≠ .busOff)
    (hsame : errOf s.si.can.tec (countUp s.si.can.recv) = s.si.can.err) : s.receiveError e
      = { s with si := { s.si with can :=
          { s.si.can with cause := s.si.can.cause.note e .receiver, recv := countUp s.si.can.recv } } } := by
  rw [receiveError_counted hm he, setCan_tellErr_same hsame, CanCtl.setCounts_same (c := s.si.can.note e .receiver) hsame]
  rfl

theorem countUp_of_lt {b : Byte} (h : b.toNat < 255) : countUp b = b + 1 := if_neg fun hb => by simp [hb] at h

theorem toNat_add_one_of_lt {b : Byte} (h : b.toNat < 255) : (b + 1).toNat = b.toNat + 1 := by
  rw [BitVec.toNat_add]
  exact Nat.mod_eq_of_lt (by simp; omega)

end

/-- Settles O44: by whether the mode hears, and there whether it counts. -/
theorem receiveErrorsCount : Obligations.ReceiveErrorsCount := by
  intro s e c hc
  have cause : s.si.can.cause.note e .receiver = c := by
    rw [hc]
    cases e <;> rfl
  refine ⟨fun h => congrArg Outcome.next (State.receiveError_deaf (CanCtl.hears_eq_false.2 h)), fun hm he => ?_,
    fun hm ha ht => ⟨fun hr => ?_, fun hr => ?_⟩, fun hm hp hcount => ⟨fun hr => ?_, fun hr => ?_⟩⟩
  · have off : s.si.can.setup.mode ≠ .off := by obtain h | h := hm <;> simp [h]
    have other : s.si.can.setup.mode ≠ .normal := by obtain h | h := hm <;> simp [h]
    refine congrArg Outcome.next
      ((State.receiveError_frozen (CanCtl.hears_of_mode off he) (CanCtl.countsErrors_of_other other)).trans ?_)
    rw [CanCtl.note, cause]
    rfl
  · have up := countUp_of_lt (b := s.si.can.recv) (by omega)
    have same : errOf s.si.can.tec (countUp s.si.can.recv) = s.si.can.err := by
      rw [up, ha]
      exact errOf_active ht (by rw [toNat_add_one_of_lt (by omega)]; omega)
    refine congrArg Outcome.next ((State.receiveError_quiet hm (by simp [ha]) same).trans ?_)
    rw [cause, up]
  · have full : s.si.can.recv = 127 := BitVec.eq_of_toNat_eq hr
    have passive : errOf s.si.can.tec (countUp s.si.can.recv) = .passive := errOf_passive (.inr (by rw [full]; decide))
    refine congrArg Outcome.next ((State.receiveError_counted hm (by simp [ha])).trans ?_)
    rw [State.setCan_tellErr_changed passive ha (by decide), CanCtl.setCounts, passive, CanCtl.note, cause, full]
    rfl
  · have up := countUp_of_lt hr
    have same : errOf s.si.can.tec (countUp s.si.can.recv) = s.si.can.err := by
      rw [up, hp]
      exact errOf_passive (hcount.imp_right fun h => by rw [toNat_add_one_of_lt hr]; omega)
    refine congrArg Outcome.next ((State.receiveError_quiet hm (by simp [hp]) same).trans ?_)
    rw [cause, up]
  · have full : s.si.can.recv = 255 := BitVec.eq_of_toNat_eq hr
    have up : countUp s.si.can.recv = s.si.can.recv := by rw [full]; decide
    have same : errOf s.si.can.tec (countUp s.si.can.recv) = s.si.can.err := by
      rw [up, hp]
      exact errOf_passive hcount
    refine congrArg Outcome.next ((State.receiveError_quiet hm (by simp [hp]) same).trans ?_)
    rw [cause, up]

/-! ### The end of an attempt (R164 to R168) -/

section
variable {s : State} {a : Attempt} (ha : s.si.can.attempt = some a)
include ha

theorem State.attemptSent_eq : s.attemptSent
    = (s.setCan ((s.si.can.finishAttempt a).setCounts (countDown s.si.can.tec) s.si.can.recv)).tellErr s.si.can.err := by
  simp only [attemptSent, ha]

theorem State.attemptLost_eq : s.attemptLost = (s.setCan (s.si.can.failAttempt a)).tellDropped a := by
  simp only [attemptLost, ha]

end

theorem CanCtl.finishAttempt_eq {c : CanCtl} {a : Attempt} {left : Option StatusFrame}
    (h : left = if a.replaced then c.buffer else none) : c.finishAttempt a = { c with attempt := none, buffer := left } := by
  rw [finishAttempt, h]

theorem CanCtl.failAttempt_of_single {c : CanCtl} {a : Attempt} {left : Option StatusFrame}
    (h : left = if a.replaced then c.buffer else none) (ha : a.frame.singleShot = true) :
    c.failAttempt a = { c with attempt := none, buffer := left, failed := bump c.failed } := by
  rw [failAttempt, if_pos ha, finishAttempt_eq h]

theorem CanCtl.failAttempt_of_repeated {c : CanCtl} {a : Attempt} (ha : a.frame.singleShot = false) :
    c.failAttempt a = { c with attempt := none } := by
  rw [failAttempt, if_neg (by simp [ha])]

/-- The counters after an error while transmitting that does not bring BUS_OFF (R164). -/
theorem CanCtl.transmitError_below {c : CanCtl} (h : c.tec.toNat < 248) :
    c.transmitError = c.setCounts (c.tec + 8) c.recv := if_neg (by omega)

theorem CanCtl.transmitError_busOff {c : CanCtl} (h : 248 ≤ c.tec.toNat) : c.transmitError = c.enterBusOff :=
  if_pos (by omega)

theorem toNat_add_eight_of_lt {b : Byte} (h : b.toNat < 248) : (b + 8).toNat = b.toNat + 8 := by
  rw [BitVec.toNat_add]
  exact Nat.mod_eq_of_lt (by simp; omega)

theorem State.latchBusOff_of_ne {s : State} (h : s.si.can.err ≠ .busOff) : s.latchBusOff = s := if_neg h

theorem State.tellDropped_repeated {s : State} {a : Attempt} (h : a.frame.singleShot = false) : s.tellDropped a = s :=
  if_neg (by simp [h])

theorem State.tellDropped_single {s : State} {a : Attempt} (h : a.frame.singleShot = true) :
    s.tellDropped a = s.notify .statusTxFailed 0 a.frame.count.toNat := if_pos h

section
variable {s : State} {a : Attempt} {e : BusError} (ha : s.si.can.attempt = some a)
include ha

/-- The state in which the failed attempt's controller is put, its fault latched (R164, R168). -/
theorem State.attemptError_eq {t : State}
    (ht : t = (s.setCan (((s.si.can.failAttempt a).note e .transmitter).transmitError)).latchBusOff) : s.attemptError e
      = if t.si.can.err = s.si.can.err then t.tellDropped a
        else if t.si.can.err = .busOff ∨ !a.frame.singleShot then (t.tellErr s.si.can.err).tellDropped a
        else if Config.canStateFirst s.fresh then ({ t with fresh := t.fresh + 1 }.tellErr s.si.can.err).tellDropped a
        else ({ t with fresh := t.fresh + 1 }.tellDropped a).tellErr s.si.can.err := by
  simp only [attemptError, ha, ht]

/-- Below BUS_OFF the error state is that of the counters (R164). -/
theorem State.attemptError_below {c : CanCtl} (hc : (s.si.can.failAttempt a).note e .transmitter = c)
    (hlow : c.tec.toNat < 248) : s.attemptError e
      = if errOf (c.tec + 8) c.recv = s.si.can.err then (s.setCan (c.setCounts (c.tec + 8) c.recv)).tellDropped a
        else if a.frame.singleShot = false then (s.setCan (c.setCounts (c.tec + 8) c.recv)).tellErr s.si.can.err
        else if Config.canStateFirst s.fresh then
          (({ s with fresh := s.fresh + 1 }.setCan (c.setCounts (c.tec + 8) c.recv)).tellErr s.si.can.err).tellDropped a
        else (({ s with fresh := s.fresh + 1 }.setCan (c.setCounts (c.tec + 8) c.recv)).tellDropped a).tellErr s.si.can.err := by
  have alive : errOf (c.tec + 8) c.recv ≠ .busOff := by
    rw [errOf]
    split <;> decide
  have put : s.setCan (c.setCounts (c.tec + 8) c.recv)
      = (s.setCan (((s.si.can.failAttempt a).note e .transmitter).transmitError)).latchBusOff := by
    rw [hc, CanCtl.transmitError_below hlow, latchBusOff_of_ne alive]
  rw [attemptError_eq ha put]
  show (if errOf _ _ = _ then _ else if errOf _ _ = _ ∨ _ then _ else _) = _
  simp only [alive, false_or, Bool.not_eq_true']
  refine if_congr Iff.rfl rfl ?_
  by_cases hs : a.frame.singleShot = false
  · rw [if_pos hs, if_pos hs, tellDropped_repeated hs]
  · rw [if_neg hs, if_neg hs]
    rfl

/-- At BUS_OFF the fault is latched, CAN_STATE stands first and STATUS_TX_FAILED after it (R164, R168). -/
theorem State.attemptError_busOff {c : CanCtl} {old : ErrState} (hc : (s.si.can.failAttempt a).note e .transmitter = c)
    (hhigh : 248 ≤ c.tec.toNat) (ho : s.si.can.err = old) (hne : .busOff ≠ old) : s.attemptError e
      = (((s.setCan c.enterBusOff).latch .canBusOff).notify .canState 0 (ErrState.busOff.code + 256 * old.code)).tellDropped a := by
  have put : (s.setCan c.enterBusOff).latch .canBusOff
      = (s.setCan (((s.si.can.failAttempt a).note e .transmitter).transmitError)).latchBusOff := by
    rw [hc, CanCtl.transmitError_busOff hhigh]
    exact (if_pos rfl).symm
  rw [attemptError_eq ha put, ho]
  exact ((if_neg hne).trans (if_pos (.inl rfl))).trans (congrArg (State.tellDropped · a) (tellErr_changed hne))

end

/-- The controller of a failed attempt whose error is recorded, and what of it stays (R166, R168). -/
theorem CanCtl.failAttempt_note {c can : CanCtl} {a : Attempt} {left : Option StatusFrame} {e : BusError} {cause : CauseRecord}
    (hleft : left = if a.replaced then c.buffer else none)
    (hcause : cause = c.cause.note e .transmitter)
    (hcan : can = if a.frame.singleShot then
        { c with cause := cause, attempt := none, buffer := left, failed := bump c.failed }
      else { c with cause := cause, attempt := none }) :
    (c.failAttempt a).note e .transmitter = can ∧ can.tec = c.tec ∧ can.recv = c.recv ∧ can.err = c.err
      ∧ can.setup = c.setup := by
  rw [hcan, hcause]
  by_cases hs : a.frame.singleShot = true
  · rw [if_pos hs, failAttempt_of_single hleft hs]
    exact ⟨rfl, rfl, rfl, rfl, rfl⟩
  · rw [if_neg hs, failAttempt_of_repeated (Bool.eq_false_of_not_eq_true hs)]
    exact ⟨rfl, rfl, rfl, rfl, rfl⟩

/-- Settles O46: the controller after the attempt, then what of its error state is told. -/
theorem statusAttemptEnds : Obligations.StatusAttemptEnds := by
  intro s a left ha hleft
  refine ⟨fun tec htec => ⟨fun h => ?_, fun hp ht hr => ?_⟩, fun hs => ?_, fun hs => ?_, fun e cause can hcause hcan => ?errors⟩
  case errors =>
    obtain ⟨noted, ktec, krecv, kerr, ksetup⟩ := CanCtl.failAttempt_note hleft hcause hcan
    refine ⟨fun h u hu => ?_, fun hact h120 h248 u hu => ?_, fun old u hold h248 hu => ?_⟩
    · have low : s.si.can.tec.toNat < 248 := by omega
      have same : errOf (can.tec + 8) can.recv = s.si.can.err := by
        rw [ktec, krecv]
        obtain ⟨hact, ht, hr⟩ | ⟨hp, ht, hcount⟩ := h
        · rw [hact]
          exact errOf_active (by rw [toNat_add_eight_of_lt low]; omega) hr
        · rw [hp]
          exact errOf_passive (hcount.imp_left fun _ => by rw [toNat_add_eight_of_lt low]; omega)
      refine congrArg Outcome.next ((State.attemptError_below ha noted (ktec ▸ low)).trans ?_)
      rw [if_pos same, CanCtl.setCounts_same (same.trans kerr.symm), hu, ktec]
      rfl
    · have passive : errOf (can.tec + 8) can.recv = .passive :=
        errOf_passive (.inl (by rw [ktec, toNat_add_eight_of_lt h248]; omega))
      have moved : errOf (can.tec + 8) can.recv ≠ s.si.can.err := by
        rw [passive, hact]
        decide
      have put : can.setCounts (can.tec + 8) can.recv = { can with tec := s.si.can.tec + 8, err := .passive } := by
        rw [CanCtl.setCounts, passive, ktec]
      have below := (State.attemptError_below ha noted (ktec ▸ h248)).trans (if_neg moved)
      rw [put] at below
      refine ⟨fun hs => congrArg Outcome.next (below.trans ((if_pos hs).trans ?_)), fun hs =>
        ⟨Config.canStateFirst s.fresh, congrArg Outcome.next (below.trans ((if_neg (by simp [hs])).trans ?_))⟩⟩
      · rw [State.setCan_tellErr_changed (new := .passive) rfl hact (by decide), hu]
        rfl
      · cases Config.canStateFirst s.fresh with
        | true =>
          refine (if_pos rfl).trans ?_
          rw [State.setCan_tellErr_changed (s := { s with fresh := s.fresh + 1 }) (new := .passive) rfl hact (by decide),
            State.tellDropped_single hs, hu]
          rfl
        | false =>
          refine (if_neg Bool.false_ne_true).trans ?_
          rw [State.tellDropped_single hs, hact, State.tellErr_changed (show ErrState.passive ≠ .active by decide), hu]
          rfl
    · obtain ⟨ho, rfl⟩ | ⟨ho, rfl⟩ := hold
      · refine congrArg Outcome.next ((State.attemptError_busOff ha noted (ktec ▸ h248) ho (by decide)).trans ?_)
        rw [hu, CanCtl.enterBusOff, ksetup]
        rfl
      · refine congrArg Outcome.next ((State.attemptError_busOff ha noted (ktec ▸ h248) ho (by decide)).trans ?_)
        rw [hu, CanCtl.enterBusOff, ksetup]
        rfl
  · have counted : countDown s.si.can.tec = tec := htec.symm
    have same : errOf tec s.si.can.recv = s.si.can.err := by
      obtain ⟨hact, ht, hr⟩ | ⟨hp, hcount⟩ := h
      · rw [hact]
        refine errOf_active ?_ hr
        rw [htec]
        split
        · decide
        · bv_omega
      · rw [hp]
        exact errOf_passive hcount
    refine congrArg Outcome.next ((State.attemptSent_eq ha).trans ?_)
    rw [counted, CanCtl.finishAttempt_eq hleft, State.setCan_tellErr_same same,
      CanCtl.setCounts_same (c := { s.si.can with attempt := none, buffer := left }) same]
    rfl
  · have counted : countDown s.si.can.tec = tec := htec.symm
    have active := errOf_active ht hr
    refine congrArg Outcome.next ((State.attemptSent_eq ha).trans ?_)
    rw [counted, CanCtl.finishAttempt_eq hleft, State.setCan_tellErr_changed active hp (by decide), CanCtl.setCounts, active]
    rfl
  · refine congrArg Outcome.next ((State.attemptLost_eq ha).trans ?_)
    rw [State.tellDropped_repeated hs, CanCtl.failAttempt_of_repeated hs]
    rfl
  · refine congrArg Outcome.next ((State.attemptLost_eq ha).trans ?_)
    rw [State.tellDropped_single hs, CanCtl.failAttempt_of_single hleft hs]
    rfl

end Sys2Proof.Machine
end

