-- ==== Sys2Proof/Proofs/SignalSettings.lean ====
section
/-! SLOT_SETUP, SLOT_ENABLE and SIGNAL_SETUP (R156, R157, R163), and the ageing of the signals (R160, R162). -/

namespace Sys2Proof.Machine

open Host (Outcome)

/-! ### Slots (R156, R157) -/

section
variable {r : SlotArg} {least most : Int}

/-- The bounds of the reverse code are those of the field (R156). -/
theorem fieldBounds (hsigned : r.signed = true → least = -(2 ^ (r.length - 1) : Int) ∧ most = 2 ^ (r.length - 1) - 1)
    (hplain : r.signed = false → least = 0 ∧ most = 2 ^ r.length - 1) :
    fieldMin r.length r.signed = least ∧ fieldMax r.length r.signed = most := by
  cases hs : r.signed with
  | true =>
    obtain ⟨rfl, rfl⟩ := hsigned hs
    simp [fieldMin, fieldMax]
  | false =>
    obtain ⟨rfl, rfl⟩ := hplain hs
    simp [fieldMin, fieldMax]

theorem slotBad_eq_false : slotBad r = false ↔ r.ident ≤ (if r.ext then 0x1FFFFFFF else 0x7FF)
    ∧ r.mask ≤ (if r.ext then 0x1FFFFFFF else 0x7FF) ∧ r.start ≤ 63 ∧ 1 ≤ r.length ∧ r.length ≤ 16 ∧ r.start + r.length ≤ 64
    ∧ -128 ≤ r.mult ∧ r.mult ≤ 127 ∧ r.mult ≠ 0 ∧ -32768 ≤ r.offset ∧ r.offset ≤ 32767 := by
  rw [slotBad, decide_eq_false_iff_not, identMax]
  omega

theorem slotTarget_gear (h : r.target = some .gear) : slotTarget r
    = if r.reverse < fieldMin r.length r.signed ∨ fieldMax r.length r.signed < r.reverse then none
      else some (.gear r.reverse) := by
  simp only [slotTarget, h]

theorem slotOf_malformed (hmin : fieldMin r.length r.signed = least) (hmax : fieldMax r.length r.signed = most)
    (h : r.length < 1 ∨ 16 < r.length ∨ 63 < r.start ∨ 64 < r.start + r.length ∨ r.mult < -128 ∨ 127 < r.mult ∨ r.mult = 0
      ∨ r.offset < -32768 ∨ 32767 < r.offset ∨ (if r.ext then 0x1FFFFFFF else 0x7FF) < r.ident
      ∨ (if r.ext then 0x1FFFFFFF else 0x7FF) < r.mask ∨ r.target = none
      ∨ r.target = some .gear ∧ (r.reverse < least ∨ most < r.reverse)) : slotOf r = none := by
  unfold slotOf
  split
  · rfl
  · rename_i hgood
    have fields := slotBad_eq_false.1 (Bool.eq_false_of_not_eq_true hgood)
    obtain h | h | h | h | h | h | h | h | h | h | h | ht | ⟨ht, hrev⟩ := h
    iterate 11 (exfalso; omega)
    · simp only [slotTarget, ht, Option.map_none]
    · rw [slotTarget_gear ht, hmin, hmax, if_pos hrev, Option.map_none]

theorem slotTarget_eq {t : SlotTarget} (hmin : fieldMin r.length r.signed = least) (hmax : fieldMax r.length r.signed = most)
    (h : r.target = some .speed ∧ t = .speed ∨ r.target = some .steer ∧ t = .steer ∨ r.target = some .doors ∧ t = .doors
      ∨ r.target = some .gear ∧ least ≤ r.reverse ∧ r.reverse ≤ most ∧ t = .gear r.reverse) : slotTarget r = some t := by
  obtain ⟨ht, rfl⟩ | ⟨ht, rfl⟩ | ⟨ht, rfl⟩ | ⟨ht, hlo, hhi, rfl⟩ := h
  · simp only [slotTarget, ht]
  · simp only [slotTarget, ht]
  · simp only [slotTarget, ht]
  · rw [slotTarget_gear ht, hmin, hmax, if_neg (by omega)]

theorem slotOf_eq {t : SlotTarget} (hgood : slotBad r = false) (ht : slotTarget r = some t) : slotOf r
    = some (SlotSetup.mk r.ext (BitVec.ofNat 29 r.ident) (BitVec.ofNat 29 r.mask) r.start r.length r.signed r.mult r.offset t) := by
  rw [slotOf, hgood, ht]
  rfl

end

section
variable {s : State} {i : Fin 12}

theorem judgeSlotSetup_active (h : s.si.slots[i].enabled = true) (r : SlotArg) :
    judgeSlotSetup i r s = .refuse .slotActive := by
  simp only [judgeSlotSetup, index_val]
  exact if_pos h

theorem judgeSlotSetup_malformed {r : SlotArg} (h : s.si.slots[i].enabled = false) (hr : slotOf r = none) :
    judgeSlotSetup i r s = .refuse .badArg := by
  simp only [judgeSlotSetup, index_val, hr]
  exact if_neg fun hon => Bool.false_ne_true (h.symm.trans hon)

theorem judgeSlotSetup_take {r : SlotArg} {c : SlotSetup} (h : s.si.slots[i].enabled = false) (hr : slotOf r = some c) :
    judgeSlotSetup i r s = .take .ok .empty (s.setSlot i { s.si.slots[i] with setup := some c }) := by
  simp only [judgeSlotSetup, index_val, hr]
  exact if_neg fun hon => Bool.false_ne_true (h.symm.trans hon)

theorem judgeSlotEnable_val (on : Bool) : judgeSlotEnable i on s
    = if on && s.si.slots[i].setup.isNone then .refuse .wrongState
      else .take .ok .empty (s.setSlot i { s.si.slots[i] with enabled := on }) := by
  simp only [judgeSlotEnable, index_val]

end

/-! ### SIGNAL_SETUP (R163) -/

/-- The clamped times of a signal, and the result that tells whether one was clamped. -/
theorem signalTimes (t d : Nat) : clampNat 20 2000 t = max 20 (min t 2000) ∧ clampNat 0 5000 d = min d 5000
    ∧ clampResult (decide (max 20 (min t 2000) ≠ t ∨ min d 5000 ≠ d))
      = if 20 ≤ t ∧ t ≤ 2000 ∧ d ≤ 5000 then .ok else .clamped :=
  ⟨clampNat_eq_max_min (by omega) t, (clampNat_eq_max_min (by omega) d).trans (Nat.zero_max _),
    clampResult_eq_ite (by rw [decide_eq_false_iff_not]; omega)⟩

theorem signalOf_of_gt {n : Nat} (h : 3 < n) : signalOf n = none := by
  obtain ⟨k, rfl⟩ := Nat.exists_eq_add_of_lt h
  rw [show 3 + k + 1 = k + 4 by omega]
  rfl

section
variable (t d c : Nat) (s : State)

theorem judgeSignalSetup_gear : judgeSignalSetup 0 t d c s
    = .take (if 20 ≤ t ∧ t ≤ 2000 ∧ d ≤ 5000 ∧ 1 ≤ c ∧ c ≤ 4 then .ok else .clamped) .empty
      (s.setSi { s.si with
        gear := s.si.gear.setTimes (max 20 (min t 2000)) (min d 5000), confirm := max 1 (min c 4), gearPending := none }) := by
  obtain ⟨ht, hd, -⟩ := signalTimes t d
  rw [← clampResult_eq_ite (changed := decide (max 20 (min t 2000) ≠ t ∨ min d 5000 ≠ d ∨ max 1 (min c 4) ≠ c))
    (by rw [decide_eq_false_iff_not]; omega), ← ht, ← hd, ← clampNat_eq_max_min (show 1 ≤ 4 by omega)]
  rfl

theorem judgeSignalSetup_speed : judgeSignalSetup 1 t d c s
    = .take (if 20 ≤ t ∧ t ≤ 2000 ∧ d ≤ 5000 then .ok else .clamped) .empty
      (s.setSi { s.si with speed := s.si.speed.setTimes (max 20 (min t 2000)) (min d 5000) }) := by
  obtain ⟨ht, hd, hr⟩ := signalTimes t d
  rw [← hr, ← ht, ← hd]
  rfl

theorem judgeSignalSetup_steer : judgeSignalSetup 2 t d c s
    = .take (if 20 ≤ t ∧ t ≤ 2000 ∧ d ≤ 5000 then .ok else .clamped) .empty
      (s.setSi { s.si with steer := s.si.steer.setTimes (max 20 (min t 2000)) (min d 5000) }) := by
  obtain ⟨ht, hd, hr⟩ := signalTimes t d
  rw [← hr, ← ht, ← hd]
  rfl

theorem judgeSignalSetup_doors : judgeSignalSetup 3 t d c s
    = .take (if 20 ≤ t ∧ t ≤ 2000 ∧ d ≤ 5000 then .ok else .clamped) .empty
      (s.setSi { s.si with doors := s.si.doors.setTimes (max 20 (min t 2000)) (min d 5000) }) := by
  obtain ⟨ht, hd, hr⟩ := signalTimes t d
  rw [← hr, ← ht, ← hd]
  rfl

end

/-- Settles O41: the operand's fields, then its target; the signals by their numbers. -/
theorem slotAndSignalSettings : Obligations.SlotAndSignalSettings := by
  refine fun s h i hs hg => ⟨fun n r on hn => ⟨?_, ?_⟩, fun hon r => ?_, fun hoff r least most hsigned hplain =>
    ⟨fun hbad => ?_, fun t h1 h2 h3 h4 h5 h6 h7 h8 h9 h10 ht => ?_⟩, fun hnone => ?_, fun on hok => ?_, fun n t d c hn => ?_,
    fun t d c => guarded_sound (judge := judgeSignalSetup 0 t d c) hs hg (judgeSignalSetup_gear t d c s),
    fun t d c res hres => ⟨?_, ?_, ?_⟩⟩
  · refine guarded_sound_refuse (judge := judgeSlotSetup n r) hs hg ?_
    rw [judgeSlotSetup, index_of_ge hn]
  · refine guarded_sound_refuse (judge := judgeSlotEnable n on) hs hg ?_
    rw [judgeSlotEnable, index_of_ge hn]
  · exact guarded_sound_refuse (judge := judgeSlotSetup i r) hs hg (judgeSlotSetup_active hon r)
  · obtain ⟨hmin, hmax⟩ := fieldBounds hsigned hplain
    exact guarded_sound_refuse (judge := judgeSlotSetup i r) hs hg
      (judgeSlotSetup_malformed hoff (slotOf_malformed hmin hmax hbad))
  · obtain ⟨hmin, hmax⟩ := fieldBounds hsigned hplain
    have good : slotBad r = false := slotBad_eq_false.2 ⟨h9, h10, by omega, h2, h1, h3, h4, h5, h6, h7, h8⟩
    exact guarded_sound (judge := judgeSlotSetup i r) hs hg
      (judgeSlotSetup_take hoff (slotOf_eq good (slotTarget_eq hmin hmax ht)))
  · refine guarded_sound_refuse (judge := judgeSlotEnable i true) hs hg ((judgeSlotEnable_val true).trans (if_pos ?_))
    rw [hnone]
    rfl
  · refine guarded_sound (judge := judgeSlotEnable i on) hs hg ((judgeSlotEnable_val on).trans (if_neg ?_))
    obtain rfl | hset := hok
    · simp
    · rw [Option.isNone_eq_false_iff.2 hset, Bool.and_false]
      exact Bool.false_ne_true
  · refine guarded_sound_refuse (judge := judgeSignalSetup n t d c) hs hg ?_
    simp only [judgeSignalSetup, signalOf_of_gt hn]
  · exact hres ▸ guarded_sound (judge := judgeSignalSetup 1 t d c) hs hg (judgeSignalSetup_speed t d c s)
  · exact hres ▸ guarded_sound (judge := judgeSignalSetup 2 t d c) hs hg (judgeSignalSetup_steer t d c s)
  · exact hres ▸ guarded_sound (judge := judgeSignalSetup 3 t d c) hs hg (judgeSignalSetup_doors t d c s)

/-! ### Ageing (R160, R162) -/

section
variable {s : State} {x : SignalIntake} {sig : Signal}

/-- The arbiter hears of no change while GEAR's effective value stands, nor of one to UNKNOWN (R146, R162). -/
theorem State.tellGear_quiet {old : EffGear} (h : s.si.effGear = old ∨ s.si.effGear = .unknown) : s.tellGear old = s := by
  unfold tellGear
  split
  · rfl
  · rename_i hne
    rw [h.resolve_left hne]
    rfl

/-- A change of a signal's state is told (R160). -/
theorem State.changeSignal_told {new old : Nat} (hn : (x.stateOf sig).code = new) (ho : (s.si.stateOf sig).code = old)
    (hne : new ≠ old) (hg : x.effGear = s.si.effGear ∨ x.effGear = .unknown) :
    s.changeSignal sig x = (s.setSi x).notify .signalState (signalNumber sig) (new + 256 * old) := by
  subst hn ho
  have told : (s.setSi x).tellSignal sig (s.si.stateOf sig)
      = (s.setSi x).notify .signalState (signalNumber sig) ((x.stateOf sig).code + 256 * (s.si.stateOf sig).code) := if_neg hne
  rw [changeSignal, told, tellGear_quiet hg]

variable {α : Type} {r : Sig α}

theorem Sig.timeoutExpiry_held (h : r.st = .fresh s.tbu.now) (hh : r.hold ≠ 0) :
    r.timeoutExpiry s = { r with st := .held (s.tbu.now + BitVec.ofNat 32 (r.hold * 1000)) } := by
  simp only [timeoutExpiry, h, State.reached_iff.2 rfl, hh]
  rfl

theorem Sig.timeoutExpiry_unknown (h : r.st = .fresh s.tbu.now) (hh : r.hold = 0) :
    r.timeoutExpiry s = { r with st := .unknown } := by
  simp only [timeoutExpiry, h, State.reached_iff.2 rfl, hh, if_true]

theorem Sig.holdExpiry_due (h : r.st = .held s.tbu.now) : r.holdExpiry s = { r with st := .unknown } := by
  simp only [holdExpiry, h, State.reached_iff.2 rfl, if_true]

/-- From FRESH to HELD the effective GEAR stands (R162). -/
theorem SignalIntake.effGear_held {si : SignalIntake} {d d' : Word32} (h : si.gear.st = .fresh d) :
    ({ si with gear := { si.gear with st := .held d' } } : SignalIntake).effGear = si.effGear := by
  rw [effGear_eq, effGear_eq, h]
  rfl

theorem SignalIntake.effGear_unknown (si : SignalIntake) :
    ({ si with gear := { si.gear with st := .unknown } } : SignalIntake).effGear = .unknown := by
  rw [effGear_eq]
  rfl

end

/-- Settles O42: each step of a signal's age is a change of its state, told by both codes. -/
theorem signalsAge : Obligations.SignalsAge := by
  refine fun s => ⟨fun h => ⟨fun hh => ?_, fun hh => ?_⟩, fun h => ?_, fun h => ⟨fun hh => ?_, fun hh => ?_⟩, fun h => ?_,
    fun h => ⟨fun hh => ?_, fun hh => ?_⟩, fun h => ?_, fun h => ⟨fun hh => ?_, fun hh => ?_⟩, fun h => ?_⟩
  all_goals refine congrArg Outcome.next ?_
  · rw [State.signalTimeout, Sig.timeoutExpiry_held h hh]
    exact State.changeSignal_told rfl (congrArg SigState.code h) (by decide) (.inl (SignalIntake.effGear_held h))
  · rw [State.signalTimeout, Sig.timeoutExpiry_unknown h hh]
    exact State.changeSignal_told rfl (congrArg SigState.code h) (by decide) (.inr s.si.effGear_unknown)
  · rw [State.signalHold, Sig.holdExpiry_due h]
    exact State.changeSignal_told rfl (congrArg SigState.code h) (by decide) (.inr s.si.effGear_unknown)
  · rw [State.signalTimeout, Sig.timeoutExpiry_held h hh]
    exact State.changeSignal_told rfl (congrArg SigState.code h) (by decide) (.inl rfl)
  · rw [State.signalTimeout, Sig.timeoutExpiry_unknown h hh]
    exact State.changeSignal_told rfl (congrArg SigState.code h) (by decide) (.inl rfl)
  · rw [State.signalHold, Sig.holdExpiry_due h]
    exact State.changeSignal_told rfl (congrArg SigState.code h) (by decide) (.inl rfl)
  · rw [State.signalTimeout, Sig.timeoutExpiry_held h hh]
    exact State.changeSignal_told rfl (congrArg SigState.code h) (by decide) (.inl rfl)
  · rw [State.signalTimeout, Sig.timeoutExpiry_unknown h hh]
    exact State.changeSignal_told rfl (congrArg SigState.code h) (by decide) (.inl rfl)
  · rw [State.signalHold, Sig.holdExpiry_due h]
    exact State.changeSignal_told rfl (congrArg SigState.code h) (by decide) (.inl rfl)
  · rw [State.signalTimeout, Sig.timeoutExpiry_held h hh]
    exact State.changeSignal_told rfl (congrArg SigState.code h) (by decide) (.inl rfl)
  · rw [State.signalTimeout, Sig.timeoutExpiry_unknown h hh]
    exact State.changeSignal_told rfl (congrArg SigState.code h) (by decide) (.inl rfl)
  · rw [State.signalHold, Sig.holdExpiry_due h]
    exact State.changeSignal_told rfl (congrArg SigState.code h) (by decide) (.inl rfl)

end Sys2Proof.Machine
end

