-- ==== Sys2Proof/Proofs/SlotFields.lean ====
section
/-! The raw value of a slot's field (R158): the bits of the payload that it takes, in two's complement where it is signed. -/

namespace Sys2Proof.Machine

section
variable {c : SlotSetup} {data : List Byte}

/-- Bit `n` of the payload's number is bit n mod 8 of its byte n div 8 (R158). -/
theorem payloadNat_testBit (data : List Byte) (n : Nat) :
    (payloadNat data).testBit n = (byteAt data (n / 8)).getLsbD (n % 8) := by
  induction data generalizing n with
  | nil => simp [payloadNat, byteAt]
  | cons b l ih =>
    have parts : payloadNat (b :: l) = 2 ^ 8 * payloadNat l + b.toNat := Nat.add_comm _ _
    rw [parts, Nat.testBit_two_pow_mul_add _ b.isLt]
    split
    · rename_i h
      rw [Nat.div_eq_of_lt h, Nat.mod_eq_of_lt h]
      rfl
    · rename_i h
      obtain ⟨k, rfl⟩ := Nat.exists_eq_add_of_le' (Nat.not_lt.1 h)
      rw [Nat.add_sub_cancel, ih, Nat.add_div_right k (by omega), Nat.add_mod_right]
      rfl

theorem SlotSetup.field_lt : raw.field c data < 2 ^ c.length := Nat.mod_lt _ (Nat.two_pow_pos _)

theorem SlotSetup.raw_eq : c.raw data
    = if c.signed = true ∧ 2 ^ (c.length - 1) ≤ raw.field c data then (raw.field c data : Int) - (2 ^ c.length : Nat)
      else raw.field c data := rfl

/-- The field, whatever its sign, is the raw value modulo the field's range. -/
theorem SlotSetup.raw_emod : c.raw data % 2 ^ c.length = raw.field c data := by
  have hlt : (raw.field c data : Int) < 2 ^ c.length := by exact_mod_cast field_lt
  have small : (raw.field c data : Int) % 2 ^ c.length = raw.field c data := Int.emod_eq_of_lt (Int.natCast_nonneg _) hlt
  rw [raw_eq]
  split
  · rw [Nat.cast_pow, Nat.cast_ofNat, Int.sub_emod_right, small]
  · exact small

theorem SlotSetup.raw_signed (h1 : 1 ≤ c.length) (hs : c.signed = true) :
    -(2 ^ (c.length - 1) : Int) ≤ c.raw data ∧ c.raw data < 2 ^ (c.length - 1) := by
  have double : 2 ^ c.length = 2 * 2 ^ (c.length - 1) := by
    rw [← Nat.pow_succ', Nat.succ_eq_add_one, Nat.sub_add_cancel h1]
  have hlt := field_lt (c := c) (data := data)
  have half : ((2 ^ (c.length - 1) : Nat) : Int) = 2 ^ (c.length - 1) := by push_cast; rfl
  rw [raw_eq, ← half]
  split
  · omega
  · rename_i hsmall
    have : raw.field c data < 2 ^ (c.length - 1) := Nat.not_le.1 fun h => hsmall ⟨hs, h⟩
    omega

theorem SlotSetup.raw_plain (hs : c.signed = false) : 0 ≤ c.raw data ∧ c.raw data < 2 ^ c.length := by
  rw [raw_eq, if_neg (by simp [hs])]
  exact ⟨Int.natCast_nonneg _, by exact_mod_cast field_lt⟩

/-- The field's bits are those of the payload from its start bit on (R158). -/
theorem SlotSetup.raw_testBit {k : Nat} (hk : k < c.length) : (c.raw data % 2 ^ c.length).toNat.testBit k
    = (byteAt data ((c.start + k) / 8)).getLsbD ((c.start + k) % 8) := by
  rw [raw_emod, Int.toNat_natCast, raw.field, Nat.testBit_mod_two_pow, Nat.testBit_div_two_pow, payloadNat_testBit,
    decide_eq_true hk, Bool.true_and, Nat.add_comm k]

end

end Sys2Proof.Machine
end

