-- ==== Sys2Proof/Proofs/SlotOrder.lean ====
section
/-! A received frame and its slots (R158): what a slot does with the frame neither reads nor changes the other slots or the
controller's mode, so the slots may be taken one after the other. -/

namespace Sys2Proof.Machine

open Host (Outcome)

/-! ### What a change of the effective GEAR does (R146) -/

section
variable {s : State} {w : Fin 16}

theorem State.gearChange_reverse_stands (h : s.ca.reverseView = none ∨ s.ca.hasGear = true) :
    s.gearChange .reverse = s.setLinger none := by
  have view : (s.setLinger none).ca.reverseView = s.ca.reverseView := rfl
  have gear : (s.setLinger none).ca.hasGear = s.ca.hasGear := rfl
  cases hv : s.ca.reverseView with
  | none => simp only [gearChange, view, hv]
  | some w => simp only [gearChange, view, hv, gear, h.resolve_left (by simp [hv]), if_true]

theorem State.gearChange_reverse_makes (hv : s.ca.reverseView = some w) (hg : s.ca.hasGear = false) :
    s.gearChange .reverse = (s.setLinger none).makeGear w := by
  have view : (s.setLinger none).ca.reverseView = some w := hv
  have gear : (s.setLinger none).ca.hasGear = false := hg
  simp only [gearChange, view, gear, Bool.false_eq_true, if_false]

theorem State.gearChange_notReverse_stands (h : s.ca.hasGear = false ∨ s.ca.lingerTimer.isSome = true) :
    s.gearChange .notReverse = s := by
  refine if_neg fun hb => ?_
  obtain ⟨hg, hl⟩ := Bool.and_eq_true_iff.1 hb
  obtain h | h := h
  · simp [h] at hg
  · simp [Option.isNone_iff_eq_none.1 hl] at h

theorem State.gearChange_notReverse_moves (hg : s.ca.hasGear = true) (hl : s.ca.lingerTimer = none) :
    s.gearChange .notReverse = if s.ca.linger = 0 then s.dropGear else s.setLinger (some (s.afterMs s.ca.linger)) :=
  if_pos (by simp [hg, hl])

end

/-! ### What a slot does with a frame that it accepts (R158 to R161) -/

section
variable {s : State} {i : Fin 12} {c : SlotSetup} {data : List Byte}

theorem State.updateSignal_gear {rev : Int} (h : c.target = .gear rev) : s.updateSignal i c data
    = s.changeSignal .gear (s.si.gearUpdate s i (if c.raw data = rev then .reverse else .notReverse)) := by
  simp only [updateSignal, h]

theorem State.updateSignal_speed (h : c.target = .speed) : s.updateSignal i c data
    = s.changeSignal .speed { s.si with
        speed := s.si.speed.update s i (clampInt 0 65535 (c.scaled data)).toNat
          (decide (clampInt 0 65535 (c.scaled data) ≠ c.scaled data)) } := by
  simp only [updateSignal, h]

theorem State.updateSignal_steer (h : c.target = .steer) : s.updateSignal i c data
    = s.changeSignal .steer { s.si with
        steer := s.si.steer.update s i (clampInt (-8000) 8000 (c.scaled data))
          (decide (clampInt (-8000) 8000 (c.scaled data) ≠ c.scaled data)) } := by
  simp only [updateSignal, h]

theorem State.updateSignal_doors (h : c.target = .doors) : s.updateSignal i c data
    = s.changeSignal .doors { s.si with doors := s.si.doors.update s i (.ofInt 8 (c.raw data)) false } := by
  simp only [updateSignal, h]

theorem State.offerSlot_of_accepts {f : CanFrame} (h : s.si.slots[i].accepts f = some c) : s.offerSlot f i
    = if c.short f.data then { s with si := { s.si with can := { s.si.can with short := bump s.si.can.short } } }
      else s.updateSignal i c f.data := by
  simp only [offerSlot, h]

theorem State.offerSlot_of_refuses {f : CanFrame} (h : s.si.slots[i].accepts f = none) : s.offerSlot f i = s := by
  simp only [offerSlot, h]

theorem CanSlot.accepts_of_disabled {x : CanSlot} {f : CanFrame} (h : x.enabled = false) : x.accepts f = none := by
  rw [accepts, h]
  rfl

end

/-! ### The slots and the mode stand beside the updates -/

/-- The intake with other slots, another setup and another error state. -/
def SignalIntake.reslot (x : SignalIntake) (v : Vector CanSlot 12) (p : CanSetup) (e : ErrState) : SignalIntake :=
  { x with slots := v, can := { x.can with setup := p, err := e } }

/-- The state with other slots, another setup and another error state of the controller. -/
def State.reslot (s : State) (v : Vector CanSlot 12) (p : CanSetup) (e : ErrState) : State := s.setSi (s.si.reslot v p e)

section
variable {s : State} {v : Vector CanSlot 12} {p : CanSetup} {e : ErrState}

theorem State.reslot_self (s : State) : s.reslot s.si.slots s.si.can.setup s.si.can.err = s := rfl

theorem State.reslot_reslot (v' : Vector CanSlot 12) (p' : CanSetup) (e' : ErrState) :
    (s.reslot v p e).reslot v' p' e' = s.reslot v' p' e' := rfl

theorem State.reslot_notifyOwner (q : Port) (k : NoticeKind) (a b : Nat) :
    (s.reslot v p e).notifyOwner q k a b = (s.notifyOwner q k a b).reslot v p e := by
  cases q <;> rfl

theorem State.reslot_makeRoom (r : Nat) :
    (s.reslot v p e).makeRoom r = (s.makeRoom r).map fun t => t.reslot v p e := by
  have arbiter : (s.reslot v p e).ca = s.ca := rfl
  simp only [makeRoom, arbiter]
  split
  · rfl
  · cases s.ca.stack.getLast? with
    | none => rfl
    | some x =>
      dsimp only
      split
      · cases x.source.port with
        | none => rfl
        | some q => exact congrArg some (reslot_notifyOwner (s := s.setStack _) q _ _ _)
      · rfl

theorem State.reslot_makeGear (w : Fin 16) : (s.reslot v p e).makeGear w = (s.makeGear w).reslot v p e := by
  rw [makeGear, makeGear, reslot_makeRoom]
  cases s.makeRoom 2 <;> rfl

theorem State.reslot_gearChange (g : EffGear) : (s.reslot v p e).gearChange g = (s.gearChange g).reslot v p e := by
  have arbiter : (s.reslot v p e).ca = s.ca := rfl
  cases g with
  | unknown => rfl
  | reverse =>
    by_cases h : s.ca.reverseView = none ∨ s.ca.hasGear = true
    · rw [gearChange_reverse_stands h, gearChange_reverse_stands (s := s.reslot v p e) h]
      rfl
    · rw [not_or, Bool.not_eq_true] at h
      obtain ⟨w, hw⟩ := Option.ne_none_iff_exists'.1 h.1
      rw [gearChange_reverse_makes hw h.2, gearChange_reverse_makes (s := s.reslot v p e) hw h.2]
      exact reslot_makeGear (s := s.setLinger none) w
  | notReverse =>
    by_cases h : s.ca.hasGear = false ∨ s.ca.lingerTimer.isSome = true
    · rw [gearChange_notReverse_stands h, gearChange_notReverse_stands (s := s.reslot v p e) h]
    · rw [not_or, Bool.not_eq_false, Bool.not_eq_true, Option.isSome_eq_false_iff, Option.isNone_iff_eq_none] at h
      rw [gearChange_notReverse_moves h.1 h.2, gearChange_notReverse_moves (s := s.reslot v p e) h.1 h.2, arbiter]
      split <;> rfl

theorem SignalIntake.reslot_stateOf (x : SignalIntake) (sig : Signal) : (x.reslot v p e).stateOf sig = x.stateOf sig := by
  cases sig <;> rfl

theorem State.reslot_tellSignal (sig : Signal) (old : SigState) :
    (s.reslot v p e).tellSignal sig old = (s.tellSignal sig old).reslot v p e := by
  have state : (s.reslot v p e).si.stateOf sig = s.si.stateOf sig := s.si.reslot_stateOf sig
  simp only [tellSignal, state]
  split <;> rfl

theorem State.reslot_tellGear (old : EffGear) : (s.reslot v p e).tellGear old = (s.tellGear old).reslot v p e := by
  have gear : (s.reslot v p e).si.effGear = s.si.effGear := rfl
  simp only [tellGear, gear]
  split
  · rfl
  · exact reslot_gearChange _

theorem State.reslot_changeSignal (sig : Signal) (x : SignalIntake) :
    (s.reslot v p e).changeSignal sig (x.reslot v p e) = (s.changeSignal sig x).reslot v p e := by
  have state : (s.reslot v p e).si.stateOf sig = s.si.stateOf sig := s.si.reslot_stateOf sig
  have put : (s.reslot v p e).setSi (x.reslot v p e) = (s.setSi x).reslot v p e := rfl
  rw [changeSignal, state, put, reslot_tellSignal]
  exact reslot_tellGear _

theorem SignalIntake.reslot_gearUpdate (x : SignalIntake) (i : Fin 12) (g : Gear) :
    (x.reslot v p e).gearUpdate (s.reslot v p e) i g = (x.gearUpdate s i g).reslot v p e := by
  have gear : (x.reslot v p e).gear = x.gear := rfl
  have votes : (x.reslot v p e).gearPending = x.gearPending := rfl
  have confirm : (x.reslot v p e).confirm = x.confirm := rfl
  simp only [gearUpdate, gearTrusted, gearUntrusted, gear, votes, confirm]
  split_ifs <;> rfl

theorem State.reslot_updateSignal (i : Fin 12) (c : SlotSetup) (data : List Byte) :
    (s.reslot v p e).updateSignal i c data = (s.updateSignal i c data).reslot v p e := by
  cases ht : c.target with
  | gear rev =>
    rw [updateSignal_gear ht, updateSignal_gear ht, ← reslot_changeSignal, ← SignalIntake.reslot_gearUpdate]
    rfl
  | speed =>
    rw [updateSignal_speed ht, updateSignal_speed ht, ← reslot_changeSignal]
    rfl
  | steer =>
    rw [updateSignal_steer ht, updateSignal_steer ht, ← reslot_changeSignal]
    rfl
  | doors =>
    rw [updateSignal_doors ht, updateSignal_doors ht, ← reslot_changeSignal]
    rfl

/-- A slot does the same whatever stands in the other slots, and in whatever mode. -/
theorem State.reslot_offerSlot (f : CanFrame) {i : Fin 12} (h : v[i] = s.si.slots[i]) :
    (s.reslot v p e).offerSlot f i = (s.offerSlot f i).reslot v p e := by
  cases ha : s.si.slots[i].accepts f with
  | none => rw [offerSlot_of_refuses ha, offerSlot_of_refuses (s := s.reslot v p e) (h ▸ ha)]
  | some c =>
    rw [offerSlot_of_accepts ha, offerSlot_of_accepts (s := s.reslot v p e) (h ▸ ha)]
    split
    · rfl
    · exact reslot_updateSignal i c f.data

/-- A slot keeps the slots, the setup and the error state. -/
theorem State.offerSlot_keeps (s : State) (f : CanFrame) (i : Fin 12) : (s.offerSlot f i).si.slots = s.si.slots
    ∧ (s.offerSlot f i).si.can.setup = s.si.can.setup ∧ (s.offerSlot f i).si.can.err = s.si.can.err := by
  have h := s.reslot_offerSlot (v := s.si.slots) (p := s.si.can.setup) (e := s.si.can.err) f (i := i) rfl
  rw [reslot_self] at h
  rw [h]
  exact ⟨rfl, rfl, rfl⟩

/-- The slots of a list, offered the frame one after the other. -/
def State.offerSlots (s : State) (f : CanFrame) (l : List (Fin 12)) : State := l.foldl (State.offerSlot f) s

theorem State.offerSlots_append (f : CanFrame) (l l' : List (Fin 12)) :
    s.offerSlots f (l ++ l') = (s.offerSlots f l).offerSlots f l' := List.foldl_append

theorem State.offerSlots_keeps (s : State) (f : CanFrame) (l : List (Fin 12)) : (s.offerSlots f l).si.slots = s.si.slots
    ∧ (s.offerSlots f l).si.can.setup = s.si.can.setup ∧ (s.offerSlots f l).si.can.err = s.si.can.err := by
  induction l generalizing s with
  | nil => exact ⟨rfl, rfl, rfl⟩
  | cons i l ih =>
    obtain ⟨h1, h2, h3⟩ := ih (s.offerSlot f i)
    obtain ⟨k1, k2, k3⟩ := s.offerSlot_keeps f i
    exact ⟨h1.trans k1, h2.trans k2, h3.trans k3⟩

theorem State.reslot_offerSlots {f : CanFrame} {l : List (Fin 12)} (h : ∀ i ∈ l, v[i] = s.si.slots[i]) :
    (s.reslot v p e).offerSlots f l = (s.offerSlots f l).reslot v p e := by
  induction l generalizing s with
  | nil => rfl
  | cons i l ih =>
    obtain ⟨hi, hl⟩ := List.forall_mem_cons.1 h
    show ((s.reslot v p e).offerSlot f i).offerSlots f l = ((s.offerSlot f i).offerSlots f l).reslot v p e
    rw [reslot_offerSlot f hi]
    exact ih fun j hj => (hl j hj).trans (by rw [(s.offerSlot_keeps f i).1])

/-- The slots that are not enabled do nothing. -/
theorem State.offerSlots_enabled (f : CanFrame) (l : List (Fin 12)) {q : Fin 12 → Bool}
    (hq : ∀ i : Fin 12, q i = s.si.slots[i].enabled) : s.offerSlots f l = s.offerSlots f (l.filter q) := by
  induction l generalizing s with
  | nil => rfl
  | cons i l ih =>
    have rest := ih (s := s.offerSlot f i) fun j => (hq j).trans (by rw [(s.offerSlot_keeps f i).1])
    cases he : q i with
    | true =>
      rw [List.filter_cons_of_pos he]
      exact rest
    | false =>
      rw [List.filter_cons_of_neg (by simp [he])]
      have idle : s.offerSlot f i = s := offerSlot_of_refuses (CanSlot.accepts_of_disabled ((hq i).symm.trans he))
      rw [idle] at rest
      show (s.offerSlot f i).offerSlots f l = _
      rw [idle]
      exact rest

theorem State.offerFrame_remote {f : CanFrame} (h : f.remote = true) : s.offerFrame f = s := if_pos h

theorem State.offerFrame_data {f : CanFrame} (h : f.remote = false) {q : Fin 12 → Bool}
    (hq : ∀ i : Fin 12, q i = s.si.slots[i].enabled) : s.offerFrame f = s.offerSlots f ((List.finRange 12).filter q) :=
  (if_neg (by simp [h])).trans (offerSlots_enabled f _ hq)

end

/-- The least of the chosen elements of an ascending list stands first among them. -/
theorem filter_least {n : Nat} {l : List (Fin n)} {i : Fin n} {p : Fin n → Bool} (hsorted : l.Pairwise (· < ·)) (hi : i ∈ l)
    (hleast : ∀ j ∈ l, p j = true → i ≤ j) :
    l.filter p = (if p i then [i] else []) ++ l.filter fun j => p j && decide (j ≠ i) := by
  induction l with
  | nil => exact absurd hi List.not_mem_nil
  | cons a l ih =>
    obtain ⟨hlt, hl⟩ := List.pairwise_cons.1 hsorted
    obtain rfl | hmem := List.mem_cons.1 hi
    · have others : (l.filter fun j => p j && decide (j ≠ i)) = l.filter p :=
        List.filter_congr fun j hj => by simp [(hlt j hj).ne']
      rw [List.filter_cons_of_neg (p := fun j => p j && decide (j ≠ i)) (by simp), others]
      cases hp : p i with
      | true => rw [List.filter_cons_of_pos hp]; rfl
      | false => rw [List.filter_cons_of_neg (by simp [hp])]; rfl
    · have unchosen : p a = false := Bool.eq_false_of_not_eq_true fun hp =>
        absurd (hleast a List.mem_cons_self hp) (not_le.2 (hlt i hmem))
      rw [List.filter_cons_of_neg (by simp [unchosen]), List.filter_cons_of_neg (by simp [unchosen])]
      exact ih hl hmem fun j hj => hleast j (List.mem_cons_of_mem a hj)

section
variable {s : State} {i : Fin 12} {only rest : Vector CanSlot 12} {f : CanFrame}

/-- Slot `i`, if it is enabled. -/
def State.slotIfEnabled (s : State) (i : Fin 12) : List (Fin 12) := if s.si.slots[i].enabled then [i] else []

/-- The enabled slots other than `i`, in index order. -/
def State.slotsBeside (s : State) (i : Fin 12) : List (Fin 12) :=
  (List.finRange 12).filter fun j => s.si.slots[j].enabled && decide (j ≠ i)

theorem State.reslot_of_eq {v : Vector CanSlot 12} {p : CanSetup} {e : ErrState} (hv : s.si.slots = v)
    (hp : s.si.can.setup = p) (he : s.si.can.err = e) : s.reslot v p e = s := by
  subst hv hp he
  rfl

/-- The lowest of the enabled slots comes first, then the others. -/
theorem State.offerFrame_least (hr : f.remote = false) (hleast : ∀ j : Fin 12, s.si.slots[j].enabled = true → i ≤ j) :
    s.offerFrame f = (s.offerSlots f (s.slotIfEnabled i)).offerSlots f (s.slotsBeside i) := by
  rw [offerFrame_data hr fun j => rfl, filter_least (p := fun j => s.si.slots[j].enabled) (List.pairwise_lt_finRange 12)
    (List.mem_finRange i) fun j _ => hleast j, offerSlots_append]
  rfl

section
variable {p : CanSetup} {e : ErrState}

theorem State.offerFrame_only (hr : f.remote = false)
    (honly : ∀ j : Fin 12, only[j] = if j = i then s.si.slots[j] else { s.si.slots[j] with enabled := false }) :
    (s.reslot only p e).offerFrame f = (s.offerSlots f (s.slotIfEnabled i)).reslot only p e := by
  have alone : ((List.finRange 12).filter fun j => decide (j = i) && s.si.slots[i].enabled) = s.slotIfEnabled i := by
    rw [filter_least (p := fun j => decide (j = i) && s.si.slots[i].enabled) (List.pairwise_lt_finRange 12)
      (List.mem_finRange i) fun j _ hj => (of_decide_eq_true (Bool.and_eq_true_iff.1 hj).1).ge]
    simp [slotIfEnabled]
  rw [offerFrame_data hr (q := fun j => decide (j = i) && s.si.slots[i].enabled) fun j => ?_, alone, reslot_offerSlots]
  · intro j hj
    obtain rfl : j = i := by
      unfold slotIfEnabled at hj
      split at hj
      · exact List.mem_singleton.1 hj
      · exact absurd hj List.not_mem_nil
    exact (honly j).trans (if_pos rfl)
  · show _ = only[j].enabled
    rw [honly]
    by_cases hj : j = i
    · subst hj; simp
    · simp [hj]

theorem State.offerFrame_rest (hr : f.remote = false) {t : State} (ht : t.si.slots = s.si.slots)
    (hrest : ∀ j : Fin 12, rest[j] = if j = i then { s.si.slots[j] with enabled := false } else s.si.slots[j]) :
    (t.reslot rest p e).offerFrame f = (t.offerSlots f (s.slotsBeside i)).reslot rest p e := by
  rw [offerFrame_data hr (q := fun j => s.si.slots[j].enabled && decide (j ≠ i)) fun j => ?_, ← slotsBeside, reslot_offerSlots]
  · intro j hj
    have hne : j ≠ i := of_decide_eq_true (Bool.and_eq_true_iff.1 (List.mem_filter.1 hj).2).2
    rw [hrest, if_neg hne, ht]
  · show _ = rest[j].enabled
    rw [hrest]
    by_cases hj : j = i <;> simp [hj]

end

/-- The lowest of the enabled slots takes the frame, then the others do what they would do alone (R158). -/
theorem State.offerFrame_split (hleast : ∀ j : Fin 12, s.si.slots[j].enabled = true → i ≤ j)
    (honly : ∀ j : Fin 12, only[j] = if j = i then s.si.slots[j] else { s.si.slots[j] with enabled := false })
    (hrest : ∀ j : Fin 12, rest[j] = if j = i then { s.si.slots[j] with enabled := false } else s.si.slots[j])
    (p p' : CanSetup) (e e' : ErrState) :
    ((((s.reslot only p e).offerFrame f).reslot rest p' e').offerFrame f).reslot s.si.slots s.si.can.setup s.si.can.err
      = s.offerFrame f := by
  cases hr : f.remote with
  | true => simp only [offerFrame_remote hr, reslot_reslot, reslot_self]
  | false =>
    obtain ⟨k1, k2, k3⟩ := s.offerSlots_keeps f (s.slotIfEnabled i)
    obtain ⟨m1, m2, m3⟩ := (s.offerSlots f (s.slotIfEnabled i)).offerSlots_keeps f (s.slotsBeside i)
    rw [offerFrame_only hr honly, reslot_reslot, offerFrame_rest hr k1 hrest, reslot_reslot, offerFrame_least hr hleast,
      reslot_of_eq (m1.trans k1) (m2.trans k2) (m3.trans k3)]

/-- With no slot enabled a frame does nothing. -/
theorem State.offerFrame_none (h : ∀ j : Fin 12, s.si.slots[j].enabled = false) : s.offerFrame f = s := by
  cases hr : f.remote with
  | true => exact offerFrame_remote hr
  | false =>
    rw [offerFrame_data hr (q := fun _ => false) fun j => (h j).symm, List.filter_false]
    rfl

/-- With one slot enabled the frame is that slot's. -/
theorem State.offerFrame_single (hr : f.remote = false) (hother : ∀ j : Fin 12, j ≠ i → s.si.slots[j].enabled = false)
    (hi : s.si.slots[i].enabled = true) : s.offerFrame f = s.offerSlot f i := by
  have beside : s.slotsBeside i = [] := List.filter_eq_nil_iff.2 fun j _ hj => by
    obtain ⟨he, hne⟩ := Bool.and_eq_true_iff.1 hj
    exact Bool.false_ne_true ((hother j (of_decide_eq_true hne)).symm.trans he)
  have least (j : Fin 12) (hj : s.si.slots[j].enabled = true) : i ≤ j :=
    not_lt.1 fun hlt => Bool.false_ne_true ((hother j hlt.ne).symm.trans hj)
  rw [offerFrame_least hr least, beside, slotIfEnabled, if_pos hi]
  rfl

end

end Sys2Proof.Machine
end

