-- ==== Sys2Proof/Proofs/CanFrames.lean ====
section
/-! CAN_FRAME_RECEIVED (R155, R158 to R164): the controller's part, then the slots', then what the arbiter makes of GEAR. -/

namespace Sys2Proof.Machine

open Host (Outcome)

/-! ### The controller (R155, R164) -/

section
variable {s : State} {f : CanFrame}

theorem State.receiveFrame_deaf (h : s.si.can.hears = false) : s.receiveFrame f = s := by
  rw [receiveFrame, h]
  rfl

theorem State.receiveFrame_frozen (h : s.si.can.hears = true) (hc : s.si.can.countsErrors = false) :
    s.receiveFrame f = s.offerFrame f := by
  simp only [receiveFrame, h, hc, Bool.not_true, Bool.not_false, Bool.false_eq_true, if_false, if_true]

/-- In NORMAL the frame is acknowledged and REC falls (R155, R164). -/
theorem CanCtl.acknowledge_setCounts {c : CanCtl} (hm : c.setup.mode = .normal) (he : c.err ≠ .busOff) (tec recv : Byte) :
    c.acknowledge.setCounts tec recv = { c with tec := tec, recv := recv, err := errOf tec recv, acks := c.acks + 1 } := by
  have acks : c.acknowledges = true := decide_eq_true ⟨hm, he⟩
  rw [acknowledge, acks]
  rfl

theorem State.receiveFrame_counted (hm : s.si.can.setup.mode = .normal) (he : s.si.can.err ≠ .busOff)
    (hsame : errOf s.si.can.tec (countDown s.si.can.recv) = s.si.can.err) : s.receiveFrame f
      = (s.setCan { s.si.can with recv := countDown s.si.can.recv, acks := s.si.can.acks + 1 }).offerFrame f := by
  have hears := CanCtl.hears_of_mode (c := s.si.can) (by simp [hm]) he
  have put : s.si.can.acknowledge.setCounts s.si.can.tec (countDown s.si.can.recv)
      = { s.si.can with recv := countDown s.si.can.recv, acks := s.si.can.acks + 1 } := by
    rw [CanCtl.acknowledge_setCounts hm he, hsame]
  simp only [receiveFrame, hears, CanCtl.countsErrors_of_normal hm he, put, Bool.not_true, Bool.false_eq_true, if_false]
  exact if_pos rfl

/-- What the controller is after a reception that leaves its error state. -/
theorem State.receiveFrame_eq {can : CanCtl}
    (h : ((s.si.can.setup.mode = .listen ∨ s.si.can.setup.mode = .loopback) ∧ s.si.can.err ≠ .busOff ∧ can = s.si.can)
      ∨ (s.si.can.setup.mode = .normal ∧ s.si.can.err = .active ∧ s.si.can.tec.toNat < 128 ∧ s.si.can.recv.toNat < 128
        ∧ can = { s.si.can with
            recv := if s.si.can.recv = 0 then 0 else s.si.can.recv - 1, acks := s.si.can.acks + 1 })) :
    s.receiveFrame f = (s.setCan can).offerFrame f ∧ can.setup = s.si.can.setup ∧ can.err = s.si.can.err
      ∧ s.si.can.err ≠ .busOff := by
  obtain ⟨hm, he, rfl⟩ | ⟨hm, ha, ht, hr, rfl⟩ := h
  · refine ⟨receiveFrame_frozen (CanCtl.hears_of_mode ?_ he) (CanCtl.countsErrors_of_other ?_), rfl, rfl, he⟩
    · obtain h | h := hm <;> simp [h]
    · obtain h | h := hm <;> simp [h]
  · have low : (countDown s.si.can.recv).toNat < 128 := by
      unfold countDown
      split
      · decide
      · bv_omega
    have alive : s.si.can.err ≠ .busOff := by simp [ha]
    exact ⟨receiveFrame_counted hm alive ((errOf_active ht low).trans ha.symm), rfl, rfl, alive⟩

/-- With the slots off, the return to ERROR_ACTIVE is all that is told, whichever comes first. -/
theorem State.recovery_told (hoff : ∀ i : Fin 12, s.si.slots[i].enabled = false) (he : s.si.can.err = .active) :
    (s.tellErr .passive).offerFrame f = s.notify .canState 0 (0 + 256 * 1)
      ∧ (s.offerFrame f).tellErr .passive = s.notify .canState 0 (0 + 256 * 1) := by
  have told : s.tellErr .passive = s.notify .canState 0 (0 + 256 * 1) := by
    rw [tellErr_changed (by simp [he]), he]
    rfl
  have quiet : (s.notify .canState 0 (0 + 256 * 1)).offerFrame f = s.notify .canState 0 (0 + 256 * 1) :=
    offerFrame_none fun i => (congrArg (fun x : SignalIntake => x.slots[i].enabled) (notify_si s .canState 0 _)).trans (hoff i)
  rw [told, offerFrame_none hoff]
  exact ⟨quiet, told⟩

theorem State.receiveFrame_recovers (hm : s.si.can.setup.mode = .normal) (hp : s.si.can.err = .passive)
    (ht : s.si.can.tec.toNat < 128) (hr : s.si.can.recv = 128) (hoff : ∀ i : Fin 12, s.si.slots[i].enabled = false)
    {u : State} (hu : u = { s with
        fresh := s.fresh + 1
        si := { s.si with can := { s.si.can with recv := 127, err := .active, acks := s.si.can.acks + 1 } } }) :
    s.receiveFrame f = u.notify .canState 0 (0 + 256 * 1) := by
  have alive : s.si.can.err ≠ .busOff := by simp [hp]
  have hears := CanCtl.hears_of_mode (c := s.si.can) (by simp [hm]) alive
  have put : { s.setCan (s.si.can.acknowledge.setCounts s.si.can.tec (countDown s.si.can.recv)) with fresh := s.fresh + 1 } = u := by
    have down : countDown s.si.can.recv = 127 := by rw [hr]; decide
    rw [down, CanCtl.acknowledge_setCounts hm alive, errOf_active ht (by decide), hu]
    rfl
  have active : u.si.can.err = .active := by rw [hu]
  have moved : (s.setCan (s.si.can.acknowledge.setCounts s.si.can.tec (countDown s.si.can.recv))).si.can.err ≠ .passive :=
    fun h => ErrState.noConfusion (active.symm.trans ((congrArg (fun v : State => v.si.can.err) put).symm.trans h))
  obtain ⟨first, last⟩ := recovery_told (s := u) (f := f) (by rw [hu]; exact hoff) active
  rw [receiveFrame, hears, CanCtl.countsErrors_of_normal hm alive, hp]
  refine (if_neg Bool.false_ne_true).trans ((if_neg Bool.false_ne_true).trans ((if_neg moved).trans ?_))
  split
  · exact (congrArg (fun v : State => (v.tellErr .passive).offerFrame f) put).trans first
  · exact (congrArg (fun v : State => (v.offerFrame f).tellErr .passive) put).trans last

end

/-- A frame that is offered keeps the slots, the setup and the error state. -/
theorem State.offerFrame_keeps (s : State) (f : CanFrame) : (s.offerFrame f).si.slots = s.si.slots
    ∧ (s.offerFrame f).si.can.setup = s.si.can.setup ∧ (s.offerFrame f).si.can.err = s.si.can.err := by
  cases hr : f.remote with
  | true => rw [offerFrame_remote hr]; exact ⟨rfl, rfl, rfl⟩
  | false => rw [offerFrame_data hr fun j => rfl]; exact s.offerSlots_keeps f _

/-! ### The update of SPEED, STEER and DOORS (R159, R160) -/

section
variable {s : State} {x : SignalIntake} {sig : Signal}

/-- An update makes the signal FRESH, which is told unless it was so (R160). -/
theorem State.tellSignal_fresh {old : SigState} (hx : (s.si.stateOf sig).code = 1) : s.tellSignal sig old
    = if old.code = 1 then s else s.notify .signalState (signalNumber sig) (1 + 256 * old.code) := by
  rw [tellSignal, hx]
  exact if_congr eq_comm rfl rfl

theorem State.changeSignal_fresh (hx : (x.stateOf sig).code = 1) (hg : x.effGear = s.si.effGear) : s.changeSignal sig x
    = if (s.si.stateOf sig).code = 1 then s.setSi x
      else (s.setSi x).notify .signalState (signalNumber sig) (1 + 256 * (s.si.stateOf sig).code) := by
  rw [changeSignal, tellSignal_fresh (s := s.setSi x) hx]
  split
  · exact tellGear_quiet (.inl hg)
  · exact tellGear_quiet (.inl hg)

/-- A change that leaves the state's code is not told. -/
theorem State.changeSignal_unmoved (hx : (x.stateOf sig).code = (s.si.stateOf sig).code) (hg : x.effGear = s.si.effGear) :
    s.changeSignal sig x = s.setSi x := by
  have silent : (s.setSi x).tellSignal sig (s.si.stateOf sig) = s.setSi x := if_pos hx
  rw [changeSignal, silent]
  exact tellGear_quiet (.inl hg)

end

/-- A scaled value is saturated where it lies beside its range (R159). -/
theorem clampInt_ne_self {lo hi x : Int} (h : lo ≤ hi) : decide (clampInt lo hi x ≠ x) = decide (x < lo ∨ hi < x) := by
  refine decide_eq_decide.2 ((not_congr (clampInt_eq_self_iff h x)).trans ?_)
  omega

/-! ### The update of GEAR (R161) -/

/-- The effective value that a trusted stored value gives (R162). -/
def Gear.effective : Gear → EffGear
  | .reverse => .reverse
  | .notReverse => .notReverse

theorem Gear.effective_inj {v w : Gear} (h : v ≠ w) : v.effective ≠ w.effective := by
  cases v <;> cases w <;> simp_all [effective]

/-- The vote for `v` counts on from a pending vote for it (R161). -/
def voteCount (pending : Option (Gear × Nat)) (v : Gear) : Nat :=
  match pending with
  | none => 1
  | some (w, k) => if w = v then k + 1 else 1

theorem gearVote_eq (pending : Option (Gear × Nat)) (v : Gear) : gearVote pending v = (v, voteCount pending v) := by
  cases pending with
  | none => rfl
  | some p =>
    obtain ⟨w, k⟩ := p
    simp only [gearVote, voteCount]
    split <;> rfl

section
variable {si : SignalIntake} {s : State} {i : Fin 12} {v w : Gear}

theorem SignalIntake.effGear_trusted (hc : si.gear.st.code = 1 ∨ si.gear.st.code = 2) (hv : si.gear.value = some v) :
    si.effGear = v.effective := by
  rw [effGear_eq, if_pos hc, hv]
  cases v <;> rfl

/-- A refreshed GEAR keeps its effective value. -/
theorem SignalIntake.effGear_refreshed {x : SignalIntake} (hx : x.gear.st.code = 1) (hxv : x.gear.value = si.gear.value)
    (hc : si.gear.st.code = 1 ∨ si.gear.st.code = 2) (hv : si.gear.value = some v) : x.effGear = si.effGear :=
  (effGear_trusted (.inl hx) (hxv.trans hv)).trans (effGear_trusted hc hv).symm

theorem SignalIntake.effGear_lost (h : si.gear.st = .never ∨ si.gear.st = .unknown) : si.effGear = .unknown := by
  rw [effGear_eq]
  obtain h | h := h <;> rw [h] <;> rfl

theorem SigState.lost_of_trusted {x : SigState} (h : x.code = 1 ∨ x.code = 2) : x.lost = false := by
  cases x <;> simp_all [code, lost]

theorem SigState.lost_iff {x : SigState} : x.lost = true ↔ x = .never ∨ x = .unknown := by
  cases x <;> simp [lost]

theorem SignalIntake.gearUpdate_same (hc : si.gear.st.code = 1 ∨ si.gear.st.code = 2) (hv : si.gear.value = some v) :
    si.gearUpdate s i v = { si with
      gear := { si.gear with st := .fresh (s.afterMs si.gear.timeout), last := some (s.tbu.now, i) }, gearPending := none } := by
  rw [gearUpdate, SigState.lost_of_trusted hc]
  exact if_pos hv

theorem SignalIntake.gearUpdate_waits (hc : si.gear.st.code = 1 ∨ si.gear.st.code = 2) (hv : si.gear.value ≠ some v)
    (hn : voteCount si.gearPending v < si.confirm) : si.gearUpdate s i v = { si with
      gear := { si.gear with st := .fresh (s.afterMs si.gear.timeout), last := some (s.tbu.now, i) }
      gearPending := some (v, voteCount si.gearPending v) } := by
  rw [gearUpdate, SigState.lost_of_trusted hc]
  refine (if_neg hv).trans ?_
  rw [gearVote_eq]
  exact if_neg (Nat.not_le.2 hn)

theorem SignalIntake.gearUpdate_never (h : si.gear.st = .never) (hn : voteCount si.gearPending v < si.confirm) :
    si.gearUpdate s i v = { si with gearPending := some (v, voteCount si.gearPending v) } := by
  rw [gearUpdate, SigState.lost_iff.2 (.inl h), gearUntrusted, gearVote_eq, h]
  exact if_neg (Nat.not_le.2 hn)

theorem SignalIntake.gearUpdate_unknown (h : si.gear.st = .unknown) (hn : voteCount si.gearPending v < si.confirm) :
    si.gearUpdate s i v = { si with
      gear := { si.gear with last := some (s.tbu.now, i) }, gearPending := some (v, voteCount si.gearPending v) } := by
  obtain ⟨can, slots, ⟨value, st, timeout, hold, saturated, last⟩, confirm, pending, speed, steer, doors⟩ := si
  obtain rfl : st = .unknown := h
  rw [gearUpdate, gearUntrusted, gearVote_eq]
  exact if_neg (Nat.not_le.2 hn)

/-- Enough equal values make a new stored value, FRESH (R161). -/
theorem SignalIntake.gearUpdate_confirms (h : si.gear.st = .never ∨ si.gear.st = .unknown
      ∨ (si.gear.st.code = 1 ∨ si.gear.st.code = 2) ∧ si.gear.value ≠ some v) (hn : si.confirm ≤ voteCount si.gearPending v) :
    si.gearUpdate s i v = { si with
      gear := { si.gear with value := some v, st := .fresh (s.afterMs si.gear.timeout), last := some (s.tbu.now, i) }
      gearPending := none } := by
  by_cases hl : si.gear.st = .never ∨ si.gear.st = .unknown
  · rw [gearUpdate, SigState.lost_iff.2 hl, gearUntrusted, gearVote_eq]
    exact if_pos hn
  · have trusted : (si.gear.st.code = 1 ∨ si.gear.st.code = 2) ∧ si.gear.value ≠ some v := by tauto
    rw [gearUpdate, SigState.lost_of_trusted trusted.1]
    refine (if_neg trusted.2).trans ?_
    rw [gearVote_eq]
    exact if_pos hn

end

/-! ### What an accepted frame does with its signal (R158 to R162) -/

section
variable {s u : State} {i : Fin 12} {c : SlotSetup} {data : List Byte}

theorem State.updateSignal_speed_told (h : c.target = .speed)
    (hu : u = { s with si := { s.si with speed := { s.si.speed with
      value := some (max 0 (min (c.raw data * c.mult + c.offset) 65535)).toNat
      st := .fresh (s.tbu.now + BitVec.ofNat 32 (s.si.speed.timeout * 1000)), last := some (s.tbu.now, i)
      saturated := s.si.speed.saturated
        || decide (c.raw data * c.mult + c.offset < 0 ∨ 65535 < c.raw data * c.mult + c.offset) } } }) :
    s.updateSignal i c data
      = if s.si.speed.st.code = 1 then u else u.notify .signalState 1 (1 + 256 * s.si.speed.st.code) := by
  rw [updateSignal_speed h, changeSignal_fresh ?fresh ?same, clampInt_ne_self (by decide), clampInt_eq_max_min (by decide), hu]
  case fresh => rfl
  case same => rfl
  rfl

theorem State.updateSignal_steer_told (h : c.target = .steer)
    (hu : u = { s with si := { s.si with steer := { s.si.steer with
      value := some (max (-8000) (min (c.raw data * c.mult + c.offset) 8000))
      st := .fresh (s.tbu.now + BitVec.ofNat 32 (s.si.steer.timeout * 1000)), last := some (s.tbu.now, i)
      saturated := s.si.steer.saturated
        || decide (c.raw data * c.mult + c.offset < -8000 ∨ 8000 < c.raw data * c.mult + c.offset) } } }) :
    s.updateSignal i c data
      = if s.si.steer.st.code = 1 then u else u.notify .signalState 2 (1 + 256 * s.si.steer.st.code) := by
  rw [updateSignal_steer h, changeSignal_fresh ?fresh ?same, clampInt_ne_self (by decide), clampInt_eq_max_min (by decide), hu]
  case fresh => rfl
  case same => rfl
  rfl

theorem State.updateSignal_doors_told (h : c.target = .doors)
    (hu : u = { s with si := { s.si with doors := { s.si.doors with
      value := some (BitVec.ofInt 8 (c.raw data))
      st := .fresh (s.tbu.now + BitVec.ofNat 32 (s.si.doors.timeout * 1000)), last := some (s.tbu.now, i) } } }) :
    s.updateSignal i c data
      = if s.si.doors.st.code = 1 then u else u.notify .signalState 3 (1 + 256 * s.si.doors.st.code) := by
  have unsaturated : s.si.doors.update s i (BitVec.ofInt 8 (c.raw data)) false = { s.si.doors with
      value := some (BitVec.ofInt 8 (c.raw data))
      st := .fresh (s.afterMs s.si.doors.timeout), last := some (s.tbu.now, i) } := by
    rw [Sig.update, Bool.or_false]
  rw [updateSignal_doors h, changeSignal_fresh ?fresh ?same, unsaturated, hu]
  case fresh => rfl
  case same => rfl
  rfl

/-- A GEAR that keeps its effective value is told as the other signals are. -/
theorem State.changeGear_same {x : SignalIntake} (hx : x.gear.st.code = 1) (hg : x.effGear = s.si.effGear)
    (hu : u = s.setSi x) : s.changeSignal .gear x
      = if s.si.gear.st.code = 1 then u else u.notify .signalState 0 (1 + 256 * s.si.gear.st.code) := by
  rw [changeSignal_fresh (sig := .gear) hx hg, hu]
  rfl

/-- A GEAR of a new effective value is told first; then the reverse claim follows it (R146, R162). -/
theorem State.changeGear_moves {x : SignalIntake} {g : EffGear} (hx : x.gear.st.code = 1) (hg : x.effGear = g)
    (hne : g ≠ s.si.effGear)
    (hu : u = if s.si.gear.st.code = 1 then s.setSi x else (s.setSi x).notify .signalState 0 (1 + 256 * s.si.gear.st.code)) :
    s.changeSignal .gear x = u.gearChange g := by
  subst hg
  have si : u.si = x := by
    rw [hu]
    split <;> rfl
  have told : (s.setSi x).tellSignal .gear (s.si.stateOf .gear) = u := 
    (tellSignal_fresh (s := s.setSi x) (sig := .gear) hx).trans hu.symm
  have moved : u.si.effGear ≠ s.si.effGear := si ▸ hne
  rw [changeSignal, told, tellGear, if_neg moved, si]

end

/-- The effective GEAR differs from a value that it is being confirmed to (R161, R162). -/
theorem SignalIntake.effGear_ne {si : SignalIntake} {v : Gear} (h : si.gear.st = .never ∨ si.gear.st = .unknown
      ∨ (si.gear.st.code = 1 ∨ si.gear.st.code = 2) ∧ (∃ w, si.gear.value = some w ∧ w ≠ v)) : v.effective ≠ si.effGear := by
  have known : v.effective ≠ .unknown := by cases v <;> exact EffGear.noConfusion
  obtain h | h | ⟨hc, w, hw, hne⟩ := h
  · rw [effGear_lost (.inl h)]; exact known
  · rw [effGear_lost (.inr h)]; exact known
  · rw [effGear_trusted hc hw]; exact Gear.effective_inj hne.symm

/-! ### The reverse claim of a confirmed GEAR (R146, R162) -/

section
variable {s : State} {view : Fin 16} {hi lo : List Claim} {k : Nat} {tk : Byte}

theorem State.dropGear_idle (h : s.ca.lingerTimer = none) : s.dropGear
    = { s with ca := { s.ca with stack := s.ca.stack.filter fun e : Claim => decide (e.source ≠ Source.gear) } } := by
  rw [dropGear_eq, ← h]

theorem State.gearChange_makes (hv : s.ca.reverseView = some view) (hg : ∀ e ∈ s.ca.stack, e.source ≠ .gear)
    (hhi : ∀ e ∈ hi, 2 < e.rank) (hlo : ∀ e ∈ lo, e.rank ≤ 2) (ht : FirstFree s.ca (hi ++ lo) k tk)
    (hbelow : s.ca.stack.length < 6) (hl : s.ca.stack = hi ++ lo) : s.gearChange .reverse = { s with ca := { s.ca with
      lingerTimer := none, token := nextToken tk, stack := hi ++ Claim.mk tk .gear view s.tbu.now :: lo } } := by
  rw [gearChange_reverse_makes hv (Arbiter.hasGear_eq_false hg),
    makeGear_eq (makeRoom_below (s := s.setLinger none) hbelow) hl hhi hlo ht]
  rfl

theorem State.gearChange_evicts (hv : s.ca.reverseView = some view) (hg : ∀ e ∈ s.ca.stack, e.source ≠ .gear)
    (hhi : ∀ e ∈ hi, 2 < e.rank) (hlo : ∀ e ∈ lo, e.rank ≤ 2) (ht : FirstFree s.ca (hi ++ lo) k tk) {e : Claim}
    (hl : s.ca.stack = hi ++ lo ++ [e]) (hfull : 5 ≤ (hi ++ lo).length) (hd : e.source = .portD) :
    s.gearChange .reverse = ({ s with ca := { s.ca with
        lingerTimer := none, token := nextToken tk
        stack := hi ++ Claim.mk tk .gear view s.tbu.now :: lo } }.notifyOwner .d .claimEvicted e.token.toNat e.view) := by
  rw [gearChange_reverse_makes hv (Arbiter.hasGear_eq_false hg),
    makeGear_eq (makeRoom_evicts (s := s.setLinger none) hl hfull hd (Nat.le_refl 2)) (hi := hi) (lo := lo) rfl hhi hlo ht]
  rfl

end

/-! ### The slots of a frame that the controller takes (R158) -/

/-- The lowest enabled slot takes the frame with the controller; the others take it after, as in LISTEN. -/
theorem State.receiveFrame_split {s t u : State} {f : CanFrame} {can : CanCtl} {i : Fin 12} {only rest : Vector CanSlot 12}
    (h : ((s.si.can.setup.mode = .listen ∨ s.si.can.setup.mode = .loopback) ∧ s.si.can.err ≠ .busOff ∧ can = s.si.can)
      ∨ (s.si.can.setup.mode = .normal ∧ s.si.can.err = .active ∧ s.si.can.tec.toNat < 128 ∧ s.si.can.recv.toNat < 128
        ∧ can = { s.si.can with
            recv := if s.si.can.recv = 0 then 0 else s.si.can.recv - 1, acks := s.si.can.acks + 1 }))
    (hleast : ∀ j : Fin 12, s.si.slots[j].enabled = true → i ≤ j)
    (honly : ∀ j : Fin 12, only[j] = if j = i then s.si.slots[j] else { s.si.slots[j] with enabled := false })
    (hrest : ∀ j : Fin 12, rest[j] = if j = i then { s.si.slots[j] with enabled := false } else s.si.slots[j])
    (ht : t = State.receiveFrame { s with si := { s.si with slots := only } } f)
    (hu : u = State.receiveFrame { t with si := { t.si with
      slots := rest, can := { t.si.can with setup := { t.si.can.setup with mode := .listen } } } } f) :
    s.receiveFrame f
      = { u with si := { u.si with slots := s.si.slots, can := { u.si.can with setup := s.si.can.setup } } } := by
  obtain ⟨taken, hsetup, herr, alive⟩ := receiveFrame_eq (f := f) h
  have first : t = ((s.setCan can).reslot only can.setup can.err).offerFrame f :=
    ht.trans (receiveFrame_eq (s := s.setSi { s.si with slots := only }) h).1
  have terr : t.si.can.err = can.err := by
    rw [first]
    exact (((s.setCan can).reslot only can.setup can.err).offerFrame_keeps f).2.2
  have heard : t.si.can.err ≠ .busOff := fun hb => alive (herr.symm.trans (terr.symm.trans hb))
  have others : u = (t.reslot rest { t.si.can.setup with mode := .listen } t.si.can.err).offerFrame f :=
    hu.trans (receiveFrame_frozen (s := t.reslot rest { t.si.can.setup with mode := .listen } t.si.can.err)
      (CanCtl.hears_of_mode CanMode.noConfusion heard) (CanCtl.countsErrors_of_other CanMode.noConfusion))
  have uerr : u.si.can.err = can.err := by
    rw [others]
    exact ((t.reslot rest { t.si.can.setup with mode := .listen } t.si.can.err).offerFrame_keeps f).2.2.trans terr
  have whole : (s.setCan can).offerFrame f = u.reslot s.si.slots can.setup can.err := by
    rw [others, first]
    exact (offerFrame_split (s := s.setCan can) hleast honly hrest _ _ _ _).symm
  rw [taken, whole, hsetup, ← uerr]
  rfl

section
variable {s : State} {f : CanFrame} {can : CanCtl} {i : Fin 12} {c : SlotSetup}
  (h : s.receiveFrame f = (s.setCan can).offerFrame f) (hother : ∀ j : Fin 12, j ≠ i → s.si.slots[j].enabled = false)
  (hi : s.si.slots[i] = { enabled := true, setup := some c })
include h hother hi

theorem State.receiveFrame_refused (hf : f.remote = true ∨ c.ext ≠ f.ext ∨ f.ident &&& c.mask ≠ c.ident &&& c.mask) :
    s.receiveFrame f = s.setCan can := by
  rw [h]
  cases hr : f.remote with
  | true => exact offerFrame_remote hr
  | false =>
    have refuses : (s.setCan can).si.slots[i].accepts f = none := by
      show s.si.slots[i].accepts f = none
      rw [hi]
      refine (if_pos rfl).trans (Option.filter_eq_none_iff.2 fun p hp => ?_)
      obtain rfl := Option.some.inj hp
      rw [decide_eq_true_eq]
      simp only [hr, Bool.false_eq_true, false_or] at hf
      tauto
    rw [offerFrame_single (s := s.setCan can) hr hother (congrArg CanSlot.enabled hi), offerSlot_of_refuses refuses]

theorem State.receiveFrame_accepted (hr : f.remote = false) (he : c.ext = f.ext) 
    (hid : f.ident &&& c.mask = c.ident &&& c.mask) :
    s.receiveFrame f = if c.short f.data then s.setCan { can with short := bump can.short }
      else (s.setCan can).updateSignal i c f.data := by
  have accepts : (s.setCan can).si.slots[i].accepts f = some c := by
    show s.si.slots[i].accepts f = some c
    rw [hi]
    exact (if_pos rfl).trans (Option.filter_eq_some_iff.2 ⟨rfl, decide_eq_true ⟨he, hid⟩⟩)
  rw [h, offerFrame_single (s := s.setCan can) hr hother (congrArg CanSlot.enabled hi), offerSlot_of_accepts accepts]
  rfl

end

/-- A payload is too short for a slot when the field ends past it (R158). -/
theorem SlotSetup.short_iff {c : SlotSetup} {data : List Byte} : c.short data = true ↔ 8 * data.length < c.start + c.length := by
  rw [short, decide_eq_true_eq]
  omega

/-- Settles O43: the controller's part, the slots one after the other, then each signal; GEAR by its state and its votes. -/
theorem framesUpdateSignals : Obligations.FramesUpdateSignals := by
  refine ⟨fun c data h1 => ⟨SlotSetup.raw_signed h1, SlotSetup.raw_plain, fun k => SlotSetup.raw_testBit⟩,
    fun s f => ⟨fun h => congrArg Outcome.next (State.receiveFrame_deaf (CanCtl.hears_eq_false.2 h)),
      fun hm hp ht hr hoff => congrArg Outcome.next (State.receiveFrame_recovers hm hp ht hr hoff rfl)⟩,
    fun s f can h => ?_⟩
  obtain ⟨taken, hsetup, herr, alive⟩ := State.receiveFrame_eq (f := f) h
  refine ⟨fun hoff => congrArg Outcome.next (taken.trans (State.offerFrame_none hoff)),
    fun i only rest t u hleast honly hrest ht hu =>
      congrArg Outcome.next (State.receiveFrame_split h hleast honly hrest (Outcome.next.inj ht).symm (Outcome.next.inj hu).symm),
    fun i c hother hi =>
    ⟨fun hf => congrArg Outcome.next (State.receiveFrame_refused taken hother hi hf), fun hr he hid => ?_⟩⟩
  have accepted := State.receiveFrame_accepted taken hother hi hr he hid
  refine ⟨fun hshort => congrArg Outcome.next (accepted.trans (if_pos (SlotSetup.short_iff.2 hshort))), fun hlong => ?_⟩
  have updated : exec (.canFrameReceived f) s = .next ((s.setCan can).updateSignal i c f.data) :=
    congrArg Outcome.next (accepted.trans (if_neg fun hs => Nat.not_lt.2 hlong (SlotSetup.short_iff.1 hs)))
  rw [updated]
  refine ⟨fun ht u hu => congrArg Outcome.next (State.updateSignal_speed_told ht hu),
    fun ht u hu => congrArg Outcome.next (State.updateSignal_steer_told ht hu),
    fun ht u hu => congrArg Outcome.next (State.updateSignal_doors_told ht hu),
    fun rev v votes due last ht hv hvotes hdue hlast => ?_⟩
  obtain rfl : votes = voteCount (s.setCan can).si.gearPending v := hvotes
  have gear : (s.setCan can).updateSignal i c f.data
      = (s.setCan can).changeSignal .gear ((s.setCan can).si.gearUpdate (s.setCan can) i v) := hv ▸ State.updateSignal_gear ht
  rw [gear]
  subst hdue hlast
  refine ⟨fun u hc hw hu => ?same, fun u w hc hw hne hn hu => ?waits, fun hnever hn => ?never, fun hunknown hn => ?unknown,
    fun u u' hst hn hu hu' => ?confirm⟩
  case same =>
    rw [SignalIntake.gearUpdate_same (si := (s.setCan can).si) hc hw]
    exact congrArg Outcome.next (State.changeGear_same rfl
      (SignalIntake.effGear_refreshed (si := (s.setCan can).si) rfl rfl hc hw) hu)
  case waits =>
    rw [SignalIntake.gearUpdate_waits (si := (s.setCan can).si) hc (fun h => hne (Option.some.inj (hw.symm.trans h))) hn]
    exact congrArg Outcome.next (State.changeGear_same rfl
      (SignalIntake.effGear_refreshed (si := (s.setCan can).si) rfl rfl hc hw) hu)
  case never =>
    rw [SignalIntake.gearUpdate_never (si := (s.setCan can).si) hnever hn]
    exact congrArg Outcome.next (State.changeSignal_unmoved rfl rfl)
  case unknown =>
    rw [SignalIntake.gearUpdate_unknown (si := (s.setCan can).si) hunknown hn]
    exact congrArg Outcome.next (State.changeSignal_unmoved rfl
      ((SignalIntake.effGear_lost (.inr hunknown)).trans (SignalIntake.effGear_lost (.inr hunknown)).symm))
  case confirm =>
    have confirms : s.si.gear.st = .never ∨ s.si.gear.st = .unknown
        ∨ (s.si.gear.st.code = 1 ∨ s.si.gear.st.code = 2) ∧ s.si.gear.value ≠ some v :=
      hst.imp_right (Or.imp_right (And.imp_right fun ⟨w, hw, hne⟩ h => hne (Option.some.inj (hw.symm.trans h))))
    rw [SignalIntake.gearUpdate_confirms (si := (s.setCan can).si) confirms hn]
    have ca : u'.ca = s.ca := by
      rw [hu', hu]
      split <;> rfl
    have now : u'.tbu.now = s.tbu.now := by
      rw [hu', hu]
      split <;> rfl
    rw [State.changeGear_moves (s := s.setCan can) (g := v.effective) (u := u') rfl (SignalIntake.effGear_trusted (.inl rfl) rfl)
      (SignalIntake.effGear_ne hst) (hu'.trans (hu ▸ rfl)), ← ca, ← now]
    refine ⟨?_, ?_, ?_, ?_⟩
    · rintro rfl h
      exact congrArg Outcome.next (State.gearChange_reverse_stands (h.imp_right Arbiter.hasGear_iff.2))
    · rintro view hi lo k tk rfl hview hgear hhi hlo htk hk hcarried hfree w rfl
      exact ⟨fun hbelow hl =>
          congrArg Outcome.next (State.gearChange_makes hview hgear hhi hlo ⟨htk, hk, hcarried, hfree⟩ hbelow hl),
        fun e hl hfull hd =>
          congrArg Outcome.next (State.gearChange_evicts hview hgear hhi hlo ⟨htk, hk, hcarried, hfree⟩ hl hfull hd)⟩
    · rintro rfl h
      exact congrArg Outcome.next (State.gearChange_notReverse_stands (h.imp_left Arbiter.hasGear_eq_false))
    · rintro rfl hgear hlinger
      have moves := State.gearChange_notReverse_moves (Arbiter.hasGear_iff.2 hgear) hlinger
      exact ⟨fun hl => congrArg Outcome.next (moves.trans (if_neg hl)),
        fun hl => congrArg Outcome.next ((moves.trans (if_pos hl)).trans (State.dropGear_idle hlinger))⟩

end Sys2Proof.Machine
end

