-- ==== Sys2Proof/Proofs/StatusFrames.lean ====
section
/-! The status frame: its bytes, the interval's expiry, and the attempt (R155, R167, R168). -/

namespace Sys2Proof.Machine

open Host (Outcome)

/-! ### The bytes (R167; 11 section 11.6, CAN status frame) -/

theorem viewCode_eq (v : Option (Fin 16)) :
    BitVec.ofNat 8 (viewCode v) = (match v with | none => 255 | some v => BitVec.ofNat 8 v) := by
  cases v <;> rfl

theorem ite_eq_mul_bit (n : Nat) (b : Bool) : (if b then n else 0) = n * bit b := by
  cases b <;> simp [bit]

theorem ErrState.code_le (e : ErrState) : e.code ≤ 2 := by
  cases e <;> decide

theorem toNat_skewByte (w : Word32) : (skewByte w).toNat = min 255 (w.toNat / 1000) := by
  rw [skewByte, BitVec.toNat_ofNat, Nat.min_comm]
  exact Nat.mod_eq_of_lt (Nat.lt_succ_of_le (Nat.min_le_left _ _))

section
variable {s : State} {n : BitVec 4}

theorem State.statusBytes_faults : (s.statusBytes n)[2].toNat = s.cp.faults.toNat := by
  show (s.cp.faults.setWidth 8).toNat = _
  rw [BitVec.toNat_setWidth]
  exact Nat.mod_eq_of_lt (by omega)

theorem State.statusBytes_rolling : (s.statusBytes n)[7].toNat = n.toNat + 16 * s.si.can.err.code := by
  show (BitVec.ofNat 8 _).toNat = _
  rw [BitVec.toNat_ofNat]
  have := s.si.can.err.code_le
  exact Nat.mod_eq_of_lt (by omega)

end

/-! ### Its interval (R155, R167, R168) -/

section
variable {s : State}

theorem State.intervalExpiry_due (h : s.si.can.timer = some s.tbu.now) : s.intervalExpiry
    = if s.si.can.setup.mode = .loopback then
        (s.setCan { s.si.can.load s.buildFrame (s.afterMs s.si.can.setup.interval) with buffer := none }).offerFrame
          s.buildFrame.asFrame
      else s.setCan (s.si.can.load s.buildFrame (s.afterMs s.si.can.setup.interval)) :=
  if_pos (reached_iff.2 h)

/-- A controller in LOOPBACK that hears offers the frame to its slots and does nothing else (R155). -/
theorem State.receiveFrame_loopback {f : CanFrame} (hm : s.si.can.setup.mode = .loopback) (he : s.si.can.err ≠ .busOff) :
    s.receiveFrame f = s.offerFrame f :=
  receiveFrame_frozen (CanCtl.hears_of_mode (by simp [hm]) he) (CanCtl.countsErrors_of_other (by simp [hm]))

/-! ### Its attempt (R168) -/

theorem State.beginAttempt_begins {f : StatusFrame} (hc : s.si.can.countsErrors = true) (hf : s.si.can.buffer = some f)
    (ha : s.si.can.attempt = none) :
    s.beginAttempt = s.setCan { s.si.can with attempt := some { frame := f, replaced := false } } := by
  simp only [beginAttempt, hf, ha, hc]

theorem State.beginAttempt_idle (h : s.si.can.buffer = none ∨ s.si.can.countsErrors = false) : s.beginAttempt = s := by
  simp only [beginAttempt]
  split
  next f hf ha hc =>
    obtain h | h := h
    · exact absurd (hf.symm.trans h) (Option.some_ne_none f)
    · exact absurd (hc.symm.trans h) Bool.noConfusion
  next => rfl

end

/-- Settles O45: by the mode, then the frame byte by byte, then the attempt. -/
theorem statusFrameIsBuilt : Obligations.StatusFrameIsBuilt := by
  refine fun s => ⟨fun hdue => ⟨s.buildFrame, { s.si.can with
      timer := some (s.tbu.now + BitVec.ofNat 32 (s.si.can.setup.interval * 1000)), rolling := s.si.can.rolling + 1
      late := if s.si.can.buffer.isSome then bump s.si.can.late else s.si.can.late
      attempt := s.si.can.attempt.map fun a => { a with replaced := true } }, rfl, fun hm => ?normal, fun hm u hu => ?loopback,
      rfl, rfl, rfl, rfl, ?view, ?flags, State.statusBytes_faults, ?sequence, toNat_skewByte _, rfl, rfl,
      State.statusBytes_rolling⟩, fun f hm he hf ha => ?begins, fun h => ?idle⟩
  case normal => exact congrArg Outcome.next ((State.intervalExpiry_due hdue).trans (if_neg (by simp [hm])))
  case loopback =>
    have offered : exec .statusIntervalExpiry s = .next (u.offerFrame s.buildFrame.asFrame) := by
      rw [hu]
      exact congrArg Outcome.next ((State.intervalExpiry_due hdue).trans (if_pos hm))
    have mode : u.si.can.setup.mode = .loopback := by rw [hu]; exact hm
    refine ⟨fun hoff => offered.trans (congrArg Outcome.next (State.offerFrame_none ?_)), fun he => offered.trans ?_⟩
    · rw [hu]; exact hoff
    · have hears : u.si.can.err ≠ .busOff := by rw [hu]; exact he
      exact congrArg Outcome.next (State.receiveFrame_loopback mode hears).symm
  case view => exact viewCode_eq _
  case flags => rw [ite_eq_mul_bit, ite_eq_mul_bit]; rfl
  case sequence => exact (BitVec.ofNat_toNat (x := s.ce.lastSeq.getD 0) 8).symm
  case begins => exact congrArg Outcome.next (State.beginAttempt_begins (CanCtl.countsErrors_of_normal hm he) hf ha)
  case idle =>
    refine congrArg Outcome.next (State.beginAttempt_idle ?_)
    obtain hm | he | hb := h
    · exact .inr (CanCtl.countsErrors_of_other hm)
    · exact .inr (decide_eq_false fun hc => hc.2 he)
    · exact .inl hb

end Sys2Proof.Machine
end

