-- ==== Sys2Proof/Proofs/DisplayFrames.lean ====
section
/-! The frames of the display: their content, chosen at each start, and the pixels sent (10 sections 10.1, 10.2). -/

namespace Sys2Proof.Machine

open Host (Outcome)

section
variable {s : State} {k : Nat} {r : OutRing}

theorem State.paletteColour_mute (s : State) : s.paletteColour 15
    = Yuv.mk s.ou.setup.palette[15].y s.ou.setup.palette[15].u s.ou.setup.palette[15].v := by
  have entry : s.ou.setup.entry 15 = s.ou.setup.palette[15] := by simp [OverlaySetup.entry, Vector.getD]
  rw [paletteColour, entry]

/-! ### The choice of a frame's content (R172) -/

theorem State.chooseDisplay_muted (h : s.ca.decision.mute = true) : s.chooseDisplay
    = { s.su with held := none, frame := .mute (s.paletteColour 15), muted := bump s.su.muted } := if_pos h

theorem State.newestDone_eq_none (h : ∀ r, s.fsc.outRing = some r → r.newestDone = none) : s.newestDone = none :=
  Option.bind_eq_none_iff.2 h

theorem State.newestDone_of_ring (hr : s.fsc.outRing = some r) : s.newestDone = r.newestDone := by
  rw [newestDone, hr, Option.bind_some]

theorem State.chooseDisplay_background (hm : s.ca.decision.mute = false)
    (h : s.ca.decision.view = none ∨ s.newestDone = none) : s.chooseDisplay = s.sendBackground := by
  rw [chooseDisplay, hm]
  refine (if_neg Bool.false_ne_true).trans ?_
  obtain h | h := h
  · rw [h]
  · rw [h]
    cases s.ca.decision.view <;> rfl

theorem State.chooseDisplay_slot (hm : s.ca.decision.mute = false) (hv : s.ca.decision.view.isSome = true)
    (hk : s.newestDone = some k) : s.chooseDisplay
      = if s.su.held = some k then { s.su with frame := .again k, repeated := bump s.su.repeated }
        else { s.su with held := some k, frame := .composed k } := by
  obtain ⟨v, hv⟩ := Option.isSome_iff_exists.1 hv
  rw [chooseDisplay, hm, hv, hk]
  rfl

theorem State.displayStart_due (h : s.su.timer = some s.tbu.now) :
    s.displayStart = s.setSu { s.chooseDisplay with timer := s.nextDisplay } := if_pos (reached_iff.2 h)

/-! ### The pixels sent (R170, R173) -/

theorem State.displayPixel_outside {x y : Nat} (h : 1280 ≤ x ∨ 720 ≤ y) : s.displayPixel x y = none :=
  if_neg fun hin => h.elim (Nat.not_le.2 hin.1) (Nat.not_le.2 hin.2)

theorem State.displayPixel_nothing {x y : Nat} (h : s.su.frame = .nothing) : s.displayPixel x y = none := by
  rw [displayPixel, h]
  exact ite_self none

theorem State.displayPixel_colour {x y : Nat} {c : Yuv} (hx : x < 1280) (hy : y < 720)
    (h : s.su.frame = .blank c ∨ s.su.frame = .mute c) : s.displayPixel x y = some c := by
  refine (if_pos ⟨hx, hy⟩).trans ?_
  obtain h | h := h <;> rw [h]

theorem State.displayPixel_slot {x y : Nat} (hx : x < 1280) (hy : y < 720)
    (h : s.su.frame = .composed k ∨ s.su.frame = .again k) (hr : s.fsc.outRing = some r) :
    s.displayPixel x y = some (s.slotPixel r k x y) := by
  refine (if_pos ⟨hx, hy⟩).trans ?_
  obtain h | h := h <;> rw [h, hr]

end

/-- Settles O48: by the decision and the newest DONE slot; then by the frame in progress. -/
theorem displayFrameContent : Obligations.DisplayFrameContent := by
  refine ⟨fun s due hdue hd => ?_, fun s x y => ⟨fun h => ?_, fun hx hy => ⟨fun c => State.displayPixel_colour hx hy,
    fun r k row hk hr hrow => (State.displayPixel_slot hx hy hk hr).trans ?_⟩⟩⟩
  · subst hd
    have started : exec .displayFrameStart s = .next (s.setSu { s.chooseDisplay with timer := s.nextDisplay }) :=
      congrArg Outcome.next (State.displayStart_due hdue)
    refine ⟨fun hm => ?_, fun hm h => ?_, fun r k hm hv hr hk => ?_⟩
    · rw [started, State.chooseDisplay_muted hm, State.paletteColour_mute]
      rfl
    · rw [started, State.chooseDisplay_background hm (h.imp_right State.newestDone_eq_none), State.sendBackground,
        State.paletteColour_background]
      rfl
    · rw [started, State.chooseDisplay_slot hm hv ((State.newestDone_of_ring hr).trans hk)]
      refine ⟨fun hh => ?_, fun hh => ?_⟩
      · rw [if_pos hh]
        rfl
      · rw [if_neg hh]
        rfl
  · obtain h | h | h := h
    · exact State.displayPixel_outside (.inl h)
    · exact State.displayPixel_outside (.inr h)
    · exact State.displayPixel_nothing h
  · rw [hrow]
    rfl

end Sys2Proof.Machine
end

