-- ==== Sys2Proof/Proofs/ComposePeriod.lean ====
section
/-! The timebase's part of a compose start (R45, R47, R52), and the overrun (R85). -/

namespace Sys2Proof.Machine

open Host (Outcome)

/-- What each camera does to its own entry the four together do to all. -/
theorem foldl_cams {α : Type} {put : Vector α 4 → State} {f : State → Fin 4 → State} {v₀ : Vector α 4} {g : Fin 4 → α}
    (hf : ∀ v n, v[n] = v₀[n] → f (put v) n = put (v.set n (g n))) :
    (List.finRange 4).foldl f (put v₀) = put (Vector.ofFn g) := by
  have all : List.finRange 4 = [0, 1, 2, 3] := by decide
  rw [all, List.foldl_cons, hf _ 0 rfl, List.foldl_cons, hf _ 1 (by simp), List.foldl_cons, hf _ 2 (by simp), List.foldl_cons,
    hf _ 3 (by simp), List.foldl_nil]
  refine congrArg put (Vector.ext fun i hi => ?_)
  match i, hi with
  | 0, _ => simp
  | 1, _ => simp
  | 2, _ => simp
  | 3, _ => simp

/-- The state with the timing records `v`. -/
def State.setTimings (s : State) (v : Vector CamTiming 4) : State := { s with tbu := { s.tbu with cams := v } }

theorem State.foldl_timings {s : State} {f : State → Fin 4 → State} {g : Fin 4 → CamTiming → CamTiming}
    (hf : ∀ v n, f (s.setTimings v) n = s.setTimings (v.set n (g n v[n]))) (v : Vector CamTiming 4) :
    (List.finRange 4).foldl f (s.setTimings v) = s.setTimings (Vector.ofFn fun n => g n v[n]) :=
  foldl_cams fun w n h => by rw [hf, h]

/-- The pulse that camera `n` has scheduled after an expiry (R47). -/
def State.pulseAfter (s : State) (n : Fin 4) (old : Option Word32) : Option Word32 :=
  match s.ciu[n].setup.trig with
  | .freeRun => old
  | .triggered => some (s.tbu.now + BitVec.ofNat 32 (min s.ciu[n].setup.phase (s.tbu.period - 1)))

/-- The expired sequence of camera `n` after an expiry (R52). -/
def State.expiredAfter (s : State) (n : Fin 4) (old : Option Word32) : Option Word32 :=
  match s.newestFrame n with
  | none => old
  | some (_, q, t) => if 2 ^ 31 ≤ s.age t then some q else old

section
variable {s : State} {n : Fin 4}

theorem State.schedulePulse_eq (v : Vector CamTiming 4) (n : Fin 4) : (s.restartPeriod.setTimings v).schedulePulse n
    = s.restartPeriod.setTimings (v.set n { v[n] with pulse := s.pulseAfter n v[n].pulse }) := by
  have trig : (s.restartPeriod.setTimings v).ciu[n].setup.trig = s.ciu[n].setup.trig := rfl
  rw [schedulePulse, pulseAfter, trig]
  cases s.ciu[n].setup.trig with
  | freeRun =>
    have same : v.set n v[n] = v := Vector.set_getElem_self n.isLt
    exact congrArg s.restartPeriod.setTimings same.symm
  | triggered => rfl

theorem State.markExpired_eq (v : Vector CamTiming 4) (n : Fin 4) : (s.restartPeriod.setTimings v).markExpired n
    = s.restartPeriod.setTimings (v.set n { v[n] with expired := s.expiredAfter n v[n].expired }) := by
  have newest : (s.restartPeriod.setTimings v).newestFrame n = s.newestFrame n := rfl
  have same : s.restartPeriod.setTimings v = s.restartPeriod.setTimings (v.set n v[n]) :=
    congrArg s.restartPeriod.setTimings (Vector.set_getElem_self n.isLt).symm
  rw [markExpired, expiredAfter, newest]
  cases s.newestFrame n with
  | none => exact same
  | some x =>
    obtain ⟨k, q, t⟩ := x
    have age : (s.restartPeriod.setTimings v).age t = s.age t := rfl
    simp only [age]
    split
    · rfl
    · exact same

/-- The timing records after an expiry (R47, R52). -/
def State.timingsAfter (s : State) : Vector CamTiming 4 := Vector.ofFn fun n => { s.tbu.cams[n] with
  pulse := s.pulseAfter n s.tbu.cams[n].pulse, expired := s.expiredAfter n s.tbu.cams[n].expired }

theorem State.timingsAfter_get (s : State) (n : Fin 4) : s.timingsAfter[n].pulse = s.pulseAfter n s.tbu.cams[n].pulse
    ∧ s.timingsAfter[n].lastCapture = s.tbu.cams[n].lastCapture ∧ s.timingsAfter[n].interval = s.tbu.cams[n].interval
    ∧ s.timingsAfter[n].expired = s.expiredAfter n s.tbu.cams[n].expired := by
  have get : s.timingsAfter[n] = { s.tbu.cams[n] with
      pulse := s.pulseAfter n s.tbu.cams[n].pulse, expired := s.expiredAfter n s.tbu.cams[n].expired } :=
    Vector.getElem_ofFn n.isLt
  rw [get]
  exact ⟨rfl, rfl, rfl, rfl⟩

/-- The timebase at an expiry: its timer, and each camera's pulse and expired sequence (R45). -/
theorem State.tickTimebase_eq (s : State) : s.tickTimebase = { s with tbu := { s.tbu with
    running := s.tbu.period, timer := s.tbu.now + BitVec.ofNat 32 s.tbu.period, cams := s.timingsAfter } } := by
  have start : s.restartPeriod = s.restartPeriod.setTimings s.tbu.cams := rfl
  rw [tickTimebase, start, foldl_timings (g := fun n c => { c with pulse := s.pulseAfter n c.pulse }) schedulePulse_eq,
    foldl_timings (g := fun n c => { c with expired := s.expiredAfter n c.expired }) markExpired_eq]
  refine congrArg s.restartPeriod.setTimings (Vector.ext fun i hi => ?_)
  simp [timingsAfter]

theorem State.newestFrame_of_ring {r : CamRing} {k : Nat} {x : CamSlot} {q st : Word32} {l : Count}
    (hr : s.fsc.camRing[n] = some r) (hk : r.newestReady = some k) (hx : r.slots[k]? = some x) (hst : x.st = .ready q st l) :
    s.newestFrame n = some (k, q, st) := by
  obtain ⟨xst, pin, d, a⟩ := x
  obtain rfl : xst = .ready q st l := hst
  rw [newestFrame, hr]
  simp only [hk, hx]

theorem State.newestFrame_eq_none (h : ∀ r, s.fsc.camRing[n] = some r → r.newestReady = none) : s.newestFrame n = none := by
  rw [newestFrame]
  cases hr : s.fsc.camRing[n] with
  | none => rfl
  | some r => simp only [h r hr]

/-- A newest frame of an age of 2^31 µs is the expired one (R52). -/
theorem State.expiredAfter_of_newest {k : Nat} {q st : Word32} {old : Option Word32} (h : s.newestFrame n = some (k, q, st)) :
    s.expiredAfter n old = if 2 ^ 31 ≤ (s.tbu.now - st).toNat then some q else old := by
  rw [expiredAfter, h]
  rfl

theorem State.expiredAfter_of_none {old : Option Word32} (h : s.newestFrame n = none) : s.expiredAfter n old = old := by
  rw [expiredAfter, h]

end

/-! ### The overrun (R85) -/

theorem State.composeStart_due {s : State} (h : s.tbu.timer = s.tbu.now) : s.composeStart = s.tickTimebase.startCompose :=
  if_pos (reached_iff.2 (congrArg some h))

/-- An overrun counts itself, latches its bit and is told of once in a compose. -/
theorem State.overrun_eq (s : State) (c : Compose) : s.overrun c = { s with
    ce := { s.ce with overrunNoticed := true, counts := { s.ce.counts with overrun := bump s.ce.counts.overrun } }
    cp := { (if s.ce.overrunNoticed then s else s.notify .overrun c.target (bump s.ce.counts.overrun).toNat).cp with
      faults := s.cp.faults ||| 4 } } := by
  rw [overrun]
  cases s.ce.overrunNoticed <;> rfl

/-- Settles O49: the timebase's part, then the overrun's counter, fault bit and first notice. -/
theorem composeStartOverrun : Obligations.ComposeStartOverrun := by
  intro s c hdue hc
  have started : exec .composeStart s = .next (s.tickTimebase.overrun c) := by
    refine congrArg Outcome.next ((State.composeStart_due hdue).trans ?_)
    have inFlight : s.tickTimebase.ce.current = some c := by rw [State.tickTimebase_eq]; exact hc
    rw [State.startCompose, inFlight]
  rw [State.overrun_eq, State.tickTimebase_eq] at started
  refine ⟨_, started, rfl, rfl, rfl, fun n => ?cams, ?ce, rfl, rfl, rfl, rfl, rfl, rfl, rfl, rfl, rfl, rfl, rfl, rfl, rfl, rfl, rfl,
    rfl, rfl, rfl, rfl, fun hn => ?told, fun hn => ?first⟩
  case cams =>
    obtain ⟨pulse, capture, interval, expired⟩ := s.timingsAfter_get n
    refine ⟨pulse, capture, interval, fun r k x q st l hr hk hx hst => ?_, fun h => ?_⟩
    · refine expired.trans ((State.expiredAfter_of_newest (State.newestFrame_of_ring hr hk hx hst)).trans ?_)
      exact (ite_not _ _ _).symm.trans (if_congr Nat.not_le rfl rfl)
    · exact expired.trans (State.expiredAfter_of_none (State.newestFrame_eq_none h))
  case ce => rw [← hc]
  case told => exact congrArg (fun t : State => { t.cp with faults := s.cp.faults ||| 4 }) (if_pos hn)
  case first =>
    exact congrArg (fun t : State => { t.cp with faults := s.cp.faults ||| 4 }) (if_neg (ne_true_of_eq_false hn))

end Sys2Proof.Machine
end

