-- ==== Sys2Proof/Proofs/FrameMatching.lean ====
section
/-! Frame matching at a compose start (R51 to R58): which cameras are usable, their mask and skew, the pins and the notices. -/

namespace Sys2Proof.Machine

open Host (Outcome)

/-! ### The usable cameras (R51 to R55) -/

section
variable {s : State} {n : Fin 4} {k : Nat}

theorem State.newestFrame_iff {q st : Word32} : s.newestFrame n = some (k, q, st) ↔ ∃ r c l, s.fsc.camRing[n] = some r
    ∧ r.newestReady = some k ∧ r.slots[k]? = some c ∧ c.st = .ready q st l :=
  ⟨newestFrame_eq_some, fun ⟨_, _, _, hr, hk, hc, hst⟩ => newestFrame_of_ring hr hk hc hst⟩

theorem State.stale_eq_false {q st : Word32} : s.stale n q st = false
    ↔ s.age st < 2 ^ 31 ∧ s.age st ≤ s.tbu.stale * 1000 ∧ s.tbu.cams[n].expired ≠ some q := by
  rw [stale, decide_eq_false_iff_not, not_or, not_or, Nat.not_le, Nat.not_lt]

theorem State.doorShut_iff : s.doorShut n = true
    ↔ ∀ b : Fin 8, s.ciu[n].setup.door = some b → s.si.effDoors.getLsbD b = false := by
  rw [doorShut]
  cases s.ciu[n].setup.door with
  | none => simp
  | some b => simp

/-- The frame that is pinned for a usable camera, with its age (R54). -/
theorem State.usable_iff {a : Nat} : s.usable n = some (k, a) ↔ ∃ st, UsableFrame s n k st ∧ a = (s.tbu.now - st).toNat := by
  have judged (q st : Word32) : (!s.stale n q st && s.doorShut n && s.tbu.mask.getLsbD n) = true
      ↔ (s.age st < 2 ^ 31 ∧ s.age st ≤ s.tbu.stale * 1000 ∧ s.tbu.cams[n].expired ≠ some q)
        ∧ (∀ b : Fin 8, s.ciu[n].setup.door = some b → s.si.effDoors.getLsbD b = false) ∧ s.tbu.mask.getLsbD n = true := by
    rw [Bool.and_eq_true, Bool.and_eq_true, Bool.not_eq_true', stale_eq_false, doorShut_iff, and_assoc]
  constructor
  · intro h
    unfold usable at h
    split at h
    next => cases h
    next k' q st hn =>
      split at h
      next hj =>
        obtain ⟨rfl, rfl⟩ := Prod.mk.inj (Option.some.inj h)
        obtain ⟨r, c, l, hr, hk, hc, hst⟩ := newestFrame_iff.1 hn
        obtain ⟨⟨h1, h2, h3⟩, h4, h5⟩ := (judged q st).1 hj
        exact ⟨st, ⟨r, c, q, l, hr, hk, hc, hst, h1, h2, h3, h4, h5⟩, rfl⟩
      next => cases h
  · rintro ⟨st, ⟨r, c, q, l, hr, hk, hc, hst, h1, h2, h3, h4, h5⟩, rfl⟩
    rw [usable, newestFrame_of_ring hr hk hc hst]
    exact if_pos ((judged q st).2 ⟨⟨h1, h2, h3⟩, h4, h5⟩)

theorem State.usable_isSome_iff : (s.usable n).isSome = true ↔ ∃ j st, UsableFrame s n j st := by
  rw [Option.isSome_iff_exists]
  constructor
  · rintro ⟨⟨k, a⟩, h⟩
    obtain ⟨st, hu, -⟩ := usable_iff.1 h
    exact ⟨k, st, hu⟩
  · rintro ⟨j, st, hu⟩
    exact ⟨_, usable_iff.2 ⟨st, hu, rfl⟩⟩

theorem State.usable_eq_none (h : ∀ j st, ¬ UsableFrame s n j st) : s.usable n = none := by
  refine Option.not_isSome_iff_eq_none.1 fun hs => ?_
  obtain ⟨j, st, hu⟩ := usable_isSome_iff.1 hs
  exact h j st hu

/-! ### The mask and the skew (R55, R56) -/

theorem bitMask_getLsbD (p : Fin 4 → Bool) (n : Fin 4) :
    (BitVec.ofNat 4 ((List.finRange 4).map fun n : Fin 4 => if p n then 2 ^ n.val else 0).sum).getLsbD n = p n := by
  have all : List.finRange 4 = [0, 1, 2, 3] := by decide
  have bits : ∀ (a b c d : Bool) (n : Fin 4), (BitVec.ofNat 4 ((if a then 2 ^ 0 else 0) + ((if b then 2 ^ 1 else 0)
      + ((if c then 2 ^ 2 else 0) + ((if d then 2 ^ 3 else 0) + 0))))).getLsbD n = #v[a, b, c, d][n] := by decide
  rw [all]
  refine (bits (p 0) (p 1) (p 2) (p 3) n).trans ?_
  match n with
  | 0 => rfl
  | 1 => rfl
  | 2 => rfl
  | 3 => rfl

theorem State.usableMask_iff : s.usableMask.getLsbD n = true ↔ ∃ j st, UsableFrame s n j st := by
  rw [usableMask, bitMask_getLsbD fun n => (s.usable n).isSome, usable_isSome_iff]

theorem State.mem_pinAges {x : Nat} : x ∈ s.pinAges ↔ ∃ n j st, UsableFrame s n j st ∧ x = (s.tbu.now - st).toNat := by
  rw [pinAges, List.mem_filterMap]
  constructor
  · rintro ⟨n, -, h⟩
    obtain ⟨⟨k, a⟩, hu, rfl⟩ := Option.map_eq_some_iff.1 h
    obtain ⟨st, hf, ha⟩ := usable_iff.1 hu
    exact ⟨n, k, st, hf, ha⟩
  · rintro ⟨n, j, st, hf, rfl⟩
    exact ⟨n, List.mem_finRange n, Option.map_eq_some_iff.2 ⟨_, usable_iff.2 ⟨st, hf, rfl⟩, rfl⟩⟩

end

theorem foldl_max_spec (a : Nat) (l : List Nat) : l.foldl max a ∈ a :: l ∧ ∀ x ∈ a :: l, x ≤ l.foldl max a := by
  induction l generalizing a with
  | nil => simp
  | cons b l ih =>
    obtain ⟨hm, hle⟩ := ih (max a b)
    simp only [List.foldl_cons, List.mem_cons, forall_eq_or_imp] at hm hle ⊢
    obtain ⟨hab, hl⟩ := hle
    refine ⟨?_, by omega, by omega, hl⟩
    obtain h | h := hm
    · rw [h]
      omega
    · exact .inr (.inr h)

theorem foldl_min_spec (a : Nat) (l : List Nat) : l.foldl min a ∈ a :: l ∧ ∀ x ∈ a :: l, l.foldl min a ≤ x := by
  induction l generalizing a with
  | nil => simp
  | cons b l ih =>
    obtain ⟨hm, hle⟩ := ih (min a b)
    simp only [List.foldl_cons, List.mem_cons, forall_eq_or_imp] at hm hle ⊢
    obtain ⟨hab, hl⟩ := hle
    refine ⟨?_, by omega, by omega, hl⟩
    obtain h | h := hm
    · rw [h]
      omega
    · exact .inr (.inr h)

/-- The skew is the distance of the ages farthest apart (R56). -/
theorem State.skew_spec (s : State) : (∀ x ∈ s.pinAges, ∀ y ∈ s.pinAges, x ≤ y + s.skew)
    ∧ (s.skew = 0 ∨ ∃ x ∈ s.pinAges, ∃ y ∈ s.pinAges, x = y + s.skew) := by
  rw [skew]
  cases s.pinAges with
  | nil => simp
  | cons a l =>
    obtain ⟨hmax, hle⟩ := foldl_max_spec a l
    obtain ⟨hmin, hge⟩ := foldl_min_spec a l
    dsimp only
    refine ⟨fun x hx y hy => ?_, .inr ⟨_, hmax, _, hmin, ?_⟩⟩
    · have := hle x hx
      have := hge y hy
      omega
    · have := hle _ hmin
      omega

/-! ### The pins (R34, R55) -/

/-- The state with the camera rings `v`. -/
def State.setRings (s : State) (v : Vector (Option CamRing) 4) : State := { s with fsc := { s.fsc with camRing := v } }

/-- Camera `n`'s ring with the frame of a usable camera pinned. -/
def State.ringPinned (s : State) (n : Fin 4) : Option CamRing :=
  match s.usable n with
  | none => s.fsc.camRing[n]
  | some (k, _) => s.fsc.camRing[n].map fun r => r.modify k fun c => { c with pin := true }

section
variable {s : State} {n : Fin 4}

theorem State.pinCam_eq (v : Vector (Option CamRing) 4) (n : Fin 4) (h : v[n] = s.fsc.camRing[n]) :
    (s.setRings v).pinCam n = s.setRings (v.set n (s.ringPinned n)) := by
  have usable : (s.setRings v).usable n = s.usable n := by
    have newest : (s.setRings v).newestFrame n = s.newestFrame n := by
      have ring : (s.setRings v).fsc.camRing[n] = s.fsc.camRing[n] := h
      simp only [newestFrame, ring]
    rw [State.usable, newest]
    rfl
  have same : s.setRings v = s.setRings (v.set n s.fsc.camRing[n]) :=
    congrArg s.setRings ((Vector.set_getElem_self n.isLt).symm.trans (by rw [← h]; rfl))
  rw [pinCam, usable, ringPinned]
  cases s.usable n with
  | none => exact same
  | some x =>
    obtain ⟨k, a⟩ := x
    have ring : (s.setRings v).fsc.camRing[n] = s.fsc.camRing[n] := h
    cases hr : s.fsc.camRing[n] with
    | none =>
      simp only [modifyCamSlot, ring, hr]
      rw [hr] at same
      exact same
    | some r =>
      simp only [modifyCamSlot, ring, hr]
      rfl

theorem State.pinCams_eq (s : State) :
    (List.finRange 4).foldl State.pinCam s = s.setRings (Vector.ofFn s.ringPinned) :=
  foldl_cams (put := s.setRings) (v₀ := s.fsc.camRing) pinCam_eq

theorem State.ringPinned_idle (h : ∀ j st, ¬ UsableFrame s n j st) : s.ringPinned n = s.fsc.camRing[n] := by
  rw [ringPinned, usable_eq_none h]

theorem State.ringPinned_pinned {j : Nat} {st : Word32} {q : CamRing} (h : UsableFrame s n j st) (hq : s.fsc.camRing[n] = some q) :
    s.ringPinned n = some { q with slots := q.slots.modify j fun x => { x with pin := true } } := by
  rw [ringPinned, usable_iff.2 ⟨st, h, rfl⟩, hq]
  rfl

end

/-! ### The notices (R57, R58) -/

/-- A notice reads the ports and the counter alone. -/
theorem State.notify_cp_congr {s t : State} (hcp : s.cp = t.cp) (hnow : s.tbu.now = t.tbu.now) (k : NoticeKind) (a b : Nat) :
    (s.notify k a b).cp = (t.notify k a b).cp := by
  simp only [notify, notice, hcp, hnow]

/-- What a new mask tells (R58). -/
def State.tellMask (s : State) (m : BitVec 4) : State :=
  if m = s.tbu.lastMask then s else s.notify .camUsability 0 (m.toNat + 16 * s.tbu.lastMask.toNat)

/-- What a new skew tells (R57). -/
def State.tellSkew (s : State) (k : Nat) : State :=
  if s.tbu.skewLimit * 1000 < k ∧ s.tbu.skewOver = false then s.notify .skewOver 0 k
  else if k ≤ s.tbu.skewLimit * 1000 ∧ s.tbu.skewOver = true then s.notify .skewOk 0 k else s

section
variable {s t : State}

theorem State.tellMask_tbu (m : BitVec 4) : (s.tellMask m).tbu = s.tbu := by
  rw [tellMask]
  split <;> rfl

theorem State.tellMask_cp_congr (hcp : s.cp = t.cp) (hnow : s.tbu.now = t.tbu.now) (hm : s.tbu.lastMask = t.tbu.lastMask)
    (m : BitVec 4) : (s.tellMask m).cp = (t.tellMask m).cp := by
  rw [tellMask, tellMask, hm]
  split
  · exact hcp
  · exact notify_cp_congr hcp hnow _ _ _

theorem State.tellSkew_cp_congr (hcp : s.cp = t.cp) (hnow : s.tbu.now = t.tbu.now)
    (hlimit : s.tbu.skewLimit = t.tbu.skewLimit) (hover : s.tbu.skewOver = t.tbu.skewOver) (k : Nat) :
    (s.tellSkew k).cp = (t.tellSkew k).cp := by
  rw [tellSkew, tellSkew, hlimit, hover]
  split
  · exact notify_cp_congr hcp hnow _ _ _
  · split
    · exact notify_cp_congr hcp hnow _ _ _
    · exact hcp

theorem State.judgeMask_eq (s : State) (m : BitVec 4) :
    s.judgeMask m = { s with tbu := { s.tbu with lastMask := m }, cp := (s.tellMask m).cp } := by
  rw [judgeMask, tellMask]
  split <;> rfl

theorem State.judgeSkew_eq (s : State) (k : Nat) : s.judgeSkew k = { s with
    tbu := { s.tbu with skewOver := decide (s.tbu.skewLimit * 1000 < k), lastSkew := .ofNat 32 k }
    cp := (s.tellSkew k).cp } := by
  rw [judgeSkew, tellSkew]
  by_cases hk : s.tbu.skewLimit * 1000 < k
  · cases s.tbu.skewOver <;> simp [hk, Nat.not_le.2]
    all_goals rfl
  · cases s.tbu.skewOver <;> simp [hk, Nat.le_of_not_lt]
    all_goals rfl

/-- The state with the pins, the mask and what it tells, before the skew is judged. -/
def State.masked (s : State) : State := { s with
  fsc := { s.fsc with camRing := Vector.ofFn s.ringPinned }
  tbu := { s.tbu with lastMask := s.usableMask }, cp := (s.tellMask s.usableMask).cp }

/-- Frame matching pins the usable cameras' frames, records the mask and the skew, and tells of both (R55 to R58). -/
theorem State.matchFrames_eq (s : State) : s.matchFrames = { s with
    fsc := { s.fsc with camRing := Vector.ofFn s.ringPinned }
    tbu := { s.tbu with
      lastMask := s.usableMask, skewOver := decide (s.tbu.skewLimit * 1000 < s.skew), lastSkew := .ofNat 32 s.skew }
    cp := ((s.tellMask s.usableMask).tellSkew s.skew).cp } := by
  have masked : ((s.setRings (Vector.ofFn s.ringPinned)).judgeMask s.usableMask) = s.masked := by
    rw [judgeMask_eq, tellMask_cp_congr (s := s.setRings (Vector.ofFn s.ringPinned)) (t := s) rfl rfl rfl]
    rfl
  have told : (s.masked.tellSkew s.skew).cp = ((s.tellMask s.usableMask).tellSkew s.skew).cp := by
    have tbu := s.tellMask_tbu s.usableMask
    exact tellSkew_cp_congr (s := s.masked) (t := s.tellMask s.usableMask) rfl
      (by rw [tbu]; rfl) (by rw [tbu]; rfl) (by rw [tbu]; rfl) _
  rw [matchFrames, pinCams_eq, masked, judgeSkew_eq, told]
  rfl

end

/-! ### The sets of a compose (R72, R88, R103) -/

theorem Grid.setInUse_setInUse (f : Bool) (g : Grid) : (g.setInUse f).setInUse f = g.setInUse f := by
  cases g with
  | absent => rfl
  | held sh ph => cases ph <;> rfl

theorem State.markSets_unbound {p : Pane} (h : p.binding = none) (s : State) (f : Bool) (l : List Pane) :
    s.markSets f (p :: l) = s.markSets f l := by
  simp only [markSets, List.foldl_cons, h]

theorem State.markSets_bound {p : Pane} {k : Fin 32} (h : p.binding = some k) (s : State) (f : Bool) (l : List Pane) :
    s.markSets f (p :: l) = (s.setGrid k (s.gs.sets[k].setInUse f)).markSets f l := by
  simp only [markSets, List.foldl_cons, h]

/-- The flags that are put for the panes' sets are those of the sets that the panes name. -/
theorem State.markSets_get (s : State) (f : Bool) (l : List Pane) (i : Fin 32) : (s.markSets f l).gs.sets[i]
    = if l.any fun p => decide (p.binding = some i) then s.gs.sets[i].setInUse f else s.gs.sets[i] := by
  induction l generalizing s with
  | nil => rfl
  | cons p l ih =>
    rw [List.any_cons]
    cases hb : p.binding with
    | none =>
      rw [markSets_unbound hb, ih]
      simp
    | some k =>
      rw [markSets_bound hb, ih, setGrid_sets]
      by_cases hik : i = k
      · subst hik
        simp [Grid.setInUse_setInUse]
      · simp [hik, Ne.symm hik]

theorem State.markSets_frame (s : State) (f : Bool) (l : List Pane) :
    s.markSets f l = { s with gs := { s.gs with sets := (s.markSets f l).gs.sets } } := by
  induction l generalizing s with
  | nil => rfl
  | cons p l ih =>
    cases hb : p.binding with
    | none =>
      rw [markSets_unbound hb]
      exact ih s
    | some k =>
      rw [markSets_bound hb]
      exact ih (s.setGrid k (s.gs.sets[k].setInUse f))

/-- The sets with the flag put for those that the panes name. -/
def State.setsMarked (s : State) (f : Bool) (l : List Pane) : Vector Grid 32 := Vector.ofFn fun i =>
  if l.any fun p => decide (p.binding = some i) then s.gs.sets[i].setInUse f else s.gs.sets[i]

theorem State.markSets_eq (s : State) (f : Bool) (l : List Pane) :
    s.markSets f l = { s with gs := { s.gs with sets := s.setsMarked f l } } := by
  have sets : (s.markSets f l).gs.sets = s.setsMarked f l := Vector.ext fun i hi =>
    (s.markSets_get f l ⟨i, hi⟩).trans (by rw [setsMarked, Vector.getElem_ofFn])
  rw [markSets_frame, sets]

section
variable {s : State} {f : Bool} {l : List Pane} {i : Fin 32}

theorem State.setsMarked_valid {g : GridShape} {b : Nat} {u : Bool} (h : s.gs.sets[i] = .held g (.valid b u)) :
    (s.setsMarked f l)[i] = .held g (.valid b (if l.any fun p => decide (p.binding = some i) then f else u)) := by
  refine (Vector.getElem_ofFn i.isLt).trans ?_
  rw [h]
  split <;> rfl

theorem State.setsMarked_other (h : ∀ g b u, s.gs.sets[i] ≠ .held g (.valid b u)) : (s.setsMarked f l)[i] = s.gs.sets[i] := by
  have same : s.gs.sets[i].setInUse f = s.gs.sets[i] := by
    cases hg : s.gs.sets[i] with
    | absent => rfl
    | held g ph =>
      cases ph with
      | valid b u => exact absurd hg (h g b u)
      | opened => rfl
      | checking => rfl
      | rejected => rfl
  refine (Vector.getElem_ofFn i.isLt).trans ?_
  rw [same, ite_self]

end

end Sys2Proof.Machine
end

