-- ==== Sys2Proof/Proofs/ComposeStarts.lean ====
section
/-! A compose start in IDLE (R86 to R89): the decision, the three skips, and the compose that begins. -/

namespace Sys2Proof.Machine

open Host (Outcome)

/-! ### The decision (R148 to R150) -/

section
variable {s : State}

theorem Claim.rank_lt_two_iff {e : Claim} : e.rank < 2 ↔ e.source = .portD := by
  rw [rank]
  cases e.source <;> simp [Source.rank]

theorem State.gateMutes_iff : s.gateMutes = true
    ↔ s.ca.gate.toNat < s.si.effSpeed ∧ ∀ e, s.ca.stack.head? = some e → e.source = .portD := by
  rw [gateMutes, Bool.and_eq_true, decide_eq_true_eq]
  refine and_congr_right fun _ => ?_
  cases s.ca.stack.head? with
  | none => simp
  | some e => simp only [Option.some.injEq, forall_eq', decide_eq_true_eq, Claim.rank_lt_two_iff]

theorem State.decision_eq {mute : Bool} {view : Option (Fin 16)}
    (hmute : mute = true ↔ s.ca.gate.toNat < s.si.effSpeed ∧ ∀ e, s.ca.stack.head? = some e → e.source = .portD)
    (hview : view = (match s.ca.stack with | [] => s.vc.dflt | e :: _ => some e.view)) :
    s.decision = if mute then { view := none, mute := true } else { view := view, mute := false } := by
  have gate : s.gateMutes = mute := Bool.eq_iff_iff.2 (gateMutes_iff.trans hmute.symm)
  rw [decision, gate, hview]
  cases s.ca.stack with
  | nil => rfl
  | cons e l => rfl

/-- The state after a decision. -/
theorem State.takeDecision_eq (s : State) : s.takeDecision = { s with
    ca := { s.ca with decision := s.decision, speedAt := s.si.effSpeed }
    cp := (if s.decision = s.ca.decision then s
      else s.notify .viewChanged (viewCode s.decision.view)
        (bit s.decision.mute + 256 * viewCode s.ca.decision.view + 65536 * bit s.ca.decision.mute)).cp } := by
  simp only [takeDecision]
  split <;> rfl

theorem viewCode_eq_getD (v : Option (Fin 16)) : viewCode v = (v.map Fin.val).getD 255 := by
  cases v <;> rfl

/-- The state after the timebase's part and the decision `d`, with the ports as `u` has them. -/
def State.decided (s : State) (d : Decision) (u : State) : State := { s with
  tbu := { s.tbu with
    running := s.tbu.period, timer := s.tbu.now + BitVec.ofNat 32 s.tbu.period, cams := s.timingsAfter }
  ca := { s.ca with decision := d, speedAt := s.si.effSpeed }
  cp := u.cp }

theorem State.takeDecision_tick {d : Decision} {u : State} (hd : s.decision = d)
    (hu : u = (if d = s.ca.decision then s
      else s.notify .viewChanged ((d.view.map Fin.val).getD 255)
        ((if d.mute then 1 else 0) + 256 * (s.ca.decision.view.map Fin.val).getD 255
          + (if s.ca.decision.mute then 65536 else 0)))) :
    s.tickTimebase.takeDecision = s.decided d u := by
  have same : s.tickTimebase.decision = d := by
    rw [tickTimebase_eq]
    exact hd
  rw [takeDecision_eq, same, hu, ← viewCode_eq_getD, ← viewCode_eq_getD, ite_eq_mul_bit, ite_eq_mul_bit, Nat.one_mul,
    tickTimebase_eq, decided]
  by_cases h : d = s.ca.decision
  · simp only [h, if_true]
  · simp only [h, if_false]
    rfl

end

/-! ### What follows the decision (R86 to R88) -/

/-- What a start in IDLE leaves after the decision. -/
structure StartKeeps (s t : State) : Prop where
  ca : t.ca = s.ca
  dram : t.dram = s.dram
  ciu : t.ciu = s.ciu
  si : t.si = s.si
  ou : t.ou = s.ou
  su : t.su = s.su
  bu : t.bu = s.bu
  vc : t.vc = s.vc
  gen : t.cp.gen = s.cp.gen
  pending : t.pending = s.pending
  areas : t.fsc.areas = s.fsc.areas
  mem : t.gs.mem = s.gs.mem
  free : t.gs.free = s.gs.free
  now : t.tbu.now = s.tbu.now
  timer : t.tbu.timer = s.tbu.timer
  running : t.tbu.running = s.tbu.running
  period : t.tbu.period = s.tbu.period
  stale : t.tbu.stale = s.tbu.stale
  skewLimit : t.tbu.skewLimit = s.tbu.skewLimit
  mask : t.tbu.mask = s.tbu.mask
  cams : t.tbu.cams = s.tbu.cams

section
variable {s : State}

theorem StartKeeps.count (s : State) (f : ComposeCounts → ComposeCounts) : StartKeeps s (s.countCompose f) := by
  constructor <;> rfl

theorem StartKeeps.blocked (s : State) : StartKeeps s s.blocked := by
  constructor <;> rfl

/-- A compose that begins (R88): the matched frames are pinned, its slot is COMPOSING, its sets are in use. -/
theorem State.beginCompose_eq (s : State) (r : OutRing) (v : Fin 16) (k : Nat) : s.beginCompose r v k = { s with
    fsc := { s.fsc with
      camRing := Vector.ofFn s.ringPinned
      outRing := some (r.modify k fun x => { x with st := .composing s.tbu.now s.usableMask }) }
    tbu := { s.tbu with
      lastMask := s.usableMask, skewOver := decide (s.tbu.skewLimit * 1000 < s.skew), lastSkew := .ofNat 32 s.skew }
    gs := { s.gs with sets := s.setsMarked true (s.panes v) }
    cp := ((s.tellMask s.usableMask).tellSkew s.skew).cp
    ce := { s.ce with
      current := some {
        target := k, start := s.tbu.now, mask := s.usableMask, skew := .ofNat 32 s.skew, snap := s.snapshot v
        stats := zeroStats, replacedBytes := [] } } } := by
  rw [beginCompose, matchFrames_eq, markSets_eq]
  rfl

theorem State.tellMask_gen (m : BitVec 4) : (s.tellMask m).cp.gen = s.cp.gen ∧ (s.tellMask m).cp.faults = s.cp.faults := by
  rw [tellMask]
  split <;> exact ⟨rfl, rfl⟩

theorem State.tellSkew_gen (k : Nat) : (s.tellSkew k).cp.gen = s.cp.gen ∧ (s.tellSkew k).cp.faults = s.cp.faults := by
  rw [tellSkew]
  split
  · exact ⟨rfl, rfl⟩
  · split <;> exact ⟨rfl, rfl⟩

theorem StartKeeps.begins (s : State) (r : OutRing) (v : Fin 16) (k : Nat) : StartKeeps s (s.beginCompose r v k) := by
  rw [State.beginCompose_eq]
  have gen : ((s.tellMask s.usableMask).tellSkew s.skew).cp.gen = s.cp.gen :=
    (State.tellSkew_gen s.skew).1.trans (State.tellMask_gen s.usableMask).1
  constructor
  case gen => exact gen
  all_goals rfl

theorem StartKeeps.seeks (s : State) (v : Fin 16) : StartKeeps s (s.seekTarget v) := by
  rw [State.seekTarget]
  split
  · exact .blocked s
  · split
    · exact .blocked s
    · exact .begins s _ v _

theorem StartKeeps.starts (s : State) : StartKeeps s.takeDecision s.startIdle := by
  simp only [State.startIdle]
  split
  · exact .count _ _
  · split
    · exact .count _ _
    · exact .seeks _ _

theorem State.startIdle_muted (h : s.takeDecision.ca.decision.mute = true) :
    s.startIdle = s.takeDecision.countCompose fun k => { k with mutedSkip := bump k.mutedSkip } := if_pos h

theorem State.startIdle_noView (hm : s.takeDecision.ca.decision.mute = false) (hv : s.takeDecision.ca.decision.view = none) :
    s.startIdle = s.takeDecision.countCompose fun k => { k with noView := bump k.noView } := by
  refine (if_neg (ne_true_of_eq_false hm)).trans ?_
  rw [hv]

theorem State.startIdle_seeks {v : Fin 16} (hm : s.takeDecision.ca.decision.mute = false)
    (hv : s.takeDecision.ca.decision.view = some v) : s.startIdle = s.takeDecision.seekTarget v := by
  refine (if_neg (ne_true_of_eq_false hm)).trans ?_
  rw [hv]

theorem State.seekTarget_blocked {v : Fin 16} (h : ∀ r, s.fsc.outRing = some r → r.composeTarget s.su.held = none) :
    s.seekTarget v = s.blocked := by
  rw [seekTarget]
  cases hr : s.fsc.outRing with
  | none => rfl
  | some r => simp only [h r hr]

theorem State.seekTarget_begins {v : Fin 16} {r : OutRing} {k : Nat} (hr : s.fsc.outRing = some r)
    (hk : r.composeTarget s.su.held = some k) : s.seekTarget v = s.beginCompose r v k := by
  rw [seekTarget, hr]
  simp only [hk]

end

/-! ### What the matching of a start finds (R51 to R58) -/

theorem State.skew_usable (s : State) :
    (∀ (n m : Fin 4) (i j : Nat) (st st' : Word32), UsableFrame s n i st → UsableFrame s m j st' →
        (s.tbu.now - st).toNat ≤ (s.tbu.now - st').toNat + s.skew)
      ∧ (s.skew = 0 ∨ ∃ (n m : Fin 4) (i j : Nat) (st st' : Word32), UsableFrame s n i st ∧ UsableFrame s m j st'
        ∧ (s.tbu.now - st).toNat = (s.tbu.now - st').toNat + s.skew) := by
  obtain ⟨bound, attained⟩ := s.skew_spec
  refine ⟨fun n m i j st st' h h' => bound _ (mem_pinAges.2 ⟨n, i, st, h, rfl⟩) _ (mem_pinAges.2 ⟨m, j, st', h', rfl⟩),
    attained.imp_right ?_⟩
  rintro ⟨x, hx, y, hy, hxy⟩
  obtain ⟨n, i, st, h, rfl⟩ := mem_pinAges.1 hx
  obtain ⟨m, j, st', h', rfl⟩ := mem_pinAges.1 hy
  exact ⟨n, m, i, j, st, st', h, h', hxy⟩

section
variable {s u : State} {d : Decision}

/-- The check for old frames at the same expiry makes no usable frame stale: a frame that it finds is stale by its age. -/
theorem UsableFrame.decided (s u : State) (d : Decision) : UsableFrame (s.decided d u) = UsableFrame s := by
  funext n k st
  have kept {r : CamRing} {c : CamSlot} {q : Word32} {l : Count} (hr : s.fsc.camRing[n] = some r)
      (hk : r.newestReady = some k) (hc : r.slots[k]? = some c) (hst : c.st = .ready q st l)
      (hage : (s.tbu.now - st).toNat < 2 ^ 31) : (s.decided d u).tbu.cams[n].expired = s.tbu.cams[n].expired := by
    obtain ⟨-, -, -, expired⟩ := s.timingsAfter_get n
    exact expired.trans
      ((State.expiredAfter_of_newest (State.newestFrame_of_ring hr hk hc hst)).trans (if_neg (Nat.not_le.2 hage)))
  refine propext ⟨fun ⟨r, c, q, l, hr, hk, hc, hst, hage, hstale, hexp, hdoor, hmask⟩ =>
      ⟨r, c, q, l, hr, hk, hc, hst, hage, hstale, ?_, hdoor, hmask⟩,
    fun ⟨r, c, q, l, hr, hk, hc, hst, hage, hstale, hexp, hdoor, hmask⟩ =>
      ⟨r, c, q, l, hr, hk, hc, hst, hage, hstale, ?_, hdoor, hmask⟩⟩
  · exact fun h => hexp ((kept hr hk hc hst hage).trans h)
  · exact fun h => hexp ((kept hr hk hc hst hage).symm.trans h)

/-- The notices of the matching, as the ports have them after the decision's own. -/
theorem State.matched_cp {w x : State} {m : BitVec 4} {k : Nat} (hu : u.tbu = s.tbu)
    (hw : w = (if m = s.tbu.lastMask then u else u.notify .camUsability 0 (m.toNat + 16 * s.tbu.lastMask.toNat)))
    (hx : x = (if s.tbu.skewLimit * 1000 < k ∧ s.tbu.skewOver = false then w.notify .skewOver 0 k
      else if k ≤ s.tbu.skewLimit * 1000 ∧ s.tbu.skewOver = true then w.notify .skewOk 0 k else w)) :
    (((s.decided d u).tellMask m).tellSkew k).cp = x.cp := by
  obtain rfl : u.tellMask m = w := by rw [hw, tellMask, hu]
  have wtbu : (u.tellMask m).tbu = s.tbu := (u.tellMask_tbu m).trans hu
  obtain rfl : (u.tellMask m).tellSkew k = x := by rw [hx, tellSkew, wtbu]
  have dtbu := (s.decided d u).tellMask_tbu m
  have told : ((s.decided d u).tellMask m).cp = (u.tellMask m).cp :=
    tellMask_cp_congr (s := s.decided d u) (t := u) rfl (by rw [hu]; rfl) (by rw [hu]; rfl) m
  exact tellSkew_cp_congr (s := (s.decided d u).tellMask m) (t := u.tellMask m) told
    (by rw [dtbu, wtbu]; rfl) (by rw [dtbu, wtbu]; rfl) (by rw [dtbu, wtbu]; rfl) k

end

theorem ite_true_eq_or (a b : Bool) : (if a then true else b) = (b || a) := by
  cases a <;> simp

/-- Settles O50: the timebase's part and the decision, then each of the four things that may follow. -/
theorem composeStartDecides : Obligations.ComposeStartDecides := by
  intro s mute view decision u hdue hidle hmute hview hdecision hu
  have utbu : u.tbu = s.tbu := by
    rw [hu]
    split <;> rfl
  have ugen : u.cp.gen = s.cp.gen ∧ u.cp.faults = s.cp.faults := by
    rw [hu]
    split <;> exact ⟨rfl, rfl⟩
  have decided := State.takeDecision_tick ((State.decision_eq hmute hview).trans hdecision.symm) hu
  have started : exec .composeStart s = .next s.tickTimebase.startIdle := by
    refine congrArg Outcome.next ((State.composeStart_due hdue).trans ?_)
    have idle : s.tickTimebase.ce.current = none := by rw [State.tickTimebase_eq]; exact hidle
    rw [State.startCompose, idle]
  have keeps : StartKeeps (s.decided decision u) s.tickTimebase.startIdle := decided ▸ StartKeeps.starts s.tickTimebase
  have muted (h : decision.mute = true) := State.startIdle_muted (s := s.tickTimebase) (by rw [decided]; exact h)
  have noView (hm : decision.mute = false) (hv : decision.view = none) :=
    State.startIdle_noView (s := s.tickTimebase) (by rw [decided]; exact hm) (by rw [decided]; exact hv)
  have seeks (v : Fin 16) (hm : decision.mute = false) (hv : decision.view = some v) :=
    State.startIdle_seeks (s := s.tickTimebase) (by rw [decided]; exact hm) (by rw [decided]; exact hv)
  rw [decided] at muted noView seeks
  have shown (h : mute = false) : decision = { view := view, mute := false } := by rw [hdecision, h]; rfl
  refine ⟨_, started, keeps.ca, keeps.dram, keeps.ciu, keeps.si, keeps.ou, keeps.su, keeps.bu, keeps.vc,
    keeps.gen.trans ugen.1, keeps.pending, keeps.areas, keeps.mem, keeps.free,
    ⟨keeps.now, keeps.timer, keeps.running, keeps.period, keeps.stale, keeps.skewLimit, keeps.mask⟩, fun n => ?cams,
    fun h => ?muted, fun hm hv => ?noView, fun hm hv hr => ?blocked, fun v r k hm hv hr hk => ?begins⟩
  case cams =>
    rw [keeps.cams]
    obtain ⟨pulse, capture, interval, expired⟩ := s.timingsAfter_get n
    exact ⟨pulse, capture, interval,
      fun r k c q st l hr hk hc hst => expired.trans (State.expiredAfter_of_newest (State.newestFrame_of_ring hr hk hc hst)),
      fun h => expired.trans (State.expiredAfter_of_none (State.newestFrame_eq_none h))⟩
  case muted =>
    rw [muted (by rw [hdecision, h]; rfl)]
    exact ⟨rfl, rfl, rfl, rfl, rfl⟩
  case noView =>
    rw [noView (by rw [shown hm]) (by rw [shown hm, hv])]
    exact ⟨rfl, rfl, rfl, rfl, rfl⟩
  case blocked =>
    obtain ⟨v, hv⟩ := Option.isSome_iff_exists.1 hv
    rw [seeks v (by rw [shown hm]) (by rw [shown hm, hv]), State.seekTarget_blocked (s := s.decided decision u) hr]
    refine ⟨rfl, rfl, rfl, rfl, ?_⟩
    rw [← ugen.2]
    rfl
  case begins =>
    rw [seeks v (by rw [shown hm]) (by rw [shown hm, hv]),
      State.seekTarget_begins (s := s.decided decision u) hr hk, State.beginCompose_eq]
    have usable := UsableFrame.decided s u decision
    obtain ⟨bound, attained⟩ := (s.decided decision u).skew_usable
    rw [usable] at bound attained
    refine ⟨fun n => ?mask, fun n hn => ?spared, fun n j st q hf hq => ?pinned,
      ⟨(s.decided decision u).skew, rfl, rfl, bound, attained, fun w x hw hx => State.matched_cp utbu hw hx⟩,
      fun i g b f hi => ?valid, fun i hi => State.setsMarked_other (s := s.decided decision u) hi,
      ⟨_, rfl, rfl, rfl, rfl, rfl, rfl, rfl, rfl, rfl, rfl, rfl, rfl, rfl, fun z => ?stats, rfl⟩, ?faults, rfl⟩
    case mask => exact (State.usableMask_iff (s := s.decided decision u)).trans (by rw [usable])
    case spared =>
      exact (Vector.getElem_ofFn n.isLt).trans (State.ringPinned_idle (s := s.decided decision u) (by rw [usable]; exact hn))
    case pinned =>
      exact (Vector.getElem_ofFn n.isLt).trans
        (State.ringPinned_pinned (s := s.decided decision u) (st := st) (by rw [usable]; exact hf) hq)
    case valid =>
      exact (State.setsMarked_valid (s := s.decided decision u) hi).trans
        (congrArg (fun x => Grid.held g (.valid b x)) (ite_true_eq_or _ f))
    case stats => exact Vector.getElem_replicate z.isLt
    case faults => exact ((State.tellSkew_gen _).2.trans (State.tellMask_gen _).2).trans ugen.2

end Sys2Proof.Machine
end

