-- ==== Sys2Proof/Proofs/OverlayDrawing.lean ====
section
/-! What the overlay unit draws at a pane pixel (07 sections 7.3, 7.4, 7.6). -/

namespace Sys2Proof.Machine

/-! ### Rounding (00, Conventions) -/

theorem roundHalfUp_even (n h : Nat) : roundHalfUp n (2 * h) = (n + h) / (2 * h) := by
  rw [roundHalfUp, ← Nat.mul_add 2 n h, Nat.mul_div_mul_left _ _ Nat.two_pos]

theorem toPixels_eq (mm sigma : Nat) : toPixels mm sigma = (mm * sigma + 500) / 1000 := roundHalfUp_even _ 500

/-- A quotient rounded half away from zero is the model's. -/
theorem isRoundedAway_iff {n : Int} {d : Nat} {q : Int} : IsRoundedAway n d q ↔ q = roundHalfAway n d := by
  have half : d / (2 * d) = 0 := Nat.div_eq_zero_iff.2 (by omega)
  rw [IsRoundedAway, roundHalfAway, roundHalfUp]
  obtain h | rfl | h := lt_trichotomy n 0
  · rw [Int.sign_eq_neg_one_of_neg h, neg_one_mul]
    exact ⟨fun hq => hq.2 h, fun hq => ⟨fun h0 => absurd h (not_lt.2 h0), fun _ => hq⟩⟩
  · simp [half]
  · rw [Int.sign_eq_one_of_pos h, one_mul]
    exact ⟨fun hq => hq.1 h.le, fun hq => ⟨fun _ => hq, fun hn => absurd hn (not_lt.2 h.le)⟩⟩

/-! ### Combining (R124) -/

theorem mixSample_toNat {alpha : Nat} (h : alpha ≤ 16) (ov px : Byte) :
    (mixSample alpha ov px).toNat = (alpha * ov.toNat + (16 - alpha) * px.toNat + 8) / 16 := by
  have bound : alpha * ov.toNat + (16 - alpha) * px.toNat ≤ 16 * 255 := calc
    _ ≤ alpha * 255 + (16 - alpha) * 255 :=
      Nat.add_le_add (Nat.mul_le_mul_left _ (by omega)) (Nat.mul_le_mul_left _ (by omega))
    _ = 16 * 255 := by rw [← Nat.add_mul, Nat.add_sub_cancel' h]
  rw [mixSample, BitVec.toNat_ofNat, roundHalfUp_even _ 8]
  exact Nat.mod_eq_of_lt (by omega)

theorem overlayMixes : OverlayMixes := fun q e h =>
  ⟨mixSample_toNat h e.y q.y, mixSample_toNat h e.u q.u, mixSample_toNat h e.v q.v⟩

theorem OverlaySetup.entry_of_fin (o : OverlaySetup) (i : Fin 16) : o.entry i = o.palette[i] := by
  simp [entry, Vector.getD]

/-! ### The silhouette (R125) -/

theorem silhouettePixel_inside {o : OverlaySetup} {place : Int × Int} {px py : Int} {c r : Nat} (hx : px = place.1 + c)
    (hy : py = place.2 + r) (hc : c < o.silW) (hr : r < o.silH) : silhouettePixel o place px py = some (r * o.silW + c) := by
  have col : px - place.1 = c := by omega
  have row : py - place.2 = r := by omega
  simp only [silhouettePixel, col, row]
  exact if_pos ⟨Int.natCast_nonneg c, by omega, Int.natCast_nonneg r, by omega⟩

theorem silhouettePixel_outside {o : OverlaySetup} {place : Int × Int} {px py : Int}
    (h : ∀ c r : Nat, px = place.1 + c → py = place.2 + r → o.silW ≤ c ∨ o.silH ≤ r) :
    silhouettePixel o place px py = none := by
  refine if_neg fun ⟨hc, hw, hr, hh⟩ => ?_
  have := h (px - place.1).toNat (py - place.2).toNat (by omega) (by omega)
  omega

theorem silhouetteIs : SilhouetteIs := by
  refine fun o place read px py => ⟨rfl, fun h => ?_, fun c r p k hx hy hc hr hp hk => ?_⟩
  · simp only [silhouetteLayer, silhouettePixel_outside h]
  · have index : packedIndex (read p) p = k := hk.symm
    simp only [silhouetteLayer, silhouettePixel_inside hx hy hc hr, ← hp, index]
    exact if_congr Fin.val_eq_zero_iff rfl (congrArg (fun e => [e]) (o.entry_of_fin ⟨k, by omega⟩))

/-! ### Guide lines and distance marks (R126 to R130) -/

section
variable {c : Snapshot} {t : TopPane} {dy : Nat} {py : Int}

theorem guidesCalled_iff : (t.guides && guideOn c.overlay.guide.cond c.gear) = true ↔ GuidesCalled c t := by
  rw [Bool.and_eq_true, GuidesCalled]
  refine and_congr_right fun _ => ?_
  cases c.overlay.guide.cond <;> simp [guideOn]

theorem guideRow_of_drawn (hy : py = t.y0 + dy) (h : GuideRowDrawn c t dy) :
    guideRow c.overlay.guide t.sigma c.steerUnknown t.y0 py = some dy := by
  obtain ⟨hstart, hstop, hdash⟩ := h
  have at_dy : guideRow.dy t.y0 py = dy := by
    rw [guideRow.dy]
    omega
  rw [guideRow, at_dy, toPixels_eq, toPixels_eq, if_neg (by omega), if_neg (by omega), if_neg]
  rw [Bool.and_eq_true, dashed, decide_eq_true_eq]
  rintro ⟨hu, hd⟩
  have := hdash hu
  omega

theorem guideRow_of_undrawn (h : ∀ dy : Nat, py = t.y0 + dy → ¬ GuideRowDrawn c t dy) :
    guideRow c.overlay.guide t.sigma c.steerUnknown t.y0 py = none := by
  rw [guideRow, toPixels_eq, toPixels_eq]
  split
  · rfl
  · next hpy =>
    split
    · rfl
    · next hrange =>
      split
      · rfl
      · next hdash =>
        refine absurd ⟨by omega, by omega, fun hu => ?_⟩ (h (guideRow.dy t.y0 py) (by rw [guideRow.dy]; omega))
        rw [hu, Bool.true_and, dashed, decide_eq_true_eq] at hdash
        omega

theorem guideLayer_quiet (h : ¬ GuidesCalled c t ∨ (∀ dy : Nat, py = t.y0 + dy → ¬ GuideRowDrawn c t dy)) (px : Int) :
    guideLayer c t px py = [] := by
  by_cases hc : GuidesCalled c t
  · rw [guideLayer, if_pos (guidesCalled_iff.2 hc), guideRow_of_undrawn (h.resolve_left (not_not.2 hc))]
  · exact if_neg fun h => hc (guidesCalled_iff.1 h)

theorem guideLayer_drawn (hc : GuidesCalled c t) (hy : py = t.y0 + dy) (h : GuideRowDrawn c t dy) (px : Int) :
    guideLayer c t px py
      = ((guideEntry c.overlay.guide t.sigma t.x0 (curvature c.overlay.curve c.steer c.steerUnknown) dy px).map
          c.overlay.entry).toList := by
  rw [guideLayer, if_pos (guidesCalled_iff.2 hc), guideRow_of_drawn hy h]
  dsimp only
  split
  next he => rw [he]; rfl
  next e he => rw [he]; rfl

end

/-- The curvature between two points of the table (R127). -/
theorem curvature_of_is {curve : Vector Int 33} {steer kappa : Int} {unknown : Bool} (h : CurvatureIs curve steer kappa unknown) :
    kappa = curvature curve steer unknown := by
  obtain ⟨hunknown, hknown⟩ := h
  cases hu : unknown with
  | true => exact hunknown hu
  | false =>
    have a : (curvature.a steer : Int) = max (-8000) (min steer 8000) + 8000 := by
      rw [curvature.a, clampInt_eq_max_min (by decide)]
      omega
    obtain ⟨last, inner⟩ := hknown (curvature.a steer) hu a
    rw [curvature, curvature.k, curvature.r]
    by_cases hk : curvature.a steer = 16000
    · rw [hk, last hk]
      simp [Vector.getD]
    · have below : curvature.a steer / 500 < 32 := by omega
      obtain ⟨q, hq, rfl⟩ := inner ⟨curvature.a steer / 500, below⟩ rfl
      have next : curvature.a steer / 500 + 1 < 33 := by omega
      rw [isRoundedAway_iff.1 hq]
      simp [Vector.getD, below.ne, next, Nat.lt_succ_of_lt below]

theorem markRow_iff {g : Guide} {sigma dy : Nat} (hthick : 1 ≤ g.thick) : markRow g sigma dy = true
    ↔ ∃ m ∈ g.marks, (m * sigma + 500) / 1000 ≤ dy ∧ dy < (m * sigma + 500) / 1000 + g.thick := by
  simp only [markRow, List.any_eq_true, decide_eq_true_eq, toPixels_eq]
  refine exists_congr fun m => and_congr_right fun _ => and_congr_right fun _ => ?_
  omega

theorem lineCovers_iff {thick : Nat} {x px : Int} : lineCovers thick x px = true
    ↔ x - (thick / 2 : Nat) ≤ px ∧ px < x - (thick / 2 : Nat) + thick := by
  rw [lineCovers, decide_eq_true_eq]
  omega

section
variable {g : Guide} {sigma dy : Nat} {x0 kappa shift half px : Int}

theorem guideEntry_columns (hshift : IsRoundedAway (kappa * dy * dy) (131072 * sigma) shift)
    (hhalf : half = ((g.halfTrack * sigma + 500) / 1000 : Nat)) :
    guideEntry.xL g sigma x0 kappa dy = x0 - half + shift ∧ guideEntry.xR g sigma x0 kappa dy = x0 + half + shift := by
  have lateral : lateralShift kappa dy sigma = shift := by
    rw [isRoundedAway_iff.1 hshift, lateralShift, Nat.cast_mul, mul_assoc]
  rw [guideEntry.xL, guideEntry.xR, lateral, toPixels_eq, hhalf]
  exact ⟨rfl, rfl⟩

/-- A mark row has entry 7 between the two lines; elsewhere a line has its band's entry (R128, R129). -/
theorem guideEntry_eq {xL xR : Int} {mark line : Prop} (hL : guideEntry.xL g sigma x0 kappa dy = xL)
    (hR : guideEntry.xR g sigma x0 kappa dy = xR) (hmark : markRow g sigma dy = true ↔ mark)
    (hline : (lineCovers g.thick xL px || lineCovers g.thick xR px) = true ↔ line) :
    (mark ∧ xL ≤ px ∧ px ≤ xR → guideEntry g sigma x0 kappa dy px = some 7)
      ∧ (¬ (mark ∧ xL ≤ px ∧ px ≤ xR) → line → guideEntry g sigma x0 kappa dy px = some (bandEntry g sigma dy))
      ∧ (¬ (mark ∧ xL ≤ px ∧ px ≤ xR) → ¬ line → guideEntry g sigma x0 kappa dy px = none) := by
  rw [← hmark, ← hline, guideEntry, hL, hR]
  exact ⟨fun h => if_pos h, fun h hl => (if_neg h).trans (if_pos hl), fun h hl => (if_neg h).trans (if_neg hl)⟩

end

theorem guidesAre : GuidesAre := by
  refine fun c t px py => ⟨fun h => guideLayer_quiet h px,
    fun dy band kappa shift xL xR half mark line hc hy hdrawn hthick hkappa hshift hhalf hxL hxR hmark hline hband => ?_⟩
  obtain ⟨hL, hR⟩ := guideEntry_columns (x0 := t.x0) hshift hhalf
  have lines : (lineCovers c.overlay.guide.thick xL px || lineCovers c.overlay.guide.thick xR px) = true ↔ line := by
    rw [hline, Bool.or_eq_true, lineCovers_iff, lineCovers_iff]
    exact ⟨fun h => h.elim (fun h => ⟨xL, .inl rfl, h⟩) fun h => ⟨xR, .inr rfl, h⟩,
      fun ⟨x, hx, h⟩ => hx.elim (fun e => .inl (e ▸ h)) fun e => .inr (e ▸ h)⟩
  have hbandEntry : bandEntry c.overlay.guide t.sigma dy = band := by
    rw [bandEntry, toPixels_eq, toPixels_eq, hband]
  obtain ⟨hseven, hbanded, hnone⟩ := guideEntry_eq (px := px) (hL.trans hxL.symm) (hR.trans hxR.symm)
    ((markRow_iff hthick).trans hmark.symm) lines
  rw [guideLayer_drawn hc hy hdrawn, ← curvature_of_is hkappa]
  refine ⟨fun hm h1 h2 => ?_, fun hm hl => ?_, fun hm hl => ?_⟩
  · rw [hseven ⟨hm, h1, h2⟩]
    rfl
  · rw [hbanded hm hl, hbandEntry]
    rfl
  · rw [hnone hm hl]
    rfl

/-! ### Markers and the order of the layers (R102, R124, R135) -/

theorem within_iff {half : Nat} {c x : Int} : within half (x - c) = true ↔ c - half ≤ x ∧ x ≤ c + half := by
  rw [within, decide_eq_true_eq]
  omega

theorem nearEdge_iff {half : Nat} {c x : Int} : nearEdge half (x - c) = true ↔ x < c - half + 3 ∨ c + half - 3 < x := by
  rw [nearEdge, decide_eq_true_eq]
  omega

/-- A marker covers what lies in its rectangle, a box only the rectangle's edge (R135). -/
theorem markerCovers_iff_rectangle {t : TopPane} {m : Marker} {px py cx cy : Int} {hw hl : Nat}
    (hcx : cx = t.x0 + roundHalfAway (m.x * t.sigma) 1000) (hcy : cy = t.y0 + roundHalfAway (m.y * t.sigma) 1000)
    (hhw : hw = (m.width * t.sigma + 1000) / 2000) (hhl : hl = (m.length * t.sigma + 1000) / 2000) :
    markerCovers t m px py = true ↔ cx - hw ≤ px ∧ px ≤ cx + hw ∧ cy - hl ≤ py ∧ py ≤ cy + hl
      ∧ (m.shape = .box → px < cx - hw + 3 ∨ cx + hw - 3 < px ∨ py < cy - hl + 3 ∨ cy + hl - 3 < py) := by
  have width : markerCovers.hw t m = hw := (roundHalfUp_even _ 1000).trans hhw.symm
  have length : markerCovers.hl t m = hl := (roundHalfUp_even _ 1000).trans hhl.symm
  have edge : (match m.shape with | .bar => true | .box => nearEdge hw (px - cx) || nearEdge hl (py - cy)) = true
      ↔ (m.shape = .box → px < cx - hw + 3 ∨ cx + hw - 3 < px ∨ py < cy - hl + 3 ∨ cy + hl - 3 < py) := by
    cases m.shape with
    | bar => simp
    | box => simp [nearEdge_iff, or_assoc]
  rw [markerCovers, width, length, markerCovers.dx, markerCovers.dy, ← hcx, ← hcy, Bool.and_eq_true, Bool.and_eq_true,
    within_iff, within_iff, and_assoc, and_assoc, and_assoc]
  exact and_congr_right fun _ => and_congr_right fun _ => and_congr_right fun _ => and_congr_right fun _ => edge

theorem markerCovers_iff (t : TopPane) (m : Marker) (px py : Int) : markerCovers t m px py = true ↔ MarkerOn t m px py := by
  constructor
  · intro h
    exact ⟨_, _, _, _, isRoundedAway_iff.2 (add_sub_cancel_left _ _), isRoundedAway_iff.2 (add_sub_cancel_left _ _), rfl, rfl,
      (markerCovers_iff_rectangle rfl rfl rfl rfl).1 h⟩
  · rintro ⟨cx, cy, hw, hl, hcx, hcy, hhw, hhl, hon⟩
    have centreX := isRoundedAway_iff.1 hcx
    have centreY := isRoundedAway_iff.1 hcy
    exact (markerCovers_iff_rectangle (by omega) (by omega) hhw hhl).2 hon

theorem layersAreOrdered : LayersAreOrdered := fun c t _ px py =>
  ⟨c.overlay.entry_of_fin, fun m => markerCovers_iff t m px py, rfl⟩

end Sys2Proof.Machine
end

