-- ==== Sys2Proof/Proofs/PicturePixels.lean ====
section
/-! The picture of a compose, pixel by pixel (05 sections 5.4 to 5.7): how a frame packs its pixels, which pane a pixel falls on,
what its block gives, and what the pixels add to the statistics. -/

namespace Sys2Proof.Machine

/-! ### The bytes of a frame (R41, R99) -/

theorem framePacks : FramePacks := by
  intro px k y hk _
  have row (j : Nat) (hj : j < 4) : packByte.y (2560 * y + 4 * k + j) = y := by
    rw [packByte.y]
    omega
  have pair (j : Nat) (hj : j < 4) : packByte.pair (2560 * y + 4 * k + j) = k := by
    rw [packByte.pair]
    omega
  have phase (j : Nat) (hj : j < 4) : (2560 * y + 4 * k + j) % 4 = j := by omega
  have byte (j : Nat) (hj : j < 4) : packByte px (2560 * y + 4 * k + j)
      = #v[(px (2 * k) y).y, (px (2 * k) y).u, (px (2 * k + 1) y).y, (px (2 * k) y).v][j] := by
    rw [packByte, row j hj, pair j hj, phase j hj]
    match j, hj with
    | 0, _ => rfl
    | 1, _ => rfl
    | 2, _ => rfl
    | 3, _ => rfl
  exact ⟨byte 0 (by decide), byte 1 (by decide), byte 2 (by decide), byte 3 (by decide)⟩

theorem picturePacks (e : PassInput) : PicturePacks e := ⟨framePacks, framePacks e.pixel⟩

/-! ### The pane of a pixel (R91) -/

theorem Pane.covers_iff {p : Pane} {x y : Nat} : p.covers x y = true ↔ p.on x y := by
  rw [covers, decide_eq_true_eq, on]

theorem PassInput.fill_eq (e : PassInput) (i : Fin 16) : e.fill i = e.colour i := by
  rw [fill, OverlaySetup.entry_of_fin, colourOf, colour]

section
variable {e : PassInput} {x y : Nat}

theorem PassInput.boundPane_of_outside (h : ∀ p ∈ e.compose.snap.panes, ¬ p.on x y) : e.boundPane x y = none := by
  have none_covers : (e.compose.snap.panes.find? fun p => p.covers x y) = none :=
    List.find?_eq_none.2 fun p hp hc => h p hp (Pane.covers_iff.1 hc)
  rw [boundPane, none_covers]

theorem PassInput.boundPane_of_first {l₁ l₂ : List Pane} {p : Pane} (hl : e.compose.snap.panes = l₁ ++ p :: l₂) (hp : p.on x y)
    (hfirst : ∀ q ∈ l₁, ¬ q.on x y) : e.boundPane x y = (p.binding.bind e.shape).map fun g => (p, g) := by
  have found : (e.compose.snap.panes.find? fun p => p.covers x y) = some p := by
    rw [hl]
    refine List.find?_eq_some_iff_append.2 ⟨Pane.covers_iff.2 hp, l₁, l₂, rfl, fun q hq => ?_⟩
    rw [Bool.not_eq_true']
    exact Bool.eq_false_of_not_eq_true fun hc => hfirst q hq (Pane.covers_iff.1 hc)
  rw [boundPane, found]

theorem PassInput.boundPane_bound {l₁ l₂ : List Pane} {p : Pane} {i : Fin 32} {g : GridShape}
    (hl : e.compose.snap.panes = l₁ ++ p :: l₂) (hp : p.on x y) (hfirst : ∀ q ∈ l₁, ¬ q.on x y) (hb : p.binding = some i)
    (hg : e.shape i = some g) : e.boundPane x y = some (p, g) := by
  rw [boundPane_of_first hl hp hfirst, hb, Option.bind_some, hg, Option.map_some]

theorem PassInput.boundPane_unbound {l₁ l₂ : List Pane} {p : Pane} (hl : e.compose.snap.panes = l₁ ++ p :: l₂) (hp : p.on x y)
    (hfirst : ∀ q ∈ l₁, ¬ q.on x y) (hb : p.binding = none) : e.boundPane x y = none := by
  rw [boundPane_of_first hl hp hfirst, hb]
  rfl

/-- Beside the bound panes there is the background, with nothing over it (R91). -/
theorem PassInput.pixel_background (h : e.boundPane x y = none) : e.pixel x y = e.colour 14 ∧ e.adds x y = none
    ∧ ∀ n, e.pixelAfter n x y = e.pixel x y := by
  have layers : e.layers x y = [] := by rw [PassInput.layers, h]
  have base : e.base x y = e.colour 14 := by
    rw [PassInput.base, h]
    exact e.fill_eq 14
  rw [pixel, layers, base]
  refine ⟨rfl, by rw [adds, h], fun n => ?_⟩
  rw [pixelAfter, layers, base, List.take_nil]

variable {p : Pane} {g : GridShape}

theorem PassInput.layers_of_side (h : e.boundPane x y = some (p, g)) (ht : p.top = none) : e.layers x y = [] := by
  rw [layers, h]
  simp only [ht]

theorem PassInput.layers_of_top (h : e.boundPane x y = some (p, g)) {t : TopPane} (ht : p.top = some t) :
    e.layers x y = overlayEntries e.compose.snap t (e.bitmap x y) ((x : Int) - p.x) ((y : Int) - p.y) := by
  rw [layers, h]
  simp only [ht]

theorem PassInput.base_of_bound (h : e.boundPane x y = some (p, g)) : e.base x y = (e.panePixel p g x y).1 := by
  rw [base, h]

/-- A SIDE pane has no overlays and adds nothing (R101, R102). -/
theorem PassInput.pixel_side (h : e.boundPane x y = some (p, g)) (ht : p.top = none) :
    e.pixel x y = (e.panePixel p g x y).1 ∧ e.adds x y = none ∧ ∀ n, e.pixelAfter n x y = e.pixel x y := by
  rw [pixel, layers_of_side h ht, base_of_bound h]
  refine ⟨rfl, ?_, fun n => ?_⟩
  · rw [adds, h]
    simp [ht]
  · rw [pixelAfter, layers_of_side h ht, base_of_bound h, List.take_nil]

/-- A TOP pane receives its overlays and adds its pixels (R101, R102). -/
theorem PassInput.pixel_top (h : e.boundPane x y = some (p, g)) {t : TopPane} (ht : p.top = some t) :
    e.pixel x y = (overlayEntries e.compose.snap t (e.bitmap x y) ((x : Int) - p.x) ((y : Int) - p.y)).foldl mixPixel
        (e.panePixel p g x y).1
      ∧ e.adds x y = (e.panePixel p g x y).2 := by
  rw [pixel, layers_of_top h ht, base_of_bound h, adds, h]
  simp [ht]

theorem PassInput.pixelAfter_top (h : e.boundPane x y = some (p, g)) {t : TopPane} (ht : p.top = some t) (n : Nat) :
    e.pixelAfter n x y
      = ((overlayEntries e.compose.snap t (e.bitmap x y) ((x : Int) - p.x) ((y : Int) - p.y)).take n).foldl mixPixel
        (e.panePixel p g x y).1 := by
  rw [pixelAfter, layers_of_top h ht, base_of_bound h]

end

theorem pictureCases (e : PassInput) : PictureCases e := by
  refine fun x y => ⟨fun h => ?_, fun l₁ l₂ p hl hp hfirst => ⟨fun hb => ?_,
    fun n g bx byy i j r hb hg hbx hbyy hi hj hr => ?_⟩⟩
  · obtain ⟨pixel, adds, -⟩ := PassInput.pixel_background (PassInput.boundPane_of_outside h)
    exact ⟨pixel, adds⟩
  · obtain ⟨pixel, adds, -⟩ := PassInput.pixel_background (PassInput.boundPane_unbound hl hp hfirst hb)
    exact ⟨pixel, adds⟩
  · subst hbx hbyy hi hj hr
    have bound := PassInput.boundPane_bound hl hp hfirst hb hg
    refine ⟨fun ht => ?_, fun t ht => PassInput.pixel_top bound ht⟩
    obtain ⟨pixel, adds, -⟩ := PassInput.pixel_side bound ht
    exact ⟨pixel, adds⟩

theorem pictureStages (e : PassInput) : PictureStages e := by
  refine fun x y n => ⟨fun h => ?_, fun l₁ l₂ p hl hp hfirst => ⟨fun h => ?_, fun i g bx byy t hb hg hbx hbyy ht => ?_⟩⟩
  · exact (PassInput.pixel_background (PassInput.boundPane_of_outside h)).2.2 n
  · cases hs : p.binding.bind e.shape with
    | none =>
      have unbound : e.boundPane x y = none := by rw [PassInput.boundPane_of_first hl hp hfirst, hs]; rfl
      exact (PassInput.pixel_background unbound).2.2 n
    | some g =>
      have bound : e.boundPane x y = some (p, g) := by rw [PassInput.boundPane_of_first hl hp hfirst, hs]; rfl
      obtain hb | ht := h
      · rw [hb] at hs
        cases hs
      · exact (PassInput.pixel_side bound ht).2.2 n
  · subst hbx hbyy
    exact PassInput.pixelAfter_top (PassInput.boundPane_bound hl hp hfirst hb hg) ht n

/-! ### The bitmap's bytes (R40, R125) -/

theorem Compose.mem_former {c : Compose} {a : Nat} {b : Byte} : b ∈ c.former a ↔ (a, b) ∈ c.replacedBytes := by
  simp [former]

/-- The byte read is the one in DRAM or a former one. -/
theorem PassInput.bitmap_mem (e : PassInput) (x y p : Nat) :
    e.bitmap x y p ∈ e.dram.read (e.overlayByte + p / 4) :: e.compose.former (e.overlayByte + p / 4) := by
  rw [bitmap]
  split
  next h => simp [h]
  next l h =>
    rw [List.getD_eq_getElem _ _ (by rw [List.length_cons]; exact Nat.mod_lt _ (Nat.succ_pos _))]
    exact List.getElem_mem _

theorem bitmapIs (e : PassInput) : BitmapIs e := by
  rintro x y p a rfl
  have member := List.mem_cons.1 (e.bitmap_mem x y p)
  refine ⟨fun h => ?_, member.imp_right Compose.mem_former.1⟩
  exact member.resolve_right fun hf => h _ (Compose.mem_former.1 hf) rfl

end Sys2Proof.Machine
end

