-- ==== Sys2Proof/Proofs/PictureBlocks.lean ====
section
/-! The pixel of a block by its plan, the samples of a camera, and the statistics (R92 to R101). -/

namespace Sys2Proof.Machine

/-! ### The plan of a block (R92, R98 to R101) -/

section
variable {e : PassInput} {g : GridShape} {r : BlockRec} {bx byy i j x y : Nat}

theorem PassInput.hatch_eq (e : PassInput) (x y : Nat) :
    e.hatch x y = if (x + y) / 8 % 2 = 0 then e.colour 11 else e.colour 12 :=
  if_congr Iff.rfl (e.fill_eq 11) (e.fill_eq 12)

theorem PassInput.planPixel_none (h : r.p = 255) : e.planPixel g r bx byy i j x y = (e.colour 13, none) :=
  (if_pos h).trans (congrArg (·, none) (e.fill_eq 13))

theorem PassInput.planPixel_hatched (hp : r.p ≠ 255) (hc : e.cam r.p = none) (hs : ∀ c, r.s = some c → e.cam c = none) :
    e.planPixel g r bx byy i j x y = (e.hatch x y, none) := by
  refine (if_neg hp).trans ?_
  rw [hc]
  cases h : r.s with
  | none => rfl
  | some c => simp only [hs c h]

theorem PassInput.planPixel_primary {f : CamFrame} (hp : r.p ≠ 255) (hc : e.cam r.p = some f)
    (hs : ∀ c, r.s = some c → e.cam c = none) :
    e.planPixel g r bx byy i j x y = ((e.sample g bx byy i j r.p f).single, none) := by
  refine (if_neg hp).trans ?_
  rw [hc]
  cases h : r.s with
  | none => rfl
  | some c => simp only [hs c h]

theorem PassInput.planPixel_secondary {f : CamFrame} {c : Nat} (hp : r.p ≠ 255) (hs : r.s = some c) (hc : e.cam c = some f)
    (hpc : e.cam r.p = none) : e.planPixel g r bx byy i j x y = ((e.sample g bx byy i j c f).single, none) := by
  refine (if_neg hp).trans ?_
  rw [hpc, hs]
  simp only [hc]

theorem PassInput.planPixel_both {f f' : CamFrame} {c : Nat} (hp : r.p ≠ 255) (hs : r.s = some c) (hpc : e.cam r.p = some f)
    (hc : e.cam c = some f') : e.planPixel g r bx byy i j x y
      = (blendPixel (r.weight i j) (e.sample g bx byy i j r.p f) (e.sample g bx byy i j c f'),
        some (zoneAdd r.p c (e.sample g bx byy i j r.p f) (e.sample g bx byy i j c f'))) := by
  refine (if_neg hp).trans ?_
  rw [hpc, hs]
  simp only [hc]

end

theorem bilinear_eq (i j a b c d : Nat) : bilinear i j a b c d
    = ((16 - i) * (16 - j) * a + i * (16 - j) * b + (16 - i) * j * c + i * j * d + 128) / 256 := roundHalfUp_even _ 128

/-- The zone of P and S, and which of them is its first camera (R100). -/
theorem zoneAdd_first (z : Fin 4) (a b : CamSample) :
    zoneAdd z.val (z + 1 : Fin 4).val a b = { zone := z, a := a.raw, b := b.raw } := by
  have zone : ∀ z : Fin 4, zoneOf z.val (z + 1 : Fin 4).val = (z, true) := by decide
  rw [zoneAdd, zone]

theorem zoneAdd_second (z : Fin 4) (a b : CamSample) :
    zoneAdd (z + 1 : Fin 4).val z.val a b = { zone := z, a := b.raw, b := a.raw } := by
  have zone : ∀ z : Fin 4, zoneOf (z + 1 : Fin 4).val z.val = (z, false) := by decide
  rw [zoneAdd, zone]

theorem blendSample_eq (w p s : Nat) : blendSample w p s = .ofNat 8 ((w * p + (256 - w) * s + 128) / 256) :=
  congrArg (BitVec.ofNat 8) (roundHalfUp_even _ 128)

theorem picturePlans (e : PassInput) : PicturePlans e := by
  rintro g r bx byy i j x y hatch hi hj rfl
  refine ⟨PassInput.planPixel_none, fun hp hc hs => ?_, fun c f a hp hc ha h => ?_,
    fun c f f' a b w hp hs hpc hc ha hb hw => ?_⟩
  · rw [PassInput.planPixel_hatched hp hc hs, PassInput.hatch_eq]
  · subst ha
    obtain ⟨rfl, hs⟩ | ⟨hs, hpc⟩ := h
    · exact PassInput.planPixel_primary hp hc hs
    · exact PassInput.planPixel_secondary hp hs hc hpc
  · have weight : r.weight i j = w := (bilinear_eq _ _ _ _ _ _).trans hw.symm
    rw [PassInput.planPixel_both hp hs hpc hc, weight, ← ha, ← hb]
    refine ⟨?_, fun z => ⟨fun h1 h2 => ?_, fun h1 h2 => ?_⟩⟩
    · rw [blendPixel, blendSample_eq, blendSample_eq, blendSample_eq]
    · rw [h1, h2, zoneAdd_first]
    · rw [h1, h2, zoneAdd_second]

/-! ### The samples of a camera (R93, R95 to R97) -/

theorem sampleCoord_eq {m : Memory} {g : GridShape} {bx byy i j c : Nat} {n00 n10 n01 n11 : NodeEntry}
    (h00 : (m.node g bx byy).entry c = some n00) (h10 : (m.node g (bx + 1) byy).entry c = some n10)
    (h01 : (m.node g bx (byy + 1)).entry c = some n01) (h11 : (m.node g (bx + 1) (byy + 1)).entry c = some n11)
    (f : NodeEntry → Nat) : sampleCoord m g bx byy i j c f
      = ((16 - i) * (16 - j) * f n00 + i * (16 - j) * f n10 + (16 - i) * j * f n01 + i * j * f n11 + 128) / 256 := by
  rw [sampleCoord, bilinear_eq, NodeRec.coord, NodeRec.coord, NodeRec.coord, NodeRec.coord, h00, h10, h01, h11]
  rfl

theorem CamFrame.rawLuma_eq (f : CamFrame) (m : Memory) (u v : Nat) {p : Nat → Nat → Nat}
    (hp : ∀ dx dy, p dx dy = f.luma m (u / 16 + dx) (v / 16 + dy)) : f.rawLuma m u v
      = ((16 - u % 16) * (16 - v % 16) * p 0 0 + u % 16 * (16 - v % 16) * p 1 0 + (16 - u % 16) * (v % 16) * p 0 1
          + u % 16 * (v % 16) * p 1 1 + 128) / 256 := by
  rw [hp, hp, hp, hp]
  exact roundHalfUp_even _ 128

theorem gained_eq (y g : Nat) : gained y g = min 255 ((y * g + 128) / 256) := congrArg (min 255) (roundHalfUp_even _ 128)

theorem pictureSamples (e : PassInput) : PictureSamples e := by
  intro g bx byy i j c f n00 n10 n01 n11 u v fx fy raw p hi hj h00 h10 h01 h11 hu hv hp hfx hfy hraw
  have coordU : PassInput.sample.u e g bx byy i j c = u := (sampleCoord_eq h00 h10 h01 h11 NodeEntry.u).trans hu.symm
  have coordV : PassInput.sample.v e g bx byy i j c = v := (sampleCoord_eq h00 h10 h01 h11 NodeEntry.v).trans hv.symm
  have luma : PassInput.sample.raw e g bx byy i j c f = raw := by
    rw [PassInput.sample.raw, coordU, coordV, CamFrame.rawLuma_eq f e.dram u v (p := p) fun dx dy => hp dx dy, hraw, hfx, hfy]
  have gain : e.compose.snap.gains.getD c 256 = e.compose.snap.gains[c] := by simp [Vector.getD]
  rw [PassInput.sample, luma, coordU, coordV, gain, gained_eq]
  rfl

/-! ### The statistics (R101) -/

theorem addZone_get (t : Vector ZoneStats 4) (a : ZoneAdd) (z : Fin 4) : (addZone t (some a))[z]
    = if a.zone = z then { sa := t[z].sa + a.a, sb := t[z].sb + a.b, n := t[z].n + 1 } else t[z] := by
  refine (Vector.getElem_set_fin ..).trans ?_
  by_cases h : a.zone = z
  · subst h
    rw [if_pos rfl]
  · rw [if_neg h, if_neg (Ne.symm h)]

theorem foldl_addZone {α : Type} (f : α → Option ZoneAdd) (l : List α) (t : Vector ZoneStats 4) (z : Fin 4) :
    ∀ adds : List ZoneAdd, adds = (l.filterMap f).filter (fun a => decide (a.zone = z)) →
      (l.foldl (fun t x => addZone t (f x)) t)[z]
        = { sa := t[z].sa + (adds.map ZoneAdd.a).sum, sb := t[z].sb + (adds.map ZoneAdd.b).sum, n := t[z].n + adds.length } := by
  rintro _ rfl
  induction l generalizing t with
  | nil => rfl
  | cons x l ih =>
    rw [List.foldl_cons, ih]
    cases hx : f x with
    | none => rw [List.filterMap_cons_none hx]; rfl
    | some a =>
      rw [List.filterMap_cons_some hx, addZone_get]
      by_cases hz : a.zone = z
      · rw [if_pos hz, List.filter_cons_of_pos (p := fun a : ZoneAdd => decide (a.zone = z)) (decide_eq_true hz)]
        simp only [List.map_cons, List.sum_cons, List.length_cons, Nat.add_assoc, Nat.add_comm 1]
      · rw [if_neg hz, List.filter_cons_of_neg (p := fun a : ZoneAdd => decide (a.zone = z)) (by simpa using hz)]

theorem pictureSums (e : PassInput) : PictureSums e := by
  intro z l hl
  have sums := foldl_addZone (fun xy : Nat × Nat => e.adds xy.1 xy.2) framePixels e.compose.stats z l hl
  rw [PassInput.stats, sums]
  exact ⟨rfl, rfl, rfl⟩

theorem pictureRules (e : PassInput) : PictureRules e :=
  ⟨picturePacks e, pictureCases e, pictureStages e, bitmapIs e, picturePlans e, pictureSamples e, pictureSums e, overlayMixes,
    guidesAre, silhouetteIs, layersAreOrdered⟩

end Sys2Proof.Machine
end

