-- ==== Sys2Proof/Proofs/BalanceUpdates.lean ====
section
/-! The balance update of a completed compose (06 section 6.3). -/

namespace Sys2Proof.Machine

theorem isDesire_desire (x total : Nat) : IsDesire x total (desire x total) :=
  ⟨fun h => if_pos h, fun h => if_neg h.ne'⟩

section
variable {b : Balance} {mask : BitVec 4} {stats : Vector ZoneStats 4}

/-- The desires of a zone before they are kept in 16 bits (R112). -/
def firstDesire (stats : Vector ZoneStats 4) (z : Fin 4) : Nat := desire stats[z].sa (stats[z].sa + stats[z].sb)

def secondDesire (stats : Vector ZoneStats 4) (z : Fin 4) : Nat := desire stats[z].sb (stats[z].sa + stats[z].sb)

theorem Balance.desires_get (b : Balance) (mask : BitVec 4) (stats : Vector ZoneStats 4) (z : Fin 4) :
    (b.desires mask stats)[z] = zoneDesires mask b.nmin z stats[z] := Vector.getElem_ofFn z.isLt

theorem Balance.desires_used {z : Fin 4} (h : ZoneUsed b mask stats z) :
    (b.desires mask stats)[z] = some (firstDesire stats z, secondDesire stats z) := by
  obtain ⟨hfirst, hsecond, hn⟩ := h
  rw [desires_get]
  refine if_pos ?_
  rw [Bool.and_eq_true, Bool.and_eq_true, decide_eq_true_eq]
  exact ⟨⟨hfirst, hsecond⟩, hn⟩

theorem Balance.desires_unused {z : Fin 4} (h : ¬ ZoneUsed b mask stats z) : (b.desires mask stats)[z] = none := by
  rw [desires_get]
  refine if_neg fun hu => h ?_
  rw [Bool.and_eq_true, Bool.and_eq_true, decide_eq_true_eq] at hu
  exact ⟨hu.1.1, hu.1.2, hu.2⟩

/-- A camera's desire is the mean of those of its used zones (R113). -/
theorem Balance.camDesire_spec (b : Balance) (mask : BitVec 4) (stats : Vector ZoneStats 4) (c : Fin 4) :
    (ZoneUsed b mask stats c → ZoneUsed b mask stats (c + 3) → b.camDesire mask stats c
        = some (max 128 (min ((firstDesire stats c + secondDesire stats (c + 3) + 1) / 2) 512)))
      ∧ (ZoneUsed b mask stats c → ¬ ZoneUsed b mask stats (c + 3) →
        b.camDesire mask stats c = some (max 128 (min (firstDesire stats c) 512)))
      ∧ (¬ ZoneUsed b mask stats c → ZoneUsed b mask stats (c + 3) →
        b.camDesire mask stats c = some (max 128 (min (secondDesire stats (c + 3)) 512)))
      ∧ (¬ ZoneUsed b mask stats c → ¬ ZoneUsed b mask stats (c + 3) → b.camDesire mask stats c = none) := by
  have second : b.camDesire mask stats c = cameraDesire (b.desires mask stats)[c] (b.desires mask stats)[c + 3] := rfl
  rw [second]
  refine ⟨fun h h' => ?_, fun h h' => ?_, fun h h' => ?_, fun h h' => ?_⟩
  · rw [desires_used h, desires_used h', cameraDesire, clampNat_eq_max_min (by decide)]
  · rw [desires_used h, desires_unused h', cameraDesire, clampNat_eq_max_min (by decide)]
  · rw [desires_unused h, desires_used h', cameraDesire, clampNat_eq_max_min (by decide)]
  · rw [desires_unused h, desires_unused h', cameraDesire]

/-- The step toward a desire: an eighth at least of a gain's unit, at most the greatest step (R114). -/
theorem gainStep_eq {k smax g d : Nat} {delta step : Int} (hdelta : delta = (d : Int) - g)
    (hstep : step = if (delta * k).tdiv 16 = 0 then delta.sign else (delta * k).tdiv 16) :
    gainStep k smax g d = max (-(smax : Int)) (min step smax) := by
  have same : (if (delta * k).tdiv 16 = 0 ∧ delta ≠ 0 then delta.sign else (delta * k).tdiv 16) = step := by
    rw [hstep]
    by_cases h0 : delta = 0
    · simp [h0]
    · simp [h0]
  rw [gainStep, gainStep.step, gainStep.delta, ← hdelta, same, clampInt_eq_max_min (by omega)]

theorem Balance.camStep_none {c : Fin 4} (h : b.mode = .manual ∨ b.camDesire mask stats c = none) :
    b.camStep mask stats c = none := by
  rw [camStep]
  cases hm : b.mode with
  | manual => rfl
  | auto => rw [h.resolve_left (by simp [hm])]; rfl

theorem Balance.camStep_some {c : Fin 4} {d : Nat} (hm : b.mode = .auto) (hd : b.camDesire mask stats c = some d) :
    b.camStep mask stats c = some (gainStep b.k b.smax b.gains[c] d) := by
  rw [camStep, hm, hd]
  rfl

theorem Balance.update_gain (b : Balance) (seq : Word32) (mask : BitVec 4) (stats : Vector ZoneStats 4) (c : Fin 4) :
    (b.update seq mask stats).gains[c] = ((b.gains[c] : Int) + (b.camStep mask stats c).getD 0).toNat :=
  Vector.getElem_ofFn c.isLt

end

/-- The update is the one that the rules give (R111 to R116). -/
theorem balanceUpdated_update (b : Balance) (seq : Word32) (mask : BitVec 4) (stats : Vector ZoneStats 4) :
    BalanceUpdated b seq mask stats (firstDesire stats) (secondDesire stats) (b.update seq mask stats) := by
  have zone (z : Fin 4) : (Vector.ofFn fun z : Fin 4 => ZoneRecord.mk stats[z] ((b.desires mask stats)[z].map recorded))[z]
      = ZoneRecord.mk stats[z] ((b.desires mask stats)[z].map recorded) := Vector.getElem_ofFn z.isLt
  have cam (c : Fin 4) : (Vector.ofFn fun c : Fin 4 => CamRecord.mk (b.camDesire mask stats c) (b.camStep mask stats c))[c]
      = CamRecord.mk (b.camDesire mask stats c) (b.camStep mask stats c) := Vector.getElem_ofFn c.isLt
  refine ⟨fun z => ⟨isDesire_desire _ _, isDesire_desire _ _⟩, rfl, _, rfl, rfl, rfl, rfl, fun z => ?zones, fun c => ?desires,
    fun c => ?gains⟩
  case zones =>
    rw [zone]
    refine ⟨rfl, fun h => ?_, fun h => ?_⟩
    · rw [Balance.desires_used h]
      rfl
    · rw [Balance.desires_unused h]
      rfl
  case desires =>
    rw [cam]
    exact b.camDesire_spec mask stats c
  case gains =>
    rw [cam, Balance.update_gain]
    refine ⟨fun h => ?_, fun d delta step hm hd hdelta hstep => ?_⟩
    · rw [Balance.camStep_none h]
      exact ⟨rfl, by simp⟩
    · rw [Balance.camStep_some hm hd, gainStep_eq hdelta hstep]
      exact ⟨rfl, rfl⟩

end Sys2Proof.Machine
end

