-- ==== Sys2Proof/Proofs/ComposeCompletions.lean ====
section
/-! A compose that completes (R103): its slot, the pins, the sets, the balance unit, the notice, and the picture in DRAM. -/

namespace Sys2Proof.Machine

open Host (Outcome)

/-! ### The records of a completion (R34, R103) -/

/-- The camera rings with no pin left. -/
def State.ringsUnpinned (s : State) : Vector (Option CamRing) 4 :=
  Vector.ofFn fun n => s.fsc.camRing[n].map fun q => { q with slots := q.slots.map fun x => { x with pin := false } }

theorem State.dropPins_eq {s : State} (v : Vector (Option CamRing) 4) (n : Fin 4) (h : v[n] = s.fsc.camRing[n]) :
    (s.setRings v).dropPins n = s.setRings (v.set n
      (s.fsc.camRing[n].map fun q => { q with slots := q.slots.map fun x => { x with pin := false } })) := by
  have ring : (s.setRings v).fsc.camRing[n] = s.fsc.camRing[n] := h
  rw [dropPins, ring]
  rfl

theorem State.dropAllPins_eq (s : State) : (List.finRange 4).foldl State.dropPins s = s.setRings s.ringsUnpinned :=
  foldl_cams (put := s.setRings) (v₀ := s.fsc.camRing) dropPins_eq

theorem State.finishCompose_eq (s : State) (c : Compose) (r : OutRing) (z : Vector ZoneStats 4) : s.finishCompose c r z = { s with
    fsc := { s.fsc with
      camRing := s.ringsUnpinned
      outRing := some { r.modify c.target (fun x => { x with st := .finished (c.outFrame r.next) }) with next := r.next + 1 } }
    gs := { s.gs with sets := s.setsMarked false c.snap.panes }
    bu := s.bu.update r.next c.mask z
    cp := (s.notify .frameDone c.target r.next.toNat).cp
    ce := {
      current := none, overrunNoticed := false
      counts := { s.ce.counts with composed := bump s.ce.counts.composed }, lastSeq := some r.next } } := by
  simp only [finishCompose, dropAllPins_eq, markSets_eq]
  rfl

theorem ite_false_eq_and (a b : Bool) : (if a then false else b) = (b && !a) := by
  cases a <;> simp

/-! ### What the pass reads (R91 to R97, R125) -/

section
variable {s : State} {c : Compose} {n : Fin 4}

theorem State.passInput_shape {i : Fin 32} {g : GridShape} {p : GridPhase} (h : s.gs.sets[i] = .held g p) :
    (s.passInput c).shape i = some g := congrArg Grid.shape? h

theorem State.passInput_overlayByte {o : Fin 8} {b l : Nat} {p : AreaPhase} (ho : c.snap.overlayArea = some o)
    (ha : s.fsc.areas[o] = .range b l p) : (s.passInput c).overlayByte = b * 65536 := by
  have byte : (s.passInput c).overlayByte = (c.snap.overlayArea.map s.fsc.areaByte).getD 0 := rfl
  rw [byte, ho, Option.map_some, Option.getD_some, FrameStore.areaByte, ha]
  rfl

theorem State.passInput_cam (s : State) (c : Compose) (n : Fin 4) : (s.passInput c).cam n = s.pinnedFrame c.mask n := by
  have cam : (s.passInput c).cam n = (index 4 n).bind fun n => s.pinnedFrame c.mask n := rfl
  rw [cam, index_val, Option.bind_some]

theorem State.pinnedFrame_unusable {mask : BitVec 4} (h : mask.getLsbD n = false) : s.pinnedFrame mask n = none :=
  if_neg (ne_true_of_eq_false h)

theorem State.pinnedFrame_pinned {mask : BitVec 4} {q : CamRing} {k : Nat} {x : CamSlot} (h : mask.getLsbD n = true)
    (hq : s.fsc.camRing[n] = some q) (hk : q.slots[k]? = some x) (hx : x.pin = true)
    (hfirst : ∀ j y, j < k → q.slots[j]? = some y → y.pin = false) : s.pinnedFrame mask n
      = some { base := s.camSlotByte n q k, width := s.ciu[n].setup.width, height := s.ciu[n].setup.height } := by
  refine (if_pos h).trans ?_
  rw [hq]
  simp only [findIdx?_eq_some_of_first (p := fun c : CamSlot => c.pin) hk hx hfirst, Option.map_some]

/-! ### The picture in DRAM (R91, R99, R103) -/

theorem State.writeFrame_outside {r : OutRing} {a x : Nat} (ha : a = s.outSlotByte r c.target) (hx : x < a ∨ a + 1843200 ≤ x) :
    (s.writeFrame c r).dram.read x = s.dram.read x := by
  refine (Memory.read_write ..).trans (if_neg ?_)
  rw [← ha]
  exact fun h => hx.elim (Nat.not_lt.2 h.1) (Nat.not_le.2 h.2)

theorem State.writeFrame_inside {r : OutRing} {a k : Nat} (ha : a = s.outSlotByte r c.target) (hk : k < 1843200) :
    (s.writeFrame c r).dram.read (a + k) = (s.passInput c).outByte k := by
  refine (Memory.read_write ..).trans ?_
  rw [← ha, Nat.add_sub_cancel_left]
  exact if_pos ⟨Nat.le_add_right a k, Nat.add_lt_add_left hk a⟩

/-- A view with no panes is background all over. -/
theorem PassInput.outByte_background {e : PassInput} (h : e.compose.snap.panes = []) (k : Nat) : e.outByte k
    = (match k % 4 with
      | 1 => e.compose.snap.overlay.palette[14].u
      | 3 => e.compose.snap.overlay.palette[14].v
      | _ => e.compose.snap.overlay.palette[14].y) := by
  have pixel (x y : Nat) : e.pixel x y = e.colour 14 :=
    (pixel_background (boundPane_of_outside (x := x) (y := y) (by rw [h]; exact fun _ hp => absurd hp List.not_mem_nil))).1
  have four : k % 4 < 4 := Nat.mod_lt k (by decide)
  rw [outByte, packByte, pixel, pixel]
  generalize k % 4 = j at four
  match j, four with
  | 0, _ => rfl
  | 1, _ => rfl
  | 2, _ => rfl
  | 3, _ => rfl

end

theorem exec_composeCompletion {s : State} {c : Compose} {r : OutRing} (hc : s.ce.current = some c)
    (hr : s.fsc.outRing = some r) (hd : s.passInDram c r = true) :
    exec .composeCompletion s = .next ((s.writeFrame c r).finishCompose c r (s.passInput c).stats) := by
  show execComposeCompletion s = _
  simp only [execComposeCompletion, hc, hr, hd, if_true]

/-- Settles O51: the picture by its rules; the completion by its records, DRAM by the frame that is written. -/
theorem composeCompletes : Obligations.ComposeCompletes := by
  refine ⟨pictureRules, fun s c r a hc hr hd ha => ⟨_, exec_composeCompletion hc hr hd, ?_⟩⟩
  rw [State.finishCompose_eq]
  refine ⟨rfl, rfl, rfl, rfl, rfl, fun n => ?pins, rfl, fun x hx => State.writeFrame_outside ha hx,
    fun k hk => State.writeFrame_inside ha hk, fun hp k hk => ?background,
    ⟨rfl, rfl, rfl, fun i g p h => State.passInput_shape h, fun o b l p ho ho' => State.passInput_overlayByte ho ho',
      fun n hn => (s.passInput_cam c n).trans (State.pinnedFrame_unusable hn),
      fun n q k x hn hq hk hx hfirst => (s.passInput_cam c n).trans (State.pinnedFrame_pinned hn hq hk hx hfirst)⟩,
    rfl, ⟨_, _, balanceUpdated_update _ _ _ _⟩, fun i g b f hi => ?valid,
    fun i hi => State.setsMarked_other (s := s.writeFrame c r) hi,
    rfl, rfl, rfl, rfl, rfl, rfl, rfl, rfl, rfl, rfl, rfl, rfl, rfl⟩
  case pins => exact Vector.getElem_ofFn n.isLt
  case background => exact (State.writeFrame_inside ha hk).trans (PassInput.outByte_background hp k)
  case valid =>
    exact (State.setsMarked_valid (s := s.writeFrame c r) hi).trans
      (congrArg (fun x => Grid.held g (.valid b x)) (ite_false_eq_and _ f))

end Sys2Proof.Machine
end
